-- ==== Sys2Proof/Word.lean ====
section
/-!
DEFINITION. The words of the LNS-L32 (R3 to R5): the data sizes of Table 0-2 and the virtual program counter.
-/
namespace Sys2Proof

/-- One byte, 8 bits (Table 0-2). -/
abbrev Byte := BitVec 8
/-- One half, 16 bits (Table 0-2). -/
abbrev Half := BitVec 16
/-- One word, 32 bits: a vector register and an instruction word (R56, R66). -/
abbrev Word := BitVec 32
/-- One double, 64 bits: a pair of registers (R4, R57). -/
abbrev Dword := BitVec 64
/-- A 56-bit program counter (R15). -/
abbrev Pc := BitVec 56
/-- A 7-bit register field of an instruction word (R56). -/
abbrev RegNum := BitVec 7

end Sys2Proof
end

