-- ==== Sys2Proof/Config.lean ====
section
/-!
DEFINITION. What the spec leaves to the implementation: constants that the boot code and the firmware image fix, and the
free values, which have no body, so that nothing can be proved about what they are.
-/
namespace Sys2Proof

/-- Link address of the firmware image (R324). DESIGN CHOICE, log entry 3. -/
def Config.imageBase : Nat := 0x100000000
/-- Table-region offset of the level-4 table that the boot code builds (R324). DESIGN CHOICE, log entry 3. -/
def Config.bootRoot : Nat := 0x00100000

/-- Whether a sideband request or a pod claim carries a valid signature of the named key over its bytes (R429, R437).
A free value: the key material is no part of the spec. Log entry 7. -/
opaque Config.signatureValid : List Byte → List Byte → Bool
/-- The signature that the module's own key makes over its bytes (R431, R437). A free value. Log entry 7. -/
opaque Config.sign : List Byte → List Byte
/-- The module's 64-bit serial (R437). A free value. Log entry 7. -/
opaque Config.serial : Dword
/-- The bytes by which the SPDM responder answers a supported request, beyond the measurements (R431); the body is the
request's. A free value: the message layouts are those of a standard outside the spec. Log entry 7. -/
opaque Config.spdmAnswer : List Byte → List Byte
/-- Whether a NEGOTIATE_ALGORITHMS request offers 4,096-bit RSA and SHA-512, and the measurement blocks that a GET_MEASUREMENTS
request asks for (R431). Free values, for the same reason. Log entry 87. -/
opaque Config.spdmOffers : List Byte → Bool
opaque Config.spdmBlocks : List Byte → List Nat
/-- What a firmware image's header names: its entry, its secondary entry, its trap entry and its signature (R324, R436). Free
values: the header's layout is not in the spec. Log entry 7. -/
opaque Config.imageEntry : List Byte → BitVec 56
opaque Config.imageSecondary : List Byte → BitVec 56
opaque Config.imageTrap : List Byte → Dword
opaque Config.imageSignature : List Byte → List Byte
/-- What the firmware of a leader loads into the follower of a serial (R438): channel table entries (channel, context,
destination), MAP of the plane map, and the polders admitted. Free values: they are the firmware's. Log entry 7. -/
opaque Config.podChannels : Dword → List (Nat × Nat × Nat)
opaque Config.podPlmap : Dword → BitVec 24
opaque Config.podAdmit : Dword → List Nat
/-- The SHA-512 digest of bytes (R431). A free value. Log entry 7. -/
opaque Config.sha512 : List Byte → List Byte
/-- What a read of space k returns when its location was written while a launch reads it (R179): whether the value
kept by the die stands. A free value. Log entry 9. -/
opaque Config.kStale : Nat → Bool
/-- What `rdsys sys.pcidata` delivers where ADDR is not aligned to SIZE and nothing is sent (R426). A free value. Log entry
30. -/
opaque Config.pciUnsent : Nat → Dword
/-- What a register holds after its access was answered with an error (R393, R395): its thread's context is halted. A free
value; arguments: the operation's number and the register's place in its destination. Log entry 36. -/
opaque Config.errorValue : Nat → Nat → Word
/-- The TVAL of the halt that an uncorrectable error in a twin raises (R415), where no address is named. A free value;
argument: the block's storage key. Log entry 36. -/
opaque Config.twinAddress : Nat → Dword
/-- Which entry of a run whose entries differ translates an access (R366): any of them. A free value; arguments: the
virtual address and the number of entries. Log entry 9. -/
opaque Config.runChoice : Nat → Nat → Nat
/-- Whose TARGET stands where several lanes of one `slset` name one counter (R240). A free value; arguments: the place in
program order and the counter's offset. Log entry 77. -/
opaque Config.sluiceChoice : Nat → Nat → Nat
/-- Which of several registers the TVAL of one trap names (Table 23-1): any of them. A free value; arguments: the
instruction's base word and the number of registers. Log entry 13. -/
opaque Config.recordedRegister : Nat → Nat → Nat

end Sys2Proof
end

