-- ==== Sys2Proof/Syntax.lean ====
section
/-!
DEFINITION. The instructions and steps of the LNS-L32: one constructor per row of the opcode table.
An encoded instruction carries the raw fields of its words (R66 to R77), legal or not, because the
checks of Table 3-12 are made when it is executed. A step of the abstract machine or of a device carries the names of
what it acts on.
-/
namespace Sys2Proof

/-- The modifier word, Table 3-9. -/
structure Modifier where
  zero4 : BitVec 4
  sc  : BitVec 2
  x   : BitVec 3
  sat : Bool
  tec : Bool
  teb : Bool
  tea : Bool
  rm  : BitVec 3
  zm  : Bool
  me  : Bool
  m   : RegNum
  c   : RegNum
  deriving DecidableEq, Repr

/-- What follows the base word, by length code (Table 3-6, R71 to R73). -/
inductive Tail where
  /-- L = 0b00: nothing. -/
  | none
  /-- L = 0b01: a modifier word. -/
  | mod (m : Modifier)
  /-- L = 0b10: a modifier word and a 32-bit literal. -/
  | modLit (m : Modifier) (lit : Word)
  /-- L = 0b11: a 64-bit literal. -/
  | lit (l : Dword)
  deriving DecidableEq, Repr

/-- Format RRR of Table 3-8. -/
structure Rrr where
  b : RegNum
  a : RegNum
  d : RegNum
  stroke : Bool
  tail : Tail
  deriving DecidableEq, Repr

/-- Format RRI of Table 3-8. -/
structure Rri where
  imm : BitVec 7
  a : RegNum
  d : RegNum
  stroke : Bool
  tail : Tail
  deriving DecidableEq, Repr

/-- Format RI of Table 3-8. -/
structure Ri where
  imm : BitVec 14
  d : RegNum
  stroke : Bool
  tail : Tail
  deriving DecidableEq, Repr

/-- Format BR of Table 3-8. -/
structure Br where
  off : BitVec 21
  stroke : Bool
  tail : Tail
  deriving DecidableEq, Repr

/-- The entry word, Table 6-2: its own layout, with the words its length code announces (R83). -/
structure EntryFields where
  zero14 : BitVec 14
  budget : RegNum
  stroke : Bool
  tail : Tail
  deriving DecidableEq, Repr

/-- A base word whose major opcode is unassigned (R80), with its raw bits: format bits [31:11], the opcode,
the stroke bit and the words its length code announces. -/
structure RawFields where
  hi21 : BitVec 21
  op : Byte
  stroke : Bool
  tail : Tail
  deriving DecidableEq, Repr

/-- Floating-point element types, R82. -/
inductive FpType where
  | f32 | f64 | h2 | bh2
  deriving DecidableEq, Repr

/-- Packet kinds, Table 13-2. -/
inductive PacketKind where
  | pst | flag | rst | rstFlag | pmc | pld | patom | reply | gap | expiry
  deriving DecidableEq, Repr

/-- A stop of a multicast list (R291): chip, channel, sequence and PREV at that chip. -/
structure PmcStop where
  chip : Nat
  chan : Nat
  seq  : Half
  prev : Half
  deriving DecidableEq, Repr

/-- A pod packet: the header of Table 13-2, the destination physical address, and the data (R272). -/
structure Packet where
  kind : PacketKind
  src : Nat
  dst : Nat
  polder : Nat
  chan : Nat
  seq : Half
  aux : Half
  addr : Nat
  /-- The length that the packet carries: bytes of data, or for a `pld` the bytes that it asks for. -/
  len : Nat
  data : List Byte
  /-- `rst`: the target pair (Table 13-4), and the remote register number (R289). -/
  target : Dword
  reg : Nat
  /-- `patom`: the descriptor of Table 10-2, the expected value and the operand. -/
  desc : RegNum
  expected : Dword
  operand : Dword
  /-- `pmc`: the stops that are still ahead (R291). -/
  stops : List PmcStop
  plane : Nat
  /-- `rst` of a service group or of a control core, which answers an `svc` of its chip (R329). -/
  answer : Bool
  deriving DecidableEq, Repr

/-- Where a group is placed by the scheduler: the choice is not promised (R344). -/
structure Place where
  die : Nat
  core : Nat
  slot : Nat
  deriving DecidableEq, Repr

/-- A storage cell that an uncorrectable error strikes (Table 23-8). -/
inductive ErrorSite where
  /-- A register that the thread reads. -/
  | register (gid gidx reg : Nat)
  /-- A scratchpad offset that the thread reads. -/
  | scratch (gid gidx off : Nat)
  /-- A tile element (row, element index) of a group's tile. -/
  | tileElem (gid tile row col : Nat)
  /-- A bitmap bit of a group's tile. -/
  | tileBit (gid tile row col : Nat)
  /-- A 32-byte sector of memory, by home die and frame offset. -/
  | memory (home off : Nat)
  /-- A twin of a die's inkwell, by the block's storage key. -/
  | twin (die block : Nat)
  deriving DecidableEq, Repr

/-- Why a die is lost (R392). -/
inductive LossCause where
  | ticks | circuits | reset
  deriving DecidableEq, Repr

/-- What a root port receives: a memory request (R427), a peer-to-peer request or an INTx message (R425). -/
inductive PciRequest where
  | write (requester : Nat) (addr : Dword) (data : List Byte)
  | read (requester : Nat) (addr : Dword) (len tag : Nat)
  | peer (requester tag : Nat)
  | intx (requester : Nat)
  deriving DecidableEq, Repr

/-- What a sideband message asks (R429 to R431, R436). The layouts by which a message says it are those of a standard
outside the spec. -/
inductive SidebandKind where
  | reset | getVersion | getCapabilities | negotiateAlgorithms | getDigests | getCertificate | challenge
  | getMeasurements | imageWrite | imageCommit | other
  deriving DecidableEq, Repr

/-- A sideband message: what it asks, its nonce, body and signature (R429). -/
structure SidebandMsg where
  kind : SidebandKind
  nonce : Nat
  body : List Byte
  signature : List Byte
  deriving DecidableEq, Repr

/-- The state a claim carries (R437). -/
inductive ClaimState where
  | claiming | leader | follower
  deriving DecidableEq, Repr

/-- A claim of the pod's election (R437). -/
structure Claim where
  serial : Dword
  state : ClaimState
  signature : List Byte
  deriving DecidableEq, Repr

/-- A channel table entry that a pod configuration carries (R270, R438). -/
structure ChannelConfig where
  chan : Nat
  ctx : Nat
  dest : Nat
  deriving DecidableEq, Repr

/-- A pod configuration that a leader loads into a follower (R438), with the chip indices that it has assigned and the
followers that it has marked complete (R439). -/
structure PodConfig where
  chip : Nat
  channels : List ChannelConfig
  plmap : BitVec 24
  admits : List Nat
  assigned : List (Dword × Nat × Bool)
  deriving DecidableEq, Repr

/-- What a leader and its followers say to each other while it loads them (R438, R439, log entry 80): a configuration; that the
one for an index has been loaded and read back right; and the indices assigned with the followers marked complete. -/
inductive LoadMsg where
  | config (c : PodConfig)
  | verified (chip : Nat)
  | marks (fs : List (Dword × Nat × Bool))
  deriving DecidableEq, Repr

/-- What raises the security alarm (R440). -/
inductive AlarmCause where
  | tamper | supply | signatures | serials
  deriving DecidableEq, Repr

/-- A failed link that is retrained (R435). -/
inductive LinkName where
  | rootPort (k : Nat)
  | podPort (k : Nat)
  | wavelength (entry : Nat)
  deriving DecidableEq, Repr

/-- One constructor per row of the opcode table; each docstring names the row and its rule. A step that acts on
what an input queue of the state holds first carries no argument. -/
inductive Instr where
  /-- ADD, R117. -/
  | add (o : Rrr)
  /-- SUB, R117. -/
  | sub (o : Rrr)
  /-- ADDC, R118. -/
  | addc (o : Rrr)
  /-- SUBB, R118. -/
  | subb (o : Rrr)
  /-- MUL, R117. -/
  | mul (o : Rrr)
  /-- MULH, R119. -/
  | mulh (o : Rrr)
  /-- MULHZ, R119. -/
  | mulhz (o : Rrr)
  /-- MAD, R117. -/
  | mad (o : Rrr)
  /-- DIV, R122. -/
  | div (o : Rrr)
  /-- DIVZ, R122. -/
  | divz (o : Rrr)
  /-- REM, R122. -/
  | rem (o : Rrr)
  /-- REMZ, R122. -/
  | remz (o : Rrr)
  /-- MIN, R121. -/
  | min (o : Rrr)
  /-- MAX, R121. -/
  | max (o : Rrr)
  /-- MINZ, R121. -/
  | minz (o : Rrr)
  /-- MAXZ, R121. -/
  | maxz (o : Rrr)
  /-- ABS, R120. -/
  | abs (o : Rrr)
  /-- NEG, R120. -/
  | neg (o : Rrr)
  /-- AND, R123. -/
  | and (o : Rrr)
  /-- OR, R123. -/
  | or (o : Rrr)
  /-- XOR, R123. -/
  | xor (o : Rrr)
  /-- ANDN, R123. -/
  | andn (o : Rrr)
  /-- NOT, R123. -/
  | not (o : Rrr)
  /-- SEL, R128. -/
  | sel (o : Rrr)
  /-- SHL, R124. -/
  | shl (o : Rrr)
  /-- SHR, R124. -/
  | shr (o : Rrr)
  /-- SAR, R124. -/
  | sar (o : Rrr)
  /-- ROL, R124. -/
  | rol (o : Rrr)
  /-- CLZ, R125. -/
  | clz (o : Rrr)
  /-- CTZ, R125. -/
  | ctz (o : Rrr)
  /-- POPC, R125. -/
  | popc (o : Rrr)
  /-- BREV, R125. -/
  | brev (o : Rrr)
  /-- BFX, R126. -/
  | bfx (o : Rrr)
  /-- BFXZ, R126. -/
  | bfxz (o : Rrr)
  /-- BFI, R126. -/
  | bfi (o : Rrr)
  /-- CMP, R127. -/
  | cmp (o : Rrr)
  /-- CMPZ, R127. -/
  | cmpz (o : Rrr)
  /-- LEA, R131. -/
  | lea (o : Rrr)
  /-- ADD64, R129. -/
  | add64 (o : Rrr)
  /-- SUB64, R129. -/
  | sub64 (o : Rrr)
  /-- MUL64, R129. -/
  | mul64 (o : Rrr)
  /-- SHL64, R130. -/
  | shl64 (o : Rrr)
  /-- SHR64, R130. -/
  | shr64 (o : Rrr)
  /-- ADD2, R132. -/
  | add2 (o : Rrr)
  /-- SUB2, R132. -/
  | sub2 (o : Rrr)
  /-- MIN2, R132. -/
  | min2 (o : Rrr)
  /-- MAX2, R132. -/
  | max2 (o : Rrr)
  /-- CMP2, R132. -/
  | cmp2 (o : Rrr)
  /-- DOT4, R133. -/
  | dot4 (o : Rrr)
  /-- MOV, R134. -/
  | mov (o : Rrr)
  /-- MOVI, R135. -/
  | movi (o : Ri)
  /-- GETSR, R136. -/
  | getsr (o : Ri)
  /-- SETSR, R137. -/
  | setsr (o : Ri)
  /-- SHFL, R139. -/
  | shfl (o : Rrr)
  /-- VOTE, R140. -/
  | vote (o : Rrr)
  /-- ARM, R141. -/
  | arm (o : Rrr)
  /-- ADD_IMM7, R117. -/
  | addImm7 (o : Rri)
  /-- AND_IMM7, R123. -/
  | andImm7 (o : Rri)
  /-- OR_IMM7, R123. -/
  | orImm7 (o : Rri)
  /-- SHL_IMM7, R124. -/
  | shlImm7 (o : Rri)
  /-- SHR_IMM7, R124. -/
  | shrImm7 (o : Rri)
  /-- SAR_IMM7, R124. -/
  | sarImm7 (o : Rri)
  /-- CMP_IMM7, R127. -/
  | cmpImm7 (o : Rri)
  /-- CMPZ_IMM7, R127. -/
  | cmpzImm7 (o : Rri)
  /-- FADD, R163. -/
  | fadd (t : FpType) (o : Rrr)
  /-- FSUB, R163. -/
  | fsub (t : FpType) (o : Rrr)
  /-- FMUL, R163. -/
  | fmul (t : FpType) (o : Rrr)
  /-- FMA, R163. -/
  | fma (t : FpType) (o : Rrr)
  /-- FMIN, R164. -/
  | fmin (t : FpType) (o : Rrr)
  /-- FMAX, R164. -/
  | fmax (t : FpType) (o : Rrr)
  /-- FCMP, R165. -/
  | fcmp (t : FpType) (o : Rrr)
  /-- FCLASS, R166. -/
  | fclass (o : Rrr)
  /-- FRND, R167. -/
  | frnd (o : Rrr)
  /-- FDIV, R168. -/
  | fdiv (o : Rrr)
  /-- FSQRT, R168. -/
  | fsqrt (o : Rrr)
  /-- FRCP, R168. -/
  | frcp (o : Rrr)
  /-- FRSQ, R169. -/
  | frsq (o : Rrr)
  /-- FEX2, R169. -/
  | fex2 (o : Rrr)
  /-- FLG2, R169. -/
  | flg2 (o : Rrr)
  /-- FSIN, R169. -/
  | fsin (o : Rrr)
  /-- FCOS, R169. -/
  | fcos (o : Rrr)
  /-- LDEXP, R170. -/
  | ldexp (o : Rrr)
  /-- FREXP, R171. -/
  | frexp (o : Rrr)
  /-- CVT, R174. -/
  | cvt (o : Rrr)
  /-- BR, R143. -/
  | br (o : Br)
  /-- BRC, R143. -/
  | brc (o : Ri)
  /-- JMP, R143. -/
  | jmp (o : Rrr)
  /-- CALL, R143. -/
  | call (o : Br)
  /-- CALLR, R143. -/
  | callr (o : Rrr)
  /-- RET, R143. -/
  | ret (o : Rrr)
  /-- REFORM, R147. -/
  | reform (o : Rrr)
  /-- EXIT, R148. -/
  | exit (o : Rrr)
  /-- BAR, R150. -/
  | bar (o : Rrr)
  /-- SYNC, R151. -/
  | sync (o : Rrr)
  /-- SVC, R152. -/
  | svc (o : Rrr)
  /-- TRAP, R154. -/
  | trap (o : Rrr)
  /-- NOP, R149. -/
  | nop (o : Rrr)
  /-- YIELD, R149. -/
  | yield (o : Rrr)
  /-- LAUNCH, R155. -/
  | launch (o : Rrr)
  /-- LAUNCH_W, R156. -/
  | launchW (o : Rrr)
  /-- GNAME, R157. -/
  | gname (o : Rrr)
  /-- ENTRY_WORD, R83. -/
  | entryWord (o : EntryFields)
  /-- LD_G_B, R219. -/
  | ldGB (o : Rri)
  /-- LD_G_H, R219. -/
  | ldGH (o : Rri)
  /-- LD_G_W, R219. -/
  | ldGW (o : Rri)
  /-- LD_G_D, R219. -/
  | ldGD (o : Rri)
  /-- LD_G_Q, R219. -/
  | ldGQ (o : Rri)
  /-- LD_L_B, R219. -/
  | ldLB (o : Rri)
  /-- LD_L_H, R219. -/
  | ldLH (o : Rri)
  /-- LD_L_W, R219. -/
  | ldLW (o : Rri)
  /-- LD_L_D, R219. -/
  | ldLD (o : Rri)
  /-- LD_L_Q, R219. -/
  | ldLQ (o : Rri)
  /-- LD_K_B, R219. -/
  | ldKB (o : Rri)
  /-- LD_K_H, R219. -/
  | ldKH (o : Rri)
  /-- LD_K_W, R219. -/
  | ldKW (o : Rri)
  /-- LD_K_D, R219. -/
  | ldKD (o : Rri)
  /-- LD_K_Q, R219. -/
  | ldKQ (o : Rri)
  /-- ST_G_B, R220. -/
  | stGB (o : Rri)
  /-- ST_G_H, R220. -/
  | stGH (o : Rri)
  /-- ST_G_W, R220. -/
  | stGW (o : Rri)
  /-- ST_G_D, R220. -/
  | stGD (o : Rri)
  /-- ST_G_Q, R220. -/
  | stGQ (o : Rri)
  /-- ST_L_B, R220. -/
  | stLB (o : Rri)
  /-- ST_L_H, R220. -/
  | stLH (o : Rri)
  /-- ST_L_W, R220. -/
  | stLW (o : Rri)
  /-- ST_L_D, R220. -/
  | stLD (o : Rri)
  /-- ST_L_Q, R220. -/
  | stLQ (o : Rri)
  /-- LD_ACQ, R223. -/
  | ldAcq (o : Rrr)
  /-- ST_REL, R223. -/
  | stRel (o : Rrr)
  /-- ATOM, R225. -/
  | atom (o : Rrr)
  /-- RED, R226. -/
  | red (o : Rrr)
  /-- FENCE, R228. -/
  | fence (o : Rrr)
  /-- PREF, R229. -/
  | pref (o : Rrr)
  /-- TWFLUSH, R230. -/
  | twflush (o : Rrr)
  /-- CCTL, R231. -/
  | cctl (o : Rrr)
  /-- XFER, R235. -/
  | xfer (o : Rrr)
  /-- XGAT, R235. -/
  | xgat (o : Rrr)
  /-- SLSET, R240. -/
  | slset (o : Rrr)
  /-- SLWAIT, R241. -/
  | slwait (o : Rrr)
  /-- XWAIT, R245. -/
  | xwait (o : Rrr)
  /-- TLD, R256. -/
  | tld (o : Rrr)
  /-- TST, R257. -/
  | tst (o : Rrr)
  /-- TZERO, R258. -/
  | tzero (o : Rrr)
  /-- TMMA, R259. -/
  | tmma (o : Rrr)
  /-- TMMAS, R259. -/
  | tmmas (o : Rrr)
  /-- TSCAL, R262. -/
  | tscal (o : Rrr)
  /-- TRD, R263. -/
  | trd (o : Rrr)
  /-- TWR, R263. -/
  | twr (o : Rrr)
  /-- TCVT, R264. -/
  | tcvt (o : Rrr)
  /-- TTR, R265. -/
  | ttr (o : Rrr)
  /-- PST, R282. -/
  | pst (o : Rrr)
  /-- PLD, R283. -/
  | pld (o : Rrr)
  /-- PATOM, R284. -/
  | patom (o : Rrr)
  /-- PREL, R286. -/
  | prel (o : Rrr)
  /-- PACQ, R287. -/
  | pacq (o : Rrr)
  /-- RST, R289. -/
  | rst (o : Rrr)
  /-- PMC, R291. -/
  | pmc (o : Rrr)
  /-- ERET, R331. -/
  | eret (o : Rrr)
  /-- RDSYS, R332. -/
  | rdsys (o : Rrr)
  /-- WRSYS, R332. -/
  | wrsys (o : Rrr)
  /-- TLBI, R333. -/
  | tlbi (o : Rrr)
  /-- TLBSYNC, R334. -/
  | tlbsync (o : Rrr)
  /-- HALT, R335. -/
  | halt (o : Rrr)
  /-- WFE, R335. -/
  | wfe (o : Rrr)
  /-- SEV, R336. -/
  | sev (o : Rrr)
  /-- DSTEP, R337. -/
  | dstep (o : Rrr)
  /-- CTXSV, R338. -/
  | ctxsv (o : Rrr)
  /-- CTXLD, R338. -/
  | ctxld (o : Rrr)
  /-- KERASE, R339. -/
  | kerase (o : Rrr)
  /-- STROKE_START, R22. -/
  | strokeStart (die core slot : Nat)
  /-- BIN_AGE_FIRE, R33. -/
  | binAgeFire (gid : Nat) (key : Pc)
  /-- PERFORM_STORE, R197. -/
  | performStore (gid gidx index : Nat)
  /-- PERFORM_LOAD, R198. -/
  | performLoad (gid gidx op : Nat)
  /-- FETCH, R197. -/
  | fetch (die block : Nat)
  /-- DROP, R197. -/
  | drop (die block : Nat)
  /-- SEND, R189. -/
  | send (die block : Nat)
  /-- APPLY, R191. -/
  | apply (home : Nat)
  /-- DATA_RETURN, R219. -/
  | dataReturn (gid gidx op : Nat)
  /-- ATOMIC_RETURN, R193. -/
  | atomicReturn (gid gidx op : Nat)
  /-- LAUNCH_STATUS_RETURN, R156. -/
  | launchStatusReturn (gid gidx op : Nat)
  /-- GNAME_COMPLETE, R157. -/
  | gnameComplete (gid gidx op : Nat)
  /-- TILE_COMPLETE, R254. -/
  | tileComplete (die core op : Nat)
  /-- TRANSFER_PACKET, R239. -/
  | transferPacket (die core handle bytes : Nat)
  /-- SLOT_FREE, R148. -/
  | slotFree (gid : Nat)
  /-- SVC_BATCH_PLACE, R329. -/
  | svcBatchPlace (die : Nat)
  /-- LAUNCH_START, R345. -/
  | launchStart (lid : Nat) (places : List Place)
  /-- STREAM_ADMIT, R346. -/
  | streamAdmit (lid : Nat) (places : List Place)
  /-- QUANTUM_END, R349. -/
  | quantumEnd (die core : Nat)
  /-- REPLAY_SLICE, R360. -/
  | replaySlice (die core : Nat)
  /-- LAUNCH_COMPLETE, R358. -/
  | launchComplete (lid : Nat)
  /-- FOLIO_KICK_TAKE, R354. -/
  | folioKickTake (fid : Nat)
  /-- FOLIO_NODE_SUBMIT, R356. -/
  | folioNodeSubmit (fid node : Nat)
  /-- FAULT_RECORD_WRITE, R400. -/
  | faultRecordWrite (die : Nat)
  /-- RESUME, R403. -/
  | resume (die core slot entry : Nat)
  /-- SKIP, R403. -/
  | skip (die core slot entry : Nat)
  /-- KILL, R403. -/
  | kill (die core slot entry : Nat)
  /-- UNPARK, R402. -/
  | unpark (die core slot : Nat)
  /-- GKILL, R402. -/
  | gkill (die core slot : Nat)
  /-- GRESUME, R402. -/
  | gresume (die core slot : Nat)
  /-- XRETRY, R402. -/
  | xretry (die core slot handle : Nat)
  /-- XFAIL, R242. -/
  | xfail (die core slot handle : Nat)
  /-- QDROP, R293. -/
  | qdrop (die : Nat)
  /-- TABLE_REPLICA_WRITE, R371. -/
  | tableReplicaWrite (index : Nat)
  /-- TLB_FILL, R372. -/
  | tlbFill (die ctx level : Nat) (va : Dword)
  /-- TLBI_ACK, R373. -/
  | tlbiAck (die id : Nat)
  /-- CONTEXT_SAVE, R410. -/
  | contextSave (index : Nat)
  /-- CONTEXT_RESTORE, R412. -/
  | contextRestore (index : Nat)
  /-- REPLAY_STOP, R420. -/
  | replayStop (lid : Nat)
  /-- STEP_TAKE, R337. -/
  | stepTake (index : Nat)
  /-- CREDIT_RECEIVE, R269. -/
  | creditReceive (chip chan : Nat) (seq : Half)
  /-- MARKER_SEND, R271. -/
  | markerSend (chan : Nat)
  /-- GAP_REQUEST_SEND, R276. -/
  | gapRequestSend (src chan : Nat)
  /-- RETRANSMIT_TIMER, R276. -/
  | retransmitTimer (chan : Nat) (seq : Half)
  /-- PACKET_AGE_DISCARD, R276. -/
  | packetAgeDiscard (index : Nat)
  /-- REPLAY_BUFFER_EXPIRE, R277. -/
  | replayBufferExpire (chan : Nat) (seq : Half)
  /-- CHANNEL_ALLOCATE, R277. -/
  | channelAllocate (src chan ctx dest : Nat) (nseq : Half)
  /-- POD_REQUEST_RETRY, R285. -/
  | podRequestRetry (tag : Half)
  /-- POD_REQUEST_TIMEOUT, R285. -/
  | podRequestTimeout (tag : Half)
  /-- PACQ_POLL, R287. -/
  | pacqPoll (gid gidx : Nat)
  /-- TRANSIENT_REQUEST_RECEIVE, R386. -/
  | transientRequestReceive (index : Nat)
  /-- TOKEN_RESPONSE_RECEIVE, R386. -/
  | tokenResponseReceive (index : Nat)
  /-- TRANSIENT_RETRY, R386. -/
  | transientRetry (die line : Nat)
  /-- PERSISTENT_ESCALATE, R387. -/
  | persistentEscalate (die line : Nat)
  /-- PERSISTENT_DEACTIVATE, R387. -/
  | persistentDeactivate (die : Nat)
  /-- TOKEN_GIVE_UP, R386. -/
  | tokenGiveUp (die line : Nat)
  /-- DIE_LOSS, R393. -/
  | dieLoss (die : Nat) (why : LossCause)
  /-- WAVELENGTH_FAIL, R383. -/
  | wavelengthFail (entry : Nat)
  /-- DIE_RESET_EXIT, R374. -/
  | dieResetExit (die : Nat)
  /-- UNCORRECTABLE_ERROR, R415. -/
  | uncorrectableError (site : ErrorSite)
  /-- PCI_TIMEOUT, R426. -/
  | pciTimeout (gid op : Nat)
  /-- PCIDATA_WRITE, R426. -/
  | pcidataWrite (gid gidx : Nat) (value : Dword)
  /-- PCIDATA_READ, R426. -/
  | pcidataRead (gid gidx : Nat) (d : RegNum)
  /-- PORT_LINK_DOWN, R428. -/
  | portLinkDown (port : Nat)
  /-- LINK_RETRAIN, R435. -/
  | linkRetrain (link : LinkName)
  /-- PLMAP_WRITE, R433. -/
  | plmapWrite (value : Word)
  /-- PLANE_DEAD, R432. -/
  | planeDead (plane : Nat)
  /-- REGISTER_WRITE, R323. -/
  | registerWrite (gid gidx : Nat) (number : BitVec 14) (value : Dword)
  /-- UNASSIGNED_OPCODE, R80. -/
  | unassignedOpcode (o : RawFields)
  /-- ANCHOR_ADVANCE, R271. -/
  | anchorAdvance (chan : Nat)
  /-- POD_PORT_DOWN, R432. -/
  | podPortDown (port : Nat)
  /-- TICK, R196. -/
  | tick
  /-- POD_PACKET_ARRIVE, R273. -/
  | podPacketArrive
  /-- POD_REPLY, R283. -/
  | podReply
  /-- GAP_REQUEST_RECEIVE, R276. -/
  | gapRequestReceive
  /-- EXPIRY_RECEIVE, R277. -/
  | expiryReceive
  /-- INBOUND_REQUEST, R427. -/
  | inboundRequest
  /-- PCI_COMPLETION, R426. -/
  | pciCompletion
  /-- RETRAIN_RELEASE, R435. -/
  | retrainRelease
  /-- SIDEBAND_RESET_REQUEST, R430. -/
  | sidebandResetRequest
  /-- RESET_WINDOW_COUNT, R430. -/
  | resetWindowCount
  /-- RESET_WINDOW_EXPIRE, R430. -/
  | resetWindowExpire
  /-- MODULE_RESET, R430. -/
  | moduleReset
  /-- GET_VERSION, R431. -/
  | getVersion
  /-- GET_CAPABILITIES, R431. -/
  | getCapabilities
  /-- NEGOTIATE_ALGORITHMS, R431. -/
  | negotiateAlgorithms
  /-- GET_DIGESTS, R431. -/
  | getDigests
  /-- GET_CERTIFICATE, R431. -/
  | getCertificate
  /-- CHALLENGE, R431. -/
  | challenge
  /-- GET_MEASUREMENTS, R431. -/
  | getMeasurements
  /-- SIDEBAND_UNSUPPORTED, R429. -/
  | sidebandUnsupported
  /-- IMAGE_WRITE, R436. -/
  | imageWrite
  /-- IMAGE_COMMIT, R436. -/
  | imageCommit
  /-- CLAIM_SEND, R437. -/
  | claimSend
  /-- CLAIM_RECEIVE, R438. -/
  | claimReceive
  /-- PROGRESS_BEAT_SEND, R438. -/
  | progressBeatSend
  /-- PROGRESS_BEAT_TIMEOUT, R439. -/
  | progressBeatTimeout
  /-- SECURITY_ALARM, R440. -/
  | securityAlarm
  /-- POWER_CAP_THROTTLE, R442. -/
  | powerCapThrottle
  /-- JUNCTION_THROTTLE, R443. -/
  | junctionThrottle
  /-- JUNCTION_RESET, R443. -/
  | junctionReset
  /-- INSTRUCTION_FETCH_FAULT, R85. -/
  | instructionFetchFault
  /-- SENDER_LOSS_NOTICE, R293. -/
  | senderLossNotice
  /-- PROGRESS_BEAT_RECEIVE, R439. -/
  | progressBeatReceive
  /-- POD_CONFIGURATION_LOAD, R438. -/
  | podConfigurationLoad
  deriving DecidableEq, Repr

end Sys2Proof
end

