-- ==== Sys2Proof/Machine/Encoding.lean ====
section
/-!
DEFINITION. The encoded form of an instruction: its major opcode (Table 3-10), its format (Table 3-11) and its raw
words, and the operands it names, with the legality conditions that check 4 of Table 3-12 makes.
-/
namespace Sys2Proof

/-- Formats of bits [31:11] (Table 3-8); `entry` is the entry word, `raw` a word of an unassigned opcode. -/
inductive Format where
  | rrr | rri | ri | br | entry | raw
  deriving DecidableEq, Repr

/-- The base word of an instruction, cut into the common fields of Table 3-7, with what follows it. -/
structure View where
  op : Byte
  fmt : Format
  hi21 : BitVec 21
  stroke : Bool
  tail : Tail
  deriving DecidableEq, Repr

/-- The type code in bits [1:0] of the major opcode and in X (R82). -/
def fpCode : FpType → Byte
  | .f32 => 0
  | .f64 => 1
  | .h2 => 2
  | .bh2 => 3

/-- Format RRR (Table 3-8). -/
def viewRrr (op : Byte) (o : Rrr) : View := ⟨op, .rrr, o.b ++ o.a ++ o.d, o.stroke, o.tail⟩
/-- Format RRI (Table 3-8). -/
def viewRri (op : Byte) (o : Rri) : View := ⟨op, .rri, o.imm ++ o.a ++ o.d, o.stroke, o.tail⟩
/-- Format RI (Table 3-8). -/
def viewRi (op : Byte) (o : Ri) : View := ⟨op, .ri, o.imm ++ o.d, o.stroke, o.tail⟩
/-- Format BR (Table 3-8). -/
def viewBr (op : Byte) (o : Br) : View := ⟨op, .br, o.off, o.stroke, o.tail⟩
/-- The entry word (Table 6-2). -/
def viewEntry (o : EntryFields) : View := ⟨0x81, .entry, o.zero14 ++ o.budget, o.stroke, o.tail⟩

/-- The words of an encoded instruction by Tables 3-7, 3-8, 3-10 and 3-11; `none` for a step that has no
encoding. -/
def Instr.view : Instr → Option View
  | .add o => some (viewRrr 0x00 o)
  | .sub o => some (viewRrr 0x01 o)
  | .addc o => some (viewRrr 0x02 o)
  | .subb o => some (viewRrr 0x03 o)
  | .mul o => some (viewRrr 0x04 o)
  | .mulh o => some (viewRrr 0x05 o)
  | .mulhz o => some (viewRrr 0x06 o)
  | .mad o => some (viewRrr 0x07 o)
  | .div o => some (viewRrr 0x08 o)
  | .divz o => some (viewRrr 0x09 o)
  | .rem o => some (viewRrr 0x0A o)
  | .remz o => some (viewRrr 0x0B o)
  | .min o => some (viewRrr 0x0C o)
  | .max o => some (viewRrr 0x0D o)
  | .minz o => some (viewRrr 0x0E o)
  | .maxz o => some (viewRrr 0x0F o)
  | .abs o => some (viewRrr 0x10 o)
  | .neg o => some (viewRrr 0x11 o)
  | .and o => some (viewRrr 0x12 o)
  | .or o => some (viewRrr 0x13 o)
  | .xor o => some (viewRrr 0x14 o)
  | .andn o => some (viewRrr 0x15 o)
  | .not o => some (viewRrr 0x16 o)
  | .sel o => some (viewRrr 0x17 o)
  | .shl o => some (viewRrr 0x18 o)
  | .shr o => some (viewRrr 0x19 o)
  | .sar o => some (viewRrr 0x1A o)
  | .rol o => some (viewRrr 0x1B o)
  | .clz o => some (viewRrr 0x1C o)
  | .ctz o => some (viewRrr 0x1D o)
  | .popc o => some (viewRrr 0x1E o)
  | .brev o => some (viewRrr 0x1F o)
  | .bfx o => some (viewRrr 0x20 o)
  | .bfxz o => some (viewRrr 0x21 o)
  | .bfi o => some (viewRrr 0x22 o)
  | .cmp o => some (viewRrr 0x23 o)
  | .cmpz o => some (viewRrr 0x24 o)
  | .lea o => some (viewRrr 0x25 o)
  | .add64 o => some (viewRrr 0x26 o)
  | .sub64 o => some (viewRrr 0x27 o)
  | .mul64 o => some (viewRrr 0x28 o)
  | .shl64 o => some (viewRrr 0x29 o)
  | .shr64 o => some (viewRrr 0x2A o)
  | .add2 o => some (viewRrr 0x2B o)
  | .sub2 o => some (viewRrr 0x2C o)
  | .min2 o => some (viewRrr 0x2D o)
  | .max2 o => some (viewRrr 0x2E o)
  | .cmp2 o => some (viewRrr 0x2F o)
  | .dot4 o => some (viewRrr 0x30 o)
  | .mov o => some (viewRrr 0x31 o)
  | .movi o => some (viewRi 0x32 o)
  | .getsr o => some (viewRi 0x33 o)
  | .setsr o => some (viewRi 0x34 o)
  | .shfl o => some (viewRrr 0x35 o)
  | .vote o => some (viewRrr 0x36 o)
  | .arm o => some (viewRrr 0x37 o)
  | .addImm7 o => some (viewRri 0x38 o)
  | .andImm7 o => some (viewRri 0x39 o)
  | .orImm7 o => some (viewRri 0x3A o)
  | .shlImm7 o => some (viewRri 0x3B o)
  | .shrImm7 o => some (viewRri 0x3C o)
  | .sarImm7 o => some (viewRri 0x3D o)
  | .cmpImm7 o => some (viewRri 0x3E o)
  | .cmpzImm7 o => some (viewRri 0x3F o)
  | .fadd t o => some (viewRrr (0x40 + fpCode t) o)
  | .fsub t o => some (viewRrr (0x44 + fpCode t) o)
  | .fmul t o => some (viewRrr (0x48 + fpCode t) o)
  | .fma t o => some (viewRrr (0x4C + fpCode t) o)
  | .fmin t o => some (viewRrr (0x50 + fpCode t) o)
  | .fmax t o => some (viewRrr (0x54 + fpCode t) o)
  | .fcmp t o => some (viewRrr (0x58 + fpCode t) o)
  | .fclass o => some (viewRrr 0x5C o)
  | .frnd o => some (viewRrr 0x5D o)
  | .fdiv o => some (viewRrr 0x5E o)
  | .fsqrt o => some (viewRrr 0x5F o)
  | .frcp o => some (viewRrr 0x60 o)
  | .frsq o => some (viewRrr 0x61 o)
  | .fex2 o => some (viewRrr 0x62 o)
  | .flg2 o => some (viewRrr 0x63 o)
  | .fsin o => some (viewRrr 0x64 o)
  | .fcos o => some (viewRrr 0x65 o)
  | .ldexp o => some (viewRrr 0x66 o)
  | .frexp o => some (viewRrr 0x67 o)
  | .cvt o => some (viewRrr 0x68 o)
  | .br o => some (viewBr 0x70 o)
  | .brc o => some (viewRi 0x71 o)
  | .jmp o => some (viewRrr 0x72 o)
  | .call o => some (viewBr 0x73 o)
  | .callr o => some (viewRrr 0x74 o)
  | .ret o => some (viewRrr 0x75 o)
  | .reform o => some (viewRrr 0x76 o)
  | .exit o => some (viewRrr 0x77 o)
  | .bar o => some (viewRrr 0x78 o)
  | .sync o => some (viewRrr 0x79 o)
  | .svc o => some (viewRrr 0x7A o)
  | .trap o => some (viewRrr 0x7B o)
  | .nop o => some (viewRrr 0x7C o)
  | .yield o => some (viewRrr 0x7D o)
  | .launch o => some (viewRrr 0x7E o)
  | .launchW o => some (viewRrr 0x7F o)
  | .gname o => some (viewRrr 0x80 o)
  | .entryWord o => some (viewEntry o)
  | .ldGB o => some (viewRri 0x90 o)
  | .ldGH o => some (viewRri 0x91 o)
  | .ldGW o => some (viewRri 0x92 o)
  | .ldGD o => some (viewRri 0x93 o)
  | .ldGQ o => some (viewRri 0x94 o)
  | .ldLB o => some (viewRri 0x95 o)
  | .ldLH o => some (viewRri 0x96 o)
  | .ldLW o => some (viewRri 0x97 o)
  | .ldLD o => some (viewRri 0x98 o)
  | .ldLQ o => some (viewRri 0x99 o)
  | .ldKB o => some (viewRri 0x9A o)
  | .ldKH o => some (viewRri 0x9B o)
  | .ldKW o => some (viewRri 0x9C o)
  | .ldKD o => some (viewRri 0x9D o)
  | .ldKQ o => some (viewRri 0x9E o)
  | .stGB o => some (viewRri 0x9F o)
  | .stGH o => some (viewRri 0xA0 o)
  | .stGW o => some (viewRri 0xA1 o)
  | .stGD o => some (viewRri 0xA2 o)
  | .stGQ o => some (viewRri 0xA3 o)
  | .stLB o => some (viewRri 0xA4 o)
  | .stLH o => some (viewRri 0xA5 o)
  | .stLW o => some (viewRri 0xA6 o)
  | .stLD o => some (viewRri 0xA7 o)
  | .stLQ o => some (viewRri 0xA8 o)
  | .ldAcq o => some (viewRrr 0xA9 o)
  | .stRel o => some (viewRrr 0xAA o)
  | .atom o => some (viewRrr 0xAB o)
  | .red o => some (viewRrr 0xAC o)
  | .fence o => some (viewRrr 0xAD o)
  | .pref o => some (viewRrr 0xAE o)
  | .twflush o => some (viewRrr 0xAF o)
  | .cctl o => some (viewRrr 0xB0 o)
  | .xfer o => some (viewRrr 0xC0 o)
  | .xgat o => some (viewRrr 0xC1 o)
  | .slset o => some (viewRrr 0xC2 o)
  | .slwait o => some (viewRrr 0xC3 o)
  | .xwait o => some (viewRrr 0xC4 o)
  | .tld o => some (viewRrr 0xD0 o)
  | .tst o => some (viewRrr 0xD1 o)
  | .tzero o => some (viewRrr 0xD2 o)
  | .tmma o => some (viewRrr 0xD3 o)
  | .tmmas o => some (viewRrr 0xD4 o)
  | .tscal o => some (viewRrr 0xD5 o)
  | .trd o => some (viewRrr 0xD6 o)
  | .twr o => some (viewRrr 0xD7 o)
  | .tcvt o => some (viewRrr 0xD8 o)
  | .ttr o => some (viewRrr 0xD9 o)
  | .pst o => some (viewRrr 0xE0 o)
  | .pld o => some (viewRrr 0xE1 o)
  | .patom o => some (viewRrr 0xE2 o)
  | .prel o => some (viewRrr 0xE3 o)
  | .pacq o => some (viewRrr 0xE4 o)
  | .rst o => some (viewRrr 0xE5 o)
  | .pmc o => some (viewRrr 0xE6 o)
  | .eret o => some (viewRrr 0xF0 o)
  | .rdsys o => some (viewRrr 0xF1 o)
  | .wrsys o => some (viewRrr 0xF2 o)
  | .tlbi o => some (viewRrr 0xF3 o)
  | .tlbsync o => some (viewRrr 0xF4 o)
  | .halt o => some (viewRrr 0xF5 o)
  | .wfe o => some (viewRrr 0xF6 o)
  | .sev o => some (viewRrr 0xF7 o)
  | .dstep o => some (viewRrr 0xF8 o)
  | .ctxsv o => some (viewRrr 0xF9 o)
  | .ctxld o => some (viewRrr 0xFA o)
  | .kerase o => some (viewRrr 0xFB o)
  | .unassignedOpcode o => some ⟨o.op, .raw, o.hi21, o.stroke, o.tail⟩
  | .strokeStart _ _ _ => none
  | .binAgeFire _ _ => none
  | .performStore _ _ _ => none
  | .performLoad _ _ _ => none
  | .fetch _ _ => none
  | .drop _ _ => none
  | .send _ _ => none
  | .apply _ => none
  | .tick => none
  | .dataReturn _ _ _ => none
  | .atomicReturn _ _ _ => none
  | .launchStatusReturn _ _ _ => none
  | .gnameComplete _ _ _ => none
  | .tileComplete _ _ _ => none
  | .transferPacket _ _ _ _ => none
  | .slotFree _ => none
  | .svcBatchPlace _ => none
  | .launchStart _ _ => none
  | .streamAdmit _ _ => none
  | .quantumEnd _ _ => none
  | .replaySlice _ _ => none
  | .launchComplete _ => none
  | .folioKickTake _ => none
  | .folioNodeSubmit _ _ => none
  | .faultRecordWrite _ => none
  | .resume _ _ _ _ => none
  | .skip _ _ _ _ => none
  | .kill _ _ _ _ => none
  | .unpark _ _ _ => none
  | .gkill _ _ _ => none
  | .gresume _ _ _ => none
  | .xretry _ _ _ _ => none
  | .xfail _ _ _ _ => none
  | .qdrop _ => none
  | .tableReplicaWrite _ => none
  | .tlbFill _ _ _ _ => none
  | .tlbiAck _ _ => none
  | .contextSave _ => none
  | .contextRestore _ => none
  | .replayStop _ => none
  | .stepTake _ => none
  | .podPacketArrive => none
  | .podReply => none
  | .creditReceive _ _ _ => none
  | .markerSend _ => none
  | .gapRequestSend _ _ => none
  | .gapRequestReceive => none
  | .retransmitTimer _ _ => none
  | .packetAgeDiscard _ => none
  | .replayBufferExpire _ _ => none
  | .expiryReceive => none
  | .channelAllocate _ _ _ _ _ => none
  | .podRequestRetry _ => none
  | .podRequestTimeout _ => none
  | .pacqPoll _ _ => none
  | .transientRequestReceive _ => none
  | .tokenResponseReceive _ => none
  | .transientRetry _ _ => none
  | .persistentEscalate _ _ => none
  | .persistentDeactivate _ => none
  | .tokenGiveUp _ _ => none
  | .dieLoss _ _ => none
  | .wavelengthFail _ => none
  | .dieResetExit _ => none
  | .uncorrectableError _ => none
  | .inboundRequest => none
  | .pciCompletion => none
  | .pciTimeout _ _ => none
  | .pcidataWrite _ _ _ => none
  | .pcidataRead _ _ _ => none
  | .portLinkDown _ => none
  | .linkRetrain _ => none
  | .retrainRelease => none
  | .plmapWrite _ => none
  | .planeDead _ => none
  | .registerWrite _ _ _ _ => none
  | .sidebandResetRequest => none
  | .resetWindowCount => none
  | .resetWindowExpire => none
  | .moduleReset => none
  | .getVersion => none
  | .getCapabilities => none
  | .negotiateAlgorithms => none
  | .getDigests => none
  | .getCertificate => none
  | .challenge => none
  | .getMeasurements => none
  | .sidebandUnsupported => none
  | .imageWrite => none
  | .imageCommit => none
  | .claimSend => none
  | .claimReceive => none
  | .progressBeatSend => none
  | .progressBeatTimeout => none
  | .securityAlarm => none
  | .powerCapThrottle => none
  | .junctionThrottle => none
  | .junctionReset => none
  | .instructionFetchFault => none
  | .anchorAdvance _ => none
  | .senderLossNotice => none
  | .podPortDown _ => none
  | .progressBeatReceive => none
  | .podConfigurationLoad => none

/-- Field b of RRR and imm7 of RRI, bits [31:25]. -/
def View.b (v : View) : RegNum := v.hi21.extractLsb' 14 7
/-- Field a, bits [24:18]. -/
def View.a (v : View) : RegNum := v.hi21.extractLsb' 7 7
/-- Field d, bits [17:11]. -/
def View.d (v : View) : RegNum := v.hi21.extractLsb' 0 7

/-- What every modifier field holds when there is no modifier word (Table 3-9). -/
def Modifier.absent : Modifier :=
  ⟨0, 0, 0, false, false, false, false, 0, false, false, 0, 0⟩

/-- The modifier fields that an instruction acts by (R71, R76). -/
def Tail.modifier : Tail → Modifier
  | .none => .absent
  | .mod m => m
  | .modLit m _ => m
  | .lit _ => .absent

/-- The literal, and whether the 32-bit form carries it (R71, R72). -/
def Tail.hasLit : Tail → Bool
  | .none => false
  | .mod _ => false
  | .modLit _ _ => true
  | .lit _ => true

/-- Whether a modifier word is present. -/
def Tail.hasMod : Tail → Bool
  | .none => false
  | .mod _ => true
  | .modLit _ _ => true
  | .lit _ => false

/-- Words of the instruction (Table 3-6). -/
def Tail.words : Tail → Nat
  | .none => 1
  | .mod _ => 2
  | .modLit _ _ => 3
  | .lit _ => 3

/-- The value that replaces operand b, sign-extended from 32 bits under L = 0b10 (R71, R72). -/
def Tail.literal : Tail → Dword
  | .none => 0
  | .mod _ => 0
  | .modLit _ l => l.signExtend 64
  | .lit l => l

/-- Whether an operand's registers are read, written, or both. -/
inductive Dir where
  | src | dst | both
  deriving DecidableEq, Repr

/-- What an instruction uses a field of its words for. -/
inductive Role where
  /-- Not used: the field must be zero (R69). -/
  | unused
  /-- A constant: checked by the entry's own conditions only. -/
  | const
  /-- A tile register number (R246). -/
  | tile
  /-- `n` registers from one that is a multiple of `align` (R57). -/
  | reg (dir : Dir) (n align : Nat)
  deriving DecidableEq, Repr

/-- The register fields. -/
inductive FieldName where
  | d | a | b | c
  deriving DecidableEq, Repr

/-- An operand read of width `n` registers. -/
def Role.read (n : Nat) : Role := .reg .src n n
/-- A destination of `n` registers. -/
def Role.write (n : Nat) : Role := .reg .dst n n

/-- How one instruction uses its words: the entry of its chapter's encoding table. -/
structure Sig where
  d : Role := .unused
  a : Role := .unused
  b : Role := .unused
  c : Role := .unused
  /-- The link is written into v0:v1 (R146). -/
  link : Bool := false
  l00 : Bool := true
  l01 : Bool := true
  l10 : Bool := false
  l11 : Bool := false
  /-- The X value is one the entry defines. -/
  x : Bool
  /-- SAT is accepted. -/
  sat : Bool := false
  /-- RM may be nonzero. -/
  rm : Bool := false
  /-- ZM = 1 is legal. -/
  zm : Bool := false
  /-- The SC value is one the entry accepts. -/
  sc : Bool
  /-- The fields that TEA, TEB and TEC govern (R77, R79). -/
  tea : List FieldName := []
  teb : List FieldName := []
  tec : List FieldName := []
  /-- The entry's own further conditions of check 4. -/
  extra : Bool := true
  deriving DecidableEq, Repr

/-- A three-operand register form: d, a and b, with a literal for b where `lit` says so. -/
def Sig.dab (m : Modifier) (nd na nb : Nat) (lit : Bool) : Sig :=
  { d := .write nd, a := .read na, b := .read nb, l10 := lit, l11 := lit, x := m.x == 0, sc := m.sc == 0,
    zm := true, tea := [.a], teb := [.b] }

/-- A two-operand register form: d and a. -/
def Sig.da (m : Modifier) (nd na : Nat) : Sig :=
  { d := .write nd, a := .read na, x := m.x == 0, sc := m.sc == 0, zm := true, tea := [.a] }

/-- A four-operand register form: d, a, b and c. It needs a modifier word (R77). -/
def Sig.dabc (m : Modifier) (n : Nat) (lit : Bool) : Sig :=
  { d := .write n, a := .read n, b := .read n, c := .read n, l00 := false, l10 := lit, x := m.x == 0,
    sc := m.sc == 0, zm := true, tea := [.a], teb := [.b], tec := [.c] }

/-- An imm7 form: d, a and an immediate that a literal may replace. -/
def Sig.dai (m : Modifier) : Sig :=
  { d := .write 1, a := .read 1, b := .const, l10 := true, l11 := true, x := m.x == 0, sc := m.sc == 0,
    zm := true, tea := [.a] }

/-- A form that uses no field of bits [31:11] and no modifier. -/
def Sig.bare (m : Modifier) : Sig := { l01 := false, x := m.x == 0, sc := m.sc == 0 }

/-- Registers of one floating-point operand (R159). -/
def FpType.regs : FpType → Nat
  | .f32 => 1
  | .f64 => 2
  | .h2 => 1
  | .bh2 => 1

/-- The type that X gives (R82); a code of 0b100 or above is refused by `Sig.x`. -/
def typeOfX (x : BitVec 3) : FpType :=
  if x == 1 then .f64 else if x == 2 then .h2 else if x == 3 then .bh2 else .f32

/-- Formats of `cvt` and `tcvt` (Table 7-7). -/
inductive NumFormat where
  | f64 | f32 | h16 | bf16 | dm8 | int (signed : Bool) (width : Nat)
  deriving DecidableEq, Repr

/-- Table 7-7; `none` for the codes that trap ILLOP. -/
def numFormat (code : Nat) : Option NumFormat :=
  match code with
  | 0 => some .f32
  | 1 => some .f64
  | 2 => some .h16
  | 3 => some .bf16
  | 4 => some .dm8
  | 8 => some (.int true 8)
  | 9 => some (.int false 8)
  | 10 => some (.int true 16)
  | 11 => some (.int false 16)
  | 12 => some (.int true 32)
  | 13 => some (.int false 32)
  | 14 => some (.int true 64)
  | 15 => some (.int false 64)
  | _ => none

/-- Width of a format in bits (Table 4-1). -/
def NumFormat.width : NumFormat → Nat
  | .f64 => 64
  | .f32 => 32
  | .h16 => 16
  | .bf16 => 16
  | .dm8 => 8
  | .int _ w => w

/-- Whether a format is an integer format. -/
def NumFormat.isInt : NumFormat → Bool
  | .f64 => false
  | .f32 => false
  | .h16 => false
  | .bf16 => false
  | .dm8 => false
  | .int _ _ => true

/-- Format code of a `cvt` descriptor, bits [6:3] (Table 7-6). -/
def descCode (f : RegNum) : Nat := (f >>> 3).toNat
/-- Element position of a `cvt` descriptor, bits [2:1] (Table 7-6). -/
def descPos (f : RegNum) : Nat := (f >>> 1).toNat % 4

/-- A format's elements in one register (R173). -/
def NumFormat.elems (f : NumFormat) : Nat :=
  if f.width == 8 then 4 else if f.width == 16 then 2 else 1

/-- R175: RM and SAT of a conversion. -/
def cvtModesOk (sf df : NumFormat) (m : Modifier) : Bool :=
  (m.rm == 0 || !(sf == .dm8 || df == .dm8 || (sf.isInt && df.isInt))) &&
  (!m.sat || !(df == .dm8 || (df.isInt && !sf.isInt)))

/-- R173, R175: the conditions of `cvt`. -/
def cvtOk (v : View) (m : Modifier) : Bool :=
  match numFormat (descCode m.c), numFormat (descCode v.b) with
  | some sf, some df =>
    descPos m.c < sf.elems && descPos v.b < df.elems && !m.c.getLsbD 0 &&
    (!v.b.getLsbD 0 || df == .dm8) && cvtModesOk sf df m
  | _, _ => false

/-- R264: the conditions of `tcvt`. -/
def tcvtOk (v : View) (m : Modifier) : Bool :=
  match numFormat (descCode m.c), numFormat (descCode v.b) with
  | some sf, some df =>
    descPos m.c == 0 && descPos v.b == 0 && !m.c.getLsbD 0 && (!v.b.getLsbD 0 || df == .dm8) &&
    (v.d != v.a || sf.width == df.width) && cvtModesOk sf df m
  | _, _ => false

/-- Registers of a converted value: a pair for a 64-bit format (R174). -/
def cvtRegs (f : RegNum) : Nat :=
  match numFormat (descCode f) with
  | some nf => if nf.width == 64 then 2 else 1
  | none => 1

/-- Table 3-1: width in bits and whether `setsr` may name the register. -/
def specialReg (n : Nat) : Option (Nat × Bool) :=
  match n with
  | 0x000 => some (32, false)
  | 0x001 => some (32, false)
  | 0x002 => some (64, false)
  | 0x004 => some (32, false)
  | 0x005 => some (32, false)
  | 0x006 => some (32, false)
  | 0x007 => some (32, false)
  | 0x008 => some (32, false)
  | 0x009 => some (32, false)
  | 0x00A => some (32, false)
  | 0x00B => some (32, false)
  | 0x00C => some (64, false)
  | 0x00E => some (64, false)
  | 0x010 => some (32, true)
  | 0x011 => some (32, true)
  | 0x012 => some (32, true)
  | 0x013 => some (32, true)
  | _ => if 0x018 ≤ n ∧ n ≤ 0x01F then some (32, true) else none

/-- Scopes of the system registers (Table 19-1). -/
inductive SysScope where
  | thread | die | module
  deriving DecidableEq, Repr

/-- Tables 19-1, 23-2, 24-1 and 26-1: width, scope, least privilege to read and to write. -/
def systemReg (n : Nat) : Option (Nat × SysScope × Nat × Nat) :=
  match n with
  | 0x000 => some (32, .thread, 1, 1)
  | 0x001 => some (64, .thread, 1, 1)
  | 0x003 => some (32, .thread, 1, 1)
  | 0x004 => some (64, .thread, 1, 1)
  | 0x006 => some (64, .thread, 1, 1)
  | 0x008 => some (32, .thread, 1, 1)
  | 0x009 => some (32, .thread, 1, 2)
  | 0x00A => some (32, .module, 1, 1)
  | 0x00B => some (32, .die, 1, 1)
  | 0x00C => some (32, .die, 1, 1)
  | 0x00D => some (32, .module, 1, 1)
  | 0x00E => some (32, .module, 1, 1)
  | 0x00F => some (32, .thread, 1, 1)
  | 0x010 => some (64, .die, 1, 1)
  | 0x012 => some (32, .die, 1, 1)
  | 0x014 => some (64, .die, 1, 1)
  | 0x016 => some (64, .die, 1, 1)
  | 0x018 => some (32, .module, 1, 1)
  | 0x01A => some (32, .module, 1, 1)
  | 0x01C => some (32, .module, 2, 2)
  | 0x028 => some (64, .thread, 1, 1)
  | 0x02A => some (64, .thread, 1, 1)
  | _ => if 0x020 ≤ n ∧ n ≤ 0x027 then some (32, .module, 1, 1) else none

/-- Registers that hold a value of `bits` bits. -/
def regsOfBits (bits : Nat) : Nat := if bits == 64 then 2 else 1

/-- The number that `getsr` and `setsr` carry, read unsigned (R60). -/
def specialWidth (n : Nat) : Nat :=
  match specialReg n with
  | some (w, _) => regsOfBits w
  | none => 1

/-- The number that `rdsys` and `wrsys` carry: field b holds its high 7 bits (Table 19-7). -/
def sysNumber (v : View) : Nat := (v.b ++ v.a).toNat

/-- Registers that hold the system register. -/
def systemWidth (n : Nat) : Nat :=
  match systemReg n with
  | some (w, _) => regsOfBits w
  | none => 1

/-- Registers of a load or store of width b, h, w, d, q (R219). -/
def widthRegs (w : Nat) : Nat := if w == 3 then 2 else if w == 4 then 4 else 1

/-- A plain load (Table 10-1): `w` is the width's place in b, h, w, d, q, and `base` the registers of the address. -/
def Sig.load (m : Modifier) (w base : Nat) (scOk : Bool) : Sig :=
  { d := .write (widthRegs w), a := .read base, b := .const,
    c := if m.x.getLsbD 0 then .read 1 else .unused, l10 := true, l11 := true,
    x := m.x.getLsbD 0 || m.x == 0, sc := scOk, zm := true, tea := [.a],
    tec := if m.x.getLsbD 0 then [.c] else [] }

/-- A plain store (Table 10-1). -/
def Sig.store (m : Modifier) (w base : Nat) (scOk : Bool) : Sig :=
  { Sig.load m w base scOk with d := .read (widthRegs w), zm := false, teb := [.d] }

/-- OPR of an atomic descriptor (Table 10-2). -/
def atomOpr (b : RegNum) : Nat := (b >>> 3).toNat
/-- WD of an atomic descriptor: registers of the operand. -/
def atomRegs (b : RegNum) : Nat := if b.getLsbD 2 then 2 else 1
/-- ORD of an atomic descriptor. -/
def atomOrd (b : RegNum) : Nat := b.toNat % 4

/-- The role of a tile-instruction pitch register (Table 12-2). -/
def pitchRole (m : Modifier) : Role := if m.x.getLsbD 2 then .read 1 else .unused

/-- Registers of the width code of `pst` and `pld`, bits [1:0] of X (Table 13-3). -/
def podRegs (x : BitVec 3) : Nat := if x.extractLsb' 0 2 == 1 then 2 else if x.extractLsb' 0 2 == 2 then 4 else 1

/-- The entry of each instruction in its chapter's encoding table (Tables 5-1, 6-1, 7-1, 10-1, 11-1, 12-2,
13-3, 19-7). -/
def Instr.sigOf (i : Instr) (v : View) (m : Modifier) : Sig :=
  match i with
  | .add _ | .sub _ | .mul _ | .add2 _ | .sub2 _ =>
    { Sig.dab m 1 1 1 true with x := m.x.toNat < 2, sat := true }
  | .addc _ | .subb _ => { Sig.dabc m 1 true with x := m.x.toNat < 2 }
  | .mad _ => { Sig.dabc m 1 true with x := m.x.toNat < 2, sat := true }
  | .mulh _ | .mulhz _ | .div _ | .divz _ | .rem _ | .remz _ | .min _ | .max _ | .minz _ | .maxz _
  | .and _ | .or _ | .xor _ | .andn _ | .shl _ | .shr _ | .sar _ | .rol _ | .bfx _ | .bfxz _ =>
    Sig.dab m 1 1 1 true
  | .abs _ | .neg _ => { Sig.da m 1 1 with sat := true }
  | .not _ | .clz _ | .ctz _ | .popc _ | .brev _ => Sig.da m 1 1
  | .sel _ | .bfi _ => Sig.dabc m 1 true
  | .cmp _ | .cmpz _ | .cmp2 _ => { Sig.dab m 1 1 1 true with x := m.x.toNat < 6 }
  | .lea _ => { Sig.dab m 2 2 1 true with x := true }
  | .add64 _ | .sub64 _ | .mul64 _ => Sig.dab m 2 2 2 true
  | .shl64 _ | .shr64 _ => Sig.dab m 2 2 1 true
  | .min2 _ | .max2 _ => { Sig.dab m 1 1 1 true with x := m.x.toNat < 2 }
  | .dot4 _ => { Sig.dabc m 1 true with x := m.x.toNat < 4, sat := true }
  | .mov _ => let n := if m.x == 1 then 2 else 1; { Sig.da m n n with x := m.x.toNat < 2 }
  | .movi _ =>
    { d := .write 1, l10 := true, l11 := true, x := m.x == 0, sc := m.sc == 0, zm := true }
  | .getsr o =>
    { d := .write (specialWidth o.imm.toNat), x := m.x == 0, sc := m.sc == 0, zm := true,
      extra := (specialReg o.imm.toNat).isSome }
  | .setsr o =>
    { d := .read (specialWidth o.imm.toNat), x := m.x == 0, sc := m.sc == 0, tea := [.d],
      extra := match specialReg o.imm.toNat with | some (_, rw) => rw | none => false }
  | .shfl _ =>
    { Sig.dab m 1 1 1 true with
      c := if v.tail.hasMod then .read 1 else .unused, x := m.x.toNat < 4,
      tec := if v.tail.hasMod then [.c] else [] }
  | .vote _ => { Sig.da m 1 1 with x := m.x.toNat < 7 }
  | .arm _ => { d := .write 1, x := m.x == 0, sc := m.sc == 0, zm := true }
  | .addImm7 _ => { Sig.dai m with x := m.x.toNat < 2, sat := true }
  | .andImm7 _ | .orImm7 _ | .shlImm7 _ | .shrImm7 _ | .sarImm7 _ => Sig.dai m
  | .cmpImm7 _ | .cmpzImm7 _ => { Sig.dai m with x := m.x.toNat < 6 }
  | .fadd t _ | .fsub t _ | .fmul t _ => { Sig.dab m t.regs t.regs t.regs true with rm := true, sat := true }
  | .fma t _ => { Sig.dabc m t.regs true with rm := true, sat := true }
  | .fmin t _ | .fmax t _ => Sig.dab m t.regs t.regs t.regs true
  | .fcmp t _ => { Sig.dab m 1 t.regs t.regs true with x := true }
  | .fclass _ | .frexp _ => { Sig.da m 1 (typeOfX m.x).regs with x := m.x.toNat < 4 }
  | .frnd _ | .fsqrt _ | .frsq _ | .flg2 _ | .fsin _ | .fcos _ =>
    { Sig.da m (typeOfX m.x).regs (typeOfX m.x).regs with x := m.x.toNat < 4, rm := true }
  | .frcp _ | .fex2 _ =>
    { Sig.da m (typeOfX m.x).regs (typeOfX m.x).regs with x := m.x.toNat < 4, rm := true, sat := true }
  | .fdiv _ =>
    let n := (typeOfX m.x).regs
    { Sig.dab m n n n true with x := m.x.toNat < 4, rm := true, sat := true }
  | .ldexp _ =>
    let n := (typeOfX m.x).regs
    { Sig.dab m n n 1 true with x := m.x.toNat < 4, rm := true, sat := true }
  | .cvt _ =>
    { d := .write (cvtRegs v.b), a := .read (cvtRegs m.c), b := .const, c := .const, x := m.x == 0,
      sc := m.sc == 0, zm := true, rm := true, sat := true, tea := [.a], extra := cvtOk v m }
  | .br _ => { l11 := true, x := m.x == 0, sc := m.sc == 0 }
  | .call _ => { l11 := true, link := true, x := m.x == 0, sc := m.sc == 0 }
  | .brc _ => { d := .read 1, l10 := true, l11 := true, x := m.x == 0, sc := m.sc == 0, tea := [.d] }
  | .jmp _ | .ret _ => { a := .read 2, x := m.x == 0, sc := m.sc == 0, tea := [.a] }
  | .callr _ => { a := .read 2, link := true, x := m.x == 0, sc := m.sc == 0, tea := [.a] }
  | .reform _ | .exit _ | .nop _ | .yield _ => Sig.bare m
  | .bar _ => { Sig.bare m with b := .const, extra := v.b.toNat < 16 }
  | .sync _ => { b := .read 1, l10 := true, l11 := true, x := m.x == 0, sc := m.sc == 0, teb := [.b] }
  | .svc _ =>
    { d := .write (if m.x == 1 then 2 else 1), a := .read 2, b := .read 1, l10 := true, l11 := true,
      x := m.x.toNat < 2, sc := m.sc == 0, zm := true, tea := [.a], teb := [.b] }
  | .trap _ => { b := .const, x := m.x == 0, sc := m.sc == 0 }
  | .launch _ | .launchW _ => Sig.da m 1 2
  | .gname _ => Sig.da m 2 2
  | .entryWord o => { Sig.bare m with extra := o.zero14 == 0 }
  | .ldGB _ => Sig.load m 0 2 (m.sc != 3)
  | .ldGH _ => Sig.load m 1 2 (m.sc != 3)
  | .ldGW _ => Sig.load m 2 2 (m.sc != 3)
  | .ldGD _ => Sig.load m 3 2 (m.sc != 3)
  | .ldGQ _ => Sig.load m 4 2 (m.sc != 3)
  | .ldLB _ => Sig.load m 0 1 (m.sc == 0)
  | .ldLH _ => Sig.load m 1 1 (m.sc == 0)
  | .ldLW _ => Sig.load m 2 1 (m.sc == 0)
  | .ldLD _ => Sig.load m 3 1 (m.sc == 0)
  | .ldLQ _ => Sig.load m 4 1 (m.sc == 0)
  | .ldKB _ => Sig.load m 0 2 (m.sc == 0)
  | .ldKH _ => Sig.load m 1 2 (m.sc == 0)
  | .ldKW _ => Sig.load m 2 2 (m.sc == 0)
  | .ldKD _ => Sig.load m 3 2 (m.sc == 0)
  | .ldKQ _ => Sig.load m 4 2 (m.sc == 0)
  | .stGB _ => Sig.store m 0 2 (m.sc != 3)
  | .stGH _ => Sig.store m 1 2 (m.sc != 3)
  | .stGW _ => Sig.store m 2 2 (m.sc != 3)
  | .stGD _ => Sig.store m 3 2 (m.sc != 3)
  | .stGQ _ => Sig.store m 4 2 (m.sc != 3)
  | .stLB _ => Sig.store m 0 1 (m.sc == 0)
  | .stLH _ => Sig.store m 1 1 (m.sc == 0)
  | .stLW _ => Sig.store m 2 1 (m.sc == 0)
  | .stLD _ => Sig.store m 3 1 (m.sc == 0)
  | .stLQ _ => Sig.store m 4 1 (m.sc == 0)
  | .ldAcq _ =>
    { d := .write (if m.x.toNat % 4 == 3 then 2 else 1), a := .read 2,
      b := if m.x.getLsbD 2 then .read 1 else .unused, l00 := false, l10 := true, x := true, sc := true,
      zm := true, tea := [.a], teb := if m.x.getLsbD 2 then [.b] else [],
      extra := !(m.x.getLsbD 2 && v.tail.hasLit) }
  | .stRel _ =>
    { d := .read (if m.x.toNat % 4 == 3 then 2 else 1), a := .read 2,
      b := if m.x.getLsbD 2 then .read 1 else .unused, l00 := false, l10 := true, x := true, sc := true,
      tea := [.a], teb := if m.x.getLsbD 2 then [.d, .b] else [.d],
      extra := !(m.x.getLsbD 2 && v.tail.hasLit) }
  | .atom _ =>
    let n := atomRegs v.b
    { d := .reg (if atomOpr v.b == 9 then .both else .dst) n n,
      a := if m.x.getLsbD 0 then .reg .src 1 n else .read 2, b := .const, c := .read n, l00 := false,
      x := m.x.toNat < 2, sc := m.x == 0 || m.sc == 0, zm := true, tea := [.a],
      teb := if atomOpr v.b == 9 then [.d] else [], tec := [.c], extra := atomOpr v.b < 0xB }
  | .red _ =>
    let n := atomRegs v.b
    { a := if m.x.getLsbD 0 then .reg .src 1 n else .read 2, b := .const, c := .read n, l00 := false,
      x := m.x.toNat < 2, sc := m.x == 0 || m.sc == 0, tea := [.a], tec := [.c],
      extra := atomOpr v.b < 0xB && atomOpr v.b != 9 && !v.b.getLsbD 0 }
  | .fence _ => { x := m.x.toNat < 4, sc := m.x != 3 || m.sc == 2 }
  | .pref _ => { a := .read 2, l10 := true, l11 := true, x := m.x == 0, sc := m.sc == 0, tea := [.a] }
  | .twflush _ =>
    { a := if m.x == 0 then .read 2 else .unused, x := m.x.toNat < 2, sc := m.sc == 0,
      tea := if m.x == 0 then [.a] else [] }
  | .cctl _ =>
    { a := if m.x == 0 then .read 2 else .unused, x := m.x.toNat < 3, sc := m.sc == 0,
      tea := if m.x == 0 then [.a] else [] }
  | .xfer _ => { a := .reg .src 8 2, x := m.x == 0, sc := m.sc == 0, tea := [.a] }
  | .xgat _ => { a := .reg .src 8 2, b := .read 1, x := m.x == 0, sc := m.sc == 0, tea := [.a], teb := [.b] }
  | .slset _ =>
    { a := .read 1, b := .read 1, l11 := true, x := m.x == 0, sc := m.sc == 0, tea := [.a], teb := [.b] }
  | .slwait _ => { a := .read 1, x := m.x == 0, sc := m.sc == 0, tea := [.a] }
  | .xwait _ => { b := .const, x := m.x.toNat < 4, sc := m.sc == 0 }
  | .tld _ =>
    { d := .tile, a := .read 2, b := pitchRole m, x := m.x.toNat % 4 != 3, sc := m.sc == 0, tea := [.a],
      teb := if m.x.getLsbD 2 then [.b] else [] }
  | .tst _ =>
    { d := .tile, a := .read 2, b := pitchRole m, x := m.x.toNat % 4 < 2, sc := m.sc == 0, tea := [.a],
      teb := if m.x.getLsbD 2 then [.b] else [] }
  | .tzero _ => { d := .tile, x := m.x == 0, sc := m.sc == 0 }
  | .tmma _ | .tmmas _ =>
    { d := .tile, a := .tile, b := .tile, c := .const, x := m.x.toNat < 7, sc := m.sc == 0, rm := true,
      extra := v.d != v.a && v.d != v.b && m.c.toNat < 2 && (m.rm == 0 || 2 < m.x.toNat) }
  | .tscal _ =>
    { d := .tile, a := .tile, b := .tile, x := m.x == 0, sc := m.sc == 0, rm := true, extra := v.d != v.b }
  | .trd _ =>
    { d := .write 1, a := .read 1, b := .tile, x := m.x.toNat < 2, sc := m.sc == 0, zm := true, tea := [.a] }
  | .twr _ =>
    { d := .tile, a := .read 1, b := .read 1, x := m.x.toNat < 2, sc := m.sc == 0, tea := [.a], teb := [.b] }
  | .tcvt _ =>
    { d := .tile, a := .tile, b := .const, c := .const, x := m.x == 0, sc := m.sc == 0, rm := true, sat := true,
      extra := tcvtOk v m }
  | .ttr _ => { d := .tile, a := .tile, x := m.x == 0, sc := m.sc == 0, extra := v.d != v.a }
  | .pst _ =>
    { d := .read (podRegs m.x), a := .read 2, b := .read 1, x := m.x.toNat < 3, sc := m.sc == 0, tea := [.a],
      teb := [.b] }
  | .pld _ => { d := .write (podRegs m.x), a := .read 2, x := m.x.toNat < 3, sc := m.sc == 0, zm := true, tea := [.a] }
  | .patom _ =>
    let n := atomRegs v.b
    { d := .reg (if atomOpr v.b == 9 then .both else .dst) n n, a := .read 2, b := .const, c := .read n, l00 := false,
      x := m.x == 0, sc := m.sc == 0, zm := true, tea := [.a], tec := [.c],
      extra := atomOpr v.b < 0xB && atomOrd v.b == 0 }
  | .prel _ => { d := .read 1, a := .read 2, b := .read 1, x := m.x == 0, sc := m.sc == 0, tea := [.a], teb := [.b] }
  | .pacq _ =>
    { d := .write 1, a := .read 2, b := .read 1, x := m.x.toNat < 3, sc := m.sc == 0, zm := true, tea := [.a],
      teb := [.b] }
  | .rst _ =>
    { d := .read (if m.x.getLsbD 0 then 2 else 1), a := .read 2, b := .read 1, c := .const, l00 := false,
      x := m.x.toNat < 4, sc := m.sc == 0, tea := [.a], teb := [.b],
      extra := !(m.x.getLsbD 0 && m.c.getLsbD 0) }
  | .pmc _ =>
    { d := .read (if m.x == 1 then 2 else 1), a := .read 2, b := .read 4, x := m.x.toNat < 2, sc := m.sc == 0,
      tea := [.a], teb := [.b] }
  | .eret _ | .tlbsync _ | .halt _ | .wfe _ | .kerase _ => { x := m.x == 0, sc := m.sc == 0 }
  | .rdsys _ =>
    { d := .write (systemWidth (sysNumber v)), a := .const, b := .const, x := m.x == 0, sc := m.sc == 0,
      extra := (systemReg (sysNumber v)).isSome }
  | .wrsys _ =>
    { d := .read (systemWidth (sysNumber v)), a := .const, b := .const, x := m.x == 0, sc := m.sc == 0, tea := [.d],
      extra := (systemReg (sysNumber v)).isSome }
  | .tlbi _ =>
    { a := if m.x == 0 then .read 2 else .unused, b := if m.x.toNat < 2 then .read 1 else .unused,
      x := m.x.toNat < 4, sc := m.sc == 0, tea := if m.x == 0 then [.a] else [],
      teb := if m.x.toNat < 2 then [.b] else [] }
  | .sev _ => { b := .read 1, x := m.x == 0, sc := m.sc == 0, teb := [.b] }
  | .dstep _ => { a := .read 2, x := m.x == 0, sc := m.sc == 0, tea := [.a] }
  | .ctxsv _ => { a := .read 2, b := .read 2, x := m.x == 0, sc := m.sc == 0, tea := [.a], teb := [.b] }
  | .ctxld _ => { a := .read 2, b := .read 1, x := m.x == 0, sc := m.sc == 0, tea := [.a], teb := [.b] }
  | _ => Sig.bare m

/-- The signature of an encoded instruction as its words stand. -/
def Instr.sig (i : Instr) (v : View) : Sig :=
  let s := i.sigOf v v.tail.modifier
  match v.fmt with
  | .rrr => if v.tail.hasLit then { s with b := .unused, teb := s.teb.filter (· != .b) } else s
  | .rri => s
  | .ri => s
  | .br => s
  | .entry => s
  | .raw => s

/-- The immediate that a literal would replace is zero (R71). -/
def View.immZero (v : View) : Bool :=
  match v.fmt with
  | .rrr => v.b == 0
  | .rri => v.b == 0
  | .ri => v.hi21.extractLsb' 7 14 == 0
  | .br => v.hi21 == 0
  | .entry => true
  | .raw => true

/-- An absolute branch target has bits [63:56] and [1:0] zero (R71, R143). -/
def Instr.targetOk (i : Instr) (v : View) : Bool :=
  match v.tail with
  | .lit l =>
    match i with
    | .br _ | .brc _ | .call _ => l.toNat < 2 ^ 56 && l.toNat % 4 == 0
    | _ => true
  | .none => true
  | .mod _ => true
  | .modLit _ _ => true

/-- A field that is not used is zero (R69); a register operand is aligned (R57). -/
def Role.fieldOk (r : Role) (f : RegNum) : Bool :=
  match r with
  | .unused => f == 0
  | .const => true
  | .tile => true
  | .reg _ _ al => f.toNat % al == 0

/-- R69 and R57 over the fields of bits [31:11]. -/
def Sig.fieldsOk (s : Sig) (v : View) : Bool :=
  match v.fmt with
  | .rrr => s.d.fieldOk v.d && s.a.fieldOk v.a && s.b.fieldOk v.b
  | .rri => s.d.fieldOk v.d && s.a.fieldOk v.a
  | .ri => s.d.fieldOk v.d
  | .br => true
  | .entry => true
  | .raw => true

/-- R77: the modifier word's fields. -/
def Sig.modifierOk (s : Sig) (m : Modifier) : Bool :=
  m.zero4 == 0 && (m.me || m.m == 0) && s.c.fieldOk m.c && (!m.tea || s.tea != []) &&
  (!m.teb || s.teb != []) && (!m.tec || s.tec != []) && m.rm.toNat < 6 && (s.rm || m.rm == 0) &&
  (s.sat || !m.sat) && s.x && s.sc && (s.zm || !m.zm)

/-- The length code is one that the entry accepts (R71, R72, R75). -/
def Sig.lengthOk (s : Sig) : Tail → Bool
  | .none => s.l00
  | .mod _ => s.l01
  | .modLit _ _ => s.l10
  | .lit _ => s.l11

/-- Check 4 of Table 3-12 on the words of an encoded instruction (R57, R59, R60, R69, R71, R72, R75, R77). -/
def Instr.legal (i : Instr) (v : View) : Bool :=
  let s := i.sig v
  s.lengthOk v.tail && (!v.tail.hasLit || v.immZero) && i.targetOk v && s.fieldsOk v &&
  s.modifierOk v.tail.modifier && s.extra

end Sys2Proof
end

