-- ==== Sys2Proof/WellFormed.lean ====
section
/-!
DEFINITION. Which instructions are well formed: those whose words pass check 4 of Table 3-12 (R85). An encoded
instruction that is not well formed traps ILLOP when it is executed. A word of an unassigned major opcode is never
well formed (check 2, R80), and a step that has no words is well formed.
-/
namespace Sys2Proof

/-- Check 4 of Table 3-12, and check 2 for an unassigned major opcode. -/
def Instr.wellFormed (i : Instr) : Bool :=
  match i.view with
  | none => true
  | some v => v.fmt != .raw && i.legal v

/-- The proposition that an instruction is well formed. -/
abbrev Instr.WellFormed (i : Instr) : Prop := i.wellFormed = true

end Sys2Proof
end

