-- ==== Sys2Proof/Decode.lean ====
section
/-!
DEFINITION. The decoder and the encoder. The decoder reads the word at the program counter as a base word, whatever it
is (R87); every base word names an instruction or an unassigned opcode, so the only bytes it rejects are those that
end before the words its length code announces. The encoder is written from the same tables.
-/
namespace Sys2Proof

/-- Why bytes are rejected: they end before the word named. -/
inductive Reject where
  | noBaseWord
  | noSecondWord
  | noThirdWord
  deriving DecidableEq, Repr

/-- The fields of format RRR. -/
def asRrr (h : BitVec 21) (s : Bool) (t : Tail) : Rrr :=
  ⟨h.extractLsb' 14 7, h.extractLsb' 7 7, h.extractLsb' 0 7, s, t⟩
/-- The fields of format RRI. -/
def asRri (h : BitVec 21) (s : Bool) (t : Tail) : Rri :=
  ⟨h.extractLsb' 14 7, h.extractLsb' 7 7, h.extractLsb' 0 7, s, t⟩
/-- The fields of format RI. -/
def asRi (h : BitVec 21) (s : Bool) (t : Tail) : Ri := ⟨h.extractLsb' 7 14, h.extractLsb' 0 7, s, t⟩
/-- The field of format BR. -/
def asBr (h : BitVec 21) (s : Bool) (t : Tail) : Br := ⟨h, s, t⟩
/-- The fields of an entry word (Table 6-2). -/
def asEntry (h : BitVec 21) (s : Bool) (t : Tail) : EntryFields :=
  ⟨h.extractLsb' 7 14, h.extractLsb' 0 7, s, t⟩

/-- Table 3-10: the instruction of a major opcode. -/
def decodeOp (op : Byte) (h : BitVec 21) (s : Bool) (t : Tail) : Instr :=
  match op.toNat with
  | 0x00 => .add (asRrr h s t)
  | 0x01 => .sub (asRrr h s t)
  | 0x02 => .addc (asRrr h s t)
  | 0x03 => .subb (asRrr h s t)
  | 0x04 => .mul (asRrr h s t)
  | 0x05 => .mulh (asRrr h s t)
  | 0x06 => .mulhz (asRrr h s t)
  | 0x07 => .mad (asRrr h s t)
  | 0x08 => .div (asRrr h s t)
  | 0x09 => .divz (asRrr h s t)
  | 0x0A => .rem (asRrr h s t)
  | 0x0B => .remz (asRrr h s t)
  | 0x0C => .min (asRrr h s t)
  | 0x0D => .max (asRrr h s t)
  | 0x0E => .minz (asRrr h s t)
  | 0x0F => .maxz (asRrr h s t)
  | 0x10 => .abs (asRrr h s t)
  | 0x11 => .neg (asRrr h s t)
  | 0x12 => .and (asRrr h s t)
  | 0x13 => .or (asRrr h s t)
  | 0x14 => .xor (asRrr h s t)
  | 0x15 => .andn (asRrr h s t)
  | 0x16 => .not (asRrr h s t)
  | 0x17 => .sel (asRrr h s t)
  | 0x18 => .shl (asRrr h s t)
  | 0x19 => .shr (asRrr h s t)
  | 0x1A => .sar (asRrr h s t)
  | 0x1B => .rol (asRrr h s t)
  | 0x1C => .clz (asRrr h s t)
  | 0x1D => .ctz (asRrr h s t)
  | 0x1E => .popc (asRrr h s t)
  | 0x1F => .brev (asRrr h s t)
  | 0x20 => .bfx (asRrr h s t)
  | 0x21 => .bfxz (asRrr h s t)
  | 0x22 => .bfi (asRrr h s t)
  | 0x23 => .cmp (asRrr h s t)
  | 0x24 => .cmpz (asRrr h s t)
  | 0x25 => .lea (asRrr h s t)
  | 0x26 => .add64 (asRrr h s t)
  | 0x27 => .sub64 (asRrr h s t)
  | 0x28 => .mul64 (asRrr h s t)
  | 0x29 => .shl64 (asRrr h s t)
  | 0x2A => .shr64 (asRrr h s t)
  | 0x2B => .add2 (asRrr h s t)
  | 0x2C => .sub2 (asRrr h s t)
  | 0x2D => .min2 (asRrr h s t)
  | 0x2E => .max2 (asRrr h s t)
  | 0x2F => .cmp2 (asRrr h s t)
  | 0x30 => .dot4 (asRrr h s t)
  | 0x31 => .mov (asRrr h s t)
  | 0x32 => .movi (asRi h s t)
  | 0x33 => .getsr (asRi h s t)
  | 0x34 => .setsr (asRi h s t)
  | 0x35 => .shfl (asRrr h s t)
  | 0x36 => .vote (asRrr h s t)
  | 0x37 => .arm (asRrr h s t)
  | 0x38 => .addImm7 (asRri h s t)
  | 0x39 => .andImm7 (asRri h s t)
  | 0x3A => .orImm7 (asRri h s t)
  | 0x3B => .shlImm7 (asRri h s t)
  | 0x3C => .shrImm7 (asRri h s t)
  | 0x3D => .sarImm7 (asRri h s t)
  | 0x3E => .cmpImm7 (asRri h s t)
  | 0x3F => .cmpzImm7 (asRri h s t)
  | 0x40 => .fadd .f32 (asRrr h s t)
  | 0x41 => .fadd .f64 (asRrr h s t)
  | 0x42 => .fadd .h2 (asRrr h s t)
  | 0x43 => .fadd .bh2 (asRrr h s t)
  | 0x44 => .fsub .f32 (asRrr h s t)
  | 0x45 => .fsub .f64 (asRrr h s t)
  | 0x46 => .fsub .h2 (asRrr h s t)
  | 0x47 => .fsub .bh2 (asRrr h s t)
  | 0x48 => .fmul .f32 (asRrr h s t)
  | 0x49 => .fmul .f64 (asRrr h s t)
  | 0x4A => .fmul .h2 (asRrr h s t)
  | 0x4B => .fmul .bh2 (asRrr h s t)
  | 0x4C => .fma .f32 (asRrr h s t)
  | 0x4D => .fma .f64 (asRrr h s t)
  | 0x4E => .fma .h2 (asRrr h s t)
  | 0x4F => .fma .bh2 (asRrr h s t)
  | 0x50 => .fmin .f32 (asRrr h s t)
  | 0x51 => .fmin .f64 (asRrr h s t)
  | 0x52 => .fmin .h2 (asRrr h s t)
  | 0x53 => .fmin .bh2 (asRrr h s t)
  | 0x54 => .fmax .f32 (asRrr h s t)
  | 0x55 => .fmax .f64 (asRrr h s t)
  | 0x56 => .fmax .h2 (asRrr h s t)
  | 0x57 => .fmax .bh2 (asRrr h s t)
  | 0x58 => .fcmp .f32 (asRrr h s t)
  | 0x59 => .fcmp .f64 (asRrr h s t)
  | 0x5A => .fcmp .h2 (asRrr h s t)
  | 0x5B => .fcmp .bh2 (asRrr h s t)
  | 0x5C => .fclass (asRrr h s t)
  | 0x5D => .frnd (asRrr h s t)
  | 0x5E => .fdiv (asRrr h s t)
  | 0x5F => .fsqrt (asRrr h s t)
  | 0x60 => .frcp (asRrr h s t)
  | 0x61 => .frsq (asRrr h s t)
  | 0x62 => .fex2 (asRrr h s t)
  | 0x63 => .flg2 (asRrr h s t)
  | 0x64 => .fsin (asRrr h s t)
  | 0x65 => .fcos (asRrr h s t)
  | 0x66 => .ldexp (asRrr h s t)
  | 0x67 => .frexp (asRrr h s t)
  | 0x68 => .cvt (asRrr h s t)
  | 0x70 => .br (asBr h s t)
  | 0x71 => .brc (asRi h s t)
  | 0x72 => .jmp (asRrr h s t)
  | 0x73 => .call (asBr h s t)
  | 0x74 => .callr (asRrr h s t)
  | 0x75 => .ret (asRrr h s t)
  | 0x76 => .reform (asRrr h s t)
  | 0x77 => .exit (asRrr h s t)
  | 0x78 => .bar (asRrr h s t)
  | 0x79 => .sync (asRrr h s t)
  | 0x7A => .svc (asRrr h s t)
  | 0x7B => .trap (asRrr h s t)
  | 0x7C => .nop (asRrr h s t)
  | 0x7D => .yield (asRrr h s t)
  | 0x7E => .launch (asRrr h s t)
  | 0x7F => .launchW (asRrr h s t)
  | 0x80 => .gname (asRrr h s t)
  | 0x81 => .entryWord (asEntry h s t)
  | 0x90 => .ldGB (asRri h s t)
  | 0x91 => .ldGH (asRri h s t)
  | 0x92 => .ldGW (asRri h s t)
  | 0x93 => .ldGD (asRri h s t)
  | 0x94 => .ldGQ (asRri h s t)
  | 0x95 => .ldLB (asRri h s t)
  | 0x96 => .ldLH (asRri h s t)
  | 0x97 => .ldLW (asRri h s t)
  | 0x98 => .ldLD (asRri h s t)
  | 0x99 => .ldLQ (asRri h s t)
  | 0x9A => .ldKB (asRri h s t)
  | 0x9B => .ldKH (asRri h s t)
  | 0x9C => .ldKW (asRri h s t)
  | 0x9D => .ldKD (asRri h s t)
  | 0x9E => .ldKQ (asRri h s t)
  | 0x9F => .stGB (asRri h s t)
  | 0xA0 => .stGH (asRri h s t)
  | 0xA1 => .stGW (asRri h s t)
  | 0xA2 => .stGD (asRri h s t)
  | 0xA3 => .stGQ (asRri h s t)
  | 0xA4 => .stLB (asRri h s t)
  | 0xA5 => .stLH (asRri h s t)
  | 0xA6 => .stLW (asRri h s t)
  | 0xA7 => .stLD (asRri h s t)
  | 0xA8 => .stLQ (asRri h s t)
  | 0xA9 => .ldAcq (asRrr h s t)
  | 0xAA => .stRel (asRrr h s t)
  | 0xAB => .atom (asRrr h s t)
  | 0xAC => .red (asRrr h s t)
  | 0xAD => .fence (asRrr h s t)
  | 0xAE => .pref (asRrr h s t)
  | 0xAF => .twflush (asRrr h s t)
  | 0xB0 => .cctl (asRrr h s t)
  | 0xC0 => .xfer (asRrr h s t)
  | 0xC1 => .xgat (asRrr h s t)
  | 0xC2 => .slset (asRrr h s t)
  | 0xC3 => .slwait (asRrr h s t)
  | 0xC4 => .xwait (asRrr h s t)
  | 0xD0 => .tld (asRrr h s t)
  | 0xD1 => .tst (asRrr h s t)
  | 0xD2 => .tzero (asRrr h s t)
  | 0xD3 => .tmma (asRrr h s t)
  | 0xD4 => .tmmas (asRrr h s t)
  | 0xD5 => .tscal (asRrr h s t)
  | 0xD6 => .trd (asRrr h s t)
  | 0xD7 => .twr (asRrr h s t)
  | 0xD8 => .tcvt (asRrr h s t)
  | 0xD9 => .ttr (asRrr h s t)
  | 0xE0 => .pst (asRrr h s t)
  | 0xE1 => .pld (asRrr h s t)
  | 0xE2 => .patom (asRrr h s t)
  | 0xE3 => .prel (asRrr h s t)
  | 0xE4 => .pacq (asRrr h s t)
  | 0xE5 => .rst (asRrr h s t)
  | 0xE6 => .pmc (asRrr h s t)
  | 0xF0 => .eret (asRrr h s t)
  | 0xF1 => .rdsys (asRrr h s t)
  | 0xF2 => .wrsys (asRrr h s t)
  | 0xF3 => .tlbi (asRrr h s t)
  | 0xF4 => .tlbsync (asRrr h s t)
  | 0xF5 => .halt (asRrr h s t)
  | 0xF6 => .wfe (asRrr h s t)
  | 0xF7 => .sev (asRrr h s t)
  | 0xF8 => .dstep (asRrr h s t)
  | 0xF9 => .ctxsv (asRrr h s t)
  | 0xFA => .ctxld (asRrr h s t)
  | 0xFB => .kerase (asRrr h s t)
  | _ => .unassignedOpcode ⟨h, op, s, t⟩

/-- A modifier word cut into its fields (Table 3-9). -/
def decodeModifier (w : Word) : Modifier :=
  { zero4 := w.extractLsb' 28 4, sc := w.extractLsb' 26 2, x := w.extractLsb' 23 3, sat := w.getLsbD 22,
    tec := w.getLsbD 21, teb := w.getLsbD 20, tea := w.getLsbD 19, rm := w.extractLsb' 16 3, zm := w.getLsbD 15,
    me := w.getLsbD 14, m := w.extractLsb' 7 7, c := w.extractLsb' 0 7 }

/-- A modifier word from its fields (Table 3-9). -/
def encodeModifier (m : Modifier) : Word :=
  m.zero4 ++ m.sc ++ m.x ++ BitVec.ofBool m.sat ++ BitVec.ofBool m.tec ++ BitVec.ofBool m.teb ++
  BitVec.ofBool m.tea ++ m.rm ++ BitVec.ofBool m.zm ++ BitVec.ofBool m.me ++ m.m ++ m.c

/-- What follows the base word, by length code L (Table 3-6); the words after it are left. -/
def decodeTail (l : BitVec 2) (ws : List Word) : Except Reject (Tail × List Word) :=
  match l.toNat, ws with
  | 0, ws => .ok (.none, ws)
  | 1, m :: ws => .ok (.mod (decodeModifier m), ws)
  | 2, m :: w :: ws => .ok (.modLit (decodeModifier m) w, ws)
  | 3, lo :: hi :: ws => .ok (.lit (hi ++ lo), ws)
  | _, [] => .error .noSecondWord
  | _, _ => .error .noThirdWord

/-- One instruction from words, with the words after it (R66 to R68). -/
def decodeWords : List Word → Except Reject (Instr × List Word)
  | [] => .error .noBaseWord
  | w :: ws =>
    match decodeTail (w.extractLsb' 0 2) ws with
    | .error e => .error e
    | .ok (t, rest) => .ok (decodeOp (w.extractLsb' 3 8) (w.extractLsb' 11 21) (w.getLsbD 2) t, rest)

/-- Little-endian words of bytes; bytes short of a word are dropped (R4, R66). -/
def wordsOfBytes : List Byte → List Word
  | b0 :: b1 :: b2 :: b3 :: bs => (b3 ++ b2 ++ b1 ++ b0) :: wordsOfBytes bs
  | _ => []

/-- The decoder on any bytes. -/
def decode (bs : List Byte) : Except Reject (Instr × List Word) := decodeWords (wordsOfBytes bs)

/-- The length code of what follows the base word (Table 3-6). -/
def Tail.code : Tail → BitVec 2
  | .none => 0
  | .mod _ => 1
  | .modLit _ _ => 2
  | .lit _ => 3

/-- The words that follow the base word (R66, R71, R73). -/
def Tail.encode : Tail → List Word
  | .none => []
  | .mod m => [encodeModifier m]
  | .modLit m l => [encodeModifier m, l]
  | .lit l => [l.extractLsb' 0 32, l.extractLsb' 32 32]

/-- The words of a view (Table 3-7). -/
def View.encode (v : View) : List Word :=
  (v.hi21 ++ v.op ++ BitVec.ofBool v.stroke ++ v.tail.code) :: v.tail.encode

/-- The words of an encoded instruction; `none` for a step that has no encoding. -/
def encode (i : Instr) : Option (List Word) :=
  match i.view with
  | some v => some v.encode
  | none => none

/-- The bytes of a word, lowest address first (R4). -/
def bytesOfWord (w : Word) : List Byte :=
  [w.extractLsb' 0 8, w.extractLsb' 8 8, w.extractLsb' 16 8, w.extractLsb' 24 8]

/-- The three words of the longest instruction that the host's bits stand for: the base word in bits [31:0], then the
second and the third, with zeros above the table's bits. -/
def tableWords (nbits w : Nat) : List Word :=
  let v := w % 2 ^ nbits
  [BitVec.ofNat 32 v, BitVec.ofNat 32 (v / 2 ^ 32), BitVec.ofNat 32 (v / 2 ^ 64)]

/-- The instruction that the decoder reads from the host's numbering of an instruction's bits. -/
def decodeTableWord (nbits w : Nat) : Option Instr :=
  match decode ((tableWords nbits w).flatMap bytesOfWord) with
  | .ok (i, _) => some i
  | .error _ => none

end Sys2Proof
end

