-- ==== Sys2Proof/Machine/State.lean ====
section
/-!
DEFINITION. The state of one LNS-L32 module as plain data: every thread, group, core, die, store and engine that the
spec names, the input queues through which the outside world acts, and the agenda that says which agent moves next.
-/
namespace Sys2Proof.Machine

open Sys2Proof

/-- A table from numbers, sorted by key, that lists only what differs from its default. -/
abbrev Table (β : Type) := List (Nat × β)

/-- Bytes by address in one canonical form: addresses rising, no byte equal to what an unlisted address reads as. -/
abbrev Memory := List Host.Cell

/-! ## Threads -/

/-- Full/empty codes (R409): what an empty register awaits. -/
inductive Fe where
  | full | armed | svc | launchW | load | pod | trd | gname | launch
  deriving DecidableEq, Repr

/-- Scopes (Table 0-4). -/
inductive Scope where
  | grp | die | dev | pod
  deriving DecidableEq, Repr

/-- Storage spaces that an access names (Table 0-5). -/
inductive Space where
  | g | l | k
  deriving DecidableEq, Repr

/-- Trap causes (Table 23-1). -/
inductive Cause where
  | illop | priv | align | page | prot | regEmpty | maskMis | regBudget | fragFull | fpExc | svc | brk | step
  | dieLoss | levee | podLoss | xferErr
  deriving DecidableEq, Repr

/-- What a trap records (Tables 23-1 and 23-3). -/
structure TrapInfo where
  cause : Cause
  tval : Dword := 0
  detail : Word := 0
  aux : Byte := 0
  malformed : Bool := false
  access : BitVec 2 := 0
  deriving DecidableEq, Repr

/-- The classes of outstanding operations (Table 9-4). -/
inductive OpClass where
  | load | transfer | tile | pod
  deriving DecidableEq, Repr

/-- A translated storage location: its key (home die and frame offset), class, and the context it was reached in. -/
structure Loc where
  va : Dword
  key : Nat
  home : Nat
  token : Bool
  /-- A frame of the table region, reached as R371 states. -/
  table : Bool
  ctx : Nat
  polder : Nat
  deriving DecidableEq, Repr

/-- What holds a WAITING thread (Table 2-1, R26, R210, R228). The program counter stays at the instruction. A hold
that names `next` completes there; every other one executes its instruction again (R408). `regs` lists the threads and registers
whose filling the whole lane set awaits (R26); `arrived` marks the positions of lanes that the mask register made
inactive, which count as arrived (R139, R151). `limit` awaits room in a class counter (R210), `buffer` room in the store
buffer (R409), `drain` the performance of the store buffer's entries (R236, R240, R253). -/
inductive Hold where
  | regs (needs : List (Nat × Nat))
  | limit (c : OpClass)
  | buffer
  | drain
  | bar (n : Nat) (next : Pc)
  | sync (mask arrived : Word) (next : Pc)
  | shfl (mask arrived : Word) (value : Word) (src : Option Nat) (d : Nat) (next : Pc)
  | slwait (off : Nat) (next : Pc)
  | pacq (loc : Loc) (compare : Word) (kind : Nat) (d : Nat) (next : Pc)
  | wfe (next : Pc)
  /-- `kind`: the fence's X, 4 for `halt`, 5 for `sev`. -/
  | fence (kind : Nat)
  | xwait (c : OpClass) (n : Nat)
  | tlbsync
  | svcRing
  /-- Room on a channel (R271): before its anchor, or, `count`, in its count of writes. -/
  | channel (chan : Nat) (count : Bool)
  /-- The thread's own earlier flag on a channel, which has not taken its sequence (log entry 51). -/
  | flagOrder (chan : Nat)
  /-- A free request tag (R285). -/
  | tags
  /-- What a `pacq` must follow: an older acquire, or an outstanding access to its word (R205). -/
  | podOrder
  | pciWrite (next : Pc)
  deriving DecidableEq, Repr

/-- Thread states (Table 2-1); OUT is the group's (R17). -/
inductive TState where
  | ready | issuing | waiting (h : Hold) | binned | parked | exited
  deriving DecidableEq, Repr

/-- Progress of a release mark (R203, R204). -/
inductive MarkPhase where
  | stores
  | applied (ids : List Nat)
  deriving DecidableEq, Repr

/-- A store buffer entry (R196, R409). -/
inductive SbKind where
  | global (loc : Loc) (sendAfter : Bool)
  | scratch (off : Nat)
  | mark (scope : Scope) (phase : MarkPhase)
  deriving DecidableEq, Repr

/-- A store buffer entry with its data, and its place in its thread's order of accesses. -/
structure SbEntry where
  seq : Nat
  kind : SbKind
  data : Dword
  size : Nat
  /-- The fetch that it needs was dropped by the polder filter: it is never performed (R380). -/
  dropped : Bool := false
  /-- The store of a release, the first to be performed after it (R204, R223). -/
  release : Bool := false
  deriving DecidableEq, Repr

/-- An outstanding operation of a thread. -/
inductive OpKind where
  /-- A load: `dev` reads under the reading step of R206; `acq` is the acquire's scope; `value` once performed. -/
  | load (space : Space) (loc : Loc) (size d : Nat) (dev : Bool) (acq : Option Scope) (value : Option (List Byte))
  /-- An atomic or a reduction (R225, R226): `sent` once it has left the die, `result` the old value. -/
  | atom (space : Space) (loc : Loc) (desc : RegNum) (operand expected : Dword) (d : Nat) (ret : Bool)
      (acq : Option Scope) (sent : Bool) (result : Option Dword)
  /-- A launch: whether it awaits an entry of its store (R156), its header, its store, and its status once decided. Its
  release mark stands one place before it. -/
  | launch (wait : Bool) (loc : Loc) (store : Nat) (status : Option Nat) (d : Nat)
  | gname (wid : Dword) (d : Nat)
  /-- `fail`: what a failed transfer's trap records (R242). -/
  | transfer (handle : Nat) (fail : Option TrapInfo)
  | tile (op : Nat)
  | podWrite (chan : Nat) (seq : Half)
  | podRead (d size : Nat)
  | podAtom (d size : Nat)
  | pciRead (d : Nat)
  deriving DecidableEq, Repr

/-- An outstanding operation: its place in the thread's order, its class if it is counted, and whether it is done. -/
structure Op where
  id : Nat
  cls : Option OpClass
  kind : OpKind
  done : Bool
  /-- Registers that the operation no longer writes (R59). -/
  cancelled : List Nat
  /-- Its request was dropped by the polder filter: it is never answered (R380). -/
  dropped : Bool := false
  /-- Its context was halted while it awaited an entry of a store: the launch does not start (R393). -/
  held : Bool := false
  deriving DecidableEq, Repr

/-- The phases of a fence that takes more than one step (R208). -/
inductive FencePhase where
  | idle
  | releasing (seq : Nat)
  | ticking (since : Nat)
  deriving DecidableEq, Repr

/-- Where a stepped thread stands (R337): not stepped, about to run its one instruction, or having run the one at a
program counter. -/
inductive StepPhase where
  | no | toRun | ran (pc : Pc)
  deriving DecidableEq, Repr

/-- One thread (R15, R321). -/
structure Thread where
  gidx : Nat
  wid : Dword
  pc : Pc
  state : TState
  lane : Nat
  regs : Table Word
  fe : Table Fe
  fpctl : Word
  fpflags : Word
  /-- sys.status.PL and PPL (Table 19-2). -/
  pl : BitVec 2
  ppl : BitVec 2
  epc : Dword
  cause : Word
  tval : Dword
  vbase : Dword
  ctxid : Word
  polder : Word
  ev : Bool
  pciaddr : Dword
  pcidata : Dword
  sb : List SbEntry
  ops : List Op
  /-- Remote register stores held until their register fills (R29). -/
  remote : List (Nat × Word)
  /-- Places of incomplete acquires, with their scope (R205). -/
  acquires : List (Nat × Scope)
  /-- What a completed barrier or synchronisation orders (R41, R43): a member, and the place in program order from which this
  thread's accesses come after that member's accesses below it. -/
  order : List (Nat × Nat)
  fence : FencePhase
  /-- Step request taken: run one instruction, then trap STEP (R337). -/
  stepping : StepPhase
  /-- Woken to execute its held instruction again: that execution retires nothing further (R361). -/
  resumed : Bool
  trapped : Option TrapInfo
  /-- Registers that carry an uncorrectable error (R415). -/
  regErrors : List Nat
  deriving DecidableEq, Repr

/-! ## Warps and groups -/

/-- Kinds of warp (R409). A parked warp knows whether its repair began in hardware mode (R325, R404). -/
inductive WarpKind where
  | normal | fragment (entry : Nat) | parked (hw : Bool) | halted
  deriving DecidableEq, Repr

/-- A warp: lane positions and the threads at them (R21), when it was formed and when it last won a slot (R352). -/
structure Warp where
  id : Nat
  kind : WarpKind
  lanes : List (Nat × Nat)
  lastWin : Option Nat
  deriving DecidableEq, Repr

/-- A bin: its key and its threads with their entry times (R32, R33). -/
structure Bin where
  key : Pc
  entries : List (Nat × Nat)
  deriving DecidableEq, Repr

/-- Where a group's registers are (R344, R413). -/
inductive Residency where
  | resident (since : Nat)
  | out (since : Nat) (held : Bool)
  | saved (area : Dword) (ctx polder : Nat)
  deriving DecidableEq, Repr

/-- A group (R45), or a control core's hardware thread (R55). -/
structure Group where
  gid : Nat
  /-- A control-core thread's number, `none` on a compute core. -/
  control : Option Nat
  place : Place
  residency : Residency
  /-- Its place among the moves between resident and OUT of one moment (R349). -/
  moved : Nat
  name : Dword
  lid : Nat
  ordinal : Nat
  base : Dword
  widWord : Dword
  entry : Dword
  ctl : Word
  quantum : Word
  rquant : Word
  budget : Nat
  nthr : Nat
  scratchSize : Nat
  scratch : Memory
  tiles : Nat
  /-- Tile data at 65,536 × tile + byte (R247). -/
  tileMem : Memory
  /-- Bitmap bits that are 0, at 65,536 × tile + 512 × row + column (R247). -/
  bitmapZero : List Nat
  /-- Tile bytes and, marked so, bitmap bits that carry an uncorrectable error (R111), by their place as in `tileMem` and
  `bitmapZero`: a change of shape moves none (R247). -/
  tileErrors : List (Nat × Bool)
  /-- Scratchpad bytes that carry an uncorrectable error (R415). -/
  scratchErrors : List Nat
  /-- Sluice counters whose ERR a failed transfer has set: offset, failing row and descriptor base register (R242, Table 23-1). -/
  sluiceFails : List (Nat × Nat × Nat)
  tshape : List Word
  terr : Word
  ovr : Word
  bins : List Bin
  warps : List Warp
  /-- Commands to fragments of the group while it is OUT, by warp, which take effect when it is resident again (R405): 1 RESUME,
  2 SKIP, 3 KILL, as ACTION codes them (R409). -/
  actions : List (Nat × Nat)
  threads : Table Thread
  blocks : List Nat
  granules : List Nat
  tileRegs : List Nat
  /-- Gang products issued since placement (R261). -/
  gangIssued : Nat
  deriving DecidableEq, Repr

/-! ## Cores and dies -/

/-- A stroke: a lane set on an issue slot (R24). -/
structure Stroke where
  die : Nat
  core : Nat
  slot : Nat
  gid : Nat
  warp : Nat
  lanes : List Nat
  count : Nat
  /-- A read that its instruction needs was dropped by the polder filter: it does not go on (R380). -/
  dropped : Bool := false
  deriving DecidableEq, Repr

/-- A transfer that an engine moves (R233 to R239). -/
structure Transfer where
  die : Nat
  core : Nat
  handle : Nat
  gid : Nat
  gidx : Nat
  op : Nat
  gather : Bool
  gaddr : Dword
  laddr : Word
  len : Word
  stride : Word
  sluice : Word
  flags : Word
  bounds : Word
  index : Word
  base : Nat
  row : Nat
  col : Nat
  /-- Where the issuing instruction stands, and the issuing operation. -/
  pc : Pc
  opId : Nat
  /-- The fault that stops it, and whether its repair began in hardware mode (R242, R325). -/
  fault : Option (TrapInfo × Bool)
  /-- A packet of it was dropped by the polder filter: it does not go on (R380). -/
  dropped : Bool := false
  /-- Of a transfer from a tile: bytes at addresses below this one have moved (R195). -/
  upTo : Nat := 0
  /-- How many bytes the packet that met `fault` was asked for (R242). -/
  asked : Nat := 0
  /-- Bytes that have moved into the table region and are not counted yet (R239, R371). -/
  moved : Nat := 0
  deriving DecidableEq, Repr

/-- A tile operation that has been issued and has not completed (R252, R254). -/
structure TileOp where
  id : Nat
  die : Nat
  core : Nat
  gid : Nat
  /-- The issuing lanes: group index and operation number in the thread. -/
  lanes : List (Nat × Nat)
  instr : Instr
  shapes : List Word
  rm : Nat
  /-- The parts of each row in memory, translated at issue. -/
  rows : List (List (Loc × Nat))
  /-- `trd`, `twr`: each lane's index, data and destination. -/
  args : List (Nat × Word × Dword × Nat)
  rank : Nat
  gang : Option Nat
  /-- An access of it was dropped by the polder filter: it does not complete (R380). -/
  dropped : Bool := false
  /-- `tld`, `tst`: bytes at addresses below this one have moved (R195, R253). -/
  upTo : Nat := 0
  /-- `tld`: the bytes read so far, row after row (R256). -/
  buffer : Memory := []
  deriving DecidableEq, Repr

/-- A core's engines and maps. -/
structure Core where
  /-- Fragment table: entry to group, warp, and whether its repair began in hardware mode (R36, R325). -/
  frags : Table (Nat × Nat × Bool)
  freeBlocks : List Nat
  freeGranules : List Nat
  freeTiles : List Nat
  /-- Generation of each slot (R47), and when a slot was freed. -/
  gens : Table Half
  freed : Table Nat
  /-- When the quantum timer started and its length, if it runs (R349). -/
  quantum : Option (Nat × Nat)
  deriving DecidableEq, Repr

/-- A block of the working store (R188, R196). -/
structure Block where
  key : Nat
  bytes : Memory
  twin : Option Memory
  /-- When the twin was made, and by which context (R390, R415). -/
  twinAge : Nat
  twinCtx : Nat
  twinPolder : Nat
  twinSupervisor : Bool
  deriving DecidableEq, Repr

/-- A difference's run: offset in the block and data (R190). -/
structure Run where
  offset : Nat
  data : List Byte
  deriving DecidableEq, Repr

/-- What waits to be applied at a home (R196). -/
inductive ApplyKind where
  | diff (block : Nat) (runs : List Run) (supervisor : Bool)
  | atomic (gid gidx op : Nat) (loc : Loc) (desc : RegNum) (operand expected : Dword) (ret : Bool)
  | podWrite (p : Packet) (loc : Loc)
  | podFlag (p : Packet) (loc : Loc)
  | podRead (p : Packet) (loc : Loc)
  | podAtom (p : Packet) (loc : Loc)
  deriving DecidableEq, Repr

/-- An entry of a sent set or of an apply queue, with the die that sent it. -/
structure ApplyEntry where
  id : Nat
  src : Nat
  home : Nat
  polder : Nat
  kind : ApplyKind
  deriving DecidableEq, Repr

/-- A fault record (Table 23-3), before it is written. -/
structure FaultRecord where
  name : Dword
  pc : Dword
  tval : Dword
  lanes : Word
  lane : Byte
  cause : Byte
  entry : Byte
  flags : Byte
  core : Byte
  slot : Byte
  aux : Byte
  handle : Byte
  detail : Word
  deriving DecidableEq, Repr

/-- A name-table entry (R48): slot and generation, and the group. -/
structure NameEntry where
  slot : Nat
  gen : Half
  gid : Nat
  deriving DecidableEq, Repr

/-- A cached translation entry (R372): its table-region offset and its value. -/
structure TlbEntry where
  offset : Nat
  value : Dword
  deriving DecidableEq, Repr

/-- A step request that waits (R337). -/
structure StepRequest where
  gid : Nat
  gidx : Nat
  /-- The instruction that the thread has run, if it was stepped. -/
  ran : Option Pc
  deriving DecidableEq, Repr

/-- A batch of service records that waits for its ring (R152, R329). -/
structure SvcBatch where
  die : Nat
  records : List (Nat × List Byte)
  /-- The release marks that come before the records: group, thread and place. -/
  marks : List (Nat × Nat × Nat)
  deriving DecidableEq, Repr

/-- A die (compute dies 0–31, I/O dies 32 and 33). -/
structure Die where
  svcring : Word
  stale : Word
  fring : Dword
  fringCtx : Nat
  fringPolder : Nat
  hloc : Dword
  hrem : Dword
  lost : Bool
  /-- The lost die has left reset, and waits to be marked live in its polder (R374, R392). -/
  leftReset : Bool
  work : List Block
  /-- What space k has read and the die keeps: location and bytes (R179). -/
  kcopies : List (Nat × List Byte)
  /-- Blocks that the die held at its latest `cctl.kinv`: space k reads their home copies (R231). -/
  kinvHeld : List Nat
  sent : List ApplyEntry
  queue : List ApplyEntry
  records : List (List FaultRecord)
  podQueue : List Packet
  names : List NameEntry
  tlb : List TlbEntry
  /-- The inkwell sizes in force, as exponents (R389). -/
  inkSize : BitVec 3
  /-- On dies 0 and 31, the size in force of the I/O die's pool in the reserve (R389). -/
  ioInkSize : BitVec 3
  /-- The spillway sends: the fill has exceeded 90 per cent and has not fallen to 85 (R390). -/
  spilling : Bool
  deriving DecidableEq, Repr

/-! ## Launches and folios -/

/-- A launch header as fields (Tables 20-1 to 20-3). -/
structure Header where
  entry : Dword
  param : Dword
  base : Dword
  groups : Nat
  wid : Dword
  scratch : Nat
  ctl : Word
  dies : Word
  quantum : Word
  rquant : Word
  preds : Nat
  done : Dword
  doneVal : Word
  succn : Nat
  succOff : Nat
  deriving DecidableEq, Repr

/-- Where a launch stands. -/
inductive LaunchPhase where
  | queued | started
  deriving DecidableEq, Repr

/-- A launch (R342 to R346, R358, R361, R420). -/
structure Launch where
  lid : Nat
  header : Header
  ctx : Nat
  polder : Nat
  store : Nat
  phase : LaunchPhase
  /-- The release mark of its issuer that comes before it: group, thread and place (R155). -/
  mark : Option (Nat × Nat × Nat)
  admitted : Nat
  budget : Nat
  /-- Dies that ran a group of the launch (R358). -/
  dies : List Nat
  node : Option (Nat × Nat)
  retired : Nat
  /-- Retired instructions since the last replay slice (R360). -/
  sliceRetired : Nat
  /-- Its context was halted before it had admitted all its groups: it admits none (R393). -/
  held : Bool
  stopAsked : Bool
  stopped : Bool
  /-- Ordinals of the groups restored since a stop, and the RETIRED that the first of them carried (R421). -/
  restored : List Nat
  resumeAt : Nat
  /-- The core of a replay launch that has started (R359), and the one that its groups are being restored to (R421). -/
  onCore : Option (Nat × Nat)
  target : Option (Nat × Nat)
  /-- Residency of the groups at the stop, by ordinal, with their places among the moves: it is theirs again when all have been
  restored (R362). -/
  before : List (Nat × Residency × Nat)
  lastKey : Nat
  deriving DecidableEq, Repr

/-- A folio engine's folio (R353 to R356). -/
structure Folio where
  fid : Nat
  die : Nat
  base : Dword
  ctx : Nat
  polder : Nat
  run : Bool
  err : Bool
  runs : Word
  /-- Outstanding predecessors of each node of the run, and whether it was submitted and has completed. -/
  nodes : List (Nat × Bool × Bool)
  /-- FSTATE is yet to be written, after a halt that ended the run (R356). -/
  stale : Bool
  /-- An access of its engine was dropped by the polder filter: the engine does not go on with it (R380). -/
  dropped : Bool := false
  deriving DecidableEq, Repr

/-- A `ctxsv` or `ctxld` in progress (R338). -/
structure SaveRequest where
  load : Bool
  gid : Nat
  area : Dword
  placement : Word
  ctx : Nat
  polder : Nat
  pl : BitVec 2
  die : Nat
  /-- The retired count to save or to check under replay (R420, R421). -/
  name : Dword
  /-- An access to its area was dropped by the polder filter: it does not complete (R380). -/
  dropped : Bool := false
  deriving DecidableEq, Repr

/-! ## Tokens -/

/-- A holder of tokens of a line: an agent (R384). -/
structure Holder where
  die : Nat
  tokens : Nat
  owner : Bool
  deriving DecidableEq, Repr

/-- A token message under way to a die's agent, or home (`none`). -/
structure TokenMsg where
  line : Nat
  dest : Option Nat
  tokens : Nat
  owner : Bool
  data : List Byte
  deriving DecidableEq, Repr

/-- A line whose tokens are not all at home, or that is poisoned (R384, R394). -/
structure TokenLine where
  key : Nat
  homeTokens : Nat
  homeOwner : Bool
  holders : List Holder
  /-- The data of the owner token's holder when it is not home. -/
  data : List Byte
  poisoned : Bool
  deriving DecidableEq, Repr

/-- A transient request that an agent has outstanding (R386). -/
structure TokenReq where
  die : Nat
  /-- The polder that its packets carry (R380). -/
  polder : Nat
  line : Nat
  write : Bool
  first : Nat
  last : Nat
  deriving DecidableEq, Repr

/-- A request message under way to an agent or home. -/
structure ReqMsg where
  src : Nat
  line : Nat
  write : Bool
  dest : Option Nat
  deriving DecidableEq, Repr

/-- The token agents (R384 to R388). -/
structure Tokens where
  lines : List TokenLine
  msgs : List TokenMsg
  reqs : List TokenReq
  reqMsgs : List ReqMsg
  /-- Active persistent requests: die, line, and whether it has had its access (R387). -/
  persistent : List (Nat × Nat × Bool)
  /-- For each die: persistent requests that must end before it issues another (R387). -/
  waiting : List (Nat × List (Nat × Nat))
  deriving DecidableEq, Repr

/-! ## The pod fabric -/

/-- Sender state of a channel (Table 13-1), and the sequences for which an expiry has been sent (R277). -/
structure Channel where
  chan : Nat
  ctx : Nat
  dest : Nat
  nseq : Half
  cnt : Nat
  plast : List Half
  anc : Half
  expired : List Half
  /-- Sequences that have left the replay buffer, with the time at which their latest copy left the chip. -/
  recent : List (Half × Nat)
  deriving DecidableEq, Repr

/-- A packet that waits to leave the chip, with the operation that completes when it has left (R210); `again` for a
retransmission or a repeated request, `asked` for one that a gap request named (R276, R285). -/
structure Outgoing where
  packet : Packet
  owner : Option (Nat × Nat × Nat)
  again : Bool
  asked : Bool := false
  deriving DecidableEq, Repr

/-- A copy that has left the chip (R269, R276): when, whether it holds a slot of its receiver, whether it travels to the
receiver directly, whether it is lost, whether this chip, being its receiver, has received it, and whether another copy's
credit or the sequence's expiry has come, so that its slot returns if it is lost. -/
structure Copy where
  packet : Packet
  left : Nat
  slot : Bool
  direct : Bool
  lost : Bool
  here : Bool
  paid : Bool
  deriving DecidableEq, Repr

/-- A channel packet in the replay buffer (R276). -/
structure Kept where
  packet : Packet
  firstLeft : Nat
  lastLeft : Nat
  credited : Bool
  deriving DecidableEq, Repr

/-- A flag that awaits its thread's release mark (R286, R289): the mark's place, and the packet without its sequence. -/
structure PendingFlag where
  gid : Nat
  gidx : Nat
  op : Nat
  mark : Nat
  packet : Packet
  deriving DecidableEq, Repr

/-- Receiver state of a channel of a sending chip (Table 13-1, R273 to R277). -/
structure RecvChannel where
  src : Nat
  chan : Nat
  lastf : Half
  hseq : Half
  miss : List Half
  /-- Sequences after LASTF that have arrived or were discarded. -/
  arrived : List Half
  /-- Sequences that the polder filter dropped on the way to their die: they arrive nowhere (R380). -/
  filtered : List Half
  /-- The polder of the channel's last packet. -/
  polder : Nat
  /-- Flags withheld, with their time of arrival. -/
  withheld : List (Packet × Nat)
  /-- Writes held behind their PREV, with their time of arrival. -/
  heldWrites : List (Packet × Nat)
  /-- A flag of the channel is in an apply queue or a fault queue. -/
  applying : Bool
  /-- The first sequence lost: the flag that covers it and every later flag is discarded (R277). -/
  dead : Option Half
  notice : Bool
  lastGap : Option Nat
  deriving DecidableEq, Repr

/-- A `pld` or `patom` request (R285): its thread, operation and address, when it first and last left, whether it is still
unanswered, and when it ceased to be. -/
structure PodRequest where
  tag : Half
  gid : Nat
  gidx : Nat
  op : Nat
  ctx : Nat
  packet : Packet
  first : Option Nat
  last : Nat
  waits : Bool
  va : Dword := 0
  ended : Option Nat := none
  deriving DecidableEq, Repr

/-- A `patom` reply kept for repeated tags (R285); `none` while the atomic waits in its apply queue. -/
structure KeptReply where
  src : Nat
  tag : Half
  reply : Option Packet
  since : Nat
  deriving DecidableEq, Repr

/-- The pod fabric at this chip. -/
structure Pod where
  chip : Nat
  channels : List Channel
  kept : List Kept
  outWait : List Outgoing
  copies : List Copy
  flags : List PendingFlag
  recv : List RecvChannel
  /-- Remote register stores that a register holds (R29), with the group and thread: they have not arrived (R290). -/
  holding : List (Packet × Nat × Nat)
  requests : List PodRequest
  nextTag : Half
  replies : List KeptReply
  arrivals : List Packet
  /-- What other chips, or this one, tell of discarded packets: the channel, 4096 for a request, and the sequence or tag. -/
  lossNotices : List (Nat × Half)
  /-- Credits sent back: chip, channel, sequence (R269). -/
  credits : List (Nat × Nat × Half)
  /-- Sending chips told of a discarded write: chip, channel, sequence (R293). -/
  noticesOut : List (Nat × Nat × Half)
  /-- Requests and replies for which a credit came less than 2 ms ago: chip, what the credit names (`Packet.creditChan`), tag, time. -/
  paidTags : List (Nat × Nat × Half × Nat)
  deriving DecidableEq, Repr

/-! ## Ports, boot and the outside world -/

/-- A downstream request that awaits its completion (R426). -/
structure PciOut where
  gid : Nat
  op : Nat
  port : Nat
  config : Bool
  write : Bool
  addr : Dword
  size : Nat
  data : Dword
  sent : Nat
  deriving DecidableEq, Repr

/-- The firmware image of the flash: its bytes at the link address, and its header's entries (R324, R436). -/
structure Image where
  bytes : List Byte
  entry : Pc
  secondary : Pc
  trap : Dword
  signature : List Byte
  deriving DecidableEq, Repr

/-- Where boot stands (R436). -/
inductive BootPhase where
  | check | running | recovery
  deriving DecidableEq, Repr

/-- A chip's place in the election (R437 to R439). -/
structure Election where
  state : ClaimState
  lowest : Option Dword
  /-- Serials left out after a silent leader. -/
  without : List Dword
  /-- When the last progress beat was sent, or received, and when the last claim was sent. -/
  lastBeat : Nat
  lastClaim : Option Nat
  /-- Serials seen, with the CHIP index assigned and whether the follower is marked complete. -/
  followers : List (Dword × Nat × Bool)
  /-- The follower being loaded, with the time at which its configuration was last sent. -/
  sentTo : Option (Dword × Nat)
  loading : Bool
  configured : Bool
  /-- The indices that an earlier leader assigned are kept (R439). -/
  kept : Bool
  deriving DecidableEq, Repr

/-- How an inbound request is completed (R425, R427): as Unsupported Request or Completer Abort where it is refused. -/
inductive PciStatus where
  | success | unsupported | abort
  deriving DecidableEq, Repr

/-- What the sideband port answers (R429 to R431, R436): a request taken, an error, an SPDM response with what it measures and its
further bytes, the algorithms negotiated (bits of the RSA key and of the digest), or ERROR, UnsupportedRequest. -/
inductive SidebandAnswer where
  | accepted (k : SidebandKind)
  | error (k : SidebandKind)
  | spdm (k : SidebandKind) (measured rest : List Byte)
  | algorithms (rsa sha : Nat) (rest : List Byte)
  | unsupported (k : SidebandKind)
  deriving DecidableEq, Repr

/-- Ports and the parts around the module (R425 to R443). -/
structure Ports where
  /-- Root ports whose link is down. -/
  rootDown : List Nat
  inbound : List (Nat × PciRequest)
  /-- Completions returned to requesters: port, tag, status, data. -/
  completions : List (Nat × Nat × PciStatus × List Byte)
  /-- Faults of inbound requests that the ports' AER registers log: port and bus address (R427). -/
  aer : List (Nat × Dword)
  outstanding : List PciOut
  posted : List PciOut
  pciIn : List (Nat × Nat × Bool × Dword)
  /-- Pod ports that are down, with the time. -/
  podDown : List (Nat × Nat)
  /-- Links that wait for retraining. -/
  retrain : List LinkName
  sideband : List SidebandMsg
  sidebandOut : List SidebandAnswer
  nonces : List Nat
  failures : List Nat
  resetWindow : Option Nat
  /-- Claims sent: pod port and claim. -/
  claimsOut : List (Nat × Claim)
  beatsOut : List (List Byte)
  claimsIn : List (Nat × Claim)
  beatsIn : List (Dword × List Byte)
  /-- Load messages that came in, by their sender, and that went out, by their receiver. -/
  configsIn : List (Dword × LoadMsg)
  configsOut : List (Dword × LoadMsg)
  powerIn : List Nat
  junctionIn : List (Nat × Nat)
  alarmIn : List AlarmCause
  /-- Steps of 125 MHz by which the arithmetic clock is lowered (R442). -/
  throttle : Nat
  staged : List Byte
  image : Option Image
  keys : Bool
  eraseFuse : Bool
  boot : BootPhase
  measurement2 : List Byte
  election : Election
  deriving DecidableEq, Repr

/-- What the outside world gives to an input queue. -/
inductive Input where
  | packet (p : Packet)
  | loss (chan : Nat) (seq : Half)
  | sideband (m : SidebandMsg)
  | pci (port : Nat) (r : PciRequest)
  | completion (gid op : Nat) (error : Bool) (data : Dword)
  | claim (port : Nat) (c : Claim)
  | beat (serial : Dword) (signature : List Byte)
  | config (serial : Dword) (m : LoadMsg)
  | power (w : Nat)
  | junction (die celsius : Nat)
  | alarm (c : AlarmCause)
  /-- The monitor sets the key store's erase-on-alarm fuse (R440): the spec names no register or instruction that does. DESIGN CHOICE,
  log entry 93. -/
  | fuse
  deriving DecidableEq, Repr

/-- Which agent moves next (log entry 4): a step of the abstract machine or of a device, an instruction of the
lane set on an issue slot, the passing of time, something from outside, the arrival of a sent entry at a home, or the
boot code's check after a reset. -/
inductive Turn where
  | boot
  | event (i : Instr)
  | issue (die core slot : Nat)
  | advance (cycles : Nat)
  | input (x : Input)
  | arrive (die home : Nat)
  deriving DecidableEq, Repr

/-- Module registers (scope Module of Tables 19-1 and 26-1). -/
structure ModuleRegs where
  assist : Word
  filter : Word
  ntarget : Word
  plmap : Word
  notice : Word
  pwrcap : Word
  dmactx : List Word
  deriving DecidableEq, Repr

/-- A table-region store that the table-update engine writes (R371). -/
structure TableStore where
  offset : Nat
  data : List Byte
  /-- The replicas that still lack it; with none left, what waits for a translation is yet to be walked again. -/
  left : List Nat
  /-- The die whose engine it came to. -/
  die : Nat
  /-- The threads that made it, each with its place in that thread's order: group, thread and place. A tile store has every lane that
  issued it (R251). -/
  issuers : List (Nat × Nat × Nat)
  pl : BitVec 2
  deriving DecidableEq, Repr

/-- An invalidation in progress (R333, R373), and the caches that have not acknowledged it. -/
structure Tlbi where
  id : Nat
  kind : Nat
  va : Dword
  ctx : Nat
  polder : Nat
  gid : Nat
  gidx : Nat
  /-- Its place in its issuer's order. -/
  seq : Nat
  left : List Nat
  deriving DecidableEq, Repr

/-- Sequence counters of the model (log entry 4): they name things, and no spec value depends on them. -/
structure Counters where
  gid : Nat
  lid : Nat
  op : Nat
  send : Nat
  win : Nat
  tlbi : Nat
  deriving DecidableEq, Repr

/-- One module. -/
structure State where
  agenda : List Turn
  /-- The issue slot whose lane set issues when the agenda is empty: die, core, slot. -/
  cur : Nat × Nat × Nat
  /-- Time since reset in 0.5 ns periods, which every figure in cycles counts (R63, R442). -/
  clock : Nat
  /-- Ticks of the heartbeat (R196). -/
  ticks : Nat
  regs : ModuleRegs
  mem : Memory
  /-- Poisoned 32-byte sectors, by storage key (R415). -/
  poison : List Nat
  dies : Table Die
  cores : Table Core
  groups : Table Group
  strokes : List Stroke
  transfers : List Transfer
  tileOps : List TileOp
  launches : List Launch
  folios : List Folio
  saves : List SaveRequest
  steps : List StepRequest
  batches : List SvcBatch
  tableStores : List TableStore
  tlbis : List Tlbi
  tokens : Tokens
  pod : Pod
  ports : Ports
  next : Counters
  deriving DecidableEq, Repr

/-! ## Reset -/

/-- A control-core thread after module reset (R324): monitor level, held as by `halt`. Registers and special
registers without a reset value are 0 (log entry 2). -/
def Thread.controlReset : Thread :=
  { gidx := 0, wid := 0, pc := 0, state := .waiting (.wfe 0), lane := 0, regs := [], fe := [], fpctl := 0, fpflags := 0,
    pl := 2, ppl := 0, epc := 0, cause := 0, tval := 0, vbase := 0, ctxid := 0, polder := 0, ev := false,
    pciaddr := 0, pcidata := 0, sb := [], ops := [], remote := [], acquires := [], order := [], fence := .idle, stepping := .no,
    resumed := false, trapped := none, regErrors := [] }

/-- Where control-core thread k of the module stands: I/O die, control core, hardware thread (R326). -/
def controlPlace (k : Nat) : Place := ⟨32 + k / 96, (k % 96) / 2, k % 2⟩

/-- Control-core thread k as a group of one (R55, R326). -/
def Group.controlReset (k : Nat) : Group :=
  { gid := k, control := some k, place := controlPlace k, residency := .resident 0, moved := 0, name := 0, lid := 0, ordinal := 0,
    base := 0, widWord := 0, entry := 0, ctl := 0, quantum := 0, rquant := 0, budget := 128, nthr := 1,
    scratchSize := 0, scratch := [], tiles := 0, tileMem := [], bitmapZero := [], tileErrors := [], scratchErrors := [],
    sluiceFails := [],
    tshape := [0, 0, 0, 0, 0, 0, 0, 0], terr := 0, ovr := 0, bins := [],
    warps := [⟨0, .normal, [(0, 0)], none⟩], actions := [], threads := [(0, Thread.controlReset)], blocks := [], granules := [],
    tileRegs := [], gangIssued := 0 }

/-- A die after module reset (R324, R389). -/
def Die.reset : Die :=
  { svcring := 63, stale := 0, fring := 0, fringCtx := 0, fringPolder := 0, hloc := 0, hrem := 0, lost := false,
    leftReset := false, work := [], kcopies := [], kinvHeld := [], sent := [], queue := [], records := [], podQueue := [], names := [],
    tlb := [], inkSize := 4, ioInkSize := 4, spilling := false }

/-- A core after module reset: everything is free (R47, R347, R348). -/
def Core.reset : Core :=
  { frags := [], freeBlocks := List.range 32, freeGranules := List.range 32, freeTiles := List.range 8, gens := [],
    freed := [], quantum := none }

/-- The module registers after module reset (R324, Tables 26-1, 26-3 and 26-4). -/
def ModuleRegs.reset : ModuleRegs :=
  { assist := 0, filter := 0, ntarget := 0x00002000, plmap := 0x00FAC688, notice := 0, pwrcap := 0,
    dmactx := [0, 0, 0, 0, 0, 0, 0, 0] }

/-- The pod fabric after module reset: no channel, nothing kept (R294). -/
def Pod.reset : Pod :=
  { chip := 0, channels := [], kept := [], outWait := [], copies := [], flags := [], recv := [], holding := [], requests := [],
    nextTag := 0, replies := [], arrivals := [], lossNotices := [], credits := [],
    noticesOut := [], paidTags := [] }

/-- The election after module reset (R437). -/
def Election.reset : Election :=
  { state := .claiming, lowest := none, without := [], lastBeat := 0, lastClaim := none, followers := [],
    sentTo := none, loading := false, configured := false, kept := false }

/-- Ports after module reset: links up, nothing queued, the boot check to be made. The image and the keys are what
the flash and the key store hold (R430). -/
def Ports.reset (image : Option Image) (keys eraseFuse : Bool) : Ports :=
  { rootDown := [], inbound := [], completions := [], aer := [], outstanding := [], posted := [], pciIn := [], podDown := [],
    retrain := [], sideband := [], sidebandOut := [], nonces := [], failures := [], resetWindow := none,
    claimsOut := [], beatsOut := [], claimsIn := [], beatsIn := [], configsIn := [], configsOut := [], powerIn := [],
    junctionIn := [], alarmIn := [], throttle := 0, staged := [], image := image, keys := keys,
    eraseFuse := eraseFuse, boot := .check, measurement2 := [], election := Election.reset }

/-- No tokens away from home. -/
def Tokens.reset : Tokens := { lines := [], msgs := [], reqs := [], reqMsgs := [], persistent := [], waiting := [] }

/-- Compute groups are numbered from 192, after the control-core threads. -/
def Counters.reset : Counters := { gid := 192, lid := 1, op := 1, send := 1, win := 1, tlbi := 1 }

/-- The module right after reset with what the flash and the key store hold: the boot check comes next (R436). -/
def State.resetWith (image : Option Image) (keys eraseFuse : Bool) : State :=
  { agenda := [], cur := (32, 0, 0), clock := 0, ticks := 0, regs := ModuleRegs.reset, mem := [], poison := [],
    dies := [], cores := [], groups := [], strokes := [], transfers := [], tileOps := [], launches := [],
    folios := [], saves := [], steps := [], batches := [], tableStores := [], tlbis := [],
    tokens := Tokens.reset, pod := Pod.reset, ports := Ports.reset image keys eraseFuse, next := Counters.reset }

/-- The module right after reset (R324, R430): flash and key store as log entry 3 states. -/
def State.reset : State := State.resetWith none true false

/-! ## Faults and refusals -/

/-- Why a step can stop. No trap of the spec stops the machine. -/
inductive Fault where
  /-- Raised by every encoded instruction when the current issue slot holds no lane set: nothing executes it. `step`
  never raises it, since it executes an instruction only for a lane set. Safe: the machine stops where the
  hardware executes nothing. -/
  | noLaneSet
  deriving DecidableEq, Repr

/-- Why an instruction has no meaning. -/
inductive Refusal where
  /-- Raised by `exec` for a row that has no meaning yet. Safe: nothing is claimed of the instruction. -/
  | notModelled (mnemonic : String)
  deriving DecidableEq, Repr

end Sys2Proof.Machine
end

