-- ==== Sys2Proof/Machine/Tables.lean ====
section
/-!
DEFINITION. Tables and memory as sorted lists, bytes and numbers, and the accessors of the state's parts.
-/
namespace Sys2Proof.Machine

open Sys2Proof

/-- What a table holds at a key, `d` where it lists nothing. The search ends at the first higher key. -/
def tget {β : Type} (d : β) : Table β → Nat → β
  | [], _ => d
  | (k, v) :: t, i => if i < k then d else if i = k then v else tget d t i

/-- The entry at a key, if the table lists one. -/
def tfind {β : Type} : Table β → Nat → Option β
  | [], _ => none
  | (k, v) :: t, i => if i < k then none else if i = k then some v else tfind t i

/-- The table with an entry at a key, kept sorted. -/
def tput {β : Type} : Table β → Nat → β → Table β
  | [], i, v => [(i, v)]
  | (k, w) :: t, i, v =>
    if i < k then (i, v) :: (k, w) :: t else if i = k then (i, v) :: t else (k, w) :: tput t i v

/-- The table without an entry at a key; what stands behind the key out of order goes with it, so that a table in any
order answers as its sorted part does. -/
def tdel {β : Type} : Table β → Nat → Table β
  | [], _ => []
  | (k, w) :: t, i =>
    if i < k then (k, w) :: t else if i = k then t.dropWhile fun e => e.1 ≤ i else (k, w) :: tdel t i

/-- The table that holds `v` at a key, listing it only where it differs from the default. -/
def tset {β : Type} [DecidableEq β] (d : β) (t : Table β) (i : Nat) (v : β) : Table β :=
  if v = d then tdel t i else tput t i v

/-- Keys rise strictly and no entry equals the default: the one canonical form. -/
def twf {β : Type} [DecidableEq β] (d : β) : Table β → Bool
  | [] => true
  | [(_, v)] => v ≠ d
  | (k, v) :: (k', v') :: t => v ≠ d && k < k' && twf d ((k', v') :: t)

/-- Home memory is keyed from here on; scratchpads, tiles and blocks are keyed from 0 and lie below. -/
def Memory.homeBase : Nat := 2 ^ 43

/-- The little-endian byte of a number at a byte place. -/
def byteAt (v i : Nat) : Byte := BitVec.ofNat 8 (v / 2 ^ (8 * i))

/-- The pair of dies of a full-mesh connection entry (R382): the row of `a` starts at entry a × (67 − a) / 2. -/
def meshPair : Nat → Nat → Nat → Nat × Nat
  | 0, a, e => (a, a + 1 + e)
  | n + 1, a, e => if e < 33 - a then (a, a + 1 + e) else meshPair n (a + 1) (e - (33 - a))

/-- A connection table entry at reset (Table 22-4): a full mesh of 4 wavelengths, up, with no spare. -/
def meshEntry (e : Nat) : Nat :=
  if e < 561 then
    let p := meshPair 33 0 e
    2 ^ 36 + 4 * 2 ^ 28 + 4 * 2 ^ 24 + p.2 * 2 ^ 13 + p.1 * 2 ^ 7 + 1
  else 0

/-- A byte of a polder entry at reset (Table 22-2). -/
def polderResetByte (p i : Nat) : Byte :=
  if 24 ≤ i ∧ i < 32 then byteAt (0x1FFFFFF * 2 ^ 32) (i - 24)
  else if p = 0 then
    if i < 8 then byteAt 0xFFFFFFFF i
    else if i < 16 then byteAt 0xFFFFFFFFFFFF (i - 8)
    else if i < 24 then byteAt 0xFFFFFFFFFFFF (i - 16)
    else if i = 40 then 1
    else 0
  else 0

/-- A byte of the monitor tables at reset (R376, Table 22-1). -/
def tableResetByte (o : Nat) : Byte :=
  if 0x8000 ≤ o ∧ o < 0x8800 then polderResetByte ((o - 0x8000) / 64) (o % 64)
  else if 0x8800 ≤ o ∧ o < 0x8910 then byteAt 4 (o % 8)
  else if 0x9000 ≤ o ∧ o < 0xB000 then byteAt (meshEntry ((o - 0x9000) / 8)) (o % 8)
  else 0

/-- What an unlisted byte reads as: in a replica of the table region its value at reset (Tables 22-2 to 22-4); 0 in a
scratchpad (R180), a tile (R247) or a block, and, DESIGN CHOICE, log entry 1, in the rest of home memory. -/
def Memory.unlisted (a : Nat) : Byte :=
  if a < Memory.homeBase then 0
  else if a % 2 ^ 37 < 0xB000 then tableResetByte (a % 2 ^ 37) else 0

/-- One byte of a memory. -/
def Memory.read (m : Memory) (a : Nat) : Byte := tget (Memory.unlisted a) m a

/-- A memory with one byte written. -/
def Memory.write (m : Memory) (a : Nat) (b : Byte) : Memory := tset (Memory.unlisted a) m a b

/-- The canonical form of a memory: addresses strictly rising, no byte equal to what an unlisted one reads as. -/
def Memory.wf : Memory → Bool
  | [] => true
  | [(a, b)] => b ≠ Memory.unlisted a
  | (a, b) :: (a', b') :: m => b ≠ Memory.unlisted a && a < a' && Memory.wf ((a', b') :: m)

/-- `n` bytes from an address. -/
def Memory.readN (m : Memory) (a : Nat) : Nat → List Byte
  | 0 => []
  | n + 1 => m.read a :: Memory.readN m (a + 1) n

/-- Bytes written from an address. -/
def Memory.writeN (m : Memory) (a : Nat) : List Byte → Memory
  | [] => m
  | b :: bs => Memory.writeN (m.write a b) (a + 1) bs

/-- The listed bytes of a range, rebased to its start. -/
def Memory.slice (m : Memory) (a n : Nat) : Memory :=
  (m.filter fun c => a ≤ c.1 && c.1 < a + n).map fun c => (c.1 - a, c.2)

/-- A little-endian number from bytes (R4). -/
def natOfBytes : List Byte → Nat
  | [] => 0
  | b :: bs => b.toNat + 256 * natOfBytes bs

/-- The low `n` bytes of a number, lowest first (R4). -/
def bytesOfNat (v : Nat) : Nat → List Byte
  | 0 => []
  | n + 1 => BitVec.ofNat 8 v :: bytesOfNat (v / 256) n

/-- A word from bytes. -/
def wordOfBytes (bs : List Byte) : Word := BitVec.ofNat 32 (natOfBytes bs)
/-- A double from bytes. -/
def dwordOfBytes (bs : List Byte) : Dword := BitVec.ofNat 64 (natOfBytes bs)

/-- First element of a list that a test accepts, with its position. -/
def findAt {α : Type} (p : α → Bool) : List α → Nat → Option (Nat × α)
  | [], _ => none
  | x :: xs, i => if p x then some (i, x) else findAt p xs (i + 1)

/-- A list with its elements that a test accepts changed. -/
def mapIf {α : Type} (p : α → Bool) (f : α → α) (xs : List α) : List α := xs.map fun x => if p x then f x else x

/-- The least element of a list by a measure, the earliest of equals. -/
def leastBy {α : Type} (f : α → Nat) : List α → Option α
  | [] => none
  | x :: xs =>
    match leastBy f xs with
    | none => some x
    | some y => if f y < f x then some y else some x

/-- A list sorted by insertion, rising by a measure, equals kept in order. -/
def insertBy {α : Type} (f : α → Nat) (x : α) : List α → List α
  | [] => [x]
  | y :: ys => if f x < f y then x :: y :: ys else y :: insertBy f x ys

/-- A list sorted by a measure. -/
def sortBy {α : Type} (f : α → Nat) (xs : List α) : List α := xs.foldl (fun acc x => insertBy f x acc) []

/-! ## Parts of the state -/

/-- A group by number; a control-core thread that nothing has changed is as at reset. -/
def State.group (s : State) (gid : Nat) : Option Group :=
  match tfind s.groups gid with
  | some g => some { g with gid := gid }
  | none => if gid < 192 then some (Group.controlReset gid) else none

/-- The state with a group's record. -/
def State.putGroup (s : State) (g : Group) : State := { s with groups := tput s.groups g.gid g }

/-- The state with a group changed. -/
def State.modGroup (s : State) (gid : Nat) (f : Group → Group) : State :=
  match s.group gid with
  | some g => s.putGroup { f g with gid := gid }
  | none => s

/-- A group's thread. -/
def Group.thread (g : Group) (t : Nat) : Option Thread := (tfind g.threads t).map fun x => { x with gidx := t }

/-- The group with a thread's record. -/
def Group.putThread (g : Group) (t : Nat) (x : Thread) : Group := { g with threads := tput g.threads t x }

/-- The group with a thread changed. -/
def Group.modThread (g : Group) (t : Nat) (f : Thread → Thread) : Group :=
  match g.thread t with
  | some x => g.putThread t (f x)
  | none => g

/-- A thread of the state. -/
def State.thread (s : State) (gid t : Nat) : Option Thread :=
  match s.group gid with
  | some g => g.thread t
  | none => none

/-- The state with a thread changed. -/
def State.modThread (s : State) (gid t : Nat) (f : Thread → Thread) : State := s.modGroup gid fun g => g.modThread t f

/-- A die's record. -/
def State.die (s : State) (d : Nat) : Die := tget Die.reset s.dies d
/-- The state with a die changed. -/
def State.modDie (s : State) (d : Nat) (f : Die → Die) : State := { s with dies := tset Die.reset s.dies d (f (s.die d)) }

/-- A core's number in the module. -/
def coreKey (die core : Nat) : Nat := 64 * die + core
/-- A core's record. -/
def State.core (s : State) (die core : Nat) : Core := tget Core.reset s.cores (coreKey die core)
/-- The state with a core changed. -/
def State.modCore (s : State) (die core : Nat) (f : Core → Core) : State :=
  { s with cores := tset Core.reset s.cores (coreKey die core) (f (s.core die core)) }

/-- The register r of a thread. -/
def Thread.reg (t : Thread) (r : Nat) : Word := tget 0 t.regs r
/-- The full/empty code of register r (R409). -/
def Thread.feOf (t : Thread) (r : Nat) : Fe := tget .full t.fe r
/-- Whether register r is full. -/
def Thread.isFull (t : Thread) (r : Nat) : Bool := t.feOf r == .full
/-- The pair that starts at register r (R4). -/
def Thread.pair (t : Thread) (r : Nat) : Dword := t.reg (r + 1) ++ t.reg r
/-- Register r written and filled (R28); a write ends an error in it. -/
def Thread.setReg (t : Thread) (r : Nat) (v : Word) : Thread :=
  { t with regs := tset 0 t.regs r v, fe := tset .full t.fe r .full, regErrors := t.regErrors.filter fun e => e != r }
/-- A pair written and filled. -/
def Thread.setPair (t : Thread) (r : Nat) (v : Dword) : Thread :=
  (t.setReg r (v.extractLsb' 0 32)).setReg (r + 1) (v.extractLsb' 32 32)
/-- Register r marked with a full/empty code. -/
def Thread.mark (t : Thread) (r : Nat) (c : Fe) : Thread := { t with fe := tset .full t.fe r c }
/-- `n` registers from r marked. -/
def Thread.markN (t : Thread) (r n : Nat) (c : Fe) : Thread := (List.range n).foldl (fun t i => t.mark (r + i) c) t
/-- Words written and filled from register r on. -/
def Thread.setRegs (t : Thread) (r : Nat) : List Word → Thread
  | [] => t
  | w :: ws => (t.setReg r w).setRegs (r + 1) ws

/-- The key of a byte of home memory: its home die and the frame offset PA[36:0] (R368). -/
def storageKey (home off : Nat) : Nat := Memory.homeBase + home * 2 ^ 37 + off % 2 ^ 37
/-- The home die of a storage key. -/
def keyHome (key : Nat) : Nat := (key - Memory.homeBase) / 2 ^ 37
/-- The 512-byte block of a storage key (R188). -/
def blockOf (key : Nat) : Nat := key - key % 512
/-- The 128-byte line of a storage key (R384). -/
def lineOf (key : Nat) : Nat := key - key % 128
/-- The 32-byte sector of a storage key (R195). -/
def sectorOf (key : Nat) : Nat := key - key % 32

/-- A location at an offset from another within one page. -/
def Loc.at (l : Loc) (n : Nat) : Loc := { l with va := l.va + BitVec.ofNat 64 n, key := l.key + n }

/-- Scratchpad bytes written, which ends an error in them (R415). -/
def Group.writeScratch (g : Group) (off : Nat) (bs : List Byte) : Group :=
  { g with scratch := g.scratch.writeN off bs
           scratchErrors := g.scratchErrors.filter fun e => !(off ≤ e && e < off + bs.length) }

/-- The first of `n` scratchpad bytes that carries an uncorrectable error (R415). -/
def Group.scratchError (g : Group) (off n : Nat) : Option Nat := g.scratchErrors.find? fun e => off ≤ e && e < off + n

/-- A stretch of addresses cut at the multiples of a unit: offsets from its start and lengths. -/
def cutAt (unit addr n : Nat) : List (Nat × Nat) :=
  if n = 0 then []
  else
    let first := addr / unit
    (List.range ((addr + n - 1) / unit - first + 1)).map fun i =>
      let a := max addr (unit * (first + i))
      (a - addr, min (addr + n) (unit * (first + i + 1)) - a)

/-- The lowest address from `a` on that a list of stretches, by start and length, covers. -/
def nextByte (rows : List (Nat × Nat)) (a : Nat) : Option Nat :=
  leastBy id (rows.filterMap fun r => if 0 < r.2 && a < r.1 + r.2 then some (max a r.1) else none)

/-- The parts of a list of stretches that lie at addresses from `a` up to, but not including, `e`: which stretch, the offset in it and the
length. -/
def partsIn (rows : List (Nat × Nat)) (a e : Nat) : List (Nat × Nat × Nat) :=
  rows.zipIdx.filterMap fun p =>
    let lo := max a p.1.1
    let hi := min e (p.1.1 + p.1.2)
    if lo < hi then some (p.2, lo - p.1.1, hi - lo) else none

/-- Whether a die number names a compute die. -/
def isComputeDie (d : Nat) : Bool := d < 32

/-- A number of nanoseconds in 0.5 ns periods (R442). -/
def nanoseconds (n : Nat) : Nat := 2 * n
/-- A number of microseconds in 0.5 ns periods. -/
def microseconds (n : Nat) : Nat := 2000 * n
/-- A number of seconds in 0.5 ns periods. -/
def seconds (n : Nat) : Nat := 2000000000 * n
/-- The heartbeat's period (R196). -/
def tickPeriod : Nat := nanoseconds 256

/-- A word's bit field [hi:lo], as a number (R3). -/
def field {w : Nat} (x : BitVec w) (lo n : Nat) : Nat := (x >>> lo).toNat % 2 ^ n

/-- The place of an element of w bytes in a group's tile bytes (R247). -/
def tileAt (t r c w : Nat) : Nat := 65536 * t + 512 * r + w * c

end Sys2Proof.Machine
end

