-- ==== Sys2Proof/Machine/Translate.lean ====
section
/-!
DEFINITION. Address translation (R363 to R370), the polder table (R376 to R379) and the touched-dies masks (R391).
-/
namespace Sys2Proof.Machine

open Sys2Proof

/-- What an access needs of a leaf (R367). -/
inductive Need where
  | read | write | both | fetch
  deriving DecidableEq, Repr

/-- The ACCESS code of a fault record (Table 23-3). -/
def Need.code : Need → BitVec 2
  | .read => 0
  | .write => 1
  | .both => 2
  | .fetch => 3

/-- Who translates: the walker's die, the context, the polder, and whether at user privilege. -/
structure Who where
  die : Nat
  ctx : Nat
  polder : Nat
  user : Bool
  deriving DecidableEq, Repr

/-- Where an access goes: a location of this module, or through a pod window (R267). -/
inductive Target where
  | here (loc : Loc)
  | window (chip addr : Nat)
  deriving DecidableEq, Repr

/-- A number from `n` bytes of home memory. -/
def State.readNat (s : State) (home off n : Nat) : Nat := natOfBytes (s.mem.readN (storageKey home off) n)

/-- The distance class of a compute die from an I/O die (R327). -/
def distanceClass (io die : Nat) : Nat := if io = 32 then die / 8 else 3 - die / 8

/-- The replica that a die's walker reads (R371). -/
def State.replicaOf (s : State) (die : Nat) : Nat :=
  if die < 32 then die
  else
    let first := if die = 32 then 0 else 31
    if !(s.die first).lost then first
    else (leastBy (distanceClass die) ((List.range 32).filter fun d => !(s.die d).lost)).getD first

/-- A polder table entry (Table 22-2). -/
structure Polder where
  valid : Bool
  admits : Bool
  landCtx : Nat
  lo : Nat
  hi : Nat
  cc0 : Nat
  cc1 : Nat
  dies : Nat
  deriving DecidableEq, Repr

/-- Polder entry p of a replica. -/
def State.polder (s : State) (replica p : Nat) : Polder :=
  let w := fun i => s.readNat replica (0x8000 + 64 * p + 8 * i) 8
  { valid := w 5 % 2 = 1, admits := w 4 % 2 = 1, landCtx := w 4 / 2 % 4096, lo := w 3 % 2 ^ 25,
    hi := w 3 / 2 ^ 32 % 2 ^ 25, cc0 := w 1 % 2 ^ 48, cc1 := w 2 % 2 ^ 48, dies := w 0 % 2 ^ 32 }

/-- The compute dies of a polder, ascending (R378). -/
def Polder.dieList (p : Polder) : List Nat := (List.range 32).filter fun d => p.dies.testBit d

/-- The index at which the routing die's own copy of the monitor tables stands beside the dies' replicas (R376). -/
def routingCopy : Nat := 34

/-- Whether a table-region offset lies in the monitor tables that the routing die has a copy of (R376). -/
def inMonitorTables (off : Nat) : Bool := 0x8000 ≤ off && off < 0xB000

/-- Whether a die belongs to a polder for R378 and R380. -/
def Polder.hasDie (p : Polder) (d : Nat) : Bool :=
  if d < 32 then p.dies.testBit d else if d = 32 then p.cc0 != 0 else p.cc1 != 0

/-- Size of a die's inkwell reserve (R389): its own pool and, on dies 0 and 31, an I/O die's, each as it was when the die last
left reset. -/
def State.reserve (s : State) (d : Nat) : Nat :=
  2 ^ 26 * 2 ^ (s.die d).inkSize.toNat + (if d = 0 || d = 31 then 2 ^ 26 * 2 ^ (s.die d).ioInkSize.toNat else 0)

/-- The exclusive or of the 5-bit pieces of a number of at most 5 × n bits (R369). -/
def fold5 (n x : Nat) : Nat := (List.range n).foldl (fun h i => h ^^^ (x / 32 ^ i % 32)) 0

/-- The bit length of a leaf page (Table 21-1). -/
def pageBits (lvl run : Nat) : Nat :=
  (if lvl = 0 then 12 else if lvl = 1 then 21 else 30) + (if run = 1 then 2 else if run = 2 then 4 else 0)

/-- Fields of a page entry (Table 21-3). -/
def peFrame (e : Nat) : Nat := e / 2 ^ 12 % 2 ^ 36
def peRun (e : Nat) : Nat := e / 2 ^ 10 % 4
def pePlace (e : Nat) : Nat := e / 2 ^ 8 % 4
def peClass (e : Nat) : Bool := e.testBit 7
def peHome (e : Nat) : Nat := e / 2 ^ 50 % 32
def peChip (e : Nat) : Nat := e / 2 ^ 55 % 256
def peLeaf (e : Nat) : Bool := e.testBit 1
def peValid (e : Nat) : Bool := e.testBit 0

/-- The home of a physical address by a leaf (R369). The list is not empty for a leaf that is not malformed. -/
def homeOf (dies : List Nat) (e pa : Nat) : Nat :=
  let pick := fun h => (dies[h % dies.length]?).getD 0
  if pePlace e = 1 then peHome e
  else if pePlace e = 0 then pick (fold5 8 (pa / 2 ^ 12))
  else pick (fold5 6 (pa / 2 ^ 21))

/-- Whether a page covers a frame of the inkwell reserve of that frame's home (R366). Reserves are multiples of 64 MiB
and an aligned piece of 32 placement units has a frame on every die of the list, so a larger page is tested at its
end. -/
def State.coversReserve (s : State) (dies : List Nat) (e base bits : Nat) : Bool :=
  let unit := if pePlace e = 2 then 21 else 12
  let inReserve := fun home last => 2 ^ 37 - s.reserve home ≤ last
  if pePlace e = 1 then inReserve (peHome e) (base + 2 ^ bits - 1)
  else if bits ≤ unit + 4 then
    (List.range (2 ^ (bits - min bits unit))).any fun i =>
      let a := base + i * 2 ^ unit
      inReserve (homeOf dies e a) (a + 2 ^ min bits unit - 1)
  else dies.any fun d => inReserve d (base + 2 ^ bits - 1)

/-- R366: whether a valid entry is malformed at a level, in a context of the polder. -/
def State.malformed (s : State) (p : Polder) (lvl e : Nat) : Bool :=
  let leaf := peLeaf e
  let run := peRun e
  let place := pePlace e
  let base := peFrame e * 4096
  let bits := pageBits lvl run
  let reserved := e.testBit 63 || e.testBit 49 || e.testBit 48 || e.testBit 2
  let window := place = 3
  let dies := p.dieList
  if reserved then true
  else if !leaf then
    lvl = 0 || e / 2 ^ 48 != 0 || e / 4 % 2 ^ 10 != 0 || (!window && peFrame e / 2 ^ 25 != 0)
  else
    2 < lvl || run = 3 || (run = 1 && lvl != 0) || base % 2 ^ bits != 0 || (e.testBit 4 && !e.testBit 3) ||
    (peChip e != 0 && !window) || (peHome e != 0 && place != 1) || (place = 1 && !p.dies.testBit (peHome e)) ||
    ((place = 0 || place = 2) && dies = []) || (!window && peFrame e / 2 ^ 25 != 0) ||
    (window && (peClass e || e.testBit 5)) ||
    (!window && base < 2 ^ 32 && !(peClass e && place = 1)) || (!window && s.coversReserve dies e base bits)

/-- An entry as a die's walker reads it: a cached one (R372), or its replica's. -/
def State.readEntry (s : State) (die off : Nat) : Nat :=
  match ((s.die die).tlb).find? fun t => t.offset = off with
  | some t => t.value.toNat
  | none => s.readNat (s.replicaOf die) off 8

/-- The entries of the run that an entry is part of: 4 at level 0, 16 at levels 0 to 2, and 1 where RUN makes no run (Table 21-1,
R366). -/
def runLength (lvl e : Nat) : Nat :=
  if !peValid e || !peLeaf e then 1
  else if peRun e = 1 && lvl = 0 then 4
  else if peRun e = 2 && lvl ≤ 2 then 16
  else 1

/-- The entry that translates an access at a level: the address's own, or, where it is a leaf of a run whose entries differ, any
of them (R366). -/
def State.runEntry (s : State) (die table lvl va e : Nat) : Nat :=
  let n := runLength lvl e
  let i := va / 2 ^ (12 + 9 * lvl) % 512
  let read := fun k => s.readEntry die (table + 8 * (i - i % n + k))
  if n = 1 then e
  else if (List.range n).all fun k => read k = e then e else read (Config.runChoice va n % n)

/-- The index of an address at a level (Table 21-1). -/
def tableIndex (va lvl : Nat) : Nat :=
  if lvl = 4 then va / 2 ^ 48 % 256 else va / 2 ^ (12 + 9 * lvl) % 512

/-- The levels of the walk from `lvl` down (R367): the leaf and its level, or the fault. -/
def State.walkFrom (s : State) (w : Who) (p : Polder) (va : Nat) : Nat → Nat → Except (Nat × Bool) (Nat × Nat)
  | lvl, table =>
    let e := s.runEntry w.die table lvl va (s.readEntry w.die (table + 8 * tableIndex va lvl))
    if !peValid e then .error (lvl, false)
    else if s.malformed p lvl e then .error (lvl, true)
    else if peLeaf e then .ok (e, lvl)
    else
      match lvl with
      | 0 => .error (0, true)
      | n + 1 => State.walkFrom s w p va n (peFrame e * 4096)

/-- The context entry that a context number names (Table 21-2). -/
def State.contextEntry (s : State) (die ctx : Nat) : Nat := s.readNat (s.replicaOf die) (8 * ctx) 8

/-- Whether a context is usable by a thread of a polder (R364). -/
def State.contextOk (s : State) (w : Who) : Bool :=
  let c := s.contextEntry w.die w.ctx
  w.ctx < 4096 && c.testBit 0 && c / 2 ^ 6 % 32 = w.polder

/-- The trap of an access that the permission, range or ownership checks refuse (Table 23-1). -/
def protTrap (need : Need) (va : Dword) : TrapInfo := { cause := .prot, tval := va, access := need.code }

/-- The leaf that translates an address, with its level, or the trap (R364, R367). -/
def State.walk (s : State) (w : Who) (need : Need) (va : Dword) : Except TrapInfo (Nat × Nat) :=
  if !s.contextOk w then .error (protTrap need va)
  else
    let p := s.polder (s.replicaOf w.die) w.polder
    match s.walkFrom w p va.toNat 4 (s.contextEntry w.die w.ctx / 2 ^ 11 % 2 ^ 37 * 2048) with
    | .error (lvl, mal) =>
      .error { cause := .page, tval := va, aux := BitVec.ofNat 8 lvl, malformed := mal, access := need.code }
    | .ok l => .ok l

/-- Whether a leaf grants what an access needs (R367). -/
def grants (e : Nat) (need : Need) (user : Bool) : Bool :=
  (match need with
   | .read => e.testBit 3
   | .write => e.testBit 4
   | .both => e.testBit 3 && e.testBit 4
   | .fetch => e.testBit 5) && (!user || e.testBit 6)

/-- Translation of an address by the walk and the checks after it, its home lost or not (R367, R369, R370, R379). -/
def State.translateAny (s : State) (w : Who) (need : Need) (va : Dword) : Except TrapInfo Target :=
  match s.walk w need va with
  | .error t => .error t
  | .ok (e, lvl) =>
    let bits := pageBits lvl (peRun e)
    let base := peFrame e * 4096
    let pa := base + va.toNat % 2 ^ bits
    let p := s.polder (s.replicaOf w.die) w.polder
    let home := homeOf p.dieList e pa
    if !grants e need w.user then .error (protTrap need va)
    else if pePlace e = 3 then .ok (.window (peChip e) pa)
    else if w.polder != 0 && (base / 4096 < p.lo || p.hi < (base + 2 ^ bits - 1) / 4096) then
      .error (protTrap need va)
    else
      .ok (.here { va := va, key := storageKey home pa, home := home, token := peClass e, table := pa < 2 ^ 32,
                   ctx := w.ctx, polder := w.polder })

/-- Translation of an access, which traps where its home is lost (R395). -/
def State.translate (s : State) (w : Who) (need : Need) (va : Dword) : Except TrapInfo Target :=
  match s.translateAny w need va with
  | .ok (.here l) =>
    if (s.die l.home).lost then
      .error { cause := .levee, tval := va, detail := BitVec.ofNat 32 l.home, access := need.code }
    else .ok (.here l)
  | r => r

/-- Whether an access of `n` bytes meets a poisoned sector, which only a read meets (R415), or a poisoned line, which a
store at supervisor level does not meet (R394); of every line that it reaches. -/
def State.poisoned (s : State) (need : Need) (supervisor : Bool) (l : Loc) (n : Nat) : Bool :=
  (need != .write && s.poison.any fun k => k < l.key + n && l.key < k + 32) ||
  (!(need == .write && supervisor) && l.token &&
    s.tokens.lines.any fun t => t.poisoned && t.key < l.key + max n 1 && l.key < t.key + 128)

/-- The trap of an access that meets storage that cannot be read (R395, Table 23-8). -/
def leveeTrap (need : Need) (va : Dword) (home : Nat) : TrapInfo :=
  { cause := .levee, tval := va, detail := BitVec.ofNat 32 home, access := need.code }

/-- What an access that reaches memory may do with its target: a window faults PROT, and so does a table-region access that R371
and R376 refuse. -/
def reachable (need : Need) (monitor : Bool) (va : Dword) : Target → Except TrapInfo Loc
  | .window _ _ => .error (protTrap need va)
  | .here l =>
    if l.table && (need = .both || (need = .write && !monitor && inMonitorTables (l.key % 2 ^ 37))) then
      .error (protTrap need va)
    else .ok l

/-- Translation of an access that reaches memory. -/
def State.locate (s : State) (w : Who) (need : Need) (monitor : Bool) (va : Dword) : Except TrapInfo Loc :=
  match s.translate w need va with
  | .error t => .error t
  | .ok x => reachable need monitor va x

/-- The same for an instruction that a lost home does not concern (R230, R231). -/
def State.locateAny (s : State) (w : Who) (need : Need) (monitor : Bool) (va : Dword) : Except TrapInfo Loc :=
  match s.translateAny w need va with
  | .error t => .error t
  | .ok x => reachable need monitor va x

/-- The thread as a translator (R364). -/
def whoOf (g : Group) (t : Thread) : Who := ⟨g.place.die, t.ctxid.toNat, t.polder.toNat, t.pl == 0⟩

/-- The copies of a table-region offset: every compute die's replica, and the routing die's where it has one (R371, R376). -/
def tableCopies (off : Nat) : List Nat := List.range 32 ++ (if inMonitorTables off then [routingCopy] else [])

/-- Bytes written into every copy of the table region (R371, R376). -/
def State.writeTables (s : State) (off : Nat) (bs : List Byte) : State :=
  { s with mem := (tableCopies off).foldl (fun m d => m.writeN (storageKey d off) bs) s.mem }

/-- Table-region offset of a context's touched-dies mask (Table 22-1). -/
def maskOffset (ctx : Nat) : Nat := 0x10000 + 8 * ctx

/-- A context's touched-dies mask (R391). -/
def State.touchedDies (s : State) (ctx : Nat) : Nat := s.readNat (s.replicaOf 32) (maskOffset ctx) 8

/-- Hardware sets a die's bit of a context's mask (R391). -/
def State.touch (s : State) (ctx die : Nat) : State :=
  if ctx < 4096 && !(s.touchedDies ctx).testBit die then
    s.writeTables (maskOffset ctx) (bytesOfNat (s.touchedDies ctx ||| 2 ^ die) 8)
  else s

end Sys2Proof.Machine
end

