-- ==== Sys2Proof/Machine/Coherence.lean ====
section
/-!
DEFINITION. Home copies, working stores, twins and differences (R184 to R193, R196 to R207), token lines (R384 to R388)
and the spillway (R390).
-/
namespace Sys2Proof.Machine

open Sys2Proof

/-! ## Blocks of a working store -/

/-- The home copy of the block at a key. -/
def State.homeBlock (s : State) (key : Nat) : Memory := s.mem.slice key 512

/-- The block of a die's working store at a key. -/
def Die.block (d : Die) (key : Nat) : Option Block := d.work.find? fun b => b.key = key

/-- A die with one block changed. -/
def Die.modBlock (d : Die) (key : Nat) (f : Block → Block) : Die := { d with work := mapIf (fun b => b.key = key) f d.work }

/-- The runs of a block that a die has sent and that are not yet applied, in the order in which they apply (R199). -/
def State.ownRuns (s : State) (die key : Nat) : List Run :=
  let home := keyHome key
  (((s.die home).queue.filter fun e => e.src = die) ++ (s.die die).sent.filter fun e => e.home = home).flatMap fun e =>
    match e.kind with
    | .diff k runs _ => if k = key then runs else []
    | _ => []

/-- The home copy of a block as a die takes it: its own differences that are under way lie over it, so that no thread of the die
reads a byte older than its own store (R200), and the die's stores keep their order (R315, R316). DEDUCED, log entry 76. -/
def State.homeFor (s : State) (die key : Nat) : Memory :=
  (s.ownRuns die key).foldl (fun m r => m.writeN r.offset r.data) (s.homeBlock key)

/-- Fetch (R197): the home copy enters the working store, if the die holds no copy. -/
def State.fetchBlock (s : State) (die key : Nat) : State :=
  match (s.die die).block key with
  | some _ => s
  | none =>
    let b : Block := { key := key, bytes := s.homeFor die key, twin := none, twinAge := 0, twinCtx := 0, twinPolder := 0,
                       twinSupervisor := false }
    s.modDie die fun d => { d with work := insertBy Block.key b d.work }

/-- Drop (R197): a copy without a twin is removed. -/
def State.dropBlock (s : State) (die key : Nat) : State :=
  s.modDie die fun d => { d with work := d.work.filter fun b => !(b.key = key && b.twin.isNone) }

/-- A block's changed offsets, in place, against a reference copy (R189). -/
def changedOffsets (bytes ref : Memory) : List Nat :=
  (List.range 512).filter fun i => bytes.read i != ref.read i

/-- Runs from changed offsets in ascending order, at most 128 bytes each (R190). -/
def runsOf (bytes : Memory) (offs : List Nat) : List Run :=
  (offs.foldl (fun (acc : List Run) o =>
    match acc with
    | r :: rs =>
      if r.offset + r.data.length = o && r.data.length < 128 then { r with data := r.data ++ [bytes.read o] } :: rs
      else ⟨o, [bytes.read o]⟩ :: acc
    | [] => [⟨o, [bytes.read o]⟩]) []).reverse

/-- The run header of Table 8-3. -/
def Run.header (r : Run) : Half := BitVec.ofNat 16 (r.offset * 128 + (r.data.length - 1))

/-- An entry put into a die's sent set (R196). -/
def State.sendEntry (s : State) (die home polder : Nat) (k : ApplyKind) : State :=
  let e : ApplyEntry := { id := s.next.send, src := die, home := home, polder := polder, kind := k }
  { s.modDie die (fun d => { d with sent := d.sent ++ [e] }) with next := { s.next with send := s.next.send + 1 } }

/-- The keys of a die's twinned blocks, oldest twin first. -/
def Die.twinned (d : Die) : List Nat := (sortBy Block.twinAge (d.work.filter fun b => b.twin.isSome)).map Block.key

/-- Twins that a die's pool holds (R389, R390): an I/O die's pool lies in the reserve of compute die 0 or 31. -/
def State.twinCapacity (s : State) (die : Nat) : Nat :=
  2 ^ 17 * 2 ^ (if die < 32 then (s.die die).inkSize else if die = 32 then (s.die 0).ioInkSize else (s.die 31).ioInkSize).toNat

/-- Whether the spillway sends after a change of the pool's fill (R390): from above 90 per cent until at or below 85. -/
def State.noteFill (s : State) (die : Nat) : State :=
  let n := (s.die die).twinned.length
  let cap := s.twinCapacity die
  s.modDie die fun d =>
    { d with spilling := if 9 * cap < 10 * n then true else if 20 * n ≤ 17 * cap then false else d.spilling }

/-- Whether a die's pool has no room for another twin (R390). -/
def State.poolFull (s : State) (die : Nat) : Bool := s.twinCapacity die ≤ (s.die die).twinned.length

/-- Whether a store to a block makes a twin (R188). -/
def State.needsTwin (s : State) (die key : Nat) : Bool :=
  match (s.die die).block key with
  | none => true
  | some b => b.twin.isNone

/-- Send (R189, R197): a twinned block's difference enters the sent set and its twin is discarded; an empty difference
sends nothing (R190). -/
def State.sendBlock (s : State) (die key : Nat) : State :=
  match (s.die die).block key with
  | none => s
  | some b =>
    match b.twin with
    | none => s
    | some t =>
      let runs := runsOf b.bytes (changedOffsets b.bytes t)
      let s := (s.modDie die fun d => d.modBlock key fun b => { b with twin := none }).noteFill die
      if runs = [] then s else s.sendEntry die (keyHome key) b.twinPolder (.diff key runs b.twinSupervisor)

/-- Every twinned block of a die is sent (R203, R230). -/
def State.sendAll (s : State) (die : Nat) : State := (s.die die).twinned.foldl (fun s k => s.sendBlock die k) s

/-- Whose store makes a twin: context, polder and whether at supervisor level. -/
structure Writer where
  ctx : Nat
  polder : Nat
  supervisor : Bool
  deriving DecidableEq, Repr

/-- Room for a twin made within the step of a device's store (R390): where the pool is full, the spillway's Send of the oldest twin
comes first. A thread's own store has waited for it before (DESIGN CHOICE, log entry 12). -/
def State.makeRoom (s : State) (die key : Nat) : State :=
  if s.needsTwin die key && s.poolFull die then
    match (s.die die).twinned.head? with
    | some k => s.sendBlock die k
    | none => s
  else s

/-- A store performed into the die's working copy (R188, R197): the block is fetched if absent, and a twin is made first
if it has none. -/
def State.storeWorking (s : State) (die key : Nat) (w : Writer) (bs : List Byte) : State :=
  let k := blockOf key
  let s := (s.makeRoom die k).fetchBlock die k
  let s := s.modDie die fun d => d.modBlock k fun b =>
    let b := match b.twin with
      | some _ => b
      | none => { b with twin := some b.bytes, twinAge := s.next.send, twinCtx := w.ctx, twinPolder := w.polder,
                         twinSupervisor := w.supervisor }
    { b with bytes := b.bytes.writeN (key - k) bs }
  { s with next := { s.next with send := s.next.send + 1 } }.noteFill die

/-- Whether the routing die delivers a packet of a polder to a die (R380). -/
def State.delivers (s : State) (polder die : Nat) : Bool :=
  polder = 0 || (s.polder routingCopy polder).hasDie die

/-- Whether traffic of a polder passes between two dies (R380); within one die it meets no filter. -/
def State.passes (s : State) (polder a b : Nat) : Bool := a = b || (s.delivers polder a && s.delivers polder b)

/-- A saturating 32-bit count. -/
def satInc (w : Word) : Word := if w = 0xFFFFFFFF then w else w + 1

/-- A packet dropped by the polder filter is counted in sys.filter (R278, R380). -/
def State.countFiltered (s : State) : State := { s with regs := { s.regs with filter := satInc s.regs.filter } }

/-- Whether the filter drops what a die would read again of a twinned block's home copy (R380), in the polder that made the twin. -/
def State.rebuildLost (s : State) (die : Nat) (b : Block) : Bool := b.twin.isSome && !s.passes b.twinPolder die (keyHome b.key)

/-- The acquire step of a die (R206): clean copies are dropped and twinned ones rebuilt from the home copies. A copy whose home the polder
filter keeps away is counted and stays as it is (R380); DEDUCED, log entry 100. -/
def State.acquireStep (s : State) (die : Nat) : State :=
  let lost := (s.die die).work.filter (s.rebuildLost die)
  let s := lost.foldl (fun s _ => s.countFiltered) s
  s.modDie die fun d =>
    { d with work := d.work.filterMap fun b =>
        match b.twin with
        | none => none
        | some t =>
          if s.rebuildLost die b then some b
          else
            let h := s.homeFor die b.key
            some { b with twin := some h,
                          bytes := (changedOffsets b.bytes t).foldl (fun m i => m.write i (b.bytes.read i)) h } }

/-- Whether an entry that was sent is not yet applied (R199). -/
def State.unapplied (s : State) (id : Nat) : Bool :=
  s.dies.any fun d => d.2.sent.any (fun e => e.id = id) || d.2.queue.any fun e => e.id = id

/-- The entries of a die's sent set (R196): under way, or in a home's queue. -/
def State.sentSet (s : State) (die : Nat) : List Nat :=
  (s.die die).sent.map ApplyEntry.id ++
  s.dies.flatMap fun d => (d.2.queue.filter fun e => e.src = die).map ApplyEntry.id

/-- The oldest entry that a die sent to a home enters the home's apply queue (R199), if the routing die delivers it. One to
a lost die counts as applied (R393). -/
def State.arriveFrom (s : State) (die home : Nat) : State :=
  match (s.die die).sent.find? fun e => e.home = home with
  | none => s
  | some e =>
    let s := s.modDie die fun d => { d with sent := d.sent.filter fun x => x.id != e.id }
    if (s.die home).lost then s
    else if die = home || s.delivers e.polder home then s.modDie home fun d => { d with queue := d.queue ++ [e] } else s.countFiltered

/-! ## Token lines -/

/-- The record of a line whose tokens are not all at home, or that is poisoned. -/
def State.tokenLine (s : State) (key : Nat) : Option TokenLine := s.tokens.lines.find? fun t => t.key = lineOf key

/-- Where the current data of a token-class location stands: with the owner token's holder (R384). -/
def State.tokenRead (s : State) (key n : Nat) : List Byte :=
  match s.tokenLine key with
  | none => s.mem.readN key n
  | some t => if t.homeOwner then s.mem.readN key n else (t.data.drop (key - t.key)).take n

/-- A list with bytes laid over it from a place. -/
def overlay (xs : List Byte) (i : Nat) (bs : List Byte) : List Byte := xs.take i ++ bs ++ xs.drop (i + bs.length)

/-- A write into the token store (R187): into the owner's data. -/
def State.tokenWrite (s : State) (key : Nat) (bs : List Byte) : State :=
  match s.tokenLine key with
  | none => { s with mem := s.mem.writeN key bs }
  | some t =>
    if t.homeOwner then { s with mem := s.mem.writeN key bs }
    else
      { s with tokens := { s.tokens with
          lines := mapIf (fun x => x.key = t.key) (fun x => { x with data := overlay x.data (key - t.key) bs })
            s.tokens.lines } }

/-- Where the current data of a line stands: the home copy while the owner token is at home (R384). -/
def State.lineData (s : State) (t : TokenLine) : List Byte := if t.homeOwner then s.mem.readN t.key 128 else t.data

/-- The record of a line, made for one whose tokens are all at home. -/
def State.lineOrHome (s : State) (line : Nat) : TokenLine :=
  (s.tokens.lines.find? fun t => t.key = line).getD
    { key := line, homeTokens := 64, homeOwner := true, holders := [], data := [], poisoned := false }

/-- A line's record put back; one whose tokens are all at home is not listed. -/
def State.putLine (s : State) (t : TokenLine) : State :=
  let others := s.tokens.lines.filter fun x => x.key != t.key
  let lines := if t.homeTokens = 64 && t.homeOwner && !t.poisoned then others else insertBy TokenLine.key t others
  { s with tokens := { s.tokens with lines := lines } }

/-- Tokens taken from home memory or from a die's agent: how many, and whether the owner token is among them. -/
def TokenLine.take (t : TokenLine) (who : Option Nat) (n : Nat) (owner : Bool) : TokenLine :=
  match who with
  | none => { t with homeTokens := t.homeTokens - n, homeOwner := t.homeOwner && !owner }
  | some d =>
    let hs := mapIf (fun (h : Holder) => h.die = d) (fun h => { h with tokens := h.tokens - n, owner := h.owner && !owner }) t.holders
    { t with holders := hs.filter fun h => h.tokens != 0 }

/-- Tokens that home memory or a die's agent holds of a line, and whether it holds the owner token. -/
def TokenLine.held (t : TokenLine) (who : Option Nat) : Nat × Bool :=
  match who with
  | none => (t.homeTokens, t.homeOwner)
  | some d =>
    match t.holders.find? fun h => h.die = d with
    | some h => (h.tokens, h.owner)
    | none => (0, false)

/-- A holder sends tokens of a line, with the data (R386): they are between holders until they are received. -/
def State.sendTokens (s : State) (line : Nat) (who dest : Option Nat) (n : Nat) (owner : Bool) : State :=
  let t := s.lineOrHome line
  if n = 0 then s
  else
    let data := s.lineData t
    let m : TokenMsg := { line := line, dest := dest, tokens := n, owner := owner, data := data }
    let t := { t.take who n owner with data := if owner then data else t.data }
    let s := s.putLine t
    { s with tokens := { s.tokens with msgs := s.tokens.msgs ++ [m] } }

/-- The active persistent requester of a line: the lowest die number (R387). -/
def State.activeRequester (s : State) (line : Nat) : Option Nat :=
  leastBy id ((s.tokens.persistent.filter fun p => p.2.1 = line).map Prod.fst)

/-- While a persistent request for a line is active, every holder sends every token of it to the requester (R387). -/
def State.feedPersistent (s : State) (line : Nat) : State :=
  match s.activeRequester line with
  | none => s
  | some d =>
    let t := s.lineOrHome line
    if t.poisoned then s
    else
      let from' := none :: (t.holders.filter fun h => h.die != d).map fun h => some h.die
      from'.foldl (fun s w =>
        let h := (s.lineOrHome line).held w
        s.sendTokens line w (some d) h.1 h.2) s

/-- The home gathers all 64 tokens of a line with its data (R388). The gathering's messages lie inside the step that
needs it (DESIGN CHOICE, log entry 12); the access done, its tokens go to a persistent request for the line (`feedPersistent`). -/
def State.gather (s : State) (key : Nat) : State :=
  match s.tokenLine key with
  | none => s
  | some t =>
    if t.poisoned then s
    else
      let s := if t.homeOwner then s else { s with mem := s.mem.writeN t.key t.data }
      { s with tokens := { s.tokens with
          lines := s.tokens.lines.filter fun x => x.key != t.key
          msgs := s.tokens.msgs.filter fun m => m.line != t.key } }

/-- Bytes of a token-class location read at its home, which gathers the tokens, and passes them on after the access while a
persistent request is active (R387, R388). -/
def State.homeTokenRead (s : State) (key n : Nat) : List Byte × State :=
  let s := s.gather key
  (s.tokenRead key n, s.feedPersistent (lineOf key))

/-- Bytes of a token-class location written at its home (R387, R388). -/
def State.homeTokenWrite (s : State) (key : Nat) (bs : List Byte) : State :=
  ((s.gather key).tokenWrite key bs).feedPersistent (lineOf key)

/-- A store at supervisor level to a poisoned line creates all tokens at the home and clears the poison (R394). -/
def State.unpoisonLine (s : State) (key : Nat) : State :=
  match s.tokenLine key with
  | none => s
  | some t =>
    if t.poisoned then
      { s with tokens := { s.tokens with lines := s.tokens.lines.filter fun x => x.key != t.key } }
    else s

/-- Tokens that a die's agent may use for an access to a line: those it holds, but none between the one access of its
persistent request and the deactivation (R387). -/
def State.agentTokens (s : State) (die key : Nat) : Nat :=
  if s.tokens.persistent.any fun p => p.1 = die && p.2.1 = lineOf key && p.2.2 then 0
  else
    match s.tokenLine key with
    | none => 0
    | some t => ((t.holders.find? fun h => h.die = die).map Holder.tokens).getD 0

/-- A die's agent has performed an access to a line, a store where `write`: a request that asked for no more is over, and a
persistent one whose access this was is to be deactivated (R386, R387). A load ends no request for the tokens of a store. -/
def State.tokenServed (s : State) (die key : Nat) (write : Bool) : State :=
  let line := lineOf key
  let reqs := s.tokens.reqs.filter fun r => !(r.die = die && r.line = line && (write || !r.write))
  let served := !reqs.any fun r => r.die = die && r.line = line
  { s with tokens := { s.tokens with
      reqs := reqs
      persistent := mapIf (fun (p : Nat × Nat × Bool) => served && p.1 = die && p.2.1 = line) (fun p => (p.1, p.2.1, true))
        s.tokens.persistent } }

/-- Whether a die's agent lacks the tokens that a load, or a store, of a line needs (R385). -/
def State.lacksTokens (s : State) (die line : Nat) (write : Bool) : Bool :=
  let n := ((s.lineOrHome line).held (some die)).1
  if write then n != 64 else n = 0

/-- The dies whose agents may hold tokens of a line: those of the polder that its home belongs to (R384). -/
def State.lineAgents (s : State) (line : Nat) : List Nat :=
  let home := keyHome line
  let owners := ((List.range 32).map fun p => s.polder routingCopy p).filter fun p => p.valid && p.hasDie home
  (List.range 34).filter fun d => owners.any fun p => p.hasDie d

/-- Whether a die's access to a line is performed at the home (R388): a polder 0 thread's access to another polder's line, and, so
that the tokens stay in their polder (R384), one from a die outside it (DEDUCED, log entry 88). -/
def State.atHome (s : State) (die : Nat) (l : Loc) : Bool :=
  l.polder = 0 && (!(s.polder routingCopy 0).hasDie l.home || !(s.lineAgents (lineOf l.key)).contains die)

/-- Whether a load of a die lacks a token: its agent holds none of a token-class line that is not read at its home (R385). -/
def State.lacksToken (s : State) (die : Nat) (l : Loc) : Bool :=
  l.token && !l.table && !s.atHome die l && s.agentTokens die l.key = 0

/-- A read that a die has made of a location: of a token-class line, at the home, or as the access that its agent's request served
(R387, R388). -/
def State.readServed (s : State) (die : Nat) (l : Loc) (n : Nat) : State :=
  if !l.token || l.table then s
  else if s.atHome die l then (s.homeTokenRead l.key n).2
  else s.tokenServed die l.key false

/-- Whether a die has a release-class block, or the routing die lets it be fetched from its home (R380). -/
def State.reaches (s : State) (die : Nat) (l : Loc) : Bool :=
  l.table || l.token || ((s.die die).block (blockOf l.key)).isSome || s.passes l.polder die l.home

/-- Whether a load reads the home copy although its die may have the block: one at device scope (R206, R221), or one of space k of a
block that the die held at a `cctl.kinv` (R231). -/
def State.readsHome (s : State) (die : Nat) (space : Space) (l : Loc) (dev : Bool) : Bool :=
  dev || (space == .k && (s.die die).kinvHeld.contains (blockOf l.key))

/-- Whether a load's read meets no filter (R380): one that reads the home copy passes to the home. -/
def State.readReaches (s : State) (die : Nat) (space : Space) (l : Loc) (dev : Bool) : Bool :=
  if s.readsHome die space l dev && !l.table && !l.token then s.passes l.polder die l.home else s.reaches die l

/-- Whether a die can read a location as things stand (R380, R385). -/
def State.readable (s : State) (die : Nat) (l : Loc) : Bool := s.reaches die l && !s.lacksToken die l

/-- Request messages for a line to the home and to every agent of its polder (R386); those that the routing die does not
deliver are counted (R380). -/
def State.broadcastRequest (s : State) (die polder line : Nat) (write : Bool) : State :=
  let dests := none :: ((s.lineAgents line).filter fun d => d != die).map some
  let ok := dests.filter fun d => s.delivers polder (d.getD (keyHome line))
  let s := { s with tokens := { s.tokens with
    reqMsgs := s.tokens.reqMsgs ++ ok.map fun d => (⟨die, line, write, d⟩ : ReqMsg) } }
  (dests.filter fun d => !ok.contains d).foldl (fun s _ => s.countFiltered) s

/-- A transient request for a line (R386), unless one that asks as much is outstanding. One that asks more keeps the time of
the first. -/
def State.requestTokens (s : State) (die polder key : Nat) (write : Bool) : State :=
  let line := lineOf key
  let mine := s.tokens.reqs.filter fun r => r.die = die && r.line = line
  if mine.any fun r => r.write || !write then s
  else
    let first := ((mine.head?).map TokenReq.first).getD s.clock
    let others := s.tokens.reqs.filter fun r => !(r.die = die && r.line = line)
    let s := { s with tokens := { s.tokens with reqs := others ++ [(⟨die, polder, line, write, first, s.clock⟩ : TokenReq)] } }
    s.broadcastRequest die polder line write

/-! ## Whole accesses -/

/-- Bytes of the home copy of release-class memory as a die takes them, within one block. -/
def State.homeBytes (s : State) (die key n : Nat) : List Byte := (s.homeFor die (blockOf key)).readN (key - blockOf key) n

/-- The die's own changed bytes of a block laid over the home copy (R206, the reading step of an acquire load). -/
def State.homeWithDiff (s : State) (die key n : Nat) : List Byte :=
  let k := blockOf key
  let home := s.homeBytes die key n
  match (s.die die).block k with
  | none => home
  | some b =>
    match b.twin with
    | none => home
    | some t =>
      home.zipIdx.map fun p =>
        if b.bytes.read (key - k + p.2) != t.read (key - k + p.2) then b.bytes.read (key - k + p.2) else p.1

/-- Bytes as an agent of the die reads them, with no store buffer (R198): the token store, or the die's working copy. A
table-region page reads the replica of its home (R371). -/
def State.readLoc (s : State) (die : Nat) (l : Loc) (n : Nat) : List Byte :=
  if l.table then s.mem.readN l.key n
  else if l.token then s.tokenRead l.key n
  else
    match (s.die die).block (blockOf l.key) with
    | some b => b.bytes.readN (l.key - b.key) n
    | none => s.homeBytes die l.key n

/-- The parts of a table-region store: the bytes in each aligned 8-byte part (R371). -/
def tableParts (off : Nat) (bs : List Byte) : List (Nat × List Byte) :=
  let first := off / 8
  (List.range ((off + bs.length + 7) / 8 - first)).map fun i =>
    let a := max off (8 * (first + i))
    (a, (bs.drop (a - off)).take (8 * (first + i + 1) - a))

/-- A table-region store taken by the table-update engine (R371, R376): into every replica of a die that is not in reset, or into
the replica of HOME alone under sys.assist.PTREP, and into the routing die's copy. -/
def State.tableStore (s : State) (die : Nat) (l : Loc) (bs : List Byte) (issuers : List (Nat × Nat × Nat)) (pl : BitVec 2) : State :=
  let dies := if s.regs.assist.getLsbD 0 then [l.home]
    else (List.range 32).filter fun d => !(s.die d).lost || (s.die d).leftReset
  { s with tableStores := s.tableStores ++ (tableParts (l.key % 2 ^ 37) bs).map fun p =>
      { offset := p.1, data := p.2, left := dies ++ (if inMonitorTables p.1 then [routingCopy] else []), die := die,
        issuers := issuers, pl := pl } }

/-- Bytes written by an engine of a die for an operation of threads, or for no thread: to the table-update engine, the token store or
the die's working copy (R197). An engine's token-class write gathers the tokens within its step (log entry 12). -/
def State.writeLocFor (s : State) (die : Nat) (l : Loc) (w : Writer) (issuers : List (Nat × Nat × Nat)) (bs : List Byte) : State :=
  if l.table then s.tableStore die l bs issuers (if w.supervisor then 1 else 0)
  else if l.token then
    (if w.supervisor then s.unpoisonLine l.key else s).homeTokenWrite l.key bs
  else s.storeWorking die l.key w bs

/-- The same for no thread. -/
def State.writeLoc (s : State) (die : Nat) (l : Loc) (w : Writer) (bs : List Byte) : State := s.writeLocFor die l w [] bs

end Sys2Proof.Machine
end

