-- ==== Sys2Proof/Machine/Ops.lean ====
section
/-!
DEFINITION. The operations every instruction shares: the lane set that issues and the checks of Table 3-12, taking a trap
(R36, R37, R320) and returning from one (R331), fragments and fault records, holds, barriers, bins and context halts.
-/
namespace Sys2Proof

/-! ## What an instruction's words name -/

/-- The sequentially next program counter (R66). -/
def View.next (v : View) (pc : Pc) : Pc := pc + BitVec.ofNat 56 (4 * v.tail.words)

/-- The base word of an instruction. -/
def View.base (v : View) : Word := (v.encode.head?).getD 0

/-- Registers that a field's role names. -/
def Role.registers (r : Role) (f : RegNum) : List Nat :=
  match r with
  | .unused => []
  | .const => []
  | .tile => []
  | .reg _ n _ => (List.range n).map fun i => f.toNat + i

/-- Whether a role reads its registers. -/
def Role.reads : Role → Bool
  | .unused => false
  | .const => false
  | .tile => false
  | .reg d _ _ => d != .dst

/-- Whether a role writes its registers. -/
def Role.writes : Role → Bool
  | .unused => false
  | .const => false
  | .tile => false
  | .reg d _ _ => d != .src

/-- The register fields of an instruction with their roles and numbers, in the order a, b, C, d. -/
def Sig.fields (sg : Sig) (v : View) : List (FieldName × Role × RegNum) :=
  match v.fmt with
  | .rrr => [(.a, sg.a, v.a), (.b, sg.b, v.b), (.c, sg.c, v.tail.modifier.c), (.d, sg.d, v.d)]
  | .rri => [(.a, sg.a, v.a), (.c, sg.c, v.tail.modifier.c), (.d, sg.d, v.d)]
  | .ri => [(.d, sg.d, v.d)]
  | .br => []
  | .entry => []
  | .raw => []

/-- The registers that an instruction reads or writes, the link among them. -/
def Sig.operands (sg : Sig) (v : View) : List Nat :=
  (sg.fields v).flatMap (fun f => f.2.1.registers f.2.2) ++ (if sg.link then [0, 1] else [])

/-- Every register that an instruction names, C, M and the link among them (check 3). -/
def Sig.registers (sg : Sig) (v : View) : List Nat :=
  sg.operands v ++ (if v.tail.modifier.me then [v.tail.modifier.m.toNat] else [])

/-- The destination registers of an instruction. -/
def Sig.dests (sg : Sig) (v : View) : List Nat :=
  (sg.fields v).flatMap (fun f => if f.2.1.writes then f.2.1.registers f.2.2 else []) ++
  (if sg.link then [0, 1] else [])

/-- The tile numbers that an instruction names (R246). -/
def Sig.tiles (sg : Sig) (v : View) : List Nat :=
  (sg.fields v).flatMap fun f => if f.2.1 == .tile then [f.2.2.toNat] else []

/-- The register that a trap's record names (Table 23-1): the only one that is at fault, or any of several. DESIGN CHOICE,
log entry 13. -/
def namedRegister (v : View) (rs : List Nat) : Option Nat :=
  match rs.eraseDups with
  | [] => none
  | [r] => some r
  | r :: q :: more =>
    let all := r :: q :: more
    some ((all[Config.recordedRegister v.base.toNat all.length % all.length]?).getD r)

/-- Whether a TE bit governs a field and is set (R79). -/
def Sig.trapsEmpty (sg : Sig) (m : Modifier) (f : FieldName) : Bool :=
  (m.tea && sg.tea.contains f) || (m.teb && sg.teb.contains f) || (m.tec && sg.tec.contains f)

/-- Instructions that a control core excludes (R326). -/
def Instr.excludedOnControl : Instr → Bool
  | .xfer _ | .xgat _ | .slset _ | .slwait _ | .tld _ | .tst _ | .tzero _ | .tmma _ | .tmmas _ | .tscal _ | .trd _
  | .twr _ | .tcvt _ | .ttr _ => true
  | _ => false

/-- Least privilege of an instruction (R84, Table 19-7). -/
def Instr.leastPrivilege : Instr → Nat
  | .eret _ | .rdsys _ | .wrsys _ | .tlbi _ | .tlbsync _ | .halt _ | .wfe _ | .sev _ | .dstep _ | .ctxsv _
  | .ctxld _ => 1
  | .kerase _ => 2
  | _ => 0

/-- A Die register named on a control core (R321). -/
def Instr.dieRegisterOnControl (i : Instr) (v : View) : Bool :=
  match i with
  | .rdsys _ | .wrsys _ =>
    match systemReg (sysNumber v) with
    | some (_, .die, _, _) => true
    | _ => false
  | _ => false

end Sys2Proof

namespace Sys2Proof.Machine

open Sys2Proof

/-! ## Causes and records -/

/-- Trap cause codes (Table 23-1). -/
def Cause.code : Cause → Byte
  | .illop => 0x01
  | .priv => 0x02
  | .align => 0x03
  | .page => 0x04
  | .prot => 0x05
  | .regEmpty => 0x06
  | .maskMis => 0x07
  | .regBudget => 0x08
  | .fragFull => 0x09
  | .fpExc => 0x0A
  | .svc => 0x0B
  | .brk => 0x0C
  | .step => 0x0D
  | .dieLoss => 0x0E
  | .levee => 0x0F
  | .podLoss => 0x10
  | .xferErr => 0x11

/-- A mask of lane positions. -/
def laneMask (ps : List Nat) : Word := ps.foldl (fun m p => m ||| (1 <<< p)) 0

/-- FLAGS of a fault record (Table 23-3). -/
def recordFlags (last halt xfer mal : Bool) (access : BitVec 2) : Byte :=
  (0 : BitVec 2) ++ access ++ BitVec.ofBool mal ++ BitVec.ofBool xfer ++ BitVec.ofBool halt ++ BitVec.ofBool last

/-- A fault record of a thread (Table 23-3). -/
def threadRecord (g : Group) (t : Thread) (i : TrapInfo) (lanes : Word) (entry : Byte) (last halt : Bool) : FaultRecord :=
  { name := g.name, pc := t.pc.zeroExtend 64, tval := i.tval, lanes := lanes, lane := BitVec.ofNat 8 t.lane,
    cause := i.cause.code, entry := entry, flags := recordFlags last halt false i.malformed i.access,
    core := BitVec.ofNat 8 g.place.core, slot := BitVec.ofNat 8 g.place.slot, aux := i.aux, handle := 0,
    detail := i.detail }

/-- The record of a transfer that a fault stops or that failed, with its handle (R242, R400, Table 23-3). -/
def transferRecord (g : Group) (t : Thread) (pc : Pc) (handle : Nat) (i : TrapInfo) : FaultRecord :=
  { threadRecord g { t with pc := pc } i (laneMask [t.lane]) 0xFF true false with
      flags := recordFlags true false true i.malformed i.access, handle := BitVec.ofNat 8 handle }

/-- A group of records that the die is to write (R400). -/
def State.addRecords (s : State) (die : Nat) (rs : List FaultRecord) : State :=
  s.modDie die fun d => { d with records := d.records ++ [rs] }

/-! ## The lane set -/

/-- The lane set that issues: its stroke, its group, its lanes in ascending lane position, and their program counter. -/
structure Issue where
  stroke : Stroke
  group : Group
  lanes : List Thread
  pc : Pc
  deriving DecidableEq, Repr

/-- The lane set on the current issue slot. -/
def State.issue (s : State) : Option Issue :=
  match s.strokes.find? fun k => k.die = s.cur.1 && k.core = s.cur.2.1 && k.slot = s.cur.2.2 with
  | none => none
  | some k =>
    match s.group k.gid with
    | none => none
    | some g =>
      match sortBy Thread.lane (k.lanes.filterMap fun t => g.thread t) with
      | [] => none
      | t :: ts => some ⟨k, g, t :: ts, t.pc⟩

/-- What one active lane does at check 7: it traps, it completes with its thread as written, or it is held with its
thread as written, at its instruction. -/
inductive Plan where
  | trap (i : TrapInfo)
  | go (t : Thread) (target : Option Pc)
  | hold (t : Thread) (h : Hold)
  deriving DecidableEq, Repr

/-- The lane's mask bit (R59). -/
def laneActive (m : Modifier) (t : Thread) : Bool := !m.me || (t.reg m.m.toNat).getLsbD 0

/-! ## What a tile's shape decides -/

/-- Shape fields (Table 12-1): rows, elements per row, and the element width in bytes. -/
def shapeRows (sh : Word) : Nat := field sh 8 8
def shapeCols (sh : Word) : Nat := field sh 16 10
def shapeWidth (sh : Word) : Nat := 2 ^ field sh 0 2

/-- A tile's shape, as the group's special register holds it (R248). -/
def Group.shape (g : Group) (t : Nat) : Word := (g.tshape[t]?).getD 0

/-- The first register of a pair that the shape makes of a `trd` or `twr` operand (R263). -/
def tilePair (i : Instr) (v : View) (g : Group) : Option Nat :=
  if v.tail.modifier.x != 0 then none
  else
    match i with
    | .trd _ => if shapeWidth (g.shape v.b.toNat) = 8 then some v.d.toNat else none
    | .twr _ => if shapeWidth (g.shape v.d.toNat) = 8 then some v.b.toNat else none
    | _ => none

/-! ## Checks 2 to 5 -/

/-- Checks 2 to 5 of Table 3-12 for a lane set: the trap that every lane takes, if any. Check 3 comes before the alignment of
check 4 for a wide operand that reaches past the allocation too, such as a pair at v127 (DEDUCED, log entry 75); it never
traps on a control core (R326). -/
def Issue.staticTrap (x : Issue) (i : Instr) (v : View) : Option TrapInfo :=
  let sg := i.sig v
  let control := x.group.control.isSome
  let base := v.base.zeroExtend 64
  let beyond := if control then none
    else namedRegister v (((sg.registers v).filter fun r => x.group.budget ≤ r) ++ (sg.tiles v).filter fun k => x.group.tiles ≤ k)
  if v.fmt == .raw || (control && i.excludedOnControl) then some { cause := .illop, tval := base }
  else
    match beyond with
    | some r => some { cause := .regBudget, tval := BitVec.ofNat 64 r }
    | none =>
      if !i.legal v || (control && i.dieRegisterOnControl v) then some { cause := .illop, tval := base }
      else if x.lanes.any fun t => t.pl.toNat < i.leastPrivilege then some { cause := .priv, tval := base }
      else none

/-! ## Warps -/

/-- Whether a group's registers are resident. -/
def Group.isResident (g : Group) : Bool :=
  match g.residency with
  | .resident _ => true
  | .out _ _ => false
  | .saved _ _ _ => false

/-- The warp that a thread is in. -/
def Group.warpOf (g : Group) (t : Nat) : Option Warp := g.warps.find? fun w => w.lanes.any fun l => l.2 = t

/-- A group with threads taken out of their warps; an empty warp is gone. -/
def Group.leaveWarp (g : Group) (ts : List Nat) : Group :=
  let ws := g.warps.map fun w => { w with lanes := w.lanes.filter fun l => !ts.contains l.2 }
  { g with warps := ws.filter fun w => w.lanes != [] }

/-- The kind of the warp that a thread is in. -/
def Group.kindOf (g : Group) (t : Nat) : WarpKind := ((g.warpOf t).map Warp.kind).getD .normal

/-- The state of a thread that a stroke's end or a completed condition frees: READY, or PARKED in a warp parked whole
(R37, R406). -/
def Group.freeState (g : Group) (t : Nat) : TState :=
  match g.kindOf t with
  | .parked _ => .parked
  | .halted => .parked
  | .fragment _ => .ready
  | .normal => .ready

/-- A held thread released, at a program counter; `again` when it executes its instruction again, having been counted
(R361). One that was stepped has run its instruction where it does not (R337). -/
def Group.release (g : Group) (t : Nat) (pc : Pc) (again : Bool) : Group :=
  g.modThread t fun x =>
    { x with state := g.freeState t, pc := pc, resumed := again,
             stepping := if x.stepping == .toRun && !again then .ran x.pc else x.stepping }

/-- A fresh number for warps, wins and orderings of the model (log entry 4). -/
def State.freshWin (s : State) : Nat × State := (s.next.win, { s with next := { s.next with win := s.next.win + 1 } })

/-- A fresh number for operations and store buffer entries, rising in program order of each thread. -/
def State.freshOp (s : State) : Nat × State := (s.next.op, { s with next := { s.next with op := s.next.op + 1 } })

/-! ## Taking a trap -/

/-- The lowest free entry of a core's fragment table (R36, R397). -/
def Core.freeEntry (c : Core) : Option Nat := (List.range 64).find? fun e => (tfind c.frags e).isNone

/-- Trap entry on a control core (R320, Table 23-4): pc, cause and value are saved, the level is set, and the handler's
address is taken. -/
def Thread.enterTrap (t : Thread) (i : TrapInfo) : Thread :=
  { t with state := .ready, epc := t.pc.zeroExtend 64, tval := i.tval,
           cause := (i.detail.extractLsb' 0 16) ++ i.aux ++ i.cause.code, ppl := t.pl,
           pl := if t.pl == 2 then 2 else 1, pc := t.vbase.extractLsb' 0 56, stepping := .no, resumed := false,
           fence := .idle, trapped := none }

/-- The return from a trap on a control core (R331); `none` where its target is misaligned or out of range. -/
def Thread.returnFromTrap (t : Thread) : Option Thread :=
  if t.epc.extractLsb' 0 2 != 0 || t.epc.extractLsb' 56 8 != 0 then none
  else some { t with pl := t.ppl, ppl := 0, pc := t.epc.extractLsb' 0 56 }

/-- Trapping lanes leave their warp together as one fragment in a free entry of the fragment table, with one record per
lane (R36, R397, R400). Each thread's program counter stands at the trapping instruction. -/
def State.splitFragment (s : State) (gid entry : Nat) (traps : List (Nat × TrapInfo)) : State :=
  match s.group gid with
  | none => s
  | some g =>
    let ts := traps.map Prod.fst
    let lanes := sortBy Prod.fst (ts.filterMap fun t => (g.thread t).map fun x => (x.lane, t))
    let (wid, s) := s.freshWin
    let g := g.leaveWarp ts
    let g := { g with warps := g.warps ++ [⟨wid, .fragment entry, lanes, none⟩] }
    let g := traps.foldl (fun g p => g.modThread p.1 fun x =>
      { x with state := .parked, trapped := some p.2, stepping := .no, resumed := false, fence := .idle }) g
    let mask := laneMask (lanes.map Prod.fst)
    let recs := lanes.filterMap fun l =>
      match g.thread l.2, traps.find? fun p => p.1 = l.2 with
      | some x, some p =>
        some (threadRecord g x p.2 mask (BitVec.ofNat 8 entry) ((lanes.getLast?).map Prod.snd == some l.2) false)
      | _, _ => none
    let s := s.putGroup g
    let s := s.modCore g.place.die g.place.core fun c => { c with frags := tput c.frags entry (gid, wid, !s.regs.assist.getLsbD 2) }
    s.addRecords g.place.die recs

/-- The whole warp parks because the fragment table is full (R37): its set and its READY threads at once, its other
threads when they are freed. FRAGFULL is reported for its lowest lane (R400). -/
def State.parkWarp (s : State) (gid : Nat) (set : List Nat) (under : TrapInfo) : State :=
  match s.group gid with
  | none => s
  | some g =>
    match set.head?.bind g.warpOf with
    | none => s
    | some w =>
      let info : TrapInfo := { cause := .fragFull, detail := under.cause.code.zeroExtend 32 }
      let g := { g with warps := mapIf (fun x => x.id = w.id) (fun x => { x with kind := .parked (!s.regs.assist.getLsbD 2) }) g.warps }
      let g := w.lanes.foldl (fun g l => g.modThread l.2 fun x =>
        { x with trapped := some info, state := if set.contains l.2 || x.state == .ready then .parked else x.state }) g
      let mask := laneMask (w.lanes.map Prod.fst)
      let recs := match w.lanes.head?.bind fun l => g.thread l.2 with
        | some x => [threadRecord g x info mask 0xFF true false]
        | none => []
      (s.putGroup g).addRecords g.place.die recs

/-- TAKING AN EXCEPTION. Lanes of one instruction trap, each with its record. A control-core thread enters its handler
(R320). On a compute core the lanes leave as a fragment (R36), or, with the fragment table full, their whole warp parks
and no lane of the set `set` has executed (R37). The answer says whether the warp was parked whole. -/
def State.takeTraps (s : State) (g : Group) (set : List Nat) (traps : List (Nat × TrapInfo)) : State × Bool :=
  match traps with
  | [] => (s, false)
  | (_, i) :: _ =>
    if g.control.isSome then
      (traps.foldl (fun s p => s.modThread g.gid p.1 fun t => t.enterTrap p.2) s, false)
    else
      match (s.core g.place.die g.place.core).freeEntry with
      | some e => (s.splitFragment g.gid e traps, false)
      | none => (s.parkWarp g.gid set i, true)

/-! ## Bins -/

/-- A bin fires once (R33): its threads of lowest group index, at most 32, form one warp at lane positions 0 up. -/
def State.fireBin (s : State) (gid : Nat) (key : Pc) : State :=
  match s.group gid with
  | none => s
  | some g =>
    match g.bins.find? fun b => b.key == key with
    | none => s
    | some b =>
      let out := (sortBy id (b.entries.map Prod.fst)).take 32
      let lanes := out.zipIdx.map fun p => (p.2, p.1)
      let rest := b.entries.filter fun e => !out.contains e.1
      let (wid, s) := s.freshWin
      let bins := if rest = [] then g.bins.filter fun x => x.key != key
        else mapIf (fun x => x.key == key) (fun x => { x with entries := rest }) g.bins
      let g := { g with bins := bins, warps := g.warps ++ [⟨wid, .normal, lanes, none⟩] }
      s.putGroup (lanes.foldl (fun g l => g.modThread l.2 fun x => { x with state := .ready, lane := l.1 }) g)

/-- A bin fires as many times as it takes to empty it (R32). -/
def State.emptyBin (s : State) (gid : Nat) (key : Pc) : Nat → State
  | 0 => s
  | n + 1 =>
    match (s.group gid).bind fun g => g.bins.find? fun b => b.key == key with
    | none => s
    | some _ => (s.fireBin gid key).emptyBin gid key n

/-- The entry time of a bin's earliest thread. -/
def Bin.earliest (b : Bin) : Nat := ((leastBy Prod.snd b.entries).map Prod.snd).getD 0

/-- The bin that stands first in firing order (R33): the oldest earliest entry, then the lowest key. -/
def Group.firstBin (g : Group) : Option Bin := leastBy Bin.earliest (sortBy (fun b => b.key.toNat) g.bins)

/-! ## Context halts -/

/-- A warp's threads freed from their parking. -/
def Group.unparkWarp (g : Group) (wid : Nat) : Group :=
  match g.warps.find? fun w => w.id = wid with
  | none => g
  | some w =>
    let g := { g with warps := mapIf (fun x => x.id = wid) (fun x => { x with kind := .normal }) g.warps }
    w.lanes.foldl (fun g l => g.modThread l.2 fun t =>
      { t with trapped := none, state := if t.state == .parked then .ready else t.state }) g

/-- Warps of a core's groups that a test accepts execute again. -/
def State.unparkWarps (s : State) (die core : Nat) (p : Warp → Bool) : State :=
  s.groups.foldl (fun s g =>
    if g.2.control.isNone && g.2.place.die = die && g.2.place.core = core then
      (g.2.warps.filter p).foldl (fun s w => s.modGroup g.1 fun g => g.unparkWarp w.id) s
    else s) s

/-- An entry of a core's fragment table is freed: in hardware mode UNPARK is applied to the core (R404, R325). -/
def State.freeEntry (s : State) (die core entry : Nat) : State :=
  let s := s.modCore die core fun c => { c with frags := tdel c.frags entry }
  s.unparkWarps die core fun w => match w.kind with
    | .parked hw => hw
    | _ => false

/-- Whether a group has a thread in a context. -/
def Group.inContext (g : Group) (ctx : Nat) : Bool := g.threads.any fun t => t.2.ctxid.toNat = ctx && t.2.state != .exited

/-- Whether a context halt parks a warp of a group (R406): one that holds a thread of the context, a fragment among them, or was
formed just now by a bin of the group (`old` are the warps from before). -/
def Group.halts (g : Group) (ctx : Nat) (old : List Warp) (w : Warp) : Bool :=
  w.kind != .halted &&
  (!(old.any fun o => o.id = w.id) || w.lanes.any fun l => (g.thread l.2).any fun t => t.ctxid.toNat = ctx)

/-- The entry of the fragment table that a warp has. -/
def Warp.entry (w : Warp) : Option Nat :=
  match w.kind with
  | .fragment e => some e
  | .normal => none
  | .parked _ => none
  | .halted => none

/-- A context halt in one compute group (R406): its bins fire, its warps that hold a thread of the context park where they
stand, those that are parked as fragments or under R37 among them, held threads leave what held them, and one record is made for the
lowest lane of each warp. A fragment leaves its entry, so that no command to it and no repair moves the halted warp; DEDUCED, log
entry 56. The area of a saved group stays as it was written. -/
def State.haltGroup (s : State) (gid ctx : Nat) (i : TrapInfo) : State :=
  match s.group gid with
  | none => s
  | some g0 =>
    let s := g0.bins.foldl (fun s b => s.emptyBin gid b.key 32) s
    match s.group gid with
    | none => s
    | some g =>
      let hit := g.warps.filter (g.halts ctx g0.warps)
      let ts := hit.flatMap fun w => w.lanes.map Prod.snd
      let g := { g with
        warps := mapIf (g.halts ctx g0.warps) (fun w => { w with kind := .halted }) g.warps
        actions := g.actions.filter fun a => !hit.any fun w => w.id = a.1 }
      let g := ts.foldl (fun g t => g.modThread t fun x =>
        { x with state := .parked, trapped := some i, resumed := false, fence := .idle }) g
      let s := { s.putGroup g with
        strokes := s.strokes.filter fun k => k.gid != gid || !hit.any fun w => w.id = k.warp }
      let s := (hit.filterMap Warp.entry).foldl (fun s e => s.freeEntry g.place.die g.place.core e) s
      hit.foldl (fun s w =>
        match (leastBy Prod.fst w.lanes).bind fun l => g.thread l.2 with
        | some x => s.addRecords g.place.die [threadRecord g x i (laneMask (w.lanes.map Prod.fst)) 0xFF true true]
        | none => s) s

/-- The runs of a context's folios end with an error under DIELOSS or LEVEE (R356): nodes not yet submitted never are. -/
def State.haltFolios (s : State) (ctx : Nat) : State :=
  let mine := fun (f : Folio) => f.ctx = ctx && f.run
  let fids := (s.folios.filter mine).map Folio.fid
  let ended := fun (l : Launch) => match l.node with
    | some n => fids.contains n.1
    | none => false
  { s with
      folios := mapIf mine (fun f => { f with run := false, err := true, nodes := [], stale := true }) s.folios
      launches := mapIf ended (fun l => { l with node := none }) s.launches }

/-- A halted thread's launches that await an entry of their store do not start (R393). -/
def Thread.holdLaunches (t : Thread) : Thread :=
  let waits := fun (o : Op) => match o.kind with
    | .launch _ _ _ none _ => true
    | _ => false
  { t with ops := mapIf waits (fun o => { o with held := true }) t.ops }

/-- A context halt under DIELOSS, LEVEE or PODLOSS (R393, R406): every compute group of the context parks, its
control-core threads trap at their next instruction, and its launches that have groups yet to be admitted admit none, nor do those that
await an entry. A thread whose own trap halts its context is one of the control-core threads; DESIGN CHOICE, log entry 91. -/
def State.haltContext (s : State) (ctx : Nat) (i : TrapInfo) : State :=
  let waits := fun (l : Launch) => l.ctx = ctx && (l.phase == .queued || l.admitted < l.header.groups)
  let s := { s with launches := mapIf waits (fun l => { l with held := true }) s.launches }
  let s := if i.cause == .podLoss then s else s.haltFolios ctx
  s.groups.foldl (fun s p =>
    if !p.2.inContext ctx then s
    else
      let s := s.modGroup p.1 fun g => { g with threads := g.threads.map fun t =>
        (t.1, if t.2.ctxid.toNat = ctx then t.2.holdLaunches else t.2) }
      match p.2.control, p.2.residency with
      | some _, _ => s.modThread p.1 0 fun t => { t with trapped := some i }
      | none, .saved _ _ _ => s
      | none, _ => s.haltGroup p.1 ctx i) s

/-! ## Strokes -/

/-- Whether two strokes stand on one issue slot. -/
def Stroke.sameSlot (k x : Stroke) : Bool := x.die = k.die && x.core = k.core && x.slot = k.slot

/-- A stroke ends: its lanes that still issue are freed. -/
def State.endStroke (s : State) (k : Stroke) : State :=
  let s := { s with strokes := s.strokes.filter fun x => !k.sameSlot x }
  s.modGroup k.gid fun g => k.lanes.foldl (fun g t => g.modThread t fun x =>
    if x.state == .issuing then { x with state := g.freeState t } else x) g

/-- A stroke with its lanes and its count after an instruction that does not end it. -/
def State.putStroke (s : State) (k : Stroke) : State :=
  { s with strokes := mapIf k.sameSlot (fun _ => k) s.strokes }

/-- A replay launch's retired count rises by 1 (R361). -/
def State.countRetired (s : State) (lid : Nat) : State :=
  let up := fun (l : Launch) => { l with retired := l.retired + 1, sliceRetired := l.sliceRetired + 1 }
  { s with launches := mapIf (fun l => l.lid = lid && l.header.ctl.getLsbD 8) up s.launches }

/-- The lanes of a set are held WAITING at their instruction, and the stroke ends before it issues (R26, R210). -/
def State.blockSet (s : State) (x : Issue) (lanes : List Nat) (h : Hold) : State :=
  let s := s.modGroup x.group.gid fun g => lanes.foldl (fun g t => g.modThread t fun y =>
    { y with state := .waiting h }) g
  s.endStroke x.stroke

/-! ## Running an instruction in a lane set -/

/-- What a blocked lane awaits: its empty registers that no TE bit sends to REGEMPTY (R26). -/
def Thread.emptyOperands (t : Thread) (sg : Sig) (v : View) : List Nat :=
  (sg.operands v).filter fun r => !t.isFull r

/-- The register that sends an active lane to REGEMPTY, if a TE bit asks (R79). -/
def Thread.regEmpty (t : Thread) (sg : Sig) (v : View) : Option Nat :=
  namedRegister v (((sg.fields v).flatMap fun (f : FieldName × Role × RegNum) =>
    if f.2.1.reads && sg.trapsEmpty v.tail.modifier f.1 then f.2.1.registers f.2.2 else []).filter fun r => !t.isFull r)

/-- An inactive lane (R59): its destination keeps its value, or is zeroed and filled under ZM, and a producer that was
awaited there no longer writes it. A remote store held there behind such a producer is applied now, as to a full register:
R29 does not say when (log entry 75). -/
def Thread.inactive (t : Thread) (zm : Bool) (ds : List Nat) : Thread :=
  if zm then
    let zeroed := ds.foldl (fun t r => t.setReg r 0) t
    let t := (zeroed.remote.filter fun p => ds.contains p.1).foldl (fun t p => t.setReg p.1 p.2) zeroed
    { t with remote := t.remote.filter (fun p => !ds.contains p.1)
             ops := t.ops.map fun o => if o.done then o else { o with cancelled := o.cancelled ++ ds } }
  else t

/-- The registers of an instruction's destination in a lane set: those its words name, and the second register of a `trd`
pair, which the tile's shape makes (R263). -/
def Issue.dests (x : Issue) (i : Instr) (v : View) : List Nat :=
  (i.sig v).dests v ++ (match i, tilePair i v x.group with
    | .trd _, some r => if r + 1 < x.group.budget then [r + 1] else []
    | _, _ => [])

/-- An inactive lane of the set after the instruction (R59). -/
def Issue.inactive (x : Issue) (i : Instr) (v : View) (t : Thread) : Thread :=
  t.inactive v.tail.modifier.zm (x.dests i v)

/-- Whether an inactive lane of the set has a remote store applied to a register that ZM fills: the group's overrun flag is
set (R29, R59). -/
def Issue.overrun (x : Issue) (i : Instr) (v : View) : Bool :=
  v.tail.modifier.zm && x.lanes.any fun t =>
    !laneActive v.tail.modifier t && t.remote.any fun p => (x.dests i v).contains p.1

/-- The set's group with the overrun flag set where `overrun` says so. -/
def Group.setOverrun (g : Group) (b : Bool) : Group := if b then { g with ovr := g.ovr ||| 1 } else g

/-- The lane's thread after the instruction: completed at its next program counter, or held at the instruction. -/
def Plan.commit (p : Plan) (next : Pc) (old : Thread) : Thread :=
  match p with
  | .trap _ => old
  | .go t target => { t with pc := target.getD next, resumed := false }
  | .hold t h => { t with state := .waiting h }

/-- Whether a lane's plan ends the stroke: the lane is held, or it transfers (R25, R143). -/
def Plan.ends (p : Plan) : Bool :=
  match p with
  | .trap _ => false
  | .go _ target => target.isSome
  | .hold _ _ => true

/-- The trap that a plan takes. -/
def Plan.trapInfo : Plan → Option TrapInfo
  | .trap i => some i
  | .go _ _ => none
  | .hold _ _ => none

/-- Whether a lane completes the instruction. -/
def Plan.goes : Plan → Bool
  | .trap _ => false
  | .go _ _ => true
  | .hold _ _ => false

/-- Threads that ran the one instruction of a step request are to be taken with cause STEP (R337). -/
def State.endStepping (s : State) (gid : Nat) (pc : Pc) (ts : List Nat) : State :=
  let s := s.modGroup gid fun g => ts.foldl (fun g t => g.modThread t fun y => { y with stepping := .no }) g
  { s with steps := s.steps ++ ts.map fun t => (⟨gid, t, some pc⟩ : StepRequest) }

/-- What an instruction reads beside its source operands: the other bits of d under a narrow `cvt` (R174), and the second register of a
`twr` pair (R263). -/
def alsoReads (i : Instr) (v : View) (g : Group) : List Nat :=
  match i with
  | .cvt _ => if (numFormat (descCode v.b)).any fun f => f.width < 32 then [v.d.toNat] else []
  | .twr _ => ((tilePair i v g).map (· + 1)).toList
  | _ => []

/-- Whether a lane's mask register, which tells whether it is active, is in error (R59, R415). -/
def Thread.maskError (t : Thread) (v : View) : Bool := v.tail.modifier.me && t.regErrors.contains v.tail.modifier.m.toNat

/-- A register in error that a lane's instruction reads (R415): the mask register, or an active lane's operand. -/
def Issue.errorRead (x : Issue) (i : Instr) (v : View) (t : Thread) : Option Nat :=
  if t.maskError v then some v.tail.modifier.m.toNat
  else if laneActive v.tail.modifier t then
    t.regErrors.find? fun r => (alsoReads i v x.group).contains r ||
      ((i.sig v).fields v).any fun f => f.2.1.reads && (f.2.1.registers f.2.2).contains r
  else none

/-- Contexts halt in which a lane of a set has trapped LEVEE, each with the first such trap of its lanes (R395, R415). -/
def State.haltLevees (s : State) (lanes : List Thread) (traps : List (Nat × TrapInfo)) : State :=
  let hit := lanes.filterMap fun t =>
    (traps.find? fun p => p.1 = t.gidx && p.2.cause == .levee).map fun p => (t.ctxid.toNat, p.2)
  ((hit.map Prod.fst).eraseDups).foldl (fun s c => match hit.find? fun h => h.1 = c with
    | some h => s.haltContext c { h.2 with access := 0 }
    | none => s) s

/-- Check 7 and its effects for the lanes of a set that checks 2 to 6 let through (R36, R37, R59, R397). `plan` is each
active lane's own execution, and the trap of one whose mask register is in error; `after` is what the lanes that completed do beyond their own threads. -/
def State.execute (s : State) (x : Issue) (i : Instr) (v : View) (lanes : List Thread) (plan : Thread → Plan)
    (after : List Thread → State → State) (ends : Bool) : State :=
  let m := v.tail.modifier
  let next := v.next x.pc
  let plans := lanes.map fun t => (t, if laneActive m t || t.maskError v then plan t else .go (x.inactive i v t) none)
  let traps := plans.filterMap fun p => p.2.trapInfo.map fun i => (p.1.gidx, i)
  let ts := lanes.map Thread.gidx
  let full := x.group.control.isNone && traps != [] &&
    ((s.core x.group.place.die x.group.place.core).freeEntry).isNone
  if full then
    ((s.takeTraps x.group ts traps).1).endStroke { x.stroke with lanes := ts }
  else
    let stay := plans.filter fun p => !traps.any fun q => q.1 = p.1.gidx
    let s := s.modGroup x.group.gid fun g =>
      stay.foldl (fun g p => g.putThread p.1.gidx (p.2.commit next p.1)) (g.setOverrun (x.overrun i v))
    let went := (stay.filter fun p => p.2.goes && laneActive m p.1).map Prod.fst
    let s := after went s
    let s := (s.takeTraps x.group ts traps).1
    let s := if stay.any fun p => !p.1.resumed then s.countRetired x.group.lid else s
    let stepped := (stay.filter fun p => p.2.goes && p.1.stepping == .toRun).map fun p => p.1.gidx
    let s := s.endStepping x.group.gid x.pc stepped
    let k := { x.stroke with lanes := stay.map fun p => p.1.gidx, count := x.stroke.count + 1 }
    let stop := ends || v.stroke || 24 ≤ k.count || stay = [] || stepped != [] ||
      stay.any fun p => p.2.ends
    let s := if stop then s.endStroke k else s.putStroke k
    s.haltLevees lanes traps

/-- The register that sends a lane of the set to REGEMPTY at check 6, if any. -/
def Thread.sentEmpty (t : Thread) (i : Instr) (v : View) : Option Nat :=
  if laneActive v.tail.modifier t then t.regEmpty (i.sig v) v else none

/-- A REGEMPTY trap. -/
def emptyTrap (r : Nat) : TrapInfo := { cause := .regEmpty, tval := BitVec.ofNat 64 r }

/-- The trap of a lane that reads a register in error: TVAL is the register's number (Table 23-8). -/
def registerLevee (g : Group) (r : Nat) : TrapInfo :=
  { cause := .levee, tval := BitVec.ofNat 64 r, detail := BitVec.ofNat 32 g.place.die }

/-- The trap of a lane before its own execution: an empty operand that a TE bit sends to REGEMPTY, or a register in error. -/
def Issue.laneTrap (x : Issue) (i : Instr) (v : View) (t : Thread) : Option TrapInfo :=
  ((t.sentEmpty i v).map emptyTrap).or ((x.errorRead i v t).map (registerLevee x.group))

/-- What the whole set waits for at check 6: the mask register, full in every lane (R59). -/
def Issue.maskNeeds (x : Issue) (v : View) : List (Nat × Nat) :=
  let m := v.tail.modifier
  if m.me then (x.lanes.filter fun t => !t.isFull m.m.toNat).map fun t => (t.gidx, m.m.toNat) else []

/-- What the lanes of a set that go on to check 7 wait for at check 6: the empty operands of the active ones (R26). -/
def Issue.operandNeeds (x : Issue) (i : Instr) (v : View) : List (Nat × Nat) :=
  (x.lanes.filter fun t => (t.sentEmpty i v).isNone).flatMap fun t =>
    if laneActive v.tail.modifier t then (t.emptyOperands (i.sig v) v).map fun r => (t.gidx, r) else []

/-- Check 6 (R26, R59, R79), then the execution: an empty mask register blocks the whole set. Where a lane awaits a register, or
`room` says that an active lane has no room (R210), the lanes that a TE bit sends to REGEMPTY leave alone and the other
lanes are held; else they leave with the lanes that trap at check 7 and those that read a register in error (R415), as one fragment (R36). -/
def State.operandCheck (s : State) (x : Issue) (i : Instr) (v : View) (room : Thread → Option Hold)
    (plan : Thread → Plan) (after : List Thread → State → State) (ends : Bool) : State :=
  let ts := x.lanes.map Thread.gidx
  if x.maskNeeds v != [] then s.blockSet x ts (.regs (x.maskNeeds v))
  else
    let lanes := x.lanes.filter fun t => (t.sentEmpty i v).isNone
    let waits := lanes.filterMap fun t => if laneActive v.tail.modifier t then room t else none
    let needs := x.operandNeeds i v
    match if needs != [] then some (.regs needs) else waits.head? with
    | some h =>
      let r := s.takeTraps x.group ts (x.lanes.filterMap fun t => (t.sentEmpty i v).map fun r => (t.gidx, emptyTrap r))
      if r.2 then r.1.endStroke x.stroke else r.1.blockSet x (lanes.map Thread.gidx) h
    | none =>
      s.execute x i v x.lanes (fun t => match x.laneTrap i v t with
        | some e => .trap e
        | none => plan t) after ends

/-- An instruction of the lane set x, from check 2 on (Table 3-12, R85, R86), with a lane's wait for room. A control-core
thread whose context was halted traps instead (R406). -/
def State.runSetRoom (s : State) (x : Issue) (i : Instr) (v : View) (room : Thread → Option Hold)
    (plan : Thread → Plan) (after : List Thread → State → State) (ends : Bool) : State :=
  let ts := x.lanes.map Thread.gidx
  let halted := if x.group.control.isSome then x.lanes.head?.bind Thread.trapped else none
  match halted.or (x.staticTrap i v) with
  | some t => ((s.takeTraps x.group ts (ts.map fun g => (g, t))).1).endStroke x.stroke
  | none => s.operandCheck x i v room plan after ends

/-- An instruction that needs no room in a counter or a buffer. -/
def State.runSet (s : State) (x : Issue) (i : Instr) (v : View) (plan : Thread → Plan)
    (after : List Thread → State → State) (ends : Bool) : State :=
  s.runSetRoom x i v (fun _ => none) plan after ends

/-- The outcome of an encoded instruction: run in the lane set on the current issue slot. -/
def State.run (s : State) (i : Instr) (f : Issue → View → State) : Host.Outcome State Fault Refusal :=
  match s.issue, i.view with
  | some x, some v => .next (f x v)
  | none, _ => .fault .noLaneSet
  | some _, none => .fault .noLaneSet

/-- An instruction whose effect is each active lane's own: registers, flags, store buffer and next program counter. -/
def State.runLanes (s : State) (i : Instr) (plan : Issue → View → Thread → Plan) : Host.Outcome State Fault Refusal :=
  s.run i fun x v => s.runSet x i v (plan x v) (fun _ s => s) false

/-! ## Exit, barriers and the thread's outstanding operations -/

/-- A load or an atomic of a thread that has not been performed (R204, R205). -/
def Op.unperformed (o : Op) : Bool :=
  match o.kind with
  | .load _ _ _ _ _ _ value => value.isNone
  | .atom _ _ _ _ _ _ ret _ sent result => if ret then result.isNone else !sent
  | _ => false

/-- Whether a store buffer entry is a store. -/
def SbEntry.isStore (e : SbEntry) : Bool :=
  match e.kind with
  | .global _ _ => true
  | .scratch _ => true
  | .mark _ _ => false

/-- Whether a scratchpad or global access that a thread issued below a place has not been performed (R41). -/
def Thread.busyBelow (t : Thread) (n : Nat) : Bool :=
  (t.sb.any fun e => e.isStore && e.seq < n) || t.ops.any fun o => o.unperformed && o.id < n

/-- Whether an entry of a thread's order still holds accesses back (R41, R43). -/
def Group.orderHolds (g : Group) (p : Nat × Nat) : Bool := (g.thread p.1).any fun t => t.busyBelow p.2

/-- Whether an access of a thread at a place comes after a member's access that has not been performed (R41, R43). -/
def Group.heldByOrder (g : Group) (t : Thread) (seq : Nat) : Bool := t.order.any fun p => p.2 ≤ seq && g.orderHolds p

/-- A barrier or a synchronisation of the threads `ms` completes at place n: every access that a member issued below n is
performed before any access that a member issues from n on (R41, R43). -/
def Group.orderMembers (g : Group) (ms : List Nat) (n : Nat) : Group :=
  let busy := ms.filter fun m => g.orderHolds (m, n)
  if busy = [] then g
  else ms.foldl (fun g m => g.modThread m fun t =>
    { t with order := t.order.filter g.orderHolds ++ busy.map fun b => (b, n) }) g

/-- Threads of a group that have not exited. -/
def Group.live (g : Group) : List Thread := (g.threads.map Prod.snd).filter fun t => t.state != .exited

/-- Threads held at barrier n with their next program counters. -/
def Group.heldAt (g : Group) (n : Nat) : List (Nat × Pc) :=
  g.live.filterMap fun t => match t.state with
    | .waiting (.bar k next) => if k = n then some (t.gidx, next) else none
    | _ => none

/-- A barrier that every live thread is held at completes, and orders their accesses (R40, R41). -/
def Group.completeBarriers (g : Group) (n : Nat) : Group :=
  (List.range 16).foldl (fun g k =>
    let h := g.heldAt k
    if h != [] && h.length = g.live.length then
      (h.foldl (fun g p => g.release p.1 p.2 false) g).orderMembers (h.map Prod.fst) n
    else g) g

/-- A thread exits (R148): it leaves its warp or its bin, and what it still awaits is discarded. The stores that it has issued
still complete, behind its acquires that are outstanding (R205). -/
def Group.exitThread (g : Group) (t : Nat) : Group :=
  let g := g.leaveWarp [t]
  let bs := g.bins.map fun b => { b with entries := b.entries.filter fun e => e.1 != t }
  let g := { g with bins := bs.filter fun b => b.entries != [] }
  g.modThread t fun x =>
    { x with state := .exited, remote := [], fence := .idle, trapped := none,
             acquires := x.acquires.filter fun a => x.ops.any fun o => o.id = a.1 && !o.done }

/-- A register of a thread filled by a producer; remote register stores held for it are applied and set the overrun flag
(R28, R29). -/
def Group.fillReg (g : Group) (t r : Nat) (v : Word) : Group :=
  match g.thread t with
  | none => g
  | some x =>
    if x.state == .exited then g
    else
      let x := x.setReg r v
      let held := x.remote.filter fun p => p.1 = r
      let x := held.foldl (fun x p => x.setReg r p.2) x
      let g := g.putThread t { x with remote := x.remote.filter fun p => p.1 != r }
      if held = [] then g else { g with ovr := g.ovr ||| 1 }

/-- The registers of a completed operation filled, but for those it no longer writes (R59). -/
def Group.fillOp (g : Group) (t : Nat) (o : Op) (d : Nat) (ws : List Word) : Group :=
  ws.zipIdx.foldl (fun g p => if o.cancelled.contains (d + p.2) then g else g.fillReg t (d + p.2) p.1) g

/-- Outstanding operations of a class: those completed before every older one has left the count (R211). -/
def Thread.outstanding (t : Thread) (c : OpClass) : Nat :=
  ((t.ops.filter fun o => o.cls = some c).dropWhile Op.done).length

/-- The limit of a class (Table 9-4). -/
def OpClass.limit : OpClass → Nat
  | .load => 64
  | .transfer => 16
  | .tile => 16
  | .pod => 64

/-- A thread's operation changed. -/
def Thread.modOp (t : Thread) (id : Nat) (f : Op → Op) : Thread := { t with ops := mapIf (fun o => o.id = id) f t.ops }

/-- The request of an operation was dropped by the polder filter: it is never answered (R380). -/
def State.dropOp (s : State) (gid gidx id : Nat) : State :=
  s.modThread gid gidx fun t => t.modOp id fun o => { o with dropped := true }

/-- The trap that a failed transfer holds for its thread (R242). -/
def Op.failure (o : Op) : Option TrapInfo :=
  match o.kind with
  | .transfer _ f => f
  | _ => none

/-- Completed operations that no older operation of their class keeps in the count are gone (R211). A failed transfer whose trap
is to come (R242) stays, and so do the younger operations of its class, behind which `xwait` counts it (R245). -/
def Thread.retireOps (t : Thread) : Thread :=
  let classes : List (Option OpClass) := [some .load, some .transfer, some .tile, some .pod]
  let gone := classes.flatMap fun c => ((t.ops.filter fun o => o.cls = c).takeWhile fun o => o.done && o.failure.isNone).map Op.id
  { t with ops := t.ops.filter fun o => !(gone.contains o.id || (o.cls.isNone && o.done)) }

/-- An operation of a thread completed. -/
def Thread.finishOp (t : Thread) (id : Nat) : Thread := (t.modOp id fun o => { o with done := true }).retireOps

end Sys2Proof.Machine
end

