-- ==== Sys2Proof/Machine/Boot.lean ====
section
/-!
DEFINITION. The boot code of the security block (R324, R436) and the module reset (R430).
-/
namespace Sys2Proof.Machine

open Sys2Proof

/-- The page entry of a table: V and FRAME (Table 21-3). -/
def tableEntry (off : Nat) : Nat := off + 1

/-- The leaf of one 4 KiB page of the firmware image: die-local on die 0, release class, A, W and X, no U. -/
def imageLeaf (frame : Nat) : Nat := frame + 0x13B

/-- Frame offset of the firmware image in die 0's memory: the first frame for ordinary pages (R368). DESIGN CHOICE, log
entry 3. -/
def imageFrame : Nat := 2 ^ 32

/-- The words of the boot code's tables that map `n` pages of the image at its link address, and context entry 0 in
polder 0 (R324): table-region offset and value. Table j of level 0 maps pages 512 × j on, and table m of level 1 names the tables
from 512 × m on. -/
def bootWords (n : Nat) : List (Nat × Nat) :=
  let t := Config.bootRoot
  let va := Config.imageBase
  let leaves := (n + 511) / 512
  let level0 := fun j => t + 0x4000 + 0x1000 * j
  let level1 := fun m => if m = 0 then t + 0x3000 else level0 (leaves + m - 1)
  [(0, t + 1), (t + 8 * tableIndex va 4, tableEntry (t + 0x1000)),
   (t + 0x1000 + 8 * tableIndex va 3, tableEntry (t + 0x2000))] ++
  ((List.range ((leaves + 511) / 512)).map fun m =>
    (t + 0x2000 + 8 * tableIndex (va + 2 ^ 30 * m) 2, tableEntry (level1 m))) ++
  ((List.range leaves).map fun j => (level1 (j / 512) + 8 * tableIndex (va + 2 ^ 21 * j) 1, tableEntry (level0 j))) ++
  (List.range n).map fun k => (level0 (k / 512) + 8 * tableIndex (va + 4096 * k) 0, imageLeaf (imageFrame + 4096 * k))

/-- The boot code's tables written into every replica (R324). -/
def State.bootTables (s : State) (n : Nat) : State :=
  (bootWords n).foldl (fun s w => s.writeTables w.1 (bytesOfNat w.2 8)) s

/-- The listed bytes of words at ascending addresses. -/
def cellsOf (ws : List (Nat × Nat)) : Memory :=
  ws.flatMap fun w => ((bytesOfNat w.2 8).zipIdx.map fun p => (w.1 + p.2, p.1)).filter fun c => c.2 != 0

/-- Thread 0 of control core 0 on I/O die 0 starts at the image's entry; every other control-core thread is held as by
`halt`, its program counter at the secondary entry; each has the image's trap entry in sys.vbase (R324). -/
def State.startControl (s : State) (image : Image) : State :=
  let s := (List.range 192).foldl (fun s k => s.modThread k 0 fun t =>
    { t with pc := image.secondary, vbase := image.trap &&& 0x00FFFFFFFFFFFFFC, state := .waiting (.wfe image.secondary) }) s
  s.modThread 0 0 fun t => { t with pc := image.entry, state := .ready }

/-- The boot check (R436): an image whose signature verifies with the module's keys runs; otherwise the module enters
recovery. It is made at reset only. -/
def State.bootCheck (s : State) : State :=
  match s.ports.image with
  | none => if s.ports.boot == .check then { s with ports := { s.ports with boot := .recovery } } else s
  | some image =>
    if s.ports.boot != .check then s
    else if s.ports.keys && Config.signatureValid image.bytes image.signature then
      let s := s.bootTables ((image.bytes.length + 4095) / 4096)
      let s := ({ s with mem := s.mem.writeN (storageKey 0 imageFrame) image.bytes }.touch 0 0).touch 0 32
      { s.startControl image with ports := { s.ports with boot := .running } }
    else { s with ports := { s.ports with boot := .recovery } }

/-- A module reset (R430): every context ends, and all state but the key store and the firmware image is discarded; boot
starts again. The agenda, which is no part of the module, goes on. -/
def State.moduleReset (s : State) : State :=
  { State.resetWith s.ports.image s.ports.keys s.ports.eraseFuse with agenda := s.agenda }

/-- MODULE_RESET (R430). -/
def execModuleReset (s : State) : Host.Outcome State Fault Refusal := .next s.moduleReset

/-- Home memory as the boot code leaves it for a program of one page, with context 0's mask naming die 0 and I/O die 0 (R391): the
tables in every replica, the program in die 0's first frame. -/
def programMemory (bs : List Byte) : Memory :=
  let tables := cellsOf ((bootWords 1).take 1 ++ [(maskOffset 0, 2 ^ 32 + 1)] ++ (bootWords 1).drop 1)
  let program := (bs.zipIdx.map fun p => (storageKey 0 (imageFrame + p.2), p.1)).filter fun c => c.2 != 0
  (List.range 32).flatMap fun d => (tables.map fun c => (storageKey d 0 + c.1, c.2)) ++ (if d = 0 then program else [])

/-- A program placed from outside, for the very next step: the tables of the firmware image, the program's bytes at its
link address, and thread 0 of control core 0 issuing there (log entry 3). -/
def State.placeProgram (s : State) (bs : List Byte) : State :=
  let t := { Thread.controlReset with
    pc := BitVec.ofNat 56 Config.imageBase, state := .issuing, vbase := BitVec.ofNat 64 Config.imageBase }
  { s with agenda := [], cur := (32, 0, 0), mem := if s.mem = [] then programMemory bs else (s.bootTables 1).mem.writeN (storageKey 0 imageFrame) bs,
           ports := { s.ports with boot := .running },
           groups := tput s.groups 0 { Group.controlReset 0 with threads := [(0, t)] },
           strokes := (s.strokes.filter fun k => k.die != 32 || k.core != 0) ++ [⟨32, 0, 0, 0, 1, [0], 0, false⟩] }

end Sys2Proof.Machine
end

