-- ==== Sys2Proof/Machine/Operands.lean ====
section
/-!
DEFINITION. The values of operands (R57, R70 to R72, R114, R217) and what a lane does with a result.
-/
namespace Sys2Proof

/-- The immediate of format RRI, sign-extended (R70). -/
def View.imm7 (v : View) : Word := v.b.signExtend 32
/-- The immediate of format RI. -/
def View.imm14 (v : View) : BitVec 14 := v.hi21.extractLsb' 7 14
/-- The special-register number of `getsr` and `setsr`, read unsigned (R60). -/
def View.number (v : View) : Nat := v.imm14.toNat

/-- The byte offset of an access (R217): the immediate or the literal. -/
def View.offset (v : View) : Int :=
  if v.tail.hasLit then v.tail.literal.toInt else if v.fmt == .rri then v.b.toInt else 0

end Sys2Proof

namespace Sys2Proof.Machine

open Sys2Proof

/-- Operand a as a word. -/
def Thread.a32 (t : Thread) (v : View) : Word := t.reg v.a.toNat
/-- Operand a as a pair. -/
def Thread.a64 (t : Thread) (v : View) : Dword := t.pair v.a.toNat
/-- Operand b as a word: the register, the immediate of RRI, or the literal's low word (R70 to R72). -/
def Thread.b32 (t : Thread) (v : View) : Word :=
  if v.tail.hasLit then v.tail.literal.extractLsb' 0 32 else if v.fmt == .rri then v.imm7 else t.reg v.b.toNat
/-- Operand b as a pair, or the 64-bit literal. -/
def Thread.b64 (t : Thread) (v : View) : Dword := if v.tail.hasLit then v.tail.literal else t.pair v.b.toNat
/-- Operand c as a word: the register that the modifier's field C names. -/
def Thread.c32 (t : Thread) (v : View) : Word := t.reg v.tail.modifier.c.toNat
/-- Operand c as a pair. -/
def Thread.c64 (t : Thread) (v : View) : Dword := t.pair v.tail.modifier.c.toNat
/-- The register named by field d as a source. -/
def Thread.d32 (t : Thread) (v : View) : Word := t.reg v.d.toNat
/-- The pair named by field d as a source. -/
def Thread.d64 (t : Thread) (v : View) : Dword := t.pair v.d.toNat

/-- A word written to d, which fills it; the lane goes on. -/
def Thread.result (t : Thread) (v : View) (w : Word) : Plan := .go (t.setReg v.d.toNat w) none
/-- A double written to pair d. -/
def Thread.result64 (t : Thread) (v : View) (w : Dword) : Plan := .go (t.setPair v.d.toNat w) none

/-- An instruction that writes one word, computed from the modifier and the operands a, b and c. -/
def State.runWord (s : State) (i : Instr) (f : Modifier → Word → Word → Word → Word) :
    Host.Outcome State Fault Refusal :=
  s.runLanes i fun _ v t => t.result v (f v.tail.modifier (t.a32 v) (t.b32 v) (t.c32 v))

/-- An instruction that writes one pair, computed from pair a and a second operand. -/
def State.runPair (s : State) (i : Instr) (f : View → Thread → Dword) : Host.Outcome State Fault Refusal :=
  s.runLanes i fun _ v t => t.result64 v (f v t)

/-- The scaled index that an access adds (R217). -/
def Thread.indexed (t : Thread) (v : View) : Int :=
  let m := v.tail.modifier
  if v.fmt == .rri then
    if m.x.getLsbD 0 then ((t.c32 v).toNat * 2 ^ (m.x.extractLsb' 1 2).toNat : Nat) else 0
  else if m.x.getLsbD 2 then ((t.reg v.b.toNat).toNat : Nat) else 0

/-- The effective address of a global access of `n` bytes, or the trap (R176, R178, R217). -/
def globalAddress (base : Dword) (off : Int) (n : Nat) (need : Need) : Except TrapInfo Dword :=
  let ea := base + BitVec.ofInt 64 off
  if ea.extractLsb' 56 8 != 0 then .error (protTrap need ea)
  else if ea.toNat % n != 0 then .error { cause := .align, tval := ea, access := need.code }
  else .ok ea

/-- The effective address of a scratchpad access of `n` bytes, or the trap (R177, R178, R217). -/
def scratchAddress (base : Word) (off : Int) (n size : Nat) (need : Need) : Except TrapInfo Nat :=
  let ea := (base.toNat : Int) + (BitVec.ofInt 32 off).toInt
  if ea < 0 || (size : Int) < ea + n then .error (protTrap need (BitVec.ofInt 64 ea))
  else if ea.toNat % n != 0 then .error { cause := .align, tval := BitVec.ofInt 64 ea, access := need.code }
  else .ok ea.toNat

end Sys2Proof.Machine
end

