-- ==== Sys2Proof/Machine/Special.lean ====
section
/-!
DEFINITION. Special registers (R60 to R65, R136, R137) and `vote` (R140).
-/
namespace Sys2Proof.Machine

open Sys2Proof

/-! ## Special registers -/

/-- Bits of CTL (Table 20-3). -/
def Header.isGang (h : Header) : Bool := h.ctl.getLsbD 6
def Header.isStream (h : Header) : Bool := h.ctl.getLsbD 7
def Header.isReplay (h : Header) : Bool := h.ctl.getLsbD 8
def Header.isFolio (h : Header) : Bool := h.ctl.getLsbD 9
def Header.tiles (h : Header) : Nat := field h.ctl 0 4
def Header.prio (h : Header) : Nat := field h.ctl 4 2

/-- The count that a bin ages by and that sr.clock reads: cycles, or a replay launch's retired instructions (R33, R63,
R360, R361). -/
def State.clockOf (s : State) (g : Group) : Nat :=
  match s.launches.find? fun l => l.lid = g.lid && l.header.ctl.getLsbD 8 with
  | some l => l.retired
  | none => s.clock

/-- Field k of a work identifier by the launch's WID word (R18, R20, Table 20-2). -/
def levelOf (widWord wid : Dword) (k : Nat) : Word :=
  let width := fun i => field widWord (8 * i) 7
  let start := ((List.range k).map width).sum
  if k < field widWord 48 3 then BitVec.ofNat 32 (wid.toNat / 2 ^ start % 2 ^ width k) else 0

/-- A special register's value in a lane (Table 3-1). -/
def State.specialRead (s : State) (g : Group) (t : Thread) (n : Nat) : Dword :=
  let control := g.control.isSome
  let w := fun (x : Word) => x.zeroExtend 64
  if n = 0x000 then (if control then 0 else BitVec.ofNat 64 t.lane)
  else if n = 0x001 then (if control then 0 else BitVec.ofNat 64 (t.lane / 4))
  else if n = 0x002 then t.wid
  else if 0x004 ≤ n ∧ n ≤ 0x009 then w (levelOf g.widWord t.wid (n - 4))
  else if n = 0x00A then (if control then 0xFFFFFFFF else BitVec.ofNat 64 g.place.die)
  else if n = 0x00B then (if control then 0xFFFFFFFF else BitVec.ofNat 64 g.place.core)
  else if n = 0x00C then (if control then 0 else g.name)
  else if n = 0x00E then BitVec.ofNat 64 (s.clockOf g)
  else if n = 0x010 then w t.fpctl
  else if n = 0x011 then w t.fpflags
  else if n = 0x012 then w g.terr
  else if n = 0x013 then w g.ovr
  else if 0x018 ≤ n ∧ n ≤ 0x01F then w ((g.tshape[n - 0x018]?).getD 0)
  else 0

/-- A write of sr.fpctl (Table 3-2): a rounding code that is none leaves RND unchanged. -/
def writeFpctl (old w : Word) : Word :=
  let rnd := if field w 0 3 < 5 then w.extractLsb' 0 3 else old.extractLsb' 0 3
  (0 : BitVec 19) ++ w.extractLsb' 8 5 ++ (0 : BitVec 5) ++ rnd

/-- A thread register written by `setsr` (Tables 3-2 and 3-3). -/
def Thread.specialWrite (t : Thread) (n : Nat) (w : Word) : Thread :=
  if n = 0x010 then { t with fpctl := writeFpctl t.fpctl w }
  else if n = 0x011 then { t with fpflags := w &&& 0x1F }
  else t

/-- A group register written by `setsr` (Tables 3-4, 3-5 and 12-1): W1C bits clear, RO fields stay. -/
def Group.specialWrite (g : Group) (n : Nat) (w : Word) : Group :=
  if n = 0x012 then { g with terr := g.terr &&& ~~~(w &&& 0xC0000000) }
  else if n = 0x013 then { g with ovr := g.ovr &&& ~~~(w &&& 1) }
  else if 0x018 ≤ n ∧ n ≤ 0x01F then { g with tshape := g.tshape.set (n - 0x018) (w &&& 0x03FFFF03) }
  else g

/-- GETSR (R136). -/
def execGetsr (o : Ri) (s : State) : Host.Outcome State Fault Refusal :=
  s.runLanes (.getsr o) fun x v t =>
    let value := s.specialRead x.group t v.number
    if specialWidth v.number = 2 then t.result64 v value else t.result v (value.extractLsb' 0 32)

/-- SETSR (R137): each active lane writes its own register; of a group register the lowest lane position's value is
written (R62). -/
def execSetsr (o : Ri) (s : State) : Host.Outcome State Fault Refusal :=
  s.run (.setsr o) fun x v =>
    s.runSet x (.setsr o) v (fun t => .go (t.specialWrite v.number (t.d32 v)) none)
      (fun went s =>
        match went with
        | [] => s
        | t :: _ => s.modGroup x.group.gid fun g => g.specialWrite v.number (t.d32 v)) false

/-! ## Vote -/

/-- The result of `vote` over the active lanes' positions and operands (Table 5-6). -/
def voteResult (x : BitVec 3) (ls : List (Nat × Word)) : Word :=
  let yes := (ls.filter fun l => l.2.getLsbD 0).map Prod.fst
  match x.toNat with
  | 0 => if yes = [] then 0 else 1
  | 1 => if yes.length = ls.length then 1 else 0
  | 2 => laneMask yes
  | 3 => BitVec.ofNat 32 yes.length
  | 4 => if ls.all fun l => some l.2 == (ls.head?.map Prod.snd) then 1 else 0
  | 5 => match yes.head? with
    | some p => BitVec.ofNat 32 p
    | none => 0xFFFFFFFF
  | _ => match yes.getLast? with
    | some p => BitVec.ofNat 32 p
    | none => 0xFFFFFFFF

/-- VOTE (R140). -/
def execVote (o : Rrr) (s : State) : Host.Outcome State Fault Refusal :=
  s.runLanes (.vote o) fun x v t =>
    let active := x.lanes.filter fun t => laneActive v.tail.modifier t && (x.laneTrap (.vote o) v t).isNone
    t.result v (voteResult v.tail.modifier.x (active.map fun t => (t.lane, t.a32 v)))

end Sys2Proof.Machine
end

