-- ==== Sys2Proof/Machine/Control.lean ====
section
/-!
DEFINITION. Control flow, bins, barriers, masked synchronisation, shuffles and requested traps (R138, R139, R142 to R151,
R154).
-/
namespace Sys2Proof.Machine

open Sys2Proof

/-! ## Branches, jumps, calls and returns -/

/-- The target of a BR form: the literal, or the word offset from the program counter (R143). -/
def brTarget (v : View) (pc : Pc) : Pc :=
  if v.tail.hasLit then v.tail.literal.extractLsb' 0 56 else pc + (v.hi21.signExtend 56 <<< 2)

/-- The target of `brc` (R143). -/
def brcTarget (v : View) (pc : Pc) : Pc :=
  match v.tail with
  | .lit l => l.extractLsb' 0 56
  | .modLit _ l => pc + (l.signExtend 56 <<< 2)
  | .mod _ => pc + (v.imm14.signExtend 56 <<< 2)
  | .none => pc + (v.imm14.signExtend 56 <<< 2)

/-- The target that a pair names, or ALIGN (R143). -/
def pairTarget (t : Thread) (v : View) : Except TrapInfo Pc :=
  let p := t.a64 v
  if p.extractLsb' 0 2 != 0 || p.extractLsb' 56 8 != 0 then .error { cause := .align, tval := p }
  else .ok (p.extractLsb' 0 56)

/-- The entry check of a call in a lane (R144): the word before the target is fetched for execution and declares a budget
within the allocation. -/
def State.checkEntry (s : State) (g : Group) (t : Thread) (base : Word) (target : Pc) : Except TrapInfo Unit :=
  let va := (target - 4).zeroExtend 64
  match s.locate (whoOf g t) .fetch false va with
  | .error e => .error e
  | .ok l =>
    if s.poisoned .fetch false l 4 then .error (leveeTrap .fetch va l.home)
    else
      let w := wordOfBytes (s.readLoc g.place.die l 4)
      let budget := field w 11 7 + 1
      if field w 3 8 != 0x81 || field w 0 2 != 0 || field w 18 14 != 0 then
        .error { cause := .illop, tval := base.zeroExtend 64 }
      else if g.budget < budget then
        .error { cause := .regBudget, tval := target.zeroExtend 64, detail := BitVec.ofNat 32 budget }
      else .ok ()

/-- A call in a lane: the entry check, the link into v0:v1, and the transfer (R143, R146). -/
def State.callLane (s : State) (g : Group) (t : Thread) (base : Word) (next target : Pc) : Plan :=
  match s.checkEntry g t base target with
  | .error e => .trap e
  | .ok _ => .go (t.setPair 0 (next.zeroExtend 64)) (some target)

/-- The entry word that a call has read: its home recorded in the context's mask (R391), its token-class read served (R387). -/
def State.touchEntry (s : State) (g : Group) (t : Thread) (target : Pc) : State :=
  match s.locate (whoOf g t) .fetch false ((target - 4).zeroExtend 64) with
  | .ok l => (s.touch t.ctxid.toNat l.home).readServed g.place.die l 4
  | .error _ => s

/-- BR (R143). -/
def execBr (o : Br) (s : State) : Host.Outcome State Fault Refusal :=
  s.runLanes (.br o) fun x v t => .go t (some (brTarget v x.pc))
/-- BRC (R143). -/
def execBrc (o : Ri) (s : State) : Host.Outcome State Fault Refusal :=
  s.runLanes (.brc o) fun x v t => .go t (if (t.d32 v).getLsbD 0 then some (brcTarget v x.pc) else none)
/-- JMP (R143). -/
def execJmp (o : Rrr) (s : State) : Host.Outcome State Fault Refusal :=
  s.runLanes (.jmp o) fun _ v t => match pairTarget t v with
    | .error e => .trap e
    | .ok p => .go t (some p)
/-- RET (R143). -/
def execRet (o : Rrr) (s : State) : Host.Outcome State Fault Refusal :=
  s.runLanes (.ret o) fun _ v t => match pairTarget t v with
    | .error e => .trap e
    | .ok p => .go t (some p)
/-- CALL (R143, R144). -/
def execCall (o : Br) (s : State) : Host.Outcome State Fault Refusal :=
  s.run (.call o) fun x v =>
    s.runSet x (.call o) v (fun t => s.callLane x.group t v.base (v.next x.pc) (brTarget v x.pc))
      (fun went s => went.foldl (fun s t => s.touchEntry x.group t (brTarget v x.pc)) s) false
/-- CALLR (R143, R144). -/
def execCallr (o : Rrr) (s : State) : Host.Outcome State Fault Refusal :=
  s.run (.callr o) fun x v =>
    s.runSet x (.callr o) v
      (fun t => match pairTarget t v with
        | .error e => .trap e
        | .ok p => s.callLane x.group t v.base (v.next x.pc) p)
      (fun went s => went.foldl (fun s t => s.touchEntry x.group t ((t.a64 v).extractLsb' 0 56)) s) false

/-- NOP (R149). -/
def execNop (o : Rrr) (s : State) : Host.Outcome State Fault Refusal := s.runLanes (.nop o) fun _ _ t => .go t none
/-- YIELD (R149): the stroke ends. -/
def execYield (o : Rrr) (s : State) : Host.Outcome State Fault Refusal :=
  s.run (.yield o) fun x v => s.runSet x (.yield o) v (fun t => .go t none) (fun _ s => s) true
/-- ENTRY_WORD (R83, R145): executed in sequence it only advances the program counter. -/
def execEntryWord (o : EntryFields) (s : State) : Host.Outcome State Fault Refusal :=
  s.runLanes (.entryWord o) fun _ _ t => .go t none
/-- UNASSIGNED_OPCODE (R80): every lane traps ILLOP at check 2. -/
def execUnassignedOpcode (o : RawFields) (s : State) : Host.Outcome State Fault Refusal :=
  s.runLanes (.unassignedOpcode o) fun _ v _ => .trap { cause := .illop, tval := v.base.zeroExtend 64 }
/-- TRAP (R154): each active lane traps BRK with the code. -/
def execTrap (o : Rrr) (s : State) : Host.Outcome State Fault Refusal :=
  s.runLanes (.trap o) fun _ v _ => .trap { cause := .brk, detail := v.b.zeroExtend 32 }

/-! ## Masked synchronisation and shuffles -/

/-- A lane of an exchange: its position, group index, mask, the positions it counts as arrived, and for `shfl` its value,
source and destination. -/
structure Party where
  pos : Nat
  gidx : Nat
  mask : Word
  arrived : Word
  value : Word
  src : Option Nat
  d : Nat
  next : Pc
  deriving DecidableEq, Repr

/-- The threads of a warp held at `sync`, or at `shfl`. -/
def Group.parties (g : Group) (w : Warp) (shuffle : Bool) : List Party :=
  w.lanes.filterMap fun l =>
    match g.thread l.2 with
    | none => none
    | some t =>
      match t.state, shuffle with
      | .waiting (.sync m a next), false => some ⟨l.1, l.2, m, a, 0, none, 0, next⟩
      | .waiting (.shfl m a v src d next), true => some ⟨l.1, l.2, m, a, v, src, d, next⟩
      | _, _ => none

/-- Whether a synchronisation is complete (R43): every member position has executed it, counts as arrived, or holds no
thread of the warp. `gone` are positions that leave in this step. -/
def exchangeComplete (w : Warp) (gone : List Nat) (ps : List Party) (mask : Word) : Bool :=
  let mine := ps.filter fun p => p.mask == mask
  (List.range 32).all fun i =>
    !mask.getLsbD i || mine.any (fun p => p.pos = i || p.arrived.getLsbD i) || gone.contains i ||
    !(w.lanes.any fun l => l.1 = i)

/-- What a reader of a shuffle receives (R139). -/
def Party.receives (p : Party) (ps : List Party) : Word :=
  match p.src with
  | none => p.value
  | some i =>
    if p.mask.getLsbD i then ((ps.find? fun q => q.pos = i && q.mask == p.mask).map Party.value).getD p.value else p.value

/-- The held threads of a completed exchange released past their instruction (R43, R139). -/
def Group.completeExchange (g : Group) (ps all : List Party) (shuffle : Bool) : Group :=
  ps.foldl (fun g p =>
    let g := if shuffle then g.modThread p.gidx fun t => t.setReg p.d (p.receives all) else g
    g.release p.gidx p.next false) g

/-- Every complete exchange of a group's held threads is completed; a `sync` orders its members' accesses at place n (R43). -/
def Group.completeExchanges (g : Group) (n : Nat) : Group :=
  g.warps.foldl (fun g w =>
    [false, true].foldl (fun g shuffle =>
      let ps := g.parties w shuffle
      let masks := (ps.map Party.mask).eraseDups
      masks.foldl (fun g m =>
        let mine := ps.filter fun p => p.mask == m
        if exchangeComplete w [] ps m then
          let g := g.completeExchange mine mine shuffle
          if shuffle then g else g.orderMembers (mine.map Party.gidx) n
        else g) g) g) g

/-- MASKMIS (R43): the lane's own bit is clear, or its mask overlaps another and differs. -/
def Party.conflicts (p : Party) (others : List Party) : Bool :=
  !p.mask.getLsbD p.pos || others.any fun q => q.gidx != p.gidx && (q.mask &&& p.mask) != 0 && q.mask != p.mask

/-- A MASKMIS trap. -/
def maskTrap (m : Word) : TrapInfo := { cause := .maskMis, tval := m.zeroExtend 64 }

/-- Held lanes that a conflicting arrival drives out (R43). -/
def drivenOut (held arriving : List Party) : List Party :=
  held.filter fun h => arriving.any fun p => (h.mask &&& p.mask) != 0 && h.mask != p.mask

/-- Free entries of a core's fragment table. -/
def Core.freeEntries (c : Core) : Nat := ((List.range 64).filter fun e => (tfind c.frags e).isNone).length

/-- Held lanes leave: those of each synchronisation, which its mask names, as a fragment of their own (R43). The synchronisation that
holds the lowest lane position goes first; DESIGN CHOICE, log entry 74. -/
def State.driveOut (s : State) (g : Group) (ps : List Party) : State :=
  ((ps.map Party.mask).eraseDups).foldl (fun s m =>
    let qs := ps.filter fun p => p.mask == m
    (s.takeTraps g (qs.map Party.gidx) (qs.map fun p => (p.gidx, maskTrap p.mask))).1) s

/-- The hold of a lane that takes part in an exchange. -/
def Party.hold (p : Party) (shuffle : Bool) : Hold :=
  if shuffle then .shfl p.mask p.arrived p.value p.src p.d p.next else .sync p.mask p.arrived p.next

/-- The threads of the parties that stay held keep the positions that count as arrived. -/
def Group.holdParties (g : Group) (ps : List Party) (shuffle : Bool) : Group :=
  ps.foldl (fun g p => g.modThread p.gidx fun t => { t with state := .waiting (p.hold shuffle) }) g

/-- The parties of an exchange when a lane set arrives (R43, R139): those that arrive, those held, those that a conflict drives
out, those that trap MASKMIS, and the positions that leave the warp at this execution, the lanes that trap before their own execution among
them. A lane that the mask register makes inactive counts as arrived for every exchange of the warp. -/
structure Exchange where
  arriving : List Party
  held : List Party
  out : List Party
  bad : List Party
  gone : List Nat
  deriving DecidableEq, Repr

/-- What an arriving lane set makes of the exchanges of its warp. A lane that its mask register makes inactive is gone from an exchange
under way, and leaves no trace for one that starts later; DESIGN CHOICE, log entry 92. -/
def Issue.meet (x : Issue) (i : Instr) (v : View) (shuffle : Bool) (w : Warp) (party : Thread → Party) : Exchange :=
  let m := v.tail.modifier
  let inactive := laneMask ((x.lanes.filter fun t => !laneActive m t && !t.maskError v).map Thread.lane)
  let held := (x.group.parties w shuffle).map fun p => { p with arrived := p.arrived ||| inactive }
  let arriving := (x.lanes.filter fun t => laneActive m t && (x.laneTrap i v t).isNone).map fun t =>
    { party t with arrived := inactive }
  let out := drivenOut held arriving
  let bad := arriving.filter fun p => p.conflicts (arriving ++ held)
  let empty := (x.lanes.filter fun t => (x.laneTrap i v t).isSome).map Thread.lane
  ⟨arriving, held, out, bad, (bad ++ out).map Party.pos ++ empty⟩

/-- The parties that neither trap nor are driven out. -/
def Exchange.stay (e : Exchange) : List Party :=
  (e.arriving ++ e.held).filter fun p => !((e.bad ++ e.out).any fun q => q.gidx = p.gidx)

/-- `sync` or `shfl` in a lane set. `party` is a lane as it arrives (R43, R44, R139, R151). Where an execution makes several
fragments, the held lanes that leave take the lower entries and the earlier records, and where the fragment table has
room for fewer than it needs the whole warp parks (DESIGN CHOICE, log entry 74). -/
def State.exchange (s : State) (x : Issue) (i : Instr) (v : View) (shuffle : Bool) (party : Thread → Party) : State :=
  let w := (x.lanes.head?.bind fun t => x.group.warpOf t.gidx).getD ⟨0, .normal, [], none⟩
  let e := x.meet i v shuffle w party
  let done := fun (mask : Word) => exchangeComplete w e.gone e.stay mask
  let plan := fun (t : Thread) =>
    match e.arriving.find? fun p => p.gidx = t.gidx with
    | none => .go t none
    | some p =>
      if e.bad.any fun q => q.gidx = t.gidx then Plan.trap (maskTrap p.mask)
      else if done p.mask then .go (if shuffle then t.setReg p.d (p.receives e.stay) else t) none
      else .hold t (p.hold shuffle)
  let after := fun (_ : List Thread) (s : State) =>
    let held := e.held.filter fun h => !e.out.any fun q => q.gidx = h.gidx
    let fin := held.filter fun h => done h.mask
    let masks := if shuffle then [] else ((e.stay.map Party.mask).eraseDups).filter done
    let s := s.modGroup x.group.gid fun g =>
      let g := (g.holdParties (held.filter fun h => !done h.mask) shuffle).completeExchange fin e.stay shuffle
      masks.foldl (fun g m => g.orderMembers ((e.stay.filter fun p => p.mask == m).map Party.gidx) s.next.op) g
    s.driveOut x.group e.out
  let blocked := x.maskNeeds v != [] || x.operandNeeds i v != []
  let short := x.group.control.isNone && e.out != [] && (x.staticTrap i v).isNone && !blocked &&
    (s.core x.group.place.die x.group.place.core).freeEntries <
      ((e.out.map Party.mask).eraseDups).length + 1
  if short then
    let first := x.lanes.findSome? fun t => (x.laneTrap i v t).or
      ((e.bad.find? fun q => q.gidx = t.gidx).map fun q => maskTrap q.mask)
    (s.parkWarp x.group.gid (x.lanes.map Thread.gidx) (first.getD (maskTrap 0))).endStroke x.stroke
  else s.runSet x i v plan after false

/-- SYNC (R43, R151). -/
def execSync (o : Rrr) (s : State) : Host.Outcome State Fault Refusal :=
  s.run (.sync o) fun x v =>
    s.exchange x (.sync o) v false fun t => ⟨t.lane, t.gidx, t.b32 v, 0, 0, none, 0, v.next x.pc⟩

/-- The source position of a shuffle (R138, Table 5-5). -/
def shuffleSource (x : BitVec 3) (lane : Nat) (b : Word) : Option Nat :=
  let w := 2 ^ min (field b 8 3) 5
  let amt := field b 0 5
  let base := lane - lane % w
  match x.toNat with
  | 0 => some (base + amt % w)
  | 1 =>
    let p : Int := (lane : Int) + (b.extractLsb' 0 5).toInt
    if p < base || (base : Int) + w ≤ p then none else some p.toNat
  | 2 => some (base + (lane - base + amt) % w)
  | _ => some (lane ^^^ (amt % w))

/-- SHFL (R44, R138, R139). -/
def execShfl (o : Rrr) (s : State) : Host.Outcome State Fault Refusal :=
  s.run (.shfl o) fun x v =>
    s.exchange x (.shfl o) v true fun t =>
      let mask := if v.tail.hasMod then t.c32 v else 0xFFFFFFFF
      ⟨t.lane, t.gidx, mask, 0, t.a32 v, shuffleSource v.tail.modifier.x t.lane (t.b32 v), v.d.toNat, v.next x.pc⟩

/-! ## Barriers, reform and exit -/

/-- BAR (R40, R41, R150): the lanes are held and the stroke ends (R25); where every live thread is then held, the barrier completes,
and each is READY at the instruction after its `bar`. On a control core it completes at once (R55). -/
def execBar (o : Rrr) (s : State) : Host.Outcome State Fault Refusal :=
  s.run (.bar o) fun x v =>
    s.runSet x (.bar o) v
      (fun t => if x.group.control.isSome then .go t none else .hold t (.bar v.b.toNat (v.next x.pc)))
      (fun _ s => if x.group.control.isSome then s
        else s.modGroup x.group.gid fun g => g.completeBarriers s.next.op) false

/-- A thread filed into the bin of a key (R32): a bin is made for the key, in place of the first in firing order where
all 16 are in use. -/
def State.fileThread (s : State) (gid t : Nat) (key : Pc) : State :=
  match s.group gid with
  | none => s
  | some g0 =>
    let known := g0.bins.any fun b => b.key == key
    let s := if known || g0.bins.length < 16 then s
      else match g0.firstBin with
        | some b => s.emptyBin gid b.key 1024
        | none => s
    s.modGroup gid fun g =>
      let now := s.clockOf g
      let g := g.leaveWarp [t]
      let g := if g.bins.any fun b => b.key == key then g else { g with bins := g.bins ++ [⟨key, []⟩] }
      let g := { g with bins := mapIf (fun b => b.key == key) (fun b => { b with entries := b.entries ++ [(t, now)] }) g.bins }
      g.modThread t fun x => { x with state := .binned }

/-- REFORM (R32, R147). On a control core it only ends the stroke (R55). -/
def execReform (o : Rrr) (s : State) : Host.Outcome State Fault Refusal :=
  s.run (.reform o) fun x v =>
    s.runSet x (.reform o) v (fun t => .go t none)
      (fun went s =>
        if x.group.control.isSome then s
        else went.foldl (fun s t => s.fileThread x.group.gid t.gidx (v.next x.pc)) s) true

/-- Threads exit (R148, R402): the barriers and exchanges of the group are counted again, and a failed transfer that no
`xwait` met is reported (R242). -/
def State.exitThreads (s : State) (gid : Nat) (ts : List Nat) : State :=
  match s.group gid with
  | none => s
  | some g =>
    let fails := ts.flatMap fun t =>
      match g.thread t with
      | none => []
      | some x => x.ops.filterMap fun o => match o.kind with
        | .transfer h (some i) => some [transferRecord g x x.pc h i]
        | _ => none
    let s := s.putGroup (((ts.foldl (fun g t => g.exitThread t) g).completeBarriers s.next.op).completeExchanges s.next.op)
    fails.foldl (fun s r => s.addRecords g.place.die r) s

/-- EXIT (R148). -/
def execExit (o : Rrr) (s : State) : Host.Outcome State Fault Refusal :=
  s.run (.exit o) fun x v =>
    s.runSet x (.exit o) v (fun t => .go t none)
      (fun went s => s.exitThreads x.group.gid (went.map Thread.gidx)) true

end Sys2Proof.Machine
end

