-- ==== Sys2Proof/Machine/Numbers.lean ====
section
/-!
DEFINITION. Number formats and exact arithmetic rounded once (R89 to R104). A finite value is a sign and an exact
rational; every operation computes exactly and rounds at the end.
-/
namespace Sys2Proof.Machine

open Sys2Proof

/-! ## Formats and values -/

/-- A binary format: exponent bits and fraction bits (Table 4-1). -/
structure BinFormat where
  eb : Nat
  fb : Nat
  deriving DecidableEq, Repr

/-- binary64. -/
def fmtF64 : BinFormat := ⟨11, 52⟩
/-- binary32. -/
def fmtF32 : BinFormat := ⟨8, 23⟩
/-- binary16. -/
def fmtH16 : BinFormat := ⟨5, 10⟩
/-- bf16. -/
def fmtBf16 : BinFormat := ⟨8, 7⟩

/-- The bias of a format. -/
def BinFormat.bias (f : BinFormat) : Nat := 2 ^ (f.eb - 1) - 1
/-- The weight exponent of the least subnormal. -/
def BinFormat.qmin (f : BinFormat) : Int := 1 - (f.bias : Int) - f.fb
/-- The bits of +∞. -/
def BinFormat.infBits (f : BinFormat) : Nat := (2 ^ f.eb - 1) * 2 ^ f.fb
/-- The sign bit's weight. -/
def BinFormat.signBit (f : BinFormat) : Nat := 2 ^ (f.eb + f.fb)
/-- The default NaN (Table 4-1, R92). -/
def BinFormat.nan (f : BinFormat) : Nat := f.infBits + 2 ^ (f.fb - 1)

/-- A value: a NaN, an infinity, or a finite value m × 2^e with a sign. -/
inductive FVal where
  | nan (signalling : Bool)
  | inf (neg : Bool)
  | fin (neg : Bool) (m : Nat) (e : Int)
  deriving DecidableEq, Repr

/-- The value of a format's bits (R89, R91, R92). -/
def BinFormat.unpack (f : BinFormat) (x : Nat) : FVal :=
  let neg := x.testBit (f.eb + f.fb)
  let ex := x / 2 ^ f.fb % 2 ^ f.eb
  let fr := x % 2 ^ f.fb
  if ex = 2 ^ f.eb - 1 then (if fr = 0 then .inf neg else .nan (!fr.testBit (f.fb - 1)))
  else if ex = 0 then .fin neg fr f.qmin
  else .fin neg (2 ^ f.fb + fr) (f.qmin + (ex - 1 : Nat))

/-- Whether a value is a signalling NaN. -/
def FVal.snan : FVal → Bool
  | .nan s => s
  | .inf _ => false
  | .fin _ _ _ => false

/-- Whether a value is a NaN. -/
def FVal.isNan : FVal → Bool
  | .nan _ => true
  | .inf _ => false
  | .fin _ _ _ => false

/-- Exception bits (Table 3-3). -/
def flagNV : Nat := 1
def flagDZ : Nat := 2
def flagOF : Nat := 4
def flagUF : Nat := 8
def flagNX : Nat := 16

/-- A result: the bits and the exceptions it raises. -/
abbrev Rounded := Nat × Nat

/-- Rounding modes by code (R93). No instruction puts a code beyond 0b100 in force; one that an edited save area holds in FPCTL
rounds to nearest, ties away (log entry 81). -/
structure Mode where
  rm : Nat
  sat : Bool
  deriving DecidableEq, Repr

/-- m × 2^k for an integer exponent, as a numerator over a denominator. -/
def scale2 (n d : Nat) (k : Int) : Nat × Nat :=
  if 0 ≤ k then (n * 2 ^ k.toNat, d) else (n, d * 2 ^ (-k).toNat)

/-- The e with 2^e ≤ n / d < 2^(e + 1), for n and d not 0. -/
def exponentOf (n d : Nat) : Int :=
  let e : Int := (Nat.log2 n : Int) - Nat.log2 d
  let p := scale2 d 1 e
  if n * p.2 < p.1 then e - 1 else e

/-- Whether a magnitude k + r / d rounds away, r < d; `more` says that the exact value lies a little above (R93). -/
def roundsUp (rm : Nat) (neg more : Bool) (k r d : Nat) : Bool :=
  match rm with
  | 0 => d < 2 * r || (2 * r = d && (more || k % 2 = 1))
  | 1 => false
  | 2 => neg && (r != 0 || more)
  | 3 => !neg && (r != 0 || more)
  | _ => d ≤ 2 * r

/-- The integer multiple of 2^q that n / d rounds to, and whether it is exact. -/
def roundAt (rm : Nat) (neg more : Bool) (n d : Nat) (q : Int) : Nat × Bool :=
  let p := scale2 n d (-q)
  let k := p.1 / p.2
  let r := p.1 % p.2
  (if roundsUp rm neg more k r p.2 then k + 1 else k, r = 0 && !more)

/-- A nonzero exact magnitude n / d, or a little more where `more` says so, rounded once to a format with its exceptions
(R91, R93, R94, R96). The codes 0b101 to 0b111, which only an edited save area puts into sr.fpctl, round as 0b100 does, to infinity on
overflow; DESIGN CHOICE, log entry 81. -/
def BinFormat.round (f : BinFormat) (md : Mode) (neg more : Bool) (n d : Nat) : Rounded :=
  let sign := if neg then f.signBit else 0
  let e := exponentOf n d
  let q := max (e - f.fb) f.qmin
  let r := roundAt md.rm neg more n d q
  let bits := (q - f.qmin).toNat * 2 ^ f.fb + r.1
  let wide := roundAt md.rm neg more n d (e - f.fb)
  let tiny := e < f.qmin + f.fb && !(e = f.qmin + f.fb - 1 && 2 ^ (f.fb + 1) ≤ wide.1)
  if f.infBits ≤ bits then
    let toInf := !md.sat && (md.rm = 0 || 4 ≤ md.rm || (md.rm = 2 && neg) || (md.rm = 3 && !neg))
    (sign + (if toInf then f.infBits else f.infBits - 1), flagOF + flagNX)
  else (sign + bits, if r.2 then 0 else if tiny then flagUF + flagNX else flagNX)

/-- A signed zero. -/
def BinFormat.zero (f : BinFormat) (neg : Bool) : Nat := if neg then f.signBit else 0
/-- A signed infinity. -/
def BinFormat.inf (f : BinFormat) (neg : Bool) : Nat := f.zero neg + f.infBits

/-- A finite value m × 2^e rounded. -/
def BinFormat.roundDyadic (f : BinFormat) (md : Mode) (neg : Bool) (m : Nat) (e : Int) : Rounded :=
  if m = 0 then (f.zero neg, 0)
  else
    let p := scale2 m 1 e
    f.round md neg false p.1 p.2

/-- The exceptions of NaN operands (R92). -/
def nanFlags (xs : List FVal) : Nat := if xs.any FVal.snan then flagNV else 0

/-! ## Arithmetic -/

/-- The exact sum of two finite values, rounded; an exact zero takes its sign from R93. -/
def BinFormat.sumFinite (f : BinFormat) (md : Mode) (n1 : Bool) (m1 : Nat) (e1 : Int) (n2 : Bool) (m2 : Nat) (e2 : Int) :
    Rounded :=
  let e := min e1 e2
  let v1 : Int := (m1 * 2 ^ (e1 - e).toNat : Nat)
  let v2 : Int := (m2 * 2 ^ (e2 - e).toNat : Nat)
  let v := (if n1 then -v1 else v1) + (if n2 then -v2 else v2)
  if v = 0 then (f.zero (if n1 = n2 then n1 else md.rm = 2), 0) else f.roundDyadic md (v < 0) v.natAbs e

/-- x + y (R163). -/
def BinFormat.add (f : BinFormat) (md : Mode) (x y : FVal) : Rounded :=
  match x, y with
  | .nan _, _ => (f.nan, nanFlags [x, y])
  | _, .nan _ => (f.nan, nanFlags [x, y])
  | .inf a, .inf b => if a = b then (f.inf a, 0) else (f.nan, flagNV)
  | .inf a, .fin _ _ _ => (f.inf a, 0)
  | .fin _ _ _, .inf b => (f.inf b, 0)
  | .fin n1 m1 e1, .fin n2 m2 e2 => f.sumFinite md n1 m1 e1 n2 m2 e2

/-- A value with its sign changed. -/
def FVal.negate : FVal → FVal
  | .nan s => .nan s
  | .inf n => .inf (!n)
  | .fin n m e => .fin (!n) m e

/-- The exact product, or `none` for 0 × ∞. -/
def FVal.product (x y : FVal) : Option FVal :=
  match x, y with
  | .nan _, _ => some (.nan false)
  | _, .nan _ => some (.nan false)
  | .inf a, .inf b => some (.inf (a != b))
  | .inf a, .fin b m _ => if m = 0 then none else some (.inf (a != b))
  | .fin a m _, .inf b => if m = 0 then none else some (.inf (a != b))
  | .fin a m1 e1, .fin b m2 e2 => some (.fin (a != b) (m1 * m2) (e1 + e2))

/-- A value rounded to a format. -/
def BinFormat.deliver (f : BinFormat) (md : Mode) (x : FVal) : Rounded :=
  match x with
  | .nan s => (f.nan, if s then flagNV else 0)
  | .inf n => (f.inf n, 0)
  | .fin n m e => f.roundDyadic md n m e

/-- x × y (R163). -/
def BinFormat.mul (f : BinFormat) (md : Mode) (x y : FVal) : Rounded :=
  if x.isNan || y.isNan then (f.nan, nanFlags [x, y])
  else
    match x.product y with
    | none => (f.nan, flagNV)
    | some p => f.deliver md p

/-- x × y + z with one rounding (R163); 0 × ∞ raises NV whatever z is. -/
def BinFormat.fma (f : BinFormat) (md : Mode) (x y z : FVal) : Rounded :=
  match x.product y with
  | none => (f.nan, flagNV)
  | some p => if x.isNan || y.isNan || z.isNan then (f.nan, nanFlags [x, y, z]) else f.add md p z

/-- x / y (R168). -/
def BinFormat.div (f : BinFormat) (md : Mode) (x y : FVal) : Rounded :=
  match x, y with
  | .nan _, _ => (f.nan, nanFlags [x, y])
  | _, .nan _ => (f.nan, nanFlags [x, y])
  | .inf _, .inf _ => (f.nan, flagNV)
  | .inf a, .fin b _ _ => (f.inf (a != b), 0)
  | .fin a _ _, .inf b => (f.zero (a != b), 0)
  | .fin a m1 e1, .fin b m2 e2 =>
    if m2 = 0 then (if m1 = 0 then (f.nan, flagNV) else (f.inf (a != b), flagDZ))
    else if m1 = 0 then (f.zero (a != b), 0)
    else
      let p := scale2 m1 m2 (e1 - e2)
      f.round md (a != b) false p.1 p.2

/-- The integer square root, bit by bit from bit `n`. -/
def isqrt (x : Nat) : Nat → Nat → Nat
  | 0, r => r
  | n + 1, r => let c := r + 2 ^ n; if c * c ≤ x then isqrt x n c else isqrt x n r

/-- The square root of a rational n / d > 0 rounded (R168, R169): a floor with enough bits, and whether it is exact. -/
def BinFormat.roundRoot (f : BinFormat) (md : Mode) (n d : Nat) : Rounded :=
  let k := f.fb + 4 + (Nat.log2 d + 1)
  let x := n * 4 ^ k / d
  let r := isqrt x (Nat.log2 x / 2 + 1) 0
  f.round md false (r * r * d != n * 4 ^ k) r (2 ^ k)

/-- √x (R168). -/
def BinFormat.sqrt (f : BinFormat) (md : Mode) (x : FVal) : Rounded :=
  match x with
  | .nan s => (f.nan, if s then flagNV else 0)
  | .inf n => if n then (f.nan, flagNV) else (f.inf false, 0)
  | .fin n m e =>
    if m = 0 then (f.zero n, 0)
    else if n then (f.nan, flagNV)
    else
      let p := scale2 m 1 e
      f.roundRoot md p.1 p.2

/-- 1 / √x (R169, Table 7-5). -/
def BinFormat.rsqrt (f : BinFormat) (md : Mode) (x : FVal) : Rounded :=
  match x with
  | .nan s => (f.nan, if s then flagNV else 0)
  | .inf n => if n then (f.nan, flagNV) else (f.zero false, 0)
  | .fin n m e =>
    if m = 0 then (f.inf n, flagDZ)
    else if n then (f.nan, flagNV)
    else
      let p := scale2 1 m (-e)
      f.roundRoot md p.1 p.2

/-! ## Comparison, class and rounding to integers -/

/-- The order of two values that are no NaN: less, equal or greater as −1, 0, 1; −0 equals +0. -/
def FVal.order (x y : FVal) : Int :=
  let key := fun (a b : Int) => if a < b then (-1 : Int) else if a = b then 0 else 1
  match x, y with
  | .inf a, .inf b => key (if a then 0 else 1) (if b then 0 else 1)
  | .inf a, _ => if a then -1 else 1
  | _, .inf b => if b then 1 else -1
  | .fin n1 m1 e1, .fin n2 m2 e2 =>
    let e := min e1 e2
    let v1 : Int := (m1 * 2 ^ (e1 - e).toNat : Nat)
    let v2 : Int := (m2 * 2 ^ (e2 - e).toNat : Nat)
    key (if n1 then -v1 else v1) (if n2 then -v2 else v2)
  | _, _ => 0

/-- Whether a value is negative, −0 among them. -/
def FVal.negative : FVal → Bool
  | .nan _ => false
  | .inf n => n
  | .fin n _ _ => n

/-- The condition of Table 7-3, and whether it raises NV. -/
def fcmpHolds (x : BitVec 3) (a b : FVal) : Bool × Bool :=
  let un := a.isNan || b.isNan
  let o := a.order b
  let holds := match x.toNat with
    | 0 => !un && o = 0
    | 1 => un || o != 0
    | 2 => !un && o < 0
    | 3 => !un && o ≤ 0
    | 4 => !un && 0 < o
    | 5 => !un && 0 ≤ o
    | 6 => un
    | _ => !un
  (holds, a.snan || b.snan || (un && 2 ≤ x.toNat && x.toNat ≤ 5))

/-- minimumNumber, or maximumNumber (R164), on bits. -/
def BinFormat.minmax (f : BinFormat) (greater : Bool) (a b : Nat) : Rounded :=
  let x := f.unpack a
  let y := f.unpack b
  let o := x.order y
  let less := o < 0 || (o = 0 && x.negative && !y.negative)
  let bits :=
    if x.isNan then (if y.isNan then f.nan else b)
    else if y.isNan then a
    else if less != greater then a else b
  (bits, nanFlags [x, y])

/-- The class mask (Table 7-4). -/
def BinFormat.classify (f : BinFormat) (x : Nat) : Nat :=
  match f.unpack x with
  | .nan s => if s then 2 ^ 8 else 2 ^ 9
  | .inf n => if n then 1 else 2 ^ 7
  | .fin n m _ =>
    if m = 0 then (if n then 2 ^ 3 else 2 ^ 4)
    else if m < 2 ^ f.fb then (if n then 2 ^ 2 else 2 ^ 5)
    else if n then 2 ^ 1 else 2 ^ 6

/-- The value rounded to an integral value in its own format (R167). -/
def BinFormat.rint (f : BinFormat) (rm : Nat) (x : FVal) : Rounded :=
  match x with
  | .nan s => (f.nan, if s then flagNV else 0)
  | .inf n => (f.inf n, 0)
  | .fin n m e =>
    if m = 0 then (f.zero n, 0)
    else
      let p := scale2 m 1 e
      let r := roundAt rm n false p.1 p.2 0
      ((f.roundDyadic ⟨rm, false⟩ n r.1 0).1, 0)

/-- The exponent of R171: a = f × 2^e with 0.5 ≤ |f| < 1; `none` for an infinity or a NaN. -/
def FVal.frexp : FVal → Option Int
  | .nan _ => none
  | .inf _ => none
  | .fin _ m e => some (if m = 0 then 0 else (Nat.log2 m : Int) + 1 + e)

/-! ## dm8 -/

/-- The exact magnitude of a dm8 magnitude code 0x01 to 0x7E as a rational (R98, Table 4-3). -/
def dm8Magnitude (c : Nat) : Nat × Nat :=
  let q := c % 64
  let row : Int × Nat :=
    if c < 64 then
      if 32 ≤ q then (-1, 5) else if 16 ≤ q then (-2, 4) else if 8 ≤ q then (-4 + (q / 4 % 2 : Nat), 2)
      else if 4 ≤ q then (-6 + (q / 2 % 2 : Nat), 1) else if 2 ≤ q then (-8 + (q % 2 : Nat), 0) else (-9, 0)
    else
      if q < 32 then (0, 5) else if q < 48 then (1, 4) else if q < 56 then (2 + (q / 4 % 2 : Nat), 2)
      else if q < 60 then (4 + (q / 2 % 2 : Nat), 1) else if q < 62 then (6 + (q % 2 : Nat), 0) else (8, 0)
  let n := 2 ^ row.2 + 9 * (q % 2 ^ row.2)
  if 0 ≤ row.1 then (n * 10 ^ row.1.toNat, 2 ^ row.2) else (n, 2 ^ row.2 * 10 ^ (-row.1).toNat)

/-- A source of a conversion: a NaN, an infinity, or an exact signed rational. -/
inductive Exact where
  | nan (signalling : Bool)
  | inf (neg : Bool)
  | num (neg : Bool) (n d : Nat)
  deriving DecidableEq, Repr

/-- The exact value of a dm8 code (R98, R99). -/
def dm8Value (x : Nat) : Exact :=
  let neg := x.testBit 7
  let c := x % 128
  if c = 0 then (if neg then .nan false else .num false 0 1)
  else if c = 127 then .inf neg
  else
    let p := dm8Magnitude c
    .num neg p.1 p.2

/-- The finite magnitude code nearest to n / d; of two as near, the one with bit 0 clear (R101). -/
def dm8Nearest (n d : Nat) : Nat :=
  let dist := fun c =>
    let p := if c = 0 then (0, 1) else dm8Magnitude c
    (max (n * p.2) (p.1 * d) - min (n * p.2) (p.1 * d), p.2)
  (List.range 126).foldl (fun best i =>
    let c := i + 1
    let a := dist c
    let b := dist best
    if a.1 * b.2 < b.1 * a.2 || (a.1 * b.2 = b.1 * a.2 && c % 2 = 0) then c else best) 0

/-- Encoding to dm8 (R101); `inf` is the .inf option. -/
def dm8Encode (inf : Bool) (x : Exact) : Rounded :=
  match x with
  | .nan s => (0x80, if s then flagNV else 0)
  | .inf neg => (if neg then 0xFF else 0x7F, 0)
  | .num neg n d =>
    let sign := if neg then 0x80 else 0
    if n = 0 then (0, 0)
    else if 10 ^ 8 * d < n then (sign + (if inf then 0x7F else 0x7E), flagOF + flagNX)
    else
      let c := dm8Nearest n d
      let p := if c = 0 then (0, 1) else dm8Magnitude c
      let exact := n * p.2 = p.1 * d
      let flags := if n * 10 ^ 9 < d then flagUF + flagNX else if exact then 0 else flagNX
      (if c = 0 then 0 else sign + c, flags)

/-! ## Conversions -/

/-- The binary format of a number format. -/
def binaryOf : NumFormat → Option BinFormat
  | .f64 => some fmtF64
  | .f32 => some fmtF32
  | .h16 => some fmtH16
  | .bf16 => some fmtBf16
  | .dm8 => none
  | .int _ _ => none

/-- The signed or unsigned reading of w bits. -/
def readInt (signed : Bool) (w x : Nat) : Int := if signed && x.testBit (w - 1) then (x : Int) - 2 ^ w else x

/-- The exact value of a binary format's bits. -/
def BinFormat.exact (b : BinFormat) (x : Nat) : Exact :=
  match b.unpack x with
  | .nan s => .nan s
  | .inf n => .inf n
  | .fin n m e => let p := scale2 m 1 e; .num n p.1 p.2

/-- The exact value of an element. -/
def exactOf (f : NumFormat) (x : Nat) : Exact :=
  match f with
  | .dm8 => dm8Value x
  | .int s w => let v := readInt s w x; .num (v < 0) v.natAbs 1
  | .f64 => fmtF64.exact x
  | .f32 => fmtF32.exact x
  | .h16 => fmtH16.exact x
  | .bf16 => fmtBf16.exact x

/-- The least and the greatest value of an integer format. -/
def intRange (signed : Bool) (w : Nat) : Int × Int := if signed then (-(2 ^ (w - 1)), 2 ^ (w - 1) - 1) else (0, 2 ^ w - 1)

/-- An integer as w bits. -/
def intBits (w : Nat) (v : Int) : Nat := (v % 2 ^ w).toNat

/-- A floating or dm8 value to an integer format (Table 4-5). -/
def toInteger (rm : Nat) (signed : Bool) (w : Nat) (x : Exact) : Rounded :=
  let r := intRange signed w
  match x with
  | .nan _ => (0, flagNV)
  | .inf neg => (intBits w (if neg then r.1 else r.2), flagNV)
  | .num neg n d =>
    let k := roundAt rm neg false n d 0
    let v : Int := if neg then -(k.1 : Int) else k.1
    if v < r.1 then (intBits w r.1, flagNV)
    else if r.2 < v then (intBits w r.2, flagNV)
    else (intBits w v, if k.2 then 0 else flagNX)

/-- An exact value to a binary format (Table 4-5). -/
def BinFormat.fromExact (f : BinFormat) (md : Mode) (x : Exact) : Rounded :=
  match x with
  | .nan s => (f.nan, if s then flagNV else 0)
  | .inf n => (f.inf n, 0)
  | .num n k d => if k = 0 then (f.zero n, 0) else f.round md n false k d

/-- An exact integer limited to a range. -/
def limitInt (x lo hi : Int) : Int := if x < lo then lo else if hi < x then hi else x

/-- Conversion of one element (Table 4-5, R101 to R104, R175). -/
def convert (sf df : NumFormat) (md : Mode) (inf : Bool) (x : Nat) : Rounded :=
  match sf, df with
  | .dm8, .dm8 => (x, 0)
  | .int s w, .int s' w' =>
    let v := readInt s w x
    let r := intRange s' w'
    (intBits w' (if md.sat then limitInt v r.1 r.2 else v), 0)
  | sf, .int s w => toInteger md.rm s w (exactOf sf x)
  | sf, .dm8 => dm8Encode inf (exactOf sf x)
  | sf, .f64 => fmtF64.fromExact md (exactOf sf x)
  | sf, .f32 => fmtF32.fromExact md (exactOf sf x)
  | sf, .h16 => fmtH16.fromExact md (exactOf sf x)
  | sf, .bf16 => fmtBf16.fromExact md (exactOf sf x)

/-! ## Function instructions (R169) -/

/-- The sum of a series of fixed-point terms, until a term is 0: `next` gives the k-th term from the one before. -/
def series (next : Nat → Int → Int) : Nat → Nat → Int → Int → Int
  | 0, _, _, acc => acc
  | n + 1, k, t, acc => if t = 0 then acc else series next n (k + 1) (next (k + 1) t) (acc + t)

/-- The sum of t^(2k + 1) / (2k + 1) with alternating signs where `alt` says so, t = n / d in units of 2^-p. -/
def oddSeries (alt : Bool) (p : Nat) (t : Int) : Nat → Nat → Int → Int → Int
  | 0, _, _, acc => acc
  | n + 1, k, pow, acc =>
    if pow = 0 then acc
    else
      let term := pow / (2 * k + 1 : Nat)
      oddSeries alt p t n (k + 1) (pow * t / 2 ^ p * t / 2 ^ p) (if alt && k % 2 = 1 then acc - term else acc + term)

/-- ln 2 in units of 2^-p: twice the series of 1/3. -/
def ln2Fix (p : Nat) : Int := let t : Int := 2 ^ p / 3; 2 * oddSeries false p t p 0 t 0
/-- π in units of 2^-p (Machin). -/
def piFix (p : Nat) : Int :=
  let a : Int := 2 ^ p / 5
  let b : Int := 2 ^ p / 239
  16 * oddSeries true p a p 0 a 0 - 4 * oddSeries true p b p 0 b 0
/-- e^x in units of 2^-p. -/
def expFix (p : Nat) (x : Int) : Int := series (fun k t => t * x / 2 ^ p / k) p 0 (2 ^ p) 0
/-- sin x in units of 2^-p. -/
def sinFix (p : Nat) (x : Int) : Int :=
  series (fun k t => -(t * x / 2 ^ p * x / 2 ^ p / (2 * k * (2 * k + 1) : Nat))) p 0 x 0
/-- cos x in units of 2^-p. -/
def cosFix (p : Nat) (x : Int) : Int :=
  series (fun k t => -(t * x / 2 ^ p * x / 2 ^ p / ((2 * k - 1) * (2 * k) : Nat))) p 0 (2 ^ p) 0
/-- ln (n / d) in units of 2^-p, for 1 ≤ n / d < 2. -/
def lnFix (p n d : Nat) : Int :=
  let t : Int := (((n - d) * 2 ^ p / (n + d) : Nat) : Int)
  2 * oddSeries false p t p 0 t 0

/-- The two ends of a value known to within `err` units of 2^-p, each rounded once. -/
def BinFormat.roundEnds (f : BinFormat) (md : Mode) (p : Nat) (v err shift : Int) : Rounded × Rounded :=
  let r := fun k => let q := scale2 k (2 ^ p) shift; f.round md (v < 0) true q.1 q.2
  (r (max 1 (v.natAbs - err.toNat)), r (v.natAbs + err.toNat))

/-- An irrational value rounded once (R169). `approx` gives it in units of 2^-p with the error it may have; where the two ends round
apart, the precision is doubled. -/
def BinFormat.roundIrrational (f : BinFormat) (md : Mode) (approx : Nat → Int × Int) (shift : Int) : Nat → Nat → Rounded
  | 0, p => (f.roundEnds md p (approx p).1 (approx p).2 shift).1
  | n + 1, p =>
    let r := f.roundEnds md p (approx p).1 (approx p).2 shift
    if r.1 = r.2 then r.1 else f.roundIrrational md approx shift n (2 * p)

/-- Doublings of the precision: more than any operand can need. With x of denominator at most 2^114 and a rounding boundary r of at most
54 bits, 2^x and log₂ x keep away from r by more than 2^(-2^120), as two unequal powers that are whole multiples of 2^(-54 × 2^114)
do; sin x and cos x by more than 2^(-2^40), by the bound of Nesterenko and Waldschmidt. PRESUMED, log entry 8. -/
def refinements : Nat := 128

/-- The error of a function's series at a precision: fewer than p terms, each short by less than a unit, and what the argument's own
error makes of it. -/
def seriesError (p : Nat) : Nat := 2 ^ 14 + 64 * p

/-- A value a little below m × 2^e rounded: m × 2^e less a quantity far below its last place. -/
def BinFormat.roundBelow (f : BinFormat) (md : Mode) (neg : Bool) (m : Nat) (e : Int) : Rounded :=
  let p := scale2 (m * 2 ^ (f.fb + 8) - 1) 1 (e - (f.fb + 8 : Nat))
  f.round md neg true p.1 p.2

/-- 2^x (R169, Table 7-5). -/
def BinFormat.exp2 (f : BinFormat) (md : Mode) (bits : Nat) : Rounded :=
  match f.unpack bits with
  | .nan s => (f.nan, if s then flagNV else 0)
  | .inf n => if n then (f.zero false, 0) else (f.inf false, 0)
  | .fin n m e =>
    let p := scale2 m 1 e
    let whole := p.1 / p.2
    let exact := p.1 % p.2 = 0
    let lim := 2 * f.bias + f.fb + 8
    if m = 0 then f.roundDyadic md false 1 0
    else if lim ≤ whole then f.roundDyadic md false 1 (if n then -(lim : Int) else lim)
    else if exact then f.roundDyadic md false 1 (if n then -(whole : Int) else whole)
    else if exponentOf p.1 p.2 < -((f.fb + 10 : Nat) : Int) then
      if n then f.roundBelow md false 1 0 else f.round md false true 1 1
    else
      let fl : Int := if n then -((whole : Int) + 1) else whole
      let approx := fun (prec : Nat) =>
        let frac := (p.1 % p.2) * 2 ^ prec / p.2
        let frac : Int := if n then (2 ^ prec : Nat) - frac else frac
        (expFix prec (frac * ln2Fix prec / 2 ^ prec), (seriesError prec : Int))
      f.roundIrrational md approx fl refinements (2 * f.fb + 80)

/-- log₂ x (R169, Table 7-5). -/
def BinFormat.log2 (f : BinFormat) (md : Mode) (bits : Nat) : Rounded :=
  match f.unpack bits with
  | .nan s => (f.nan, if s then flagNV else 0)
  | .inf n => if n then (f.nan, flagNV) else (f.inf false, 0)
  | .fin n m e =>
    if m = 0 then (f.inf true, flagDZ)
    else if n then (f.nan, flagNV)
    else
      let k := Nat.log2 m
      let ex : Int := k + e
      if m = 2 ^ k then f.roundDyadic md (ex < 0) ex.natAbs 0
      else
        let approx := fun (prec : Nat) =>
          (lnFix prec m (2 ^ k) * 2 ^ prec / ln2Fix prec + ex * 2 ^ prec, (seriesError prec : Int))
        f.roundIrrational md approx 0 refinements (2 * f.fb + 80)

/-- sin x, or cos x where `cos` says so (R169, Table 7-5). -/
def BinFormat.sincos (f : BinFormat) (md : Mode) (cos : Bool) (bits : Nat) : Rounded :=
  match f.unpack bits with
  | .nan s => (f.nan, if s then flagNV else 0)
  | .inf _ => (f.nan, flagNV)
  | .fin n m e =>
    if m = 0 then (if cos then f.roundDyadic md false 1 0 else (f.zero n, 0))
    else
      let p := scale2 m 1 e
      let ex := exponentOf p.1 p.2
      if ex < -((f.fb + 10 : Nat) : Int) then
        if cos then f.roundBelow md false 1 0 else f.roundBelow md n m e
      else
        let approx := fun (prec : Nat) =>
          let x : Int := ((p.1 * 2 ^ prec / p.2 : Nat) : Int)
          let half := piFix prec / 2
          let q := x / half
          let r := x - q * half
          let quad := ((q % 4).toNat + if cos then 1 else 0) % 4
          let v := if quad % 2 = 0 then sinFix prec r else cosFix prec r
          let v := if 2 ≤ quad then -v else v
          (if n && !cos then -v else v, ((4 * seriesError prec * 2 ^ ex.toNat : Nat) : Int))
        f.roundIrrational md approx 0 refinements (3 * f.fb + 100 + ex.toNat)

end Sys2Proof.Machine
end

