-- ==== Sys2Proof/Machine/Memory.lean ====
section
/-!
DEFINITION. Loads, stores, atomics, reductions, fences and cache control as they execute in a lane set (R216 to R231): what
they check, what they place in the store buffer and among the outstanding operations. The steps that perform them are
in Perform.
-/
namespace Sys2Proof

/-- The scope that a modifier's SC names (Table 0-4). -/
def scopeOf (sc : BitVec 2) : Machine.Scope :=
  match sc.toNat with
  | 0 => .grp
  | 1 => .die
  | 2 => .dev
  | _ => .pod

/-- The scope of a fence (Table 10-4): .grp for fence.rel without a modifier word. -/
def View.fenceScope (v : View) : Machine.Scope := if v.tail.modifier.x == 3 then .dev else scopeOf v.tail.modifier.sc

/-- Bytes of a width code b, h, w, d, q (R219). -/
def widthBytes (w : Nat) : Nat := 2 ^ w

end Sys2Proof

namespace Sys2Proof.Machine

open Sys2Proof

/-- Whether a scope reaches beyond the die: .dev, and .pod, which acts as .dev (R215). -/
def Scope.wide : Scope → Bool
  | .grp => false
  | .die => false
  | .dev => true
  | .pod => true

/-! ## Addresses -/

/-- A scratchpad place as a location. -/
def scratchLoc (off : Nat) : Loc :=
  { va := BitVec.ofNat 64 off, key := off, home := 0, token := false, table := false, ctx := 0, polder := 0 }

/-- The trap of a lane that reads scratchpad bytes in error: TVAL is the offset (Table 23-8). -/
def scratchLevee (g : Group) (off n : Nat) : TrapInfo :=
  { cause := .levee, tval := BitVec.ofNat 64 ((g.scratchError off n).getD 0), detail := BitVec.ofNat 32 g.place.die }

/-- The execution checks of a global access of `n` bytes at base plus offset (R217, R218, R394, R415). -/
def State.globalAccess (s : State) (g : Group) (t : Thread) (base : Dword) (off : Int) (n : Nat) (need : Need) :
    Except TrapInfo Loc :=
  match globalAddress base off n need with
  | .error e => .error e
  | .ok ea =>
    match s.locate (whoOf g t) need (t.pl == 2) ea with
    | .error e => .error e
    | .ok l => if s.poisoned need (t.pl != 0) l n then .error (leveeTrap need ea l.home) else .ok l

/-- The execution checks of a lane's access in a space (R217, R218). -/
def State.access (s : State) (g : Group) (t : Thread) (v : View) (space : Space) (n : Nat) (need : Need) :
    Except TrapInfo Loc :=
  let off := v.offset + t.indexed v
  match space with
  | .l =>
    match scratchAddress (t.a32 v) off n g.scratchSize need with
    | .error e => .error e
    | .ok o => if need != .write && (g.scratchError o n).isSome then .error (scratchLevee g o n) else .ok (scratchLoc o)
  | .g => s.globalAccess g t (t.a64 v) off n need
  | .k => s.globalAccess g t (t.a64 v) off n need

/-- A lane's access counted by its die's home-access counters (R416, R417). -/
def State.countHome (s : State) (die home : Nat) : State :=
  if die < 32 then
    s.modDie die fun d => if die = home then { d with hloc := d.hloc + 1 } else { d with hrem := d.hrem + 1 }
  else s

/-- What lanes that passed their checks leave behind: the touched die (R391), and the count of a space g access. -/
def State.noteAccess (s : State) (g : Group) (space : Space) (ls : List (Thread × Except TrapInfo Loc)) : State :=
  ls.foldl (fun s p =>
    match p.2, space with
    | .ok l, .g => (s.touch p.1.ctxid.toNat l.home).countHome g.place.die l.home
    | .ok l, .k => s.touch p.1.ctxid.toNat l.home
    | .ok _, .l => s
    | .error _, _ => s) s

/-- Places in program order handed out: an instruction takes its first `n` numbers. -/
def State.takePlaces (s : State) (n : Nat) : State := { s with next := { s.next with op := s.next.op + n } }

/-- A lane whose class counter stands at its limit waits (R210). -/
def Thread.classRoom (t : Thread) (c : OpClass) : Option Hold :=
  if c.limit ≤ t.outstanding c then some (.limit c) else none

/-- A lane whose store buffer has no room for `n` entries waits (R409). -/
def Thread.bufferRoom (t : Thread) (n : Nat) : Option Hold := if 64 < t.sb.length + n then some .buffer else none

/-! ## Loads -/

/-- A load issued by a lane (R219): its destination is marked empty and the operation is outstanding. -/
def Thread.issueLoad (t : Thread) (id : Nat) (space : Space) (l : Loc) (n d : Nat) (dev : Bool) (acq : Option Scope) :
    Thread :=
  let regs := if n = 8 then 2 else if n = 16 then 4 else 1
  let t := t.markN d regs .load
  { t with
      ops := t.ops ++ [{ id := id, cls := some .load, kind := .load space l n d dev acq none, done := false,
                         cancelled := [] }]
      acquires := t.acquires ++ (match acq with
        | some sc => [(id, sc)]
        | none => []) }

/-- A load of a width in a space (R219, R221). -/
def State.runLoad (s : State) (i : Instr) (space : Space) (w : Nat) : Host.Outcome State Fault Refusal :=
  s.run i fun x v =>
    let n := widthBytes w
    let dev := space == .g && v.tail.modifier.sc == 2
    s.runSetRoom x i v (fun t => t.classRoom .load)
      (fun t => match s.access x.group t v space n .read with
        | .error e => .trap e
        | .ok l => .go (t.issueLoad s.next.op space l n v.d.toNat dev none) none)
      (fun went s' => (s'.noteAccess x.group space (went.map fun t => (t, s.access x.group t v space n .read))).takePlaces 1)
      false

/-- LD_G_B (R219). -/
def execLdGB (o : Rri) (s : State) : Host.Outcome State Fault Refusal := s.runLoad (.ldGB o) .g 0
/-- LD_G_H (R219). -/
def execLdGH (o : Rri) (s : State) : Host.Outcome State Fault Refusal := s.runLoad (.ldGH o) .g 1
/-- LD_G_W (R219). -/
def execLdGW (o : Rri) (s : State) : Host.Outcome State Fault Refusal := s.runLoad (.ldGW o) .g 2
/-- LD_G_D (R219). -/
def execLdGD (o : Rri) (s : State) : Host.Outcome State Fault Refusal := s.runLoad (.ldGD o) .g 3
/-- LD_G_Q (R219). -/
def execLdGQ (o : Rri) (s : State) : Host.Outcome State Fault Refusal := s.runLoad (.ldGQ o) .g 4
/-- LD_L_B (R219). -/
def execLdLB (o : Rri) (s : State) : Host.Outcome State Fault Refusal := s.runLoad (.ldLB o) .l 0
/-- LD_L_H (R219). -/
def execLdLH (o : Rri) (s : State) : Host.Outcome State Fault Refusal := s.runLoad (.ldLH o) .l 1
/-- LD_L_W (R219). -/
def execLdLW (o : Rri) (s : State) : Host.Outcome State Fault Refusal := s.runLoad (.ldLW o) .l 2
/-- LD_L_D (R219). -/
def execLdLD (o : Rri) (s : State) : Host.Outcome State Fault Refusal := s.runLoad (.ldLD o) .l 3
/-- LD_L_Q (R219). -/
def execLdLQ (o : Rri) (s : State) : Host.Outcome State Fault Refusal := s.runLoad (.ldLQ o) .l 4
/-- LD_K_B (R179, R219). -/
def execLdKB (o : Rri) (s : State) : Host.Outcome State Fault Refusal := s.runLoad (.ldKB o) .k 0
/-- LD_K_H (R179, R219). -/
def execLdKH (o : Rri) (s : State) : Host.Outcome State Fault Refusal := s.runLoad (.ldKH o) .k 1
/-- LD_K_W (R179, R219). -/
def execLdKW (o : Rri) (s : State) : Host.Outcome State Fault Refusal := s.runLoad (.ldKW o) .k 2
/-- LD_K_D (R179, R219). -/
def execLdKD (o : Rri) (s : State) : Host.Outcome State Fault Refusal := s.runLoad (.ldKD o) .k 3
/-- LD_K_Q (R179, R219). -/
def execLdKQ (o : Rri) (s : State) : Host.Outcome State Fault Refusal := s.runLoad (.ldKQ o) .k 4

/-- LD_ACQ (R223): an acquire at its scope; at .dev and .pod its load reads as R206 states. -/
def execLdAcq (o : Rrr) (s : State) : Host.Outcome State Fault Refusal :=
  s.run (.ldAcq o) fun x v =>
    let n := widthBytes (v.tail.modifier.x.toNat % 4)
    let sc := scopeOf v.tail.modifier.sc
    s.runSetRoom x (.ldAcq o) v (fun t => t.classRoom .load)
      (fun t => match s.access x.group t v .g n .read with
        | .error e => .trap e
        | .ok l => .go (t.issueLoad s.next.op .g l n v.d.toNat sc.wide (some sc)) none)
      (fun went s' => (s'.noteAccess x.group .g (went.map fun t => (t, s.access x.group t v .g n .read))).takePlaces 1)
      false

/-! ## Stores -/

/-- The data of a store of `n` bytes, from register d up (R220). -/
def Thread.storeData (t : Thread) (d n : Nat) : List Byte :=
  let regs := if n = 8 then 2 else if n = 16 then 4 else 1
  bytesOfNat (natOfBytes ((List.range regs).flatMap fun i => bytesOfNat (t.reg (d + i)).toNat 4)) n

/-- A store's entries: one, or one for each 8-byte half of a 16-byte store (R194). -/
def storeEntries (seq : Nat) (space : Space) (l : Loc) (sendAfter : Bool) (bs : List Byte) : List SbEntry :=
  let entry := fun (i k : Nat) (part : List Byte) =>
    let kind : SbKind := match space with
      | .l => .scratch (l.key + k)
      | .g => .global { l with va := l.va + BitVec.ofNat 64 k, key := l.key + k } sendAfter
      | .k => .global { l with va := l.va + BitVec.ofNat 64 k, key := l.key + k } sendAfter
    ({ seq := seq + i, kind := kind, data := dwordOfBytes part, size := part.length } : SbEntry)
  if bs.length ≤ 8 then [entry 0 0 bs] else [entry 0 0 (bs.take 8), entry 1 8 (bs.drop 8)]

/-- A release mark (R204). -/
def markEntry (seq : Nat) (sc : Scope) : SbEntry := { seq := seq, kind := .mark sc .stores, data := 0, size := 0 }

/-- A store of a width in a space (R220, R221). -/
def State.runStore (s : State) (i : Instr) (space : Space) (w : Nat) : Host.Outcome State Fault Refusal :=
  s.run i fun x v =>
    let n := widthBytes w
    s.runSetRoom x i v (fun t => t.bufferRoom (if n = 16 then 2 else 1))
      (fun t => match s.access x.group t v space n .write with
        | .error e => .trap e
        | .ok l =>
          .go { t with sb := t.sb ++ storeEntries s.next.op space l (v.tail.modifier.sc == 2) (t.storeData v.d.toNat n) }
            none)
      (fun went s' =>
        (s'.noteAccess x.group space (went.map fun t => (t, s.access x.group t v space n .write))).takePlaces 2)
      false

/-- ST_G_B (R220). -/
def execStGB (o : Rri) (s : State) : Host.Outcome State Fault Refusal := s.runStore (.stGB o) .g 0
/-- ST_G_H (R220). -/
def execStGH (o : Rri) (s : State) : Host.Outcome State Fault Refusal := s.runStore (.stGH o) .g 1
/-- ST_G_W (R220). -/
def execStGW (o : Rri) (s : State) : Host.Outcome State Fault Refusal := s.runStore (.stGW o) .g 2
/-- ST_G_D (R220). -/
def execStGD (o : Rri) (s : State) : Host.Outcome State Fault Refusal := s.runStore (.stGD o) .g 3
/-- ST_G_Q (R220). -/
def execStGQ (o : Rri) (s : State) : Host.Outcome State Fault Refusal := s.runStore (.stGQ o) .g 4
/-- ST_L_B (R220). -/
def execStLB (o : Rri) (s : State) : Host.Outcome State Fault Refusal := s.runStore (.stLB o) .l 0
/-- ST_L_H (R220). -/
def execStLH (o : Rri) (s : State) : Host.Outcome State Fault Refusal := s.runStore (.stLH o) .l 1
/-- ST_L_W (R220). -/
def execStLW (o : Rri) (s : State) : Host.Outcome State Fault Refusal := s.runStore (.stLW o) .l 2
/-- ST_L_D (R220). -/
def execStLD (o : Rri) (s : State) : Host.Outcome State Fault Refusal := s.runStore (.stLD o) .l 3
/-- ST_L_Q (R220). -/
def execStLQ (o : Rri) (s : State) : Host.Outcome State Fault Refusal := s.runStore (.stLQ o) .l 4

/-- ST_REL (R223): a release mark, and the release store, which is sent at once at .dev and .pod. -/
def execStRel (o : Rrr) (s : State) : Host.Outcome State Fault Refusal :=
  s.run (.stRel o) fun x v =>
    let n := widthBytes (v.tail.modifier.x.toNat % 4)
    let sc := scopeOf v.tail.modifier.sc
    s.runSetRoom x (.stRel o) v (fun t => t.bufferRoom 2)
      (fun t => match s.access x.group t v .g n .write with
        | .error e => .trap e
        | .ok l =>
          .go { t with sb := t.sb ++ (markEntry s.next.op sc ::
            (storeEntries (s.next.op + 1) .g l sc.wide (t.storeData v.d.toNat n)).map fun e => { e with release := true }) } none)
      (fun went s' => (s'.noteAccess x.group .g (went.map fun t => (t, s.access x.group t v .g n .write))).takePlaces 2)
      false

/-! ## Atomics and reductions -/

/-- Bytes of an atomic's location by its descriptor (Table 10-2). -/
def atomBytes (desc : RegNum) : Nat := if desc.getLsbD 2 then 8 else 4

/-- The new value of an atomic operation on an old one, or `none` where nothing is written (Table 10-3). -/
def atomResult (desc : RegNum) (old operand expected : Dword) : Option Dword :=
  let n := 8 * atomBytes desc
  let wrap := fun (x : Dword) => BitVec.ofNat 64 (x.toNat % 2 ^ n)
  let less := fun (signed : Bool) =>
    if signed then readInt true n (old.toNat % 2 ^ n) < readInt true n (operand.toNat % 2 ^ n)
    else old.toNat % 2 ^ n < operand.toNat % 2 ^ n
  let lesser := fun signed => if less signed then old else operand
  let greater := fun signed => if less signed then operand else old
  match atomOpr desc with
  | 0 => some (wrap (old + operand))
  | 1 => some (wrap (lesser true))
  | 2 => some (wrap (greater true))
  | 3 => some (wrap (lesser false))
  | 4 => some (wrap (greater false))
  | 5 => some (wrap (old &&& operand))
  | 6 => some (wrap (old ||| operand))
  | 7 => some (wrap (old ^^^ operand))
  | 8 => some (wrap operand)
  | 9 => if wrap old == wrap expected then some (wrap operand) else none
  | _ =>
    let f := if n = 64 then fmtF64 else fmtF32
    some (BitVec.ofNat 64 (f.add ⟨0, false⟩ (f.unpack (old.toNat % 2 ^ n)) (f.unpack (operand.toNat % 2 ^ n))).1)

/-- An atomic or reduction issued by a lane (R225): its mark where it is a release, and the outstanding operation. -/
def Thread.issueAtomic (t : Thread) (id : Nat) (space : Space) (l : Loc) (v : View) (ret : Bool) : Thread :=
  let desc := v.b
  let wide := desc.getLsbD 2
  let sc := scopeOf v.tail.modifier.sc
  let word := fun (r : Nat) => if wide then t.pair r else (t.reg r).zeroExtend 64
  let d := v.d.toNat
  let acq := if desc.getLsbD 0 && ret then some sc else none
  let op : Op := {
    id := id + 1, cls := if ret then some .load else none, done := false, cancelled := [],
    kind := .atom space l desc (word v.tail.modifier.c.toNat) (if ret then word d else 0) d ret acq false none }
  let t := if ret then t.markN d (if wide then 2 else 1) .load else t
  { t with
      ops := t.ops ++ [op]
      sb := if desc.getLsbD 1 then t.sb ++ [markEntry id sc] else t.sb
      acquires := t.acquires ++ (match acq with
        | some c => [(id + 1, c)]
        | none => []) }

/-- An atomic or a reduction in a lane set (R224 to R227). -/
def State.runAtomic (s : State) (i : Instr) (ret : Bool) : Host.Outcome State Fault Refusal :=
  s.run i fun x v =>
    let n := atomBytes v.b
    let space : Space := if v.tail.modifier.x.getLsbD 0 then .l else .g
    s.runSetRoom x i v
      (fun t => (if ret then t.classRoom .load else none).or (if v.b.getLsbD 1 then t.bufferRoom 1 else none))
      (fun t => match s.access x.group t v space n .both with
        | .error e => .trap e
        | .ok l => .go (t.issueAtomic s.next.op space l v ret) none)
      (fun went s' =>
        (s'.noteAccess x.group space (went.map fun t => (t, s.access x.group t v space n .both))).takePlaces 2)
      false

/-- ATOM (R225). -/
def execAtom (o : Rrr) (s : State) : Host.Outcome State Fault Refusal := s.runAtomic (.atom o) true
/-- RED (R226). -/
def execRed (o : Rrr) (s : State) : Host.Outcome State Fault Refusal := s.runAtomic (.red o) false

/-! ## Fences -/

/-- Whether every load and atomic of a thread has been performed. -/
def Thread.loadsPerformed (t : Thread) : Bool := !t.ops.any Op.unperformed

/-- Whether every load, store, transfer and tile operation of a thread is done (R228). -/
def Thread.drained (t : Thread) : Bool :=
  t.sb = [] && t.ops.all fun o => o.done || (match o.kind with
    | .load _ _ _ _ _ _ _ => false
    | .atom _ _ _ _ _ _ _ _ _ _ => false
    | .transfer _ _ => false
    | .tile _ => false
    | _ => true)

/-- What a lane does at a fence of kind X (Table 9-3). `.rel` places its mark; an acquire part holds the lane until its
older loads are performed; fence.sc goes through its phases. `seq` is the mark's place. -/
def Thread.atFence (t : Thread) (x : BitVec 3) (sc : Scope) (seq ticks : Nat) : Plan :=
  let marked := { t with sb := t.sb ++ [markEntry seq sc], fence := .releasing seq }
  match x.toNat with
  | 0 => .go { marked with fence := .idle } none
  | 1 => if t.loadsPerformed then .go t none else .hold t (.fence 1)
  | 2 =>
    let t := if t.fence == .idle then marked else t
    if t.loadsPerformed then .go { t with fence := .idle } none else .hold t (.fence 2)
  | _ =>
    match t.fence with
    | .idle =>
      if !t.drained then .hold t (.fence 3)
      else match (t.ops.filterMap Op.failure).head? with
        | some i => .trap i
        | none => .hold marked (.fence 3)
    | .releasing m =>
      if t.sb.any fun e => e.seq = m then .hold t (.fence 3) else .hold { t with fence := .ticking ticks } (.fence 3)
    | .ticking n => if n < ticks then .go { t with fence := .idle } none else .hold t (.fence 3)

/-- Whether a fence ends with the acquire step of R206. -/
def fenceAcquires (x : BitVec 3) (sc : Scope) : Bool := x == 3 || ((x == 1 || x == 2) && sc.wide)

/-- A failed transfer's trap is taken once (R242): a lane that takes it leaves the failure behind. Of several failed transfers each traps
in its turn, the oldest first; DESIGN CHOICE, log entry 99. -/
def Thread.forgetFailure (t : Thread) (ops : List Op) : Thread :=
  match ops.find? fun o => o.failure.isSome with
  | some f => { t with ops := t.ops.filter fun o => o.id != f.id }
  | none => t

/-- FENCE (R208, R228). -/
def execFence (o : Rrr) (s : State) : Host.Outcome State Fault Refusal :=
  s.run (.fence o) fun x v =>
    let k := v.tail.modifier.x
    let plan := fun (t : Thread) => t.atFence k v.fenceScope s.next.op s.ticks
    s.runSetRoom x (.fence o) v (fun t => if k == 1 || t.fence != .idle then none else t.bufferRoom 1) plan
      (fun went s' =>
        let s' := (x.lanes.filter fun t => laneActive v.tail.modifier t && (x.laneTrap (.fence o) v t).isNone).foldl (fun s t =>
          match plan t with
          | .trap _ => s.modThread x.group.gid t.gidx fun y => y.forgetFailure y.ops
          | .go _ _ => s
          | .hold _ _ => s) (s'.takePlaces 1)
        if went != [] && fenceAcquires k v.fenceScope then s'.acquireStep x.group.place.die else s')
      false

/-! ## Prefetch, twin flush and cache control -/

/-- The release-class block that a lane's address names, where the address passes the checks of R217 and R218; these
instructions never trap, and poison does not concern them (R229 to R231). -/
def State.quietBlock (s : State) (g : Group) (t : Thread) (v : View) : Option Loc :=
  match globalAddress (t.a64 v) (v.offset + t.indexed v) 1 .read with
  | .error _ => none
  | .ok ea =>
    match s.locateAny (whoOf g t) .read (t.pl == 2) ea with
    | .error _ => none
    | .ok l => some l

/-- What each lane's block is used for, with the die that its access touches recorded (R391). -/
def State.eachBlock (s : State) (x : Issue) (v : View) (went : List Thread) (f : State → Loc → State) : State :=
  went.foldl (fun s t =>
    match s.quietBlock x.group t v with
    | some l =>
      let s := s.touch t.ctxid.toNat l.home
      if l.token || l.table then s else f s l
    | none => s) s

/-- A block fetched ahead by a die (R229), unless its home is lost (R393) or the polder filter is in the way (R380). -/
def State.prefetch (die : Nat) (s : State) (l : Loc) : State :=
  if (s.die l.home).lost || !s.passes l.polder die l.home then s else s.fetchBlock die (blockOf l.key)

/-- PREF (R229): a Fetch step, where the home can be reached. -/
def execPref (o : Rrr) (s : State) : Host.Outcome State Fault Refusal :=
  s.run (.pref o) fun x v =>
    s.runSet x (.pref o) v (fun t => .go t none)
      (fun went s => s.eachBlock x v went (State.prefetch x.group.place.die)) false

/-- TWFLUSH (R230): Send steps. -/
def execTwflush (o : Rrr) (s : State) : Host.Outcome State Fault Refusal :=
  s.run (.twflush o) fun x v =>
    s.runSet x (.twflush o) v (fun t => .go t none)
      (fun went s =>
        if went = [] then s
        else if v.tail.modifier.x == 0 then s.eachBlock x v went fun s l => s.sendBlock x.group.place.die (blockOf l.key)
        else s.sendAll x.group.place.die) false

/-- CCTL (R231): Drop steps, or the copies kept for space k dropped. -/
def execCctl (o : Rrr) (s : State) : Host.Outcome State Fault Refusal :=
  s.run (.cctl o) fun x v =>
    let die := x.group.place.die
    s.runSet x (.cctl o) v (fun t => .go t none)
      (fun went s =>
        if went = [] then s
        else if v.tail.modifier.x == 0 then s.eachBlock x v went fun s l => s.dropBlock die (blockOf l.key)
        else if v.tail.modifier.x == 1 then
          s.modDie die fun d => { d with work := d.work.filter fun b => b.twin.isSome }
        else s.modDie die fun d => { d with kcopies := [], kinvHeld := d.work.map Block.key }) false

end Sys2Proof.Machine
end

