-- ==== Sys2Proof/Machine/Perform.lean ====
section
/-!
DEFINITION. The steps of the abstract machine that perform accesses (R196 to R207, R219, R225 to R227): performing stores and
loads, fetching, dropping and sending blocks, the returns that fill registers, and the heartbeat.
-/
namespace Sys2Proof.Machine

open Sys2Proof

/-! ## Order within a thread -/

/-- The bytes of one space that an operation reads or updates, while it must keep its place (R200, R227). -/
def Op.span (o : Op) : Option (Bool × Nat × Nat) :=
  match o.kind with
  | .load space l n _ _ _ value =>
    if value.isNone then some (space == .l, l.key, n) else none
  | .atom space l desc _ _ _ _ _ _ _ => if o.done then none else some (space == .l, l.key, atomBytes desc)
  | _ => none

/-- The bytes of a store buffer entry. -/
def SbEntry.span (e : SbEntry) : Option (Bool × Nat × Nat) :=
  match e.kind with
  | .global l _ => some (false, l.key, e.size)
  | .scratch o => some (true, o, e.size)
  | .mark _ _ => none

/-- Whether two spans share a byte. -/
def spansMeet (a b : Bool × Nat × Nat) : Bool := a.1 == b.1 && a.2.1 < b.2.1 + b.2.2 && b.2.1 < a.2.1 + a.2.2

/-- Whether an older operation of the thread on a byte of the span holds a younger access back. -/
def Thread.heldByOlder (t : Thread) (seq : Nat) (sp : Bool × Nat × Nat) : Bool :=
  t.ops.any fun o => o.id < seq && (match o.span with
    | some x => spansMeet x sp
    | none => false)

/-- Whether an older acquire of the thread is incomplete (R205). -/
def Thread.heldByAcquire (t : Thread) (seq : Nat) : Bool := t.acquires.any fun a => a.1 < seq

/-- Whether a table-region store of the thread has not reached every replica (R371). -/
def State.tablePending (s : State) (gid gidx seq : Nat) : Bool :=
  s.tableStores.any fun x => x.left != [] && x.issuers.any fun i => i.1 = gid && i.2.1 = gidx && i.2.2 < seq

/-! ## When the store buffer of an OUT group is performed (log entry 34) -/

/-- Whether a `ctxsv` has taken a group OUT. -/
def Group.taken (g : Group) : Bool :=
  match g.residency with
  | .out _ held => held
  | .resident _ => false
  | .saved _ _ _ => false

/-- Whether an operation must complete before its group is saved (R410): all but those of codes 0x1 to 0x3. -/
def Op.blocksSave (o : Op) : Bool :=
  !o.done && (match o.kind with
    | .launch true _ _ _ _ => false
    | _ => true)

/-- Whether an invalidation covers what a location was translated by (R333, R373); one page of a context counts as the
context. -/
def Tlbi.covers (i : Tlbi) (ctx polder : Nat) : Bool :=
  if i.kind < 2 then ctx = i.ctx else if i.kind = 2 then polder = i.polder else true

/-- Whether a location was translated under a covered entry. -/
def Tlbi.coversLoc (i : Tlbi) (l : Loc) : Bool := i.covers l.ctx l.polder

/-- Whether an outstanding operation of a thread needs one of its own buffered entries performed (R155, R200, R204, R225): an atomic
the older marks and the older stores to its bytes, a launch its release mark. -/
def Op.needsEntry (o : Op) (y : SbEntry) : Bool :=
  match o.kind with
  | .atom space l desc _ _ _ _ _ sent _ =>
    !sent && y.seq < o.id && (match y.span with
      | some x => spansMeet x (space == .l, l.key, atomBytes desc)
      | none => true)
  | .launch wait _ _ _ _ => !wait && y.seq + 1 = o.id
  | _ => false

/-- Whether what a `ctxsv` waits for (R410) waits for a buffered entry: an operation of its thread, a flag on its release mark
(R286), or an operation that a barrier orders after it (R41). -/
def State.saveAwaits (s : State) (g : Group) (t : Thread) (y : SbEntry) : Bool :=
  (t.ops.any fun o => !o.done && o.needsEntry y) ||
  (s.pod.flags.any fun f => f.gid = g.gid && f.gidx = t.gidx && f.mark = y.seq) ||
  g.threads.any fun u => u.2.ops.any fun o =>
    o.blocksSave && u.2.order.any fun p => p.1 = t.gidx && p.2 ≤ o.id && y.seq < p.2

/-- Whether a buffered entry is a store to the table region (R371). -/
def SbEntry.toTable (y : SbEntry) : Bool :=
  match y.kind with
  | .global l _ => l.table
  | .scratch _ => false
  | .mark _ _ => false

/-- Whether an invalidation waits for a buffered store of a group's thread (R373): one under a covered entry, or an older store of its
own issuer to the table region. -/
def State.tlbiAwaits (s : State) (g : Group) (t : Thread) (y : SbEntry) : Bool :=
  s.tlbis.any fun i => (i.left.contains g.place.die && (match y.kind with
    | .global l _ => i.coversLoc l
    | .scratch _ => false
    | .mark _ _ => false)) || (i.gid = g.gid && i.gidx = t.gidx && y.seq < i.seq && y.toTable)

/-- Whether an entry of one thread's buffer is performed before an entry of another's, or of its own (R41, R200, R203, R204). -/
def goesBefore (t : Thread) (e : SbEntry) (u : Thread) (y : SbEntry) : Bool :=
  (t.gidx = u.gidx && e.seq < y.seq && (match e.span, y.span with
    | some a, some b => spansMeet a b || e.release
    | _, _ => true)) ||
  u.order.any fun p => p.1 = t.gidx && p.2 ≤ y.seq && e.seq < p.2

/-- Buffered entries, by thread and place, with all that is performed before them, to a depth. -/
def Group.withEarlier (g : Group) : Nat → List (Nat × Nat) → List (Nat × Nat)
  | 0, xs => xs
  | n + 1, xs => g.withEarlier n (xs ++ g.threads.flatMap fun t => (t.2.sb.filter fun e =>
      !xs.contains (t.1, e.seq) && g.threads.any fun u => u.2.sb.any fun y =>
        xs.contains (u.1, y.seq) && goesBefore t.2 e u.2 y).map fun e => (t.1, e.seq))

/-- The buffered entries of an OUT group that a `ctxsv` which holds it, or a `tlbi`, waits for, with all that goes before them. -/
def State.askedFor (s : State) (g : Group) : List (Nat × Nat) :=
  g.withEarlier (g.threads.map fun t => t.2.sb.length).sum (g.threads.flatMap fun t => (t.2.sb.filter fun y =>
    (g.taken && s.saveAwaits g t.2 y) || s.tlbiAwaits g t.2 y).map fun y => (t.1, y.seq))

/-- Whether a group's replay launch runs: each of its instructions completes all its effects, wherever its group is (R360). -/
def State.replayRuns (s : State) (g : Group) : Bool :=
  s.launches.any fun l => l.lid = g.lid && l.header.isReplay && l.onCore.isSome && !l.stopped

/-- Whether a thread's store buffer may be performed at a place: its group is resident, or every thread of it has exited
(R148), or the group is OUT in a replay launch that runs (R360), or the entry is asked for (R212, R373, R410). DEDUCED, log entry 34. A lost
die performs nothing (R393). -/
def State.performs (s : State) (g : Group) (t : Thread) (seq : Nat) : Bool :=
  !(s.die g.place.die).lost && match g.residency with
  | .resident _ => true
  | .out _ _ => g.live = [] || s.replayRuns g || (s.askedFor g).contains (t.gidx, seq)
  | .saved _ _ _ => false

/-- Whether a release mark may take its next step (R203, R204): a parked thread's release starts only after it resumes (R213). -/
def State.markReady (s : State) (g : Group) (t : Thread) (older : List SbEntry) (seq : Nat) (ph : MarkPhase) : Bool :=
  match ph with
  | .stores =>
    older = [] && t.state != .parked &&
    t.ops.all fun o => seq < o.id || !o.unperformed
  | .applied ids => ids.all (fun i => !s.unapplied i) && !s.tablePending g.gid t.gidx seq

/-! ## What stores wait for -/

/-- Whether a store waits for a twin that its die's full pool has no room for (R390). -/
def State.awaitsTwin (s : State) (die : Nat) (e : SbEntry) : Bool :=
  match e.kind with
  | .global l _ => !l.table && !l.token && s.needsTwin die (blockOf l.key) && s.poolFull die
  | .scratch _ => false
  | .mark _ _ => false

/-- Whether an operation is an atomic that releases, not yet performed at its home (R201, R227). -/
def Op.releasing (o : Op) : Bool :=
  match o.kind with
  | .atom _ _ desc _ _ _ _ _ _ result => desc.getLsbD 1 && !o.done && result.isNone
  | _ => false

/-- Whether a store waits for an older release's own store, or for the atomic that stands where it would (R204, R223, R227). -/
def Thread.behindRelease (t : Thread) (older : List SbEntry) (seq : Nat) : Bool :=
  (older.any SbEntry.release) || t.ops.any fun o => o.id < seq && o.releasing

/-- Whether a store buffer entry may be performed, or a mark in it advanced (Table 9-2): it waits behind what a barrier orders
before it (R41), and a store also behind one that a full pool holds (R390), and behind an older release's own (R204). -/
def State.entryReady (s : State) (g : Group) (t : Thread) (older : List SbEntry) (e : SbEntry) : Bool :=
  s.performs g t e.seq && !e.dropped && !g.heldByOrder t e.seq &&
  (match e.kind, e.span with
   | .mark _ ph, _ => s.markReady g t older e.seq ph
   | _, some sp =>
     (older.all fun o => match o.kind, o.span with
       | .mark _ _, _ => false
       | _, some x => !spansMeet x sp && !s.awaitsTwin g.place.die o
       | _, none => true) &&
     !s.awaitsTwin g.place.die e && !t.behindRelease older e.seq && !t.heldByAcquire e.seq && !t.heldByOlder e.seq sp
   | _, none => false)

/-! ## Perform store -/

/-- The store buffer without the entry at a place. -/
def Thread.dropEntry (t : Thread) (i : Nat) : Thread := { t with sb := t.sb.eraseIdx i }

/-- A release mark takes its next step (R203): at .grp and .die it is complete; at .dev and .pod every twinned block is
sent, and then the sent set's entries of that moment are awaited. -/
def State.advanceMark (s : State) (g : Group) (t : Thread) (i : Nat) (e : SbEntry) (sc : Scope) (ph : MarkPhase) : State :=
  match ph with
  | .stores =>
    if sc.wide then
      let s := s.sendAll g.place.die
      let e := { e with kind := .mark sc (.applied (s.sentSet g.place.die)) }
      s.modThread g.gid t.gidx fun t => { t with sb := t.sb.set i e }
    else s.modThread g.gid t.gidx fun t => t.dropEntry i
  | .applied _ => s.modThread g.gid t.gidx fun t => t.dropEntry i

/-- Whether a line is poisoned for an access (R394): only a store at supervisor level meets it unharmed. -/
def State.linePoisoned (s : State) (l : Loc) (supervisorStore : Bool) : Bool :=
  l.token && !l.table && !supervisorStore && (match s.tokenLine l.key with
    | some x => x.poisoned
    | none => false)

/-- An access that meets a poisoned line when it is performed halts its context (R395), and is not performed. -/
def State.poisonHalt (s : State) (need : Need) (l : Loc) : State := s.haltContext l.ctx (leveeTrap need l.va l.home)

/-- Registers that an operation fills. -/
def Op.fills (o : Op) : Nat × Nat :=
  match o.kind with
  | .load _ _ n d _ _ _ => (d, if n = 8 then 2 else if n = 16 then 4 else 1)
  | .atom _ _ desc _ _ d ret _ _ _ => (d, if !ret then 0 else if desc.getLsbD 2 then 2 else 1)
  | .launch _ _ _ _ d => (d, 1)
  | .gname _ d => (d, 2)
  | _ => (0, 0)

/-- An operation answered with an error (R393, R395): it is over, and its registers are full with free values (log entry
36). -/
def State.failOp (s : State) (gid gidx : Nat) (o : Op) : State :=
  let ws := (List.range o.fills.2).map fun i => Config.errorValue o.id i
  s.modGroup gid fun g => (g.fillOp gidx o o.fills.1 ws).modThread gidx fun t =>
    { t.finishOp o.id with acquires := t.acquires.filter fun a => a.1 != o.id }

/-- A token-class store performed (R385, R388): at the home for a line whose tokens stay away, or for a poisoned line that a store
at supervisor level repairs (R394), else by an agent that holds all 64 tokens, which are requested first. The answer says
whether it was performed. -/
def State.storeToken (s : State) (die : Nat) (l : Loc) (supervisor : Bool) (bs : List Byte) : State × Bool :=
  if supervisor && s.linePoisoned l false then ((s.unpoisonLine l.key).tokenWrite l.key bs, true)
  else if s.atHome die l then (s.homeTokenWrite l.key bs, true)
  else if s.agentTokens die l.key = 64 then ((s.tokenWrite l.key bs).tokenServed die l.key true, true)
  else (s.requestTokens die l.polder l.key true, false)

/-- A buffered store whose home is lost and whose block the die does not hold is answered with an error (R393): it is not performed, and
its context halts with LEVEE (R395), unless its thread is halted already. -/
def State.refuseStore (s : State) (g : Group) (t : Thread) (l : Loc) : State :=
  if g.kindOf t.gidx == .halted || t.trapped.isSome then s else s.poisonHalt .write l

/-- A store performed (R197): into the scratchpad image, the table-update engine, the token store, or the die's working
copy, whose block is then sent at once where the store asks. One whose block the polder filter keeps away is never
performed (R380). -/
def State.performEntry (s : State) (g : Group) (t : Thread) (i : Nat) (e : SbEntry) : State :=
  let bs := bytesOfNat e.data.toNat e.size
  let die := g.place.die
  let gone := fun (s : State) => s.modThread g.gid t.gidx fun t => t.dropEntry i
  let sup := t.pl != 0
  match e.kind with
  | .mark sc ph => s.advanceMark g t i e sc ph
  | .scratch o => gone (s.modGroup g.gid fun g => g.writeScratch o bs)
  | .global l sendAfter =>
    if s.linePoisoned l sup then gone (s.poisonHalt .write l)
    else if l.table then gone (s.tableStore die l bs [(g.gid, t.gidx, e.seq)] t.pl)
    else if l.token then
      let r := s.storeToken die l sup bs
      if r.2 then gone r.1 else r.1
    else if (s.die l.home).lost && ((s.die die).block (blockOf l.key)).isNone then gone (s.refuseStore g t l)
    else if !s.reaches die l then
      s.countFiltered.modThread g.gid t.gidx fun t => { t with sb := t.sb.set i { e with dropped := true } }
    else
      let s := gone (s.storeWorking die l.key ⟨l.ctx, l.polder, sup⟩ bs)
      if sendAfter then s.sendBlock die (blockOf l.key) else s

/-- PERFORM_STORE (R197, R203). -/
def execPerformStore (gid gidx index : Nat) (s : State) : Host.Outcome State Fault Refusal :=
  match s.group gid with
  | none => .next s
  | some g =>
    match g.thread gidx with
    | none => .next s
    | some t =>
      match t.sb[index]? with
      | none => .next s
      | some e => .next (if s.entryReady g t (t.sb.take index) e then s.performEntry g t index e else s)

/-! ## Perform load -/

/-- A byte of a span's youngest older store buffer entry (R198). -/
def Thread.bufferByte (t : Thread) (seq : Nat) (scratch : Bool) (a : Nat) : Option Byte :=
  ((t.sb.filter fun e => e.seq < seq && (match e.span with
    | some x => spansMeet x (scratch, a, 1)
    | none => false)).getLast?).bind fun e => e.span.map fun x => byteAt e.data.toNat (a - x.2.1)

/-- The scope of an acquire that an operation is. -/
def Op.acquires (o : Op) : Option Scope :=
  match o.kind with
  | .load _ _ _ _ _ acq _ => acq
  | .atom _ _ _ _ _ _ _ acq _ _ => acq
  | _ => none

/-- Whether an operation may be performed (Table 9-2, R205, R227, R413): its group is in its slot, no older acquire is incomplete, no older access of the
same bytes is outstanding, nothing that a barrier orders before it is left (R41), it is no acquire of a parked thread, which starts
only after it resumes (R213), its die is not lost (R393), and an atomic waits for older stores to its bytes and for the release that it is or follows. -/
def State.opReady (s : State) (g : Group) (t : Thread) (o : Op) : Bool :=
  (match g.residency with
   | .saved _ _ _ => false
   | _ => true) && !(s.die g.place.die).lost && !o.done && !o.dropped && !t.heldByAcquire o.id && !g.heldByOrder t o.id &&
  !(t.state == .parked && o.acquires.isSome) && (match o.kind with
    | .load space l n _ _ _ value =>
      value.isNone && !t.heldByOlder o.id (space == .l, l.key, n) && !(l.table && s.tablePending g.gid t.gidx o.id)
    | .atom space l desc _ _ _ _ _ sent result =>
      !sent && result.isNone && !t.heldByOlder o.id (space == .l, l.key, atomBytes desc) &&
      (t.sb.all fun e => o.id < e.seq || (match e.kind, e.span with
        | .mark _ _, _ => false
        | _, some x => !spansMeet x (space == .l, l.key, atomBytes desc)
        | _, none => true))
    | _ => false)

/-- What the die keeps of a location that space k has read: the bytes of one earlier read that covers it (R179). -/
def Die.keptBytes (d : Die) (key n : Nat) : Option (List Byte) :=
  (d.kcopies.find? fun c => c.1 ≤ key && key + n ≤ c.1 + c.2.length).map fun c => (c.2.drop (key - c.1)).take n

/-- What a load of space k reads of a location whose bytes are `now` (R179): what the die keeps from an earlier read may stand in
their place, as a free value says, and bytes read the first time are kept. -/
def State.readK (s : State) (die : Nat) (l : Loc) (now : List Byte) : List Byte × State :=
  match (s.die die).keptBytes l.key now.length with
  | some b => (if Config.kStale s.next.op then b else now, s)
  | none => (now, s.modDie die fun d => { d with kcopies := (l.key, now) :: d.kcopies })

/-- The bytes that a load of release class reads (R198, R206, R221): the die's working copy, made by a fetch if absent, or, in the
reading step of a device-scope acquire, the home copy under the die's difference. -/
def State.readRelease (s : State) (die : Nat) (l : Loc) (n : Nat) (dev : Bool) : List Byte × State :=
  if dev then (s.homeWithDiff die l.key n, s)
  else
    let s := s.fetchBlock die (blockOf l.key)
    (s.readLoc die l n, s)

/-- The bytes that a load reads, from the die and not from the store buffer (R198, R206, R221); `none` where tokens are
requested first (R385), in space k as in space g. Of a block that the die held at a `cctl.kinv`, space k reads the home
copy (R231). -/
def State.readStorage (s : State) (g : Group) (space : Space) (l : Loc) (n : Nat) (dev : Bool) :
    Option (List Byte) × State :=
  let die := g.place.die
  if space == .l then (some (g.scratch.readN l.key n), s)
  else if l.table then (some (s.mem.readN l.key n), s)
  else if l.token then
    if s.atHome die l then
      let r := s.homeTokenRead l.key n
      (some r.1, r.2)
    else if 0 < s.agentTokens die l.key then (some (s.tokenRead l.key n), s.tokenServed die l.key false)
    else (none, s.requestTokens die l.polder l.key false)
  else
    let r := s.readRelease die l n (s.readsHome die space l dev)
    let r := if space == .k then r.2.readK die l r.1 else r
    (some r.1, r.2)

/-- An acquire that needs no step of the die is complete once its load is performed (R205). -/
def Thread.endNarrowAcquire (t : Thread) (id : Nat) (acq : Option Scope) : Thread :=
  match acq with
  | some sc => if sc.wide then t else { t with acquires := t.acquires.filter fun a => a.1 != id }
  | none => t

/-- A load performed (R198): each byte from the thread's youngest older store buffer entry, else from storage. -/
def State.performLoad (s : State) (g : Group) (t : Thread) (o : Op) (space : Space) (l : Loc) (n d : Nat) (dev : Bool)
    (acq : Option Scope) : State :=
  let buffered := (List.range n).map fun i => t.bufferByte o.id (space == .l) (l.key + i)
  let all := buffered.all Option.isSome
  let r := if all then (some [], s) else s.readStorage g space l n dev
  match r.1 with
  | none => r.2
  | some bs =>
    let value := buffered.zipIdx.map fun p => p.1.getD ((bs[p.2]?).getD 0)
    r.2.modThread g.gid t.gidx fun t =>
      (t.modOp o.id fun o => { o with kind := .load space l n d dev acq (some value) }).endNarrowAcquire o.id acq

/-- An atomic on the scratchpad (R225): performed at once by the core's scratchpad unit. -/
def State.atomicScratch (s : State) (g : Group) (t : Thread) (o : Op) (l : Loc) (desc : RegNum) (operand expected : Dword)
    (ret : Bool) : State :=
  let n := atomBytes desc
  let old := dwordOfBytes (g.scratch.readN l.key n)
  let s := match atomResult desc old operand expected with
    | some w => s.modGroup g.gid fun g => g.writeScratch l.key (bytesOfNat w.toNat n)
    | none => s
  s.modThread g.gid t.gidx fun t =>
    if ret then t.modOp o.id fun o => (match o.kind with
      | .atom sp l de op ex d rt ac _ _ => { o with kind := .atom sp l de op ex d rt ac true (some old) }
      | _ => o)
    else t.finishOp o.id

/-- A global atomic leaves the die (R193, R226): the block's difference goes ahead of it, and a reduction also drops the
die's copy. -/
def State.atomicLeaves (s : State) (g : Group) (t : Thread) (o : Op) (l : Loc) (desc : RegNum) (operand expected : Dword)
    (ret : Bool) : State :=
  let die := g.place.die
  let s := if l.token then s
    else
      let s := s.sendBlock die (blockOf l.key)
      if ret then s else s.dropBlock die (blockOf l.key)
  let s := s.sendEntry die l.home l.polder (.atomic g.gid t.gidx o.id l desc operand expected ret)
  s.modThread g.gid t.gidx fun t => t.modOp o.id fun o => (match o.kind with
    | .atom sp l de op ex d rt ac _ r => { o with kind := .atom sp l de op ex d rt ac true r }
    | _ => o)

/-- An operation of a thread, with its thread and group. -/
def State.operation (s : State) (gid gidx op : Nat) : Option (Group × Thread × Op) :=
  match s.group gid with
  | none => none
  | some g =>
    match g.thread gidx with
    | none => none
    | some t => (t.ops.find? fun o => o.id = op).map fun o => (g, t, o)

/-- What a read that went bad after it issued halts its context with (R394, R415): its scratchpad bytes are in error, or its sector
or line is poisoned. DEDUCED, log entry 52. -/
def State.readError (s : State) (g : Group) (space : Space) (l : Loc) (n : Nat) : Option TrapInfo :=
  if space == .l then if (g.scratchError l.key n).isSome then some (scratchLevee g l.key n) else none
  else if s.poisoned .read false l n then some (leveeTrap .read l.va l.home)
  else none

/-- An operation that may be performed is performed; a load whose fetch the polder filter drops is never answered (R380). -/
def State.performOp (s : State) (g : Group) (t : Thread) (o : Op) : State :=
  if !s.opReady g t o then s
  else
    match o.kind with
    | .load space l n d dev acq _ =>
      match s.readError g space l n with
      | some e => (s.haltContext (if space == .l then t.ctxid.toNat else l.ctx) e).failOp g.gid t.gidx o
      | none =>
      if space != .l && !s.readReaches g.place.die space l dev then
        s.countFiltered.dropOp g.gid t.gidx o.id
      else s.performLoad g t o space l n d dev acq
    | .atom space l desc operand expected _ ret _ _ _ =>
      if space == .l then
        match s.readError g .l l (atomBytes desc) with
        | some e => (s.haltContext t.ctxid.toNat e).failOp g.gid t.gidx o
        | none => s.atomicScratch g t o l desc operand expected ret
      else if s.linePoisoned l false then (s.poisonHalt .both l).failOp g.gid t.gidx o
      else s.atomicLeaves g t o l desc operand expected ret
    | _ => s

/-- PERFORM_LOAD (R198): a load is performed, or an atomic leaves the die (R227). -/
def execPerformLoad (gid gidx op : Nat) (s : State) : Host.Outcome State Fault Refusal :=
  match s.operation gid gidx op with
  | none => .next s
  | some (g, t, o) => .next (s.performOp g t o)

/-! ## Returns -/

/-- An acquire's step is taken as its value returns, and the acquire is complete (R205, R206). -/
def State.completeAcquire (s : State) (g : Group) (gidx id : Nat) (acq : Option Scope) : State :=
  match acq with
  | none => s
  | some sc =>
    let s := if sc.wide then s.acquireStep g.place.die else s
    s.modThread g.gid gidx fun t => { t with acquires := t.acquires.filter fun a => a.1 != id }

/-- DATA_RETURN (R219): a performed load fills its destination. -/
def execDataReturn (gid gidx op : Nat) (s : State) : Host.Outcome State Fault Refusal :=
  match s.operation gid gidx op with
  | none => .next s
  | some (g, t, o) =>
    match o.kind with
    | .load _ _ n d _ acq (some bs) =>
      if o.done then .next s
      else
        let x := natOfBytes bs
        let regs := if n = 8 then 2 else if n = 16 then 4 else 1
        let ws := (List.range regs).map fun i => BitVec.ofNat 32 (x / 2 ^ (32 * i))
        let s := s.completeAcquire g t.gidx o.id acq
        .next (s.modGroup gid fun g => (g.fillOp gidx o d ws).modThread gidx fun t => t.finishOp op)
    | _ => .next s

/-- An atomic's new value written back into the die's working copy, and into its twin if it holds one (R193). -/
def State.writeBack (s : State) (die key : Nat) (bs : List Byte) : State :=
  s.modDie die fun d => d.modBlock (blockOf key) fun b =>
    { b with bytes := b.bytes.writeN (key - b.key) bs, twin := b.twin.map fun t => t.writeN (key - b.key) bs }

/-- ATOMIC_RETURN (R193, R225). -/
def execAtomicReturn (gid gidx op : Nat) (s : State) : Host.Outcome State Fault Refusal :=
  match s.operation gid gidx op with
  | none => .next s
  | some (g, t, o) =>
    match o.kind with
    | .atom space l desc operand expected d true acq true (some old) =>
      if o.done then .next s
      else
        let s := match atomResult desc old operand expected with
          | some w =>
            if space == Space.g && !l.token then s.writeBack g.place.die l.key (bytesOfNat w.toNat (atomBytes desc)) else s
          | none => s
        let s := s.completeAcquire g t.gidx o.id acq
        let ws := (List.range (if desc.getLsbD 2 then 2 else 1)).map fun i => BitVec.ofNat 32 (old.toNat / 2 ^ (32 * i))
        .next (s.modGroup gid fun g => (g.fillOp gidx o d ws).modThread gidx fun t => t.finishOp op)
    | _ => .next s

/-! ## Fetch, drop, send and tick -/

/-- Whether a block's key names a block of home memory outside the table region. -/
def isBlockKey (k : Nat) : Bool := Memory.homeBase ≤ k && k % 512 = 0 && 2 ^ 32 ≤ k % 2 ^ 37

/-- Whether a load that a thread of a die has issued needs a block (Table 9-2). -/
def State.blockNeeded (s : State) (die block : Nat) : Bool :=
  s.groups.any fun g => g.2.place.die = die && g.2.threads.any fun t => t.2.ops.any fun o =>
    match o.kind with
    | .load space l _ _ _ _ none =>
      space != .l && !l.table && !l.token && !o.dropped && blockOf l.key = block && s.passes l.polder die l.home
    | _ => false

/-- FETCH (R197): of a block that a load needs; no traffic passes to or from a lost die (R393). -/
def execFetch (die block : Nat) (s : State) : Host.Outcome State Fault Refusal :=
  .next (if isBlockKey block && s.blockNeeded die block && !(s.die die).lost && !(s.die (keyHome block)).lost
    then s.fetchBlock die block else s)
/-- DROP (R197). -/
def execDrop (die block : Nat) (s : State) : Host.Outcome State Fault Refusal := .next (s.dropBlock die block)
/-- SEND (R189, R197). -/
def execSend (die block : Nat) (s : State) : Host.Outcome State Fault Refusal := .next (s.sendBlock die block)

/-- Time passes: the clock advances, and the heartbeat ticks at every multiple of its period (R196). -/
def State.advance (s : State) (n : Nat) : State :=
  { s with clock := s.clock + n, ticks := (s.clock + n) / tickPeriod }

/-- TICK (R196, R197): the time of the next tick comes. -/
def execTick (s : State) : Host.Outcome State Fault Refusal := .next (s.advance (tickPeriod - s.clock % tickPeriod))

end Sys2Proof.Machine
end

