-- ==== Sys2Proof/Machine/Transfer.lean ====
section
/-!
DEFINITION. The transfer engine and the sluice counters (major opcodes 0xC0 to 0xC4, R232 to R245).
-/
namespace Sys2Proof.Machine

open Sys2Proof

/-! ## Descriptors -/

/-- A descriptor's fields that the flags word packs (Table 11-3). -/
def Transfer.dir (x : Transfer) : Nat := field x.flags 0 3
def Transfer.bnd (x : Transfer) : Bool := x.flags.getLsbD 3
def Transfer.nosl (x : Transfer) : Bool := x.flags.getLsbD 4
def Transfer.tile (x : Transfer) : Nat := field x.flags 8 3
def Transfer.rows (x : Transfer) : Nat := field x.flags 12 12 + 1
def Transfer.fill (x : Transfer) : Byte := x.flags.extractLsb' 24 8
/-- The first tile row T (R234). -/
def Transfer.tileRow (x : Transfer) : Nat := if 4 ≤ x.dir then (x.gaddr.extractLsb' 0 32).toNat else x.laddr.toNat
/-- Whether a direction has a global side, reads it, has a scratchpad side, and has a tile side. -/
def Transfer.hasGlobal (x : Transfer) : Bool := x.dir < 4
def Transfer.readsGlobal (x : Transfer) : Bool := x.dir = 0 || x.dir = 2
def Transfer.hasScratch (x : Transfer) : Bool := x.dir = 0 || x.dir = 1 || x.dir = 4 || x.dir = 5
def Transfer.hasTile (x : Transfer) : Bool := 2 ≤ x.dir
/-- Bytes in bounds of each row, 0 meaning 65,536 (Table 11-2). -/
def Transfer.cb (x : Transfer) : Nat := if field x.bounds 0 16 = 0 then 65536 else field x.bounds 0 16

/-- A transfer as a lane's descriptor registers describe it (Table 11-2). -/
def Thread.descriptor (t : Thread) (g : Group) (v : View) (gather : Bool) (handle opId : Nat) : Transfer :=
  let a := v.a.toNat
  { die := g.place.die, core := g.place.core, handle := handle, gid := g.gid, gidx := t.gidx, op := 0, gather := gather,
    gaddr := t.pair a, laddr := t.reg (a + 2), len := t.reg (a + 3), stride := t.reg (a + 4), sluice := t.reg (a + 5),
    flags := t.reg (a + 6), bounds := t.reg (a + 7), index := if gather then t.b32 v else 0, base := a, row := 0, col := 0,
    pc := t.pc, opId := opId, fault := none }

/-- Whether a descriptor meets a condition of R235 that traps XFERERR. A tile whose shape register is invalid is judged by its COLS and
width as they stand; DESIGN CHOICE, log entry 97. -/
def Transfer.bad (x : Transfer) (g : Group) : Bool :=
  let len := x.len.toNat
  let bytes := x.rows * len
  let outside := fun (off n : Nat) => decide (g.scratchSize < off + n)
  let sh := (g.tshape[x.tile]?).getD 0
  6 ≤ x.dir || (x.gather && !(x.dir = 0 || x.dir = 2)) || field x.flags 5 3 != 0 || x.flags.getLsbD 11 ||
  len = 0 || 2 ^ 24 < len || len % 4 != 0 || 2 ^ 31 - 1 < bytes ||
  (x.hasGlobal && (field x.gaddr 0 2 != 0 || field x.stride 0 2 != 0 || field x.gaddr 56 8 != 0)) ||
  (x.hasScratch && (field x.laddr 0 2 != 0 || outside x.laddr.toNat bytes)) ||
  (x.gather && (field x.index 0 2 != 0 || outside x.index.toNat (4 * x.rows))) ||
  (!x.nosl && (field x.sluice 0 3 != 0 || outside x.sluice.toNat 8)) ||
  (x.hasTile && (g.tiles ≤ x.tile || 128 < x.tileRow + x.rows || shapeRows sh < x.tileRow + x.rows ||
    shapeCols sh * shapeWidth sh < len)) ||
  (4 ≤ x.dir && (127 < field x.gaddr 0 32 || field x.gaddr 32 32 != 0))

/-! ## Issue -/

/-- Free handles of a core's transfer engine, lowest first (Table 23-3). -/
def State.freeHandles (s : State) (die core : Nat) : List Nat :=
  (List.range 64).filter fun h => !s.transfers.any fun x => x.die = die && x.core = core && x.handle = h

/-- The lane waits before issue: for its older stores (R236), or for room in its class (R210). -/
def Thread.transferRoom (t : Thread) : Option Hold :=
  match t.classRoom .transfer with
  | some h => some h
  | none => if t.sb = [] then none else some .drain

/-- An engine transfer of a lane enters its thread's class. -/
def Thread.issueTransfer (t : Thread) (opId handle : Nat) : Thread :=
  { t with ops := t.ops ++ [{ id := opId, cls := some .transfer, kind := .transfer handle none, done := false,
                              cancelled := [] }] }

/-- `xfer` or `xgat` in a lane set (R235): a lane whose descriptor is bad traps before it waits. A lane that finds all 64 handles of its
core in use waits as at a class limit; DESIGN CHOICE, log entry 96. -/
def State.runTransfer (s : State) (i : Instr) (gather : Bool) : Host.Outcome State Fault Refusal :=
  s.run i fun x v =>
    let free := s.freeHandles x.group.place.die x.group.place.core
    let lanes := x.lanes.filter fun t => laneActive v.tail.modifier t
    let handle := fun (t : Thread) => (free[(lanes.takeWhile fun u => u.gidx != t.gidx).length]?).getD 0
    let make := fun (t : Thread) => t.descriptor x.group v gather (handle t) s.next.op
    let room := fun (t : Thread) =>
      if (make t).bad x.group then none
      else if free.length < lanes.length then some (.limit .transfer) else t.transferRoom
    s.runSetRoom x i v room
      (fun t =>
        if (make t).bad x.group then .trap { cause := .xferErr, aux := BitVec.ofNat 8 v.a.toNat }
        else .go (t.issueTransfer s.next.op (handle t)) none)
      (fun went s => { s with transfers := s.transfers ++ went.map make }.takePlaces 1) false

/-- XFER (R235). -/
def execXfer (o : Rrr) (s : State) : Host.Outcome State Fault Refusal := s.runTransfer (.xfer o) false
/-- XGAT (R235). -/
def execXgat (o : Rrr) (s : State) : Host.Outcome State Fault Refusal := s.runTransfer (.xgat o) true

/-! ## Sluice counters -/

/-- A sluice counter's word with COUNT and ERR, and its TARGET (Table 11-4). -/
def Group.sluice (g : Group) (off : Nat) : Word × Word :=
  (wordOfBytes (g.scratch.readN off 4), wordOfBytes (g.scratch.readN (off + 4) 4))

/-- COUNT ≥ TARGET. -/
def Group.sluiceMet (g : Group) (off : Nat) : Bool := (g.sluice off).2.toNat ≤ field (g.sluice off).1 0 31
/-- ERR. -/
def Group.sluiceErr (g : Group) (off : Nat) : Bool := (g.sluice off).1.getLsbD 31

/-- The lane's older stores to the counter are performed first (R27), and what a barrier orders before it (R41). Its older loads and
atomics of the counter are not waited for; DESIGN CHOICE, log entry 104. -/
def Thread.sluiceRoom (t : Thread) (g : Group) (v : View) (seq : Nat) : Option Hold :=
  let off := (t.a32 v).toNat
  if g.heldByOrder t seq || t.sb.any fun e => (match e.span with
    | some x => spansMeet x (true, off, 8)
    | none => false) then some .drain else none

/-- The target that stands where several active lanes set one counter: any of theirs (R240), as a free value says. -/
def sluiceTarget (went : List Thread) (v : View) (seq off : Nat) : Word :=
  let same := went.filter fun t => (t.a32 v).toNat = off
  ((same[Config.sluiceChoice seq off % same.length]?).map fun t => t.b32 v).getD 0

/-- A counter set: TARGET, with ERR and COUNT 0 (R240). -/
def Group.setSluice (g : Group) (off : Nat) (target : Word) : Group :=
  { g.writeScratch off (bytesOfNat (target.toNat * 2 ^ 32) 8) with
      sluiceFails := g.sluiceFails.filter fun f => f.1 != off }

/-- The trap at a counter that carries ERR (R241, Table 23-1): the failing row and the descriptor base register of the transfer
that set it, 0 where none did. -/
def Group.sluiceTrap (g : Group) (off : Nat) : TrapInfo :=
  match g.sluiceFails.find? fun f => f.1 = off with
  | some f => { cause := .xferErr, detail := BitVec.ofNat 32 f.2.1, aux := BitVec.ofNat 8 f.2.2 }
  | none => { cause := .xferErr }

/-- SLSET (R240). -/
def execSlset (o : Rrr) (s : State) : Host.Outcome State Fault Refusal :=
  s.run (.slset o) fun x v =>
    s.runSetRoom x (.slset o) v (fun t => t.sluiceRoom x.group v s.next.op)
      (fun t => match scratchAddress (t.a32 v) 0 8 x.group.scratchSize .write with
        | .error e => .trap e
        | .ok _ => .go t none)
      (fun went s' => (s'.modGroup x.group.gid fun g => went.foldl (fun g t =>
        g.setSluice (t.a32 v).toNat (sluiceTarget went v s.next.op (t.a32 v).toNat)) g).takePlaces 1) false

/-- Whether a counter that a lane waits on makes it trap: it carries ERR (R241), or its bytes are in error (R415). -/
def Group.sluiceBad (g : Group) (off : Nat) : Bool := g.sluiceErr off || (g.scratchError off 8).isSome

/-- SLWAIT (R241): a lane whose counter carries ERR traps; otherwise it is held until COUNT reaches TARGET. -/
def execSlwait (o : Rrr) (s : State) : Host.Outcome State Fault Refusal :=
  s.run (.slwait o) fun x v =>
    s.runSetRoom x (.slwait o) v (fun t => t.sluiceRoom x.group v s.next.op)
      (fun t => match scratchAddress (t.a32 v) 0 8 x.group.scratchSize .read with
        | .error e => .trap e
        | .ok off =>
          if (x.group.scratchError off 8).isSome then .trap (scratchLevee x.group off 8)
          else if x.group.sluiceErr off then .trap (x.group.sluiceTrap off)
          else if x.group.sluiceMet off then .go t none
          else .hold t (.slwait off (v.next x.pc)))
      (fun _ s => s) false

/-! ## xwait -/

/-- The class that X names (Table 11-1). -/
def classOfX (x : BitVec 3) : OpClass :=
  match x.toNat with
  | 0 => .load
  | 1 => .transfer
  | 2 => .tile
  | _ => .pod

/-- The operations of a class that all but the n youngest leave to wait for (R211). -/
def Thread.awaited (t : Thread) (c : OpClass) (n : Nat) : List Op :=
  let ops := t.ops.filter fun o => o.cls = some c
  ops.take (ops.length - n)

/-- What a lane does at `xwait n` (R211, R242, R245). -/
def Thread.atXwait (t : Thread) (c : OpClass) (n : Nat) : Plan :=
  let ops := t.awaited c n
  if ops.any fun o => !o.done then .hold t (.xwait c n)
  else
    match (ops.filterMap Op.failure).head? with
    | some i => .trap i
    | none => .go t none

/-- XWAIT (R245). -/
def execXwait (o : Rrr) (s : State) : Host.Outcome State Fault Refusal :=
  s.run (.xwait o) fun x v =>
    let c := classOfX v.tail.modifier.x
    let n := v.b.toNat
    s.runSet x (.xwait o) v (fun t => t.atXwait c n)
      (fun _ s => (x.lanes.filter fun t => laneActive v.tail.modifier t && (x.laneTrap (.xwait o) v t).isNone).foldl (fun s t =>
        match t.atXwait c n with
        | .trap _ => s.modThread x.group.gid t.gidx fun y => y.forgetFailure (y.awaited c n)
        | .go _ _ => s
        | .hold _ _ => s) s) false

/-! ## Packets -/

/-- Whether a transfer's source is a tile: it writes whole sectors in ascending order of their addresses (R195). -/
def Transfer.fromTile (x : Transfer) : Bool := x.dir = 3 || x.dir = 5

/-- The coordinate of a row: its number, or its index for `xgat` (R234). -/
def Transfer.coord (x : Transfer) (g : Group) (r : Nat) : Nat :=
  if x.gather then natOfBytes (g.scratch.readN (x.index.toNat + 4 * r) 4) else r

/-- The global address of a byte of a row. -/
def Transfer.addr (x : Transfer) (g : Group) (r c : Nat) : Dword :=
  x.gaddr + BitVec.ofInt 64 ((x.coord g r : Int) * x.stride.toInt) + BitVec.ofNat 64 c

/-- The scratchpad offset of a byte of a row (R234). -/
def Transfer.scratchAt (x : Transfer) (r c : Nat) : Nat := x.laddr.toNat + r * x.len.toNat + c

/-- The place of a byte of a row in the group's tile memory (R234, R247). The row's bytes past the 512 of a tile row, which only an invalid
shape allows, are those that follow in tile memory, past the tile's own 64 KiB too; DESIGN CHOICE, log entry 97. -/
def Transfer.tilePlace (x : Transfer) (r c : Nat) : Nat := 65536 * x.tile + 512 * (x.tileRow + r) + c

/-- Where the rows of a transfer from a tile go: the address of each, or its scratchpad offset, and its length. -/
def Transfer.stretches (x : Transfer) (g : Group) : List (Nat × Nat) :=
  (List.range x.rows).map fun r => (if x.dir = 3 then (x.addr g r 0).toNat else x.scratchAt r 0, x.len.toNat)

/-- The last address of the sector that a transfer from a tile writes next, plus 1. -/
def Transfer.sectorEnd (x : Transfer) (g : Group) : Nat :=
  32 * (((nextByte (x.stretches g) x.upTo).getD x.upTo) / 32 + 1)

/-- Bytes of the next packet of a transfer that is not from a tile, given how many are asked for: within a row, at most 512, and ending at a
32-byte boundary of the tile row (R239, R243). -/
def Transfer.packetSize (x : Transfer) (ask : Nat) : Nat :=
  let left := x.len.toNat - x.col
  let n := max 1 (min (min ask 512) left)
  if x.hasTile && n < left then
    if x.col % 32 + n < 32 then min left (32 - x.col % 32) else (x.col + n) / 32 * 32 - x.col
  else n

/-- What the next step of a transfer moves, by row, byte of the row and length: one packet, where `ask` bytes are asked for, in ascending
order of rows and bytes (R239 allows any order; DESIGN CHOICE, log entry 53); or, from a tile, every row's bytes in the next sector (R195),
of which those of the higher row stand where rows overlap (DESIGN CHOICE, log entry 94). -/
def Transfer.parts (x : Transfer) (g : Group) (ask : Nat) : List (Nat × Nat × Nat) :=
  if x.fromTile then partsIn (x.stretches g) x.upTo (x.sectorEnd g) else [(x.row, x.col, x.packetSize ask)]

/-- Bytes that a step moves. -/
def partBytes (ps : List (Nat × Nat × Nat)) : Nat := (ps.map fun p => p.2.2).sum

/-- Bytes of a part that are in bounds (R237). -/
def Transfer.inBounds (x : Transfer) (g : Group) (p : Nat × Nat × Nat) : Nat :=
  if !x.bnd then p.2.2 else if field x.bounds 16 16 ≤ x.coord g p.1 then 0 else min p.2.2 (x.cb - p.2.1)

/-- An engine's access translated as its thread (R242, R366): the trap, and whether no repair can end it. -/
def State.engineLocate (s : State) (g : Group) (t : Thread) (need : Need) (va : Dword) (n : Nat) :
    Except (TrapInfo × Bool) Loc :=
  if va.extractLsb' 56 8 != 0 then .error (protTrap need va, false)
  else
    match s.translate (whoOf g t) need va with
    | .ok (.window _ _) => .error (protTrap need va, true)
    | _ =>
      match s.locate (whoOf g t) need (t.pl == 2) va with
      | .error e => .error (e, e.cause == .levee)
      | .ok l => if s.poisoned need (t.pl != 0) l n then .error (leveeTrap need va l.home, true) else .ok l

/-- A located stretch cut at a unit of its storage. -/
def Loc.cut (l : Loc) (unit n : Nat) : List (Loc × Nat) := (cutAt unit l.key n).map fun p => (l.at p.1, p.2)

/-- The pieces of a stretch of global bytes with their locations, or the first fault: within a block of 512 bytes, and within a
line of 128 of token class (R384). -/
def State.enginePieces (s : State) (g : Group) (t : Thread) (need : Need) (va : Dword) (n : Nat) :
    Except (TrapInfo × Bool) (List (Loc × Nat)) :=
  (cutAt 512 va.toNat n).foldr (fun p acc =>
    match s.engineLocate g t need (va + BitVec.ofNat 64 p.1) p.2, acc with
    | .error e, _ => .error e
    | .ok _, .error e => .error e
    | .ok l, .ok ls => .ok ((if l.token && !l.table then l.cut 128 p.2 else [(l, p.2)]) ++ ls)) (.ok [])

/-- Bytes that an engine of the die reads as loads of the die (R198, R236); a token-class line is gathered within the
step (log entry 12). -/
def State.engineRead (s : State) (die : Nat) (ps : List (Loc × Nat)) : List Byte × State :=
  ps.foldl (fun acc p =>
    let r := if p.1.token && !p.1.table then acc.2.homeTokenRead p.1.key p.2
      else if p.1.table then (acc.2.mem.readN p.1.key p.2, acc.2)
      else acc.2.readRelease die p.1 p.2 false
    (acc.1 ++ r.1, r.2)) ([], s)

/-- One piece that an engine writes: a token-class one as its aligned 8-byte parts in ascending order (R253). A poisoned line
that the writer may not write halts its context, and stays (R394, R395). -/
def State.enginePiece (s : State) (die : Nat) (supervisor : Bool) (issuers : List (Nat × Nat × Nat)) (l : Loc) (bs : List Byte) :
    State :=
  let w : Writer := ⟨l.ctx, l.polder, supervisor⟩
  if s.linePoisoned l supervisor then s.poisonHalt .write l
  else if l.token && !l.table then
    (cutAt 8 l.key bs.length).foldl (fun s p => s.writeLoc die (l.at p.1) w ((bs.drop p.1).take p.2)) s
  else s.writeLocFor die l w issuers bs

/-- Bytes that an engine of the die writes as stores of the die, for an operation of threads or for none (R197, R236). -/
def State.engineWriteFor (s : State) (die : Nat) (supervisor : Bool) (issuers : List (Nat × Nat × Nat)) (ps : List (Loc × Nat))
    (bs : List Byte) : State :=
  (ps.foldl (fun (acc : State × List Byte) p =>
    (acc.1.enginePiece die supervisor issuers p.1 (acc.2.take p.2), acc.2.drop p.2)) (s, bs)).1

/-- The same for no thread. -/
def State.engineWrite (s : State) (die : Nat) (supervisor : Bool) (ps : List (Loc × Nat)) (bs : List Byte) : State :=
  s.engineWriteFor die supervisor [] ps bs

/-- Whether an engine's access to a location meets no filter (R380): of token class, on the way to the home, which gathers its tokens. -/
def State.engineReaches (s : State) (die : Nat) (l : Loc) : Bool :=
  if l.token && !l.table then s.passes l.polder die l.home else s.reaches die l

/-- Whether an engine's pieces can be reached (R380). -/
def State.piecesReach (s : State) (die : Nat) (ps : List (Loc × Nat)) : Bool := ps.all fun p => s.engineReaches die p.1

/-- The blocks of an engine's write that need a twin (R188, R390). -/
def State.twinsNeeded (s : State) (die : Nat) (ps : List (Loc × Nat)) : List Nat :=
  ((ps.filter fun p => !p.1.table && !p.1.token && s.needsTwin die (blockOf p.1.key)).map fun p => blockOf p.1.key).eraseDups

/-- Whether an engine's write waits for twins that the pool has no room for (R390). -/
def State.piecesAwaitTwin (s : State) (die : Nat) (ps : List (Loc × Nat)) : Bool :=
  s.twinsNeeded die ps != [] && s.twinCapacity die < (s.die die).twinned.length + (s.twinsNeeded die ps).length

/-- COUNT rises by a packet's bytes and saturates (R239). -/
def Group.countSluice (g : Group) (off n : Nat) : Group :=
  let w := (g.sluice off).1
  let count := min 0x7FFFFFFF (field w 0 31 + n)
  g.writeScratch off (bytesOfNat (count + (if w.getLsbD 31 then 2 ^ 31 else 0)) 4)

/-- ERR is set in the counter by a transfer that failed at a row (R242). The first to set it is the one that a trap names (DESIGN
CHOICE, log entry 77). -/
def Group.failSluice (g : Group) (off row base : Nat) : Group :=
  let fails := if g.sluiceErr off then g.sluiceFails else g.sluiceFails.filter (fun f => f.1 != off) ++ [(off, row, base)]
  { g.writeScratch off (bytesOfNat ((g.sluice off).1 ||| 0x80000000).toNat 4) with sluiceFails := fails }

/-- Whether two records are the same transfer. -/
def Transfer.same (x y : Transfer) : Bool := x.die = y.die && x.core = y.core && x.handle = y.handle

/-- A transfer stops for good (R242): its counter carries ERR, and it completes in its class with an error mark; where its
thread has exited, the error is reported. -/
def State.failTransfer (s : State) (x : Transfer) (i : TrapInfo) : State :=
  let s := { s with transfers := s.transfers.filter fun y => !x.same y }
  match s.group x.gid with
  | none => s
  | some g =>
    let info : TrapInfo :=
      { cause := .xferErr, tval := i.tval, detail := BitVec.ofNat 32 x.row, aux := BitVec.ofNat 8 x.base }
    let g := if x.nosl then g else g.failSluice x.sluice.toNat x.row x.base
    let g := g.modThread x.gidx fun t =>
      (t.modOp x.opId fun o => { o with kind := .transfer x.handle (some info), done := true }).retireOps
    let s := s.putGroup g
    match g.thread x.gidx with
    | some t =>
      if t.state == .exited then s.addRecords x.die [transferRecord g t x.pc x.handle info] else s
    | none => s

/-- What a packet needs of its global bytes. -/
def Transfer.need (x : Transfer) : Need := if x.readsGlobal then .read else .write

/-- Whether an access of a thread to `n` bytes meets a lost home or a poisoned line, which halts its context (R395). -/
def State.meetsLoss (s : State) (g : Group) (t : Thread) (need : Need) (va : Dword) (n : Nat) : Bool :=
  (cutAt 128 va.toNat n).any fun p => match s.translateAny (whoOf g t) need (va + BitVec.ofNat 64 p.1) with
    | .ok (.here l) => (s.die l.home).lost || s.linePoisoned l (need = .write && t.pl != 0)
    | _ => false

/-- A fault stops a transfer at its packet, asked for `ask` bytes, with a record (R242); one that no repair can end fails it at once. -/
def State.faultTransfer (s : State) (x : Transfer) (g : Group) (t : Thread) (ask : Nat) (i : TrapInfo) (final : Bool) : State :=
  let stopped := { x with fault := some (i, !s.regs.assist.getLsbD 2), asked := ask }
  let i := { i with aux := BitVec.ofNat 8 x.base }
  let s := { s with transfers := mapIf x.same (fun _ => stopped) s.transfers }
  let s := s.addRecords x.die [transferRecord g t x.pc x.handle i]
  if !final then s else s.failTransfer x i

/-- The locations of a part's in-bounds global bytes. -/
def State.partPieces (s : State) (x : Transfer) (g : Group) (t : Thread) (p : Nat × Nat × Nat) :
    Except (TrapInfo × Bool) (List (Loc × Nat)) :=
  if x.hasGlobal then s.enginePieces g t x.need (x.addr g p.1 p.2.1) (x.inBounds g p) else .ok []

/-- The locations of each part's in-bounds global bytes, or the first part that faults, with its fault. -/
def State.packetPieces (s : State) (x : Transfer) (g : Group) (t : Thread) (ps : List (Nat × Nat × Nat)) :
    Except ((Nat × Nat × Nat) × TrapInfo × Bool) (List (List (Loc × Nat))) :=
  ps.foldr (fun p acc =>
    match s.partPieces x g t p, acc with
    | .error e, _ => .error (p, e)
    | .ok _, .error e => .error e
    | .ok ls, .ok rest => .ok (ls :: rest)) (.ok [])

/-- A part of a step faults; where it meets a lost home or a poisoned line, its context halts (R395). The row of the part is the
transfer's failing row. -/
def State.faultPacket (s : State) (x : Transfer) (g : Group) (t : Thread) (ask : Nat) (p : Nat × Nat × Nat) (i : TrapInfo)
    (final : Bool) : State :=
  let halts := i.cause == .levee && s.meetsLoss g t x.need (x.addr g p.1 p.2.1) (x.inBounds g p)
  let s := s.faultTransfer { x with row := p.1 } g t ask i final
  if halts then s.haltContext t.ctxid.toNat { i with access := 0 } else s

/-- A transfer behind a step: from a tile, at the next sector; else at its next byte, or at its next row. -/
def Transfer.advanced (x : Transfer) (g : Group) (ask : Nat) : Transfer :=
  if x.fromTile then { x with upTo := x.sectorEnd g }
  else if x.col + x.packetSize ask < x.len.toNat then { x with col := x.col + x.packetSize ask }
  else { x with col := 0, row := x.row + 1 }

/-- Whether every byte of a transfer has moved. -/
def Transfer.allMoved (x : Transfer) (g : Group) : Bool :=
  if x.fromTile then (nextByte (x.stretches g) x.upTo).isNone else x.rows ≤ x.row

/-- Bytes that a transfer has moved are counted (R239), and a transfer all of whose bytes have moved is complete. -/
def State.countPacket (s : State) (x : Transfer) (g : Group) (n : Nat) : State :=
  let s := if x.nosl then s else s.modGroup x.gid fun g => g.countSluice x.sluice.toNat n
  if x.allMoved g then
    { s with transfers := s.transfers.filter fun z => !x.same z }.modThread x.gid x.gidx fun t => t.finishOp x.opId
  else { s with transfers := mapIf x.same (fun _ => x) s.transfers }

/-- One part of a step moved (R234, R237). Bytes of a tile that carry an error are moved as they stand; DESIGN CHOICE, log
entry 98. -/
def State.movePart (s : State) (x : Transfer) (g : Group) (t : Thread) (p : Nat × Nat × Nat) (ps : List (Loc × Nat)) : State :=
  let scr := x.scratchAt p.1 p.2.1
  let til := x.tilePlace p.1 p.2.1
  let n := p.2.2
  let r : List Byte × State :=
    if x.readsGlobal then
      let r := s.engineRead x.die ps
      (r.1 ++ List.replicate (n - r.1.length) x.fill, r.2)
    else if x.dir = 1 || x.dir = 4 then (g.scratch.readN scr n, s)
    else (g.tileMem.readN til n, s)
  let bs := r.1
  let s := ps.foldl (fun s p => s.touch t.ctxid.toNat p.1.home) r.2
  if x.dir = 1 || x.dir = 3 then
    s.engineWriteFor x.die (t.pl != 0) [(x.gid, x.gidx, x.opId)] ps (bs.take (x.inBounds g p))
  else if x.dir = 0 || x.dir = 5 then s.modGroup x.gid fun g => g.writeScratch scr bs
  else s.modGroup x.gid fun g =>
    { g with tileMem := g.tileMem.writeN til bs
             tileErrors := g.tileErrors.filter fun e => e.2 || !(til ≤ e.1 && e.1 < til + n) }

/-- One step's parts moved and counted (R234, R237, R239). What goes to the table region is counted, and the transfer goes on, once every
replica has it (R371). -/
def State.movePacket (s : State) (x : Transfer) (g : Group) (t : Thread) (ask : Nat) (pss : List (List (Loc × Nat))) : State :=
  let parts := x.parts g ask
  let s := (parts.zip pss).foldl (fun s p => s.movePart x g t p.1 p.2) s
  let y := x.advanced g ask
  if !x.readsGlobal && pss.flatten.any fun p => p.1.table then
    { s with transfers := mapIf x.same (fun _ => { y with moved := partBytes parts }) s.transfers }
  else s.countPacket y g (partBytes parts)

/-- Whether a thread's accesses older than an engine operation are performed (R236, R253), its table-region stores in every replica
(R371), and what a barrier orders before it (R41). A lost die's engines do nothing (R393). -/
def State.engineReady (s : State) (g : Group) (t : Thread) (id : Nat) : Bool :=
  !(s.die g.place.die).lost && (t.sb.all fun e => id < e.seq) && (t.ops.all fun o => id < o.id || !o.unperformed) && !t.heldByAcquire id &&
  !g.heldByOrder t id && !s.tablePending g.gid t.gidx id

/-- The scratchpad bytes in error that a step reads, if any: they end its transfer as unreadable memory does (DEDUCED, log
entry 78). -/
def Transfer.scratchFault (x : Transfer) (g : Group) (ask : Nat) : Option TrapInfo :=
  let read := fun (p : Nat × Nat × Nat) =>
    (if x.dir = 1 || x.dir = 4 then g.scratchError (x.scratchAt p.1 p.2.1) p.2.2 else none).or
      (if x.gather then g.scratchError (x.index.toNat + 4 * p.1) 4 else none)
  ((x.parts g ask).findSome? read).map fun o =>
    { cause := .levee, tval := BitVec.ofNat 64 o, detail := BitVec.ofNat 32 x.die }

/-- TRANSFER_PACKET (R239): the next packet of a transfer, of at most `bytes` bytes, or its fault (R242); from a tile, the next sector. One
that the polder filter drops does not move (R380), one that needs a twin waits for room in the pool (R390), and one whose bytes are on
their way to the table replicas waits for them (R371). -/
def execTransferPacket (die core handle bytes : Nat) (s : State) : Host.Outcome State Fault Refusal :=
  match s.transfers.find? fun x => x.die = die && x.core = core && x.handle = handle with
  | none => .next s
  | some x =>
    match s.group x.gid with
    | none => .next s
    | some g =>
      match g.thread x.gidx with
      | none => .next s
      | some t =>
        if x.fault.isSome || x.dropped || !s.engineReady g t x.opId then .next s
        else if x.moved != 0 then
          .next (if s.tablePending x.gid x.gidx (x.opId + 1) then s else s.countPacket { x with moved := 0 } g x.moved)
        else
          match x.scratchFault g bytes, s.packetPieces x g t (x.parts g bytes) with
          | some i, _ => .next ((s.faultTransfer x g t bytes i true).haltContext t.ctxid.toNat i)
          | none, .error e => .next (s.faultPacket x g t bytes e.1 e.2.1 e.2.2)
          | none, .ok pss =>
            if !s.piecesReach die pss.flatten then
              .next { s.countFiltered with transfers := mapIf x.same (fun y => { y with dropped := true }) s.transfers }
            else if !x.readsGlobal && s.piecesAwaitTwin die pss.flatten then .next s
            else .next (s.movePacket x g t bytes pss)

end Sys2Proof.Machine
end

