-- ==== Sys2Proof/Machine/SaveArea.lean ====
section
/-!
DEFINITION. The context save area (R407 to R409, Tables 23-6 and 23-7): its layout, the image of a group, a group read back
from an area, and stores to the registers of a saved group (R411).
-/
namespace Sys2Proof.Machine

open Sys2Proof

/-! ## Layout -/

/-- The sizes that place the sections of an area (R407). -/
structure AreaShape where
  nthr : Nat
  budget : Nat
  nwarp : Nat
  nsb : Nat
  scratch : Nat
  tiles : Nat
  deriving DecidableEq, Repr

/-- The next multiple of 64. -/
def align64 (n : Nat) : Nat := (n + 63) / 64 * 64
/-- Words of a thread's full/empty map. -/
def AreaShape.feWords (a : AreaShape) : Nat := (a.budget + 7) / 8
/-- Offsets of the sections. -/
def AreaShape.thr (_ : AreaShape) : Nat := 0x180
def AreaShape.reg (a : AreaShape) : Nat := align64 (a.thr + 64 * a.nthr)
def AreaShape.fe (a : AreaShape) : Nat := align64 (a.reg + 4 * a.nthr * a.budget)
def AreaShape.warp (a : AreaShape) : Nat := align64 (a.fe + 4 * a.nthr * a.feWords)
def AreaShape.sb (a : AreaShape) : Nat := align64 (a.warp + 80 * a.nwarp)
def AreaShape.scr (a : AreaShape) : Nat := align64 (a.sb + 32 * a.nsb)
def AreaShape.til (a : AreaShape) : Nat := align64 (a.scr + a.scratch)
/-- Bytes of the area. -/
def AreaShape.size (a : AreaShape) : Nat := a.til + 73728 * a.tiles
/-- Where register r of thread t lies, and the word of its full/empty code. -/
def AreaShape.regAt (a : AreaShape) (t r : Nat) : Nat := a.reg + 4 * (t * a.budget + r)
def AreaShape.feAt (a : AreaShape) (t r : Nat) : Nat := a.fe + 4 * (t * a.feWords + r / 8)

/-- The shape of a group's area. -/
def Group.areaShape (g : Group) : AreaShape :=
  { nthr := g.nthr, budget := g.budget, nwarp := g.warps.length,
    nsb := (g.threads.map fun t => t.2.sb.length).sum, scratch := g.scratchSize, tiles := g.tiles }

/-- Full/empty codes (R409). -/
def Fe.code : Fe → Nat
  | .full => 0
  | .armed => 1
  | .svc => 2
  | .launchW => 3
  | .load => 4
  | .pod => 5
  | .trd => 6
  | .gname => 7
  | .launch => 8

/-- The full/empty state of a code that an area holds (R410). -/
def feOfCode (n : Nat) : Fe := if n = 1 then .armed else if n = 2 then .svc else if n = 3 then .launchW else .full

/-- The cause of a code (Table 23-1). -/
def causeOfCode (n : Nat) : Cause :=
  ([.illop, .priv, .align, .page, .prot, .regEmpty, .maskMis, .regBudget, .fragFull, .fpExc, .svc, .brk, .step, .dieLoss,
    .levee, .podLoss, .xferErr] : List Cause)[n - 1]?.getD .illop

/-- Scope codes (Table 0-4). -/
def Scope.code : Scope → Nat
  | .grp => 0
  | .die => 1
  | .dev => 2
  | .pod => 3

/-! ## The image of a group -/

/-- Bytes padded with zeros to a length. -/
def padTo (n : Nat) (bs : List Byte) : List Byte := bs ++ List.replicate (n - bs.length) 0

/-- STATE, HOLD, BARNO, HMASK, HVAL and the program counter of a thread's record (R408, Table 23-7). -/
def Thread.saved (t : Thread) (bin : Nat) : Nat × Nat × Nat × Word × Word × Pc :=
  match t.state with
  | .ready => (0, 0, 0, 0, 0, t.pc)
  | .issuing => (0, 0, 0, 0, 0, t.pc)
  | .waiting (.bar n next) => (1, 1, n, 0, 0, next)
  | .waiting (.sync m _ _) => (1, 2, 0, m, 0, t.pc)
  | .waiting (.shfl m _ v _ _ _) => (1, 3, 0, m, v, t.pc)
  | .waiting _ => (0, 0, 0, 0, 0, t.pc)
  | .binned => (2, 0, bin, 0, 0, t.pc)
  | .parked => (3, 0, 0, 0, 0, t.pc)
  | .exited => (4, 0, 0, 0, 0, t.pc)

/-- A thread record (Table 23-7). -/
def Group.threadImage (g : Group) (t : Thread) : List Byte :=
  let bin := ((findAt (fun (b : Bin) => b.entries.any fun e => e.1 = t.gidx) g.bins 0).map Prod.fst).getD 0
  let warp := ((findAt (fun (w : Warp) => w.lanes.any fun l => l.2 = t.gidx) g.warps 0).map Prod.fst).getD 0xFFFF
  let (st, hold, bar, mask, val, pc) := t.saved bin
  let info := t.trapped.getD { cause := .illop }
  let parked := t.state == .parked && t.trapped.isSome
  padTo 64 (bytesOfNat pc.toNat 8 ++ bytesOfNat st 1 ++ bytesOfNat t.lane 1 ++ bytesOfNat warp 2 ++ bytesOfNat hold 1 ++
    bytesOfNat bar 1 ++ [if parked then info.cause.code else 0] ++ [if t.ev then 1 else 0] ++ bytesOfNat mask.toNat 4 ++
    bytesOfNat val.toNat 4 ++ bytesOfNat t.fpctl.toNat 4 ++ bytesOfNat t.fpflags.toNat 4 ++ bytesOfNat 0 4 ++
    bytesOfNat t.sb.length 4 ++ bytesOfNat (if parked then info.tval.toNat else 0) 8)

/-- A warp record (R409), with the command that awaits its fragment as ACTION. DESIGN CHOICE, log entry 84. -/
def Warp.image (w : Warp) (action : Nat) : List Byte :=
  let kind := match w.kind with
    | .normal => 0
    | .fragment _ => 1
    | .parked _ => 2
    | .halted => 3
  let half := fun p => ((w.lanes.find? fun l => l.1 = p).map Prod.snd).getD 0xFFFF
  padTo 80 (bytesOfNat (kind + 256 * action) 4 ++ bytesOfNat (laneMask (w.lanes.map Prod.fst)).toNat 4 ++
    (List.range 32).flatMap fun p => bytesOfNat (half p) 2)

/-- The scope code of a saved global store: whether it is a release's own (1), and whether its block is sent at once (2). DESIGN
CHOICE, log entry 31. -/
def storeCode (release sendAfter : Bool) : Nat := (if release then 1 else 0) + if sendAfter then 2 else 0

/-- A store buffer entry (R409). -/
def SbEntry.image (e : SbEntry) (t : Nat) : List Byte :=
  let (addr, kind, sc) := match e.kind with
    | .global l sendAfter => (l.va.toNat, 0, storeCode e.release sendAfter)
    | .scratch o => (o, 1, 0)
    | .mark sc _ => (0, 2, sc.code)
  padTo 32 (bytesOfNat addr 8 ++ bytesOfNat e.data.toNat 8 ++ bytesOfNat t 2 ++ bytesOfNat e.size 1 ++
    bytesOfNat kind 1 ++ bytesOfNat sc 1)

/-- The header (Table 23-6), with COMPLETE 0, and the bins' ages at a time. -/
def Group.headerImage (g : Group) (now retired : Nat) : List Byte :=
  let a := g.areaShape
  let bin := fun i => match g.bins[i]? with
    | some b => bytesOfNat b.key.toNat 8 ++ bytesOfNat (now - b.earliest) 4 ++ bytesOfNat 1 4
    | none => List.replicate 16 0
  padTo 0x180 (bytesOfNat 0 4 ++ bytesOfNat 1 4 ++ bytesOfNat g.name.toNat 8 ++ bytesOfNat g.base.toNat 8 ++
    bytesOfNat g.widWord.toNat 8 ++ bytesOfNat g.entry.toNat 8 ++ bytesOfNat g.ctl.toNat 4 ++ bytesOfNat a.scratch 4 ++
    bytesOfNat a.nthr 4 ++ bytesOfNat a.budget 4 ++ bytesOfNat a.nwarp 4 ++ bytesOfNat a.nsb 4 ++
    bytesOfNat g.terr.toNat 4 ++ bytesOfNat g.ovr.toNat 4 ++ g.tshape.flatMap (fun w => bytesOfNat w.toNat 4) ++
    bytesOfNat g.quantum.toNat 4 ++ bytesOfNat g.rquant.toNat 4 ++ bytesOfNat retired 8 ++ bytesOfNat 0 8 ++
    (List.range 16).flatMap bin)

/-- The full/empty words of a thread. -/
def Thread.feImage (t : Thread) (budget : Nat) : List Byte :=
  (List.range ((budget + 7) / 8)).flatMap fun w =>
    bytesOfNat (((List.range 8).map fun i =>
      if 8 * w + i < budget then (t.feOf (8 * w + i)).code * 16 ^ i else 0).sum) 4

/-- A tile's image (R247): its data, and its bitmap, row by row, as they stand where they carry an error; DESIGN CHOICE, log entry 98. -/
def Group.tileImage (g : Group) (k : Nat) : List Byte :=
  g.tileMem.readN (65536 * k) 65536 ++
  (List.range 8192).map fun i => BitVec.ofNat 8 (((List.range 8).map fun j =>
    if g.bitmapZero.contains (65536 * k + 8 * i + j) then 0 else 2 ^ j).sum)

/-- The whole image of a group (R407), its sections padded to multiples of 64. -/
def Group.areaImage (g : Group) (now retired : Nat) : List Byte :=
  let a := g.areaShape
  let ts := g.threads.map Prod.snd
  let upTo := fun (n : Nat) (bs more : List Byte) => padTo n (bs ++ more)
  let x := g.headerImage now retired
  let x := upTo a.reg x (ts.flatMap g.threadImage)
  let x := upTo a.fe x (ts.flatMap fun t => (List.range a.budget).flatMap fun r => bytesOfNat (t.reg r).toNat 4)
  let x := upTo a.warp x (ts.flatMap fun t => t.feImage a.budget)
  let x := upTo a.sb x (g.warps.flatMap fun w => w.image ((g.actions.find? fun a => a.1 = w.id).map Prod.snd |>.getD 0))
  let x := upTo a.scr x (ts.flatMap fun t => t.sb.flatMap fun e => e.image t.gidx)
  let x := upTo a.til x (g.scratch.readN 0 a.scratch)
  x ++ (List.range a.tiles).flatMap g.tileImage

/-! ## Reading an area -/

/-- A field of an area. -/
def areaField (bs : List Byte) (off n : Nat) : Nat := natOfBytes ((bs.drop off).take n)

/-- The shape that an area's header gives. -/
def areaShapeOf (bs : List Byte) : AreaShape :=
  { nthr := areaField bs 0x030 4, budget := areaField bs 0x034 4, nwarp := areaField bs 0x038 4,
    nsb := areaField bs 0x03C 4, scratch := areaField bs 0x02C 4, tiles := areaField bs 0x028 4 % 16 }

/-- Whether the header's sizes lie within R407's limits, under the format known (R412). Scratchpad and tiles that no core has
are a matter of room (Table 19-8). -/
def areaHeaderOk (bs : List Byte) : Bool :=
  let a := areaShapeOf bs
  areaField bs 4 4 = 1 && 1 ≤ a.nthr && a.nthr ≤ 1024 && 1 ≤ a.budget && a.budget ≤ 128 && a.nwarp ≤ a.nthr &&
  a.nsb ≤ 64 * a.nthr

/-- A record of a store buffer entry: thread, address, data, size, kind and scope code. -/
structure SavedStore where
  thread : Nat
  addr : Dword
  data : Dword
  size : Nat
  kind : Nat
  sc : Nat
  deriving DecidableEq, Repr

/-- The store buffer entries of an area. -/
def areaStores (bs : List Byte) : List SavedStore :=
  let a := areaShapeOf bs
  (List.range a.nsb).map fun i =>
    let f := fun o n => areaField bs (a.sb + 32 * i + o) n
    { thread := f 16 2, addr := BitVec.ofNat 64 (f 0 8), data := BitVec.ofNat 64 (f 8 8), size := f 18 1, kind := f 19 1,
      sc := f 20 1 }

/-- A warp record of an area: KIND, ACTION and its lanes. -/
def areaWarp (bs : List Byte) (i : Nat) : Nat × Nat × List (Nat × Nat) :=
  let a := areaShapeOf bs
  let f := fun o n => areaField bs (a.warp + 80 * i + o) n
  let lanes := (List.range 32).filterMap fun p =>
    if f (8 + 2 * p) 2 = 0xFFFF || !(f 4 4).testBit p then none else some (p, f (8 + 2 * p) 2)
  (f 0 1, f 1 1, lanes)

/-- A field of thread t's record. -/
def areaThreadField (bs : List Byte) (t o n : Nat) : Nat := areaField bs (0x180 + 64 * t + o) n

/-- The full/empty code of register r of thread t. -/
def areaFe (bs : List Byte) (t r : Nat) : Nat := areaField bs ((areaShapeOf bs).feAt t r) 4 / 16 ^ (r % 8) % 16

/-- The checks of an area's contents that need no translation (R412, step 1). -/
def areaContentsOk (bs : List Byte) : Bool :=
  let a := areaShapeOf bs
  ((List.range a.nthr).all fun t => (List.range a.budget).all fun r => areaFe bs t r ≤ 3) &&
  (List.range a.nthr).all fun t =>
    let bin := areaThreadField bs t 13 1
    areaThreadField bs t 8 1 != 2 ||
    (bin < 16 && areaField bs (0x080 + 16 * bin + 12) 1 % 2 = 1 &&
      areaField bs (0x080 + 16 * bin) 8 = areaThreadField bs t 0 8)

/-- Whether a hold began when its instruction had issued, and so was counted (R361). -/
def Hold.counted : Hold → Bool
  | .fence _ => true
  | .xwait _ _ => true
  | .tlbsync => true
  | .slwait _ _ => true
  | .regs _ => false
  | .limit _ => false
  | .buffer => false
  | .drain => false
  | .svcRing => false
  | .channel _ _ => false
  | .flagOrder _ => false
  | .tags => false
  | .podOrder => false
  | .bar _ _ => true
  | .sync _ _ _ => true
  | .shfl _ _ _ _ _ _ => true
  | .pacq _ _ _ _ _ => true
  | .wfe _ => true
  | .pciWrite _ => true

/-- What a thread that is PARKED after a restore reports: what its area records, or, in a warp that stays parked under R37,
FRAGFULL for one that was saved READY. -/
def areaTrap (st kind cause : Nat) (tval : Dword) : Option TrapInfo :=
  if st = 3 && cause != 0 then some { cause := causeOfCode cause, tval := tval }
  else if kind = 2 then some { cause := .fragFull } else none

/-- Whether a thread saved while it was held had counted the instruction that holds it (R361): executed again after the
restore, it counts once in all. DEDUCED, log entry 85. -/
def Thread.wasCounted (t : Thread) : Bool :=
  match t.state with
  | .waiting h => h.counted
  | _ => t.resumed

/-- A thread read from an area over what the record of its group keeps of it (R408, R412): `parked` says that its warp, of
KIND `kind`, stays parked. Marks and stores keep their places, or, where their number was edited, take rising ones from `seq` on; `loc`
translates a store's address. Every register is written; of FPCTL and FPFLAGS, the fields that Tables 3-2 and 3-3 give them (R8). A RND
of 0b101 to 0b111 put there rounds as nearest, ties away (log entry 81). A thread that was counted when it came to be held, and is read
back at its instruction, is not counted again (R361). -/
def areaThread (bs : List Byte) (old : Thread) (parked : Bool) (kind seq : Nat) (loc : Dword → Loc) : Thread :=
  let a := areaShapeOf bs
  let t := old.gidx
  let f := areaThreadField bs t
  let pc : Pc := BitVec.ofNat 56 (f 0 8)
  let st := f 8 1
  let bar := st = 1 && f 12 1 = 1
  let state : TState :=
    if st = 4 then .exited else if st = 2 then .binned
    else if parked then .parked
    else if bar then .waiting (.bar (f 13 1) pc)
    else .ready
  let regs := (List.range a.budget).foldl (fun m r =>
    tset 0 m r (BitVec.ofNat 32 (areaField bs (a.regAt t r) 4))) ([] : Table Word)
  let fe := (List.range a.budget).foldl (fun m r => tset .full m r (feOfCode (areaFe bs t r))) ([] : Table Fe)
  let mine := (areaStores bs).filter fun e => e.thread = t
  let sb := mine.zipIdx.map fun p =>
    let e := p.1
    let kind : SbKind := if e.kind = 2 then .mark (scopeOf (BitVec.ofNat 2 e.sc)) .stores
      else if e.kind = 1 then .scratch e.addr.toNat else .global (loc e.addr) (2 ≤ e.sc)
    let place := if old.sb.length = mine.length then ((old.sb[p.2]?).map SbEntry.seq).getD (seq + p.2) else seq + p.2
    ({ seq := place, kind := kind, data := e.data, size := e.size, release := e.kind = 0 && e.sc % 2 = 1 } : SbEntry)
  let trap := areaTrap st kind (f 14 1) (BitVec.ofNat 64 (f 40 8))
  { old with
      pc := if bar then pc - 4 else pc, state := state, lane := f 9 1, regs := regs, fe := fe, regErrors := [],
      fpctl := BitVec.ofNat 32 (f 24 4) &&& 0x1F07, fpflags := BitVec.ofNat 32 (f 28 4) &&& 0x1F, ev := (f 15 1).testBit 0, sb := sb,
      acquires := [], fence := .idle, stepping := .no, resumed := !bar && st ≤ 1 && pc == old.pc && old.wasCounted,
      trapped := if state == .parked then trap else none }

/-- Remote register stores held for registers whose codes have become full in the area are applied as to full registers (R29,
R411). -/
def Thread.applyFull (t : Thread) : Thread :=
  let due := t.remote.filter fun p => t.isFull p.1
  let t' := due.foldl (fun t p => t.setReg p.1 p.2) t
  { t' with remote := t'.remote.filter fun p => !due.contains p }

/-- The bins of an area with their threads, aged as they were saved. -/
def areaBins (bs : List Byte) (now : Nat) : List Bin :=
  let a := areaShapeOf bs
  (List.range 16).filterMap fun i =>
    let f := fun o n => areaField bs (0x080 + 16 * i + o) n
    let ts := (List.range a.nthr).filter fun t => areaThreadField bs t 8 1 = 2 && areaThreadField bs t 13 1 = i
    if (f 12 1).testBit 0 && ts != [] then
      some ⟨BitVec.ofNat 56 (f 0 8), ts.map fun t => (t, now - f 8 4)⟩
    else none

/-! ## Access to an area -/

/-- A stretch of addresses cut at 512-byte boundaries: offsets from its start and lengths. -/
def cutAll : Nat → Nat → Nat → Nat → List (Nat × Nat)
  | 0, _, _, _ => []
  | fuel + 1, addr, off, n =>
    let k := min n (512 - (addr + off) % 512)
    if n = 0 then [] else (off, k) :: cutAll fuel addr (off + k) (n - k)

/-- The pieces of a stretch of memory as a translator reaches them, or nothing where any piece faults. -/
def State.stretch (s : State) (w : Who) (need : Need) (monitor : Bool) (va : Dword) (n : Nat) : Option (List (Loc × Nat)) :=
  (cutAll (n / 512 + 2) va.toNat 0 n).foldr (fun p acc =>
    match s.locate w need monitor (va + BitVec.ofNat 64 p.1), acc with
    | .ok l, some ls => if s.poisoned need (!w.user) l p.2 then none else some ((l, p.2) :: ls)
    | _, _ => none) (some [])

/-- Bytes that a die's device reads as a device-scope acquire load does (R206): the home copies with the die's own differences, so
that what supervisor software has released is seen. DEDUCED, log entry 15. -/
def State.freshRead (s : State) (die : Nat) (ps : List (Loc × Nat)) : List Byte × State :=
  ps.foldl (fun acc p =>
    let r := if p.1.table then (acc.2.readLoc die p.1 p.2, acc.2)
      else if p.1.token then acc.2.homeTokenRead p.1.key p.2
      else (acc.2.homeWithDiff die p.1.key p.2, acc.2)
    (acc.1 ++ r.1, r.2)) ([], s)

/-- The dies that a context's access reaches are touched (R391). -/
def State.touchAll (s : State) (ctx : Nat) (ls : List Loc) : State := ls.foldl (fun s l => s.touch ctx l.home) s

/-- Whether the polder filter drops an access of a die's device to a location (R380): a read, or a token-class write, on its way to the
home, a release-class write as its block is fetched. -/
def State.accessLost (s : State) (w : Who) (need : Need) (l : Loc) : Bool :=
  !l.table && !(if need == .write && !l.token then s.reaches w.die l else s.passes w.polder w.die l.home)

/-- The same for some piece of a stretch. -/
def State.deviceLost (s : State) (w : Who) (need : Need) (va : Dword) (n : Nat) : Bool :=
  (s.stretch w need false va n).any fun ps => ps.any fun p => s.accessLost w need p.1

/-- Bytes that a die's device reads at an address, the dies touched recorded (R338, R353, R354, R391). -/
def State.deviceRead (s : State) (w : Who) (va : Dword) (n : Nat) : Option (List Byte × State) :=
  (s.stretch w .read false va n).map fun ps => (s.touchAll w.ctx (ps.map Prod.fst)).freshRead w.die ps

/-- Bytes that a die's device writes at an address, the dies touched recorded (R197, R391). A write that the polder filter drops is
counted (R380). -/
def State.deviceWrite (s : State) (w : Who) (va : Dword) (bs : List Byte) : Option State :=
  (s.stretch w .write false va bs.length).map fun ps =>
    if ps.any fun p => s.accessLost w .write p.1 then s.countFiltered
    else (s.touchAll w.ctx (ps.map Prod.fst)).engineWrite w.die (!w.user) ps bs

/-- Bytes that a die's device writes and releases at once: into the home copy, and into the die's working copy and twin, if it
holds one. DEDUCED, log entry 15. -/
def State.releasedWrite (s : State) (die : Nat) (l : Loc) (bs : List Byte) : State :=
  if l.table then s.tableStore die l bs [] 1
  else if l.token then (s.unpoisonLine l.key).homeTokenWrite l.key bs
  else
    { s with mem := s.mem.writeN l.key bs }.modDie die fun d => d.modBlock (blockOf l.key) fun b =>
      { b with bytes := b.bytes.writeN (l.key - b.key) bs, twin := b.twin.map fun (t : Memory) => t.writeN (l.key - b.key) bs }

/-- Bytes that a result writes into a saved group's area (R411). -/
def State.areaWrite (s : State) (w : Who) (va : Dword) (bs : List Byte) : Option State :=
  (s.stretch w .write false va bs.length).map fun ps =>
    (ps.foldl (fun (acc : State × List Byte) p =>
      ((acc.1.touch w.ctx p.1.home).releasedWrite w.die p.1 (acc.2.take p.2), acc.2.drop p.2)) (s, bs)).1

/-! ## Registers of a saved group -/

/-- What an arriving result does to a register by its code (R29, R411): write it, write it with an overrun, or be held. -/
inductive Arrival where
  | fills | overruns | held
  deriving DecidableEq, Repr

/-- A remote register store meets a register (R29): `result` says that it is an awaited `svc` result's. -/
def arrivalAt (f : Fe) (result : Bool) : Arrival :=
  match f with
  | .full => .overruns
  | .armed => .fills
  | .svc => if result then .fills else .held
  | .launchW => .held
  | .load => .held
  | .pod => .held
  | .trd => .held
  | .gname => .held
  | .launch => .held

/-- A word written into a saved group's register, with its code set to full, and OVR set where asked (R411). Where the polder filter
keeps the area away, the result is dropped and counted (R380). -/
def State.areaFill (s : State) (w : Who) (area : Dword) (sh : AreaShape) (t r : Nat) (v : Word) (overrun : Bool) : State :=
  let at64 := fun (n : Nat) => area + BitVec.ofNat 64 n
  if s.deviceLost w .read (at64 (sh.feAt t r)) 4 || s.deviceLost w .read (at64 0x044) 4 || s.deviceLost w .read (at64 (sh.regAt t r)) 4
  then s.countFiltered
  else match s.deviceRead w (at64 (sh.feAt t r)) 4, s.deviceRead w (at64 0x044) 4 with
  | some (fe, s), some (ovr, _) =>
    let codes := natOfBytes fe
    let codes := codes - codes / 16 ^ (r % 8) % 16 * 16 ^ (r % 8)
    let s := (s.areaWrite w (at64 (sh.regAt t r)) (bytesOfNat v.toNat 4)).getD s
    let s := (s.areaWrite w (at64 (sh.feAt t r)) (bytesOfNat codes 4)).getD s
    if overrun then (s.areaWrite w (at64 0x044) (bytesOfNat (natOfBytes ovr ||| 1) 4)).getD s else s
  | _, _ => s

/-- The full/empty code that a saved group's area holds for a register. -/
def State.areaCode (s : State) (w : Who) (area : Dword) (sh : AreaShape) (t r : Nat) : Fe :=
  match s.deviceRead w (area + BitVec.ofNat 64 (sh.feAt t r)) 4 with
  | some (fe, _) => feOfCode (natOfBytes fe / 16 ^ (r % 8) % 16)
  | none => .full

/-- Who reaches a saved group's area: its die, in the context and polder of the `ctxsv`, at supervisor privilege. -/
def areaWho (g : Group) (ctx polder : Nat) : Who := ⟨g.place.die, ctx, polder, false⟩

/-- A producer's result for a register of a group, wherever the group is (R29, R31, R411): `overrun` for a store that a
full register meets. One for a thread that has exited is discarded (R148). -/
def State.fillWherever (s : State) (g : Group) (t r : Nat) (v : Word) (overrun : Bool) : State :=
  if (g.thread t).any fun x => x.state == .exited then s
  else match g.residency with
  | .saved area ctx polder =>
    let w := areaWho g ctx polder
    let sh := g.areaShape
    let s := s.areaFill w area sh t r v overrun
    let held := ((g.thread t).map fun x => x.remote.filter fun p => p.1 = r).getD []
    let s := held.foldl (fun s p => s.areaFill w area sh t r p.2 true) s
    s.modThread g.gid t fun x => { x with remote := x.remote.filter fun p => p.1 != r }
  | _ =>
    s.modGroup g.gid fun g =>
      let g := g.fillReg t r v
      if overrun then { g with ovr := g.ovr ||| 1 } else g

/-- A remote register store reaches a register of a live thread (R29, Table 13-5). -/
def State.storeRemote (s : State) (gid t r : Nat) (v : Word) (result : Bool) : State :=
  match s.group gid with
  | none => s
  | some g =>
    match g.thread t with
    | none => s
    | some x =>
      if x.state == .exited then s
      else
        let code := match g.residency with
          | .saved area ctx polder => s.areaCode (areaWho g ctx polder) area g.areaShape t r
          | _ => x.feOf r
        match arrivalAt code result with
        | .fills => s.fillWherever g t r v false
        | .overruns => s.fillWherever g t r v true
        | .held => s.modThread gid t fun x => { x with remote := x.remote ++ [(r, v)] }

/-! ## Group names (R46 to R48) -/

/-- The fields of a name (Table 2-4). -/
def nameDie (n : Dword) : Nat := field n 8 5
def nameSlot (n : Dword) : Nat := field n 13 11
def nameGen (n : Dword) : Half := n.extractLsb' 24 16

/-- The group that a name's die records under its SLOT and GEN (R48). CORE and SLOT name the slot together. -/
def State.findName (s : State) (name : Dword) : Option Group :=
  match (s.die (nameDie name)).names.find? fun e => e.slot = nameSlot name && e.gen == nameGen name with
  | some e => (s.group e.gid).filter fun g => g.live != []
  | none => none

/-- The group of a name whose POLDER is the group's own: what another polder sends under the name's SLOT and GEN reaches none (R11), and
counts as stale. DEDUCED, log entry 107. -/
def State.findOwn (s : State) (name : Dword) : Option Group :=
  (s.findName name).filter fun g => field g.name 40 8 = field name 40 8

/-- Whether the routing die lets what a polder sends from a die reach the die that a name gives, and on from there the die of the
group's present placement (R48, R380). -/
def State.nameReached (s : State) (polder from' : Nat) (name : Dword) : Bool :=
  (from' = nameDie name || s.delivers polder (nameDie name)) &&
  (s.findName name).all fun g => g.place.die = nameDie name || s.delivers polder g.place.die

/-- Whether a name leads to a lost die, which nothing reaches (R393): the die that it gives, or that of the group's placement, where no
area records the group. -/
def State.nameLost (s : State) (name : Dword) : Bool :=
  (s.die (nameDie name)).lost || (s.findName name).any fun g => match g.residency with
    | .saved _ _ _ => false
    | .resident _ => (s.die g.place.die).lost
    | .out _ _ => (s.die g.place.die).lost

/-- The stale-arrival counter of a die (R290). -/
def State.countStale (s : State) (die : Nat) : State := s.modDie die fun d => { d with stale := satInc d.stale }

end Sys2Proof.Machine
end

