-- ==== Sys2Proof/Machine/Pod.lean ====
section
/-!
DEFINITION. The pod fabric (R267 to R294): channels, slots and replay buffers of the sending chip, placement, flags and
landing at the receiving chip, and the instructions of major opcodes 0xE0 to 0xE6.
-/
namespace Sys2Proof

/-- Packet kinds that are writes of a channel. -/
def PacketKind.isWrite : PacketKind → Bool
  | .pst => true
  | .rst => true
  | .pmc => true
  | .flag => false
  | .rstFlag => false
  | .pld => false
  | .patom => false
  | .reply => false
  | .gap => false
  | .expiry => false

/-- Packet kinds that are flags of a channel. -/
def PacketKind.isFlag (k : PacketKind) : Bool := k == .flag || k == .rstFlag
/-- Packet kinds that take a sequence of a channel (R271). -/
def PacketKind.isChannel (k : PacketKind) : Bool := k.isWrite || k.isFlag
/-- Packet kinds that take a slot (R269). -/
def PacketKind.takesSlot (k : PacketKind) : Bool := !(k == .gap || k == .expiry)
/-- What a credit for a packet names as its channel (R269): the channel, or 4096 for a request and 4097 for a reply. -/
def Packet.creditChan (p : Packet) : Nat :=
  if p.kind.isChannel then p.chan else if p.kind == .reply then 4097 else 4096

/-- The KIND code of a packet (Table 13-2). -/
def PacketKind.code : PacketKind → BitVec 4
  | .pst => 0
  | .flag => 1
  | .rst => 2
  | .rstFlag => 3
  | .pmc => 4
  | .pld => 5
  | .patom => 6
  | .reply => 7
  | .gap => 8
  | .expiry => 9

/-- A packet with every field clear. -/
def Packet.blank (kind : PacketKind) : Packet :=
  { kind := kind, src := 0, dst := 0, polder := 0, chan := 0, seq := 0, aux := 0, addr := 0, len := 0, data := [],
    target := 0, reg := 0, desc := 0, expected := 0, operand := 0, stops := [], plane := 0, answer := false }

/-- The header of a packet (Table 13-2). -/
def Packet.header (p : Packet) : Dword :=
  p.kind.code ++ BitVec.ofNat 8 p.src ++ BitVec.ofNat 8 p.polder ++ BitVec.ofNat 12 p.chan ++ p.seq ++ p.aux

/-- The copies of a packet, one for each chip it goes to (R291): the packet, then each later stop's as a packet that goes
there directly. -/
def Packet.legs (p : Packet) : List Packet :=
  p :: p.stops.map fun x => { p with dst := x.chip, chan := x.chan, seq := x.seq, aux := x.prev, stops := [] }

/-- What a packet's landing needs (R370). -/
def Packet.need (p : Packet) : Machine.Need := if p.kind == .pld then .read else if p.kind == .patom then .both else .write

/-- Whether two packets are copies of one (for finding a packet of this chip that came back). -/
def Packet.sameCopy (p q : Packet) : Bool :=
  p.kind == q.kind && p.chan = q.chan && p.seq == q.seq && p.dst = q.dst

end Sys2Proof

namespace Sys2Proof.Machine

open Sys2Proof

/-! ## Planes, channels and sequences -/

/-- The plane of a selector (R268). -/
def State.planeOf (s : State) (sel : Nat) : Nat := field s.regs.plmap (3 * sel) 3
/-- The plane selector of a destination physical address. -/
def selectorOf (addr : Nat) : Nat := (addr / 2 ^ 7 % 8) ^^^ (addr / 2 ^ 15 % 8)
/-- The plane selector of a packet (R268): of its address, or of a remote register store's target die. Gap requests, expiries and markers,
which have no address, take selector 0; DESIGN CHOICE, log entry 61. -/
def packetSelector (p : Packet) : Nat :=
  if p.kind == .rst || p.kind == .rstFlag then field p.target 8 3 else selectorOf p.addr
/-- Whether a plane carries nothing: it is dead (R279), or both its ports are down, be it for less than the 100 µs that make it dead
(R432). DEDUCED, log entry 60. -/
def State.planeLost (s : State) (p : Nat) : Bool :=
  s.regs.plmap.getLsbD (24 + p) || (s.ports.podDown.any (fun x => x.1 = 2 * p) && s.ports.podDown.any fun x => x.1 = 2 * p + 1)

/-- The sender's state of a channel. -/
def State.channel (s : State) (c : Nat) : Option Channel := s.pod.channels.find? fun x => x.chan = c
/-- A channel's sender state changed. -/
def State.modChannel (s : State) (c : Nat) (f : Channel → Channel) : State :=
  { s with pod := { s.pod with channels := mapIf (fun x => x.chan = c) f s.pod.channels } }

/-- A 16-bit distance read as signed (R273). -/
def seqDist (a b : Half) : Int := (a - b).toInt

/-- The anchor of a channel by Table 13-1: its oldest sequence without a credit or an expiry, or with a copy that left
less than 20 µs ago; NSEQ where there is none. -/
def State.anchorOf (s : State) (c : Channel) : Half :=
  let waiting := (s.pod.outWait.filter fun o => o.packet.kind.isChannel && !o.again).flatMap fun o =>
    (o.packet.chan, o.packet.seq) :: o.packet.stops.map fun x => (x.chan, x.seq)
  let kept := (s.pod.kept.filter fun k =>
    (!k.credited && !c.expired.contains k.packet.seq) || s.clock < k.lastLeft + microseconds 20).map fun k =>
      (k.packet.chan, k.packet.seq)
  let recent := (c.recent.filter fun q => s.clock < q.2 + microseconds 20).map Prod.fst
  let open' := ((waiting ++ kept).filter fun x => x.1 = c.chan).map Prod.snd ++ recent
  open'.foldl (fun a q => if (c.nseq - a).toNat < (c.nseq - q).toNat then q else a) c.nseq

/-- Flags of a channel that await their release marks and have not taken their sequences. -/
def State.flagsDue (s : State) (c : Nat) : Nat := (s.pod.flags.filter fun f => f.packet.chan = c).length

/-- Whether a channel has a sequence before its anchor's limit for a packet with `ahead` before it (R271). -/
def State.beforeLimit (s : State) (c : Channel) (ahead : Nat) : Bool :=
  (c.nseq - c.anc).toNat + s.flagsDue c.chan + ahead < 16384

/-- The hold of a packet on a channel that has no room (R271), with `ahead` packets of the same instruction before it: the
flags that are due keep their sequences. -/
def State.channelRoom (s : State) (c : Channel) (write : Bool) (ahead : Nat) : Option Hold :=
  if !s.beforeLimit c ahead then some (.channel c.chan false)
  else if write && 32767 ≤ c.cnt + ahead then some (.channel c.chan true)
  else none

/-- A channel's next sequence taken (R271): the sequence, and the count where it is a flag's. -/
def State.takeSeq (s : State) (c : Nat) (flag : Bool) : Half × Nat × State :=
  match s.channel c with
  | none => (0, 0, s)
  | some x =>
    (x.nseq, x.cnt, s.modChannel c fun y =>
      { y with nseq := y.nseq + 1, cnt := if flag then 0 else y.cnt + 1,
               expired := y.expired.filter fun q => q != x.nseq })

/-- A packet waits to leave. -/
def State.queueOut (s : State) (p : Packet) (owner : Option (Nat × Nat × Nat)) (again : Bool) : State :=
  { s with pod := { s.pod with outWait := s.pod.outWait ++ [⟨p, owner, again, false⟩] } }

/-- A channel packet made from its template (R271): its destination and sequence, and for a flag its count. A `pmc`
takes a sequence of each channel in `more` (R291). -/
def State.makePacket (s : State) (p : Packet) (more : List Nat) : Packet × State :=
  let dest := fun (s : State) c => ((s.channel c).map Channel.dest).getD 0
  let (seq, cnt, s) := s.takeSeq p.chan p.kind.isFlag
  let r := more.foldl (fun (acc : List PmcStop × State) c =>
    let (q, _, s) := acc.2.takeSeq c false
    (acc.1 ++ [⟨dest s c, c, q, q⟩], s)) ([], s)
  ({ p with src := s.pod.chip, dst := dest s p.chan, seq := seq,
            aux := if p.kind.isFlag then BitVec.ofNat 16 cnt else seq, stops := r.1 }, r.2)

/-! ## Leaving the chip -/

/-- The latest packet of a channel's sequence in the replay buffer: an older one of the same number may still be there when the
numbers have wrapped (R276). -/
def State.keptOf (s : State) (chan : Nat) (seq : Half) (dst : Nat) : Option Kept :=
  (s.pod.kept.filter fun k => k.packet.chan = chan && k.packet.seq == seq && k.packet.dst = dst).getLast?

/-- The packet on the plane that it leaves on (R268, R434): by the map as it stands, but for a retransmission, which stays on its
plane (R276), and a reply, which takes its request's (log entry 61). -/
def State.onPlane (s : State) (o : Outgoing) : Packet :=
  if (o.again && o.packet.kind.isChannel) || o.packet.kind == .reply then o.packet
  else { o.packet with plane := s.planeOf (packetSelector o.packet) }

/-- Whether the credit of another copy has come already, so that the slot of a copy that is lost returns at once (R269): for a request or
a reply, within the last 2 ms. -/
def State.paidFor (s : State) (again : Bool) (l : Packet) : Bool :=
  if l.kind.isChannel then again && (s.keptOf l.chan l.seq l.dst).any Kept.credited
  else (again || l.kind == .reply) && s.pod.paidTags.any fun x =>
    x.1 = l.dst && x.2.1 = l.creditChan && x.2.2.1 == l.seq && s.clock < x.2.2.2 + microseconds 2000

/-- Slots that this chip holds at a receiving chip (R269). -/
def State.slotsHeld (s : State) (chip : Nat) : Nat := (s.pod.copies.filter fun c => c.slot && c.packet.dst = chip).length

/-- PREV of a write that leaves (Table 13-2): the channel's last write on the plane while it holds a slot. -/
def State.prevOf (s : State) (chan : Nat) (seq : Half) (plane : Nat) : Half :=
  match (s.channel chan).bind fun c => c.plast[plane]? with
  | none => seq
  | some last =>
    if s.pod.copies.any fun c => c.slot && c.packet.kind.isWrite && c.packet.chan = chan && c.packet.seq == last &&
      c.packet.plane = plane && last != seq then last else seq

/-- A first copy's PREV fields set, and its channels' PLAST (Table 13-1). -/
def State.setPrev (s : State) (p : Packet) : Packet × State :=
  if !p.kind.isWrite then (p, s)
  else
    let prev := fun c q => s.prevOf c q p.plane
    let q := { p with aux := prev p.chan p.seq, stops := p.stops.map fun x => { x with prev := prev x.chan x.seq } }
    (q, q.legs.foldl (fun s l => s.modChannel l.chan fun c => { c with plast := c.plast.set p.plane l.seq }) s)

/-- A packet leaves (R269, R276): its copies take their slots, a first copy enters the replay buffer, a request's clock
runs, and the operation that sent it completes (R210). -/
def State.leave (s : State) (o : Outgoing) : State :=
  let now := s.clock
  let r := if o.again then (s.onPlane o, s) else s.setPrev (s.onPlane o)
  let p := r.1
  let s := r.2
  let copies := (p.legs.zipIdx.map fun l =>
    ({ packet := l.1, left := now, slot := p.kind.takesSlot, direct := l.2 = 0, lost := s.planeLost p.plane,
       here := false, paid := s.paidFor o.again l.1 } : Copy)).filter fun c => !(c.lost && c.paid)
  let kept := if !p.kind.isChannel then s.pod.kept
    else if o.again then
      mapIf (fun (k : Kept) => s.keptOf p.chan p.seq p.dst = some k) (fun k => { k with lastLeft := now }) s.pod.kept
    else s.pod.kept ++ p.legs.map fun l => ⟨{ l with stops := [] }, now, now, false⟩
  let requests := if p.kind == .pld || p.kind == .patom then
      mapIf (fun (q : PodRequest) => q.tag == p.seq) (fun q => { q with first := q.first.or (some now), last := now })
        s.pod.requests
    else s.pod.requests
  let tags := if o.again || p.kind == .reply then s.pod.paidTags
    else s.pod.paidTags.filter fun x => !(x.1 = p.dst && x.2.1 = p.creditChan && x.2.2.1 == p.seq)
  let s := { s with pod := { s.pod with copies := s.pod.copies ++ copies, kept := kept, requests := requests, paidTags := tags } }
  match o.owner with
  | some (gid, gidx, op) => s.modThread gid gidx fun t => t.finishOp op
  | none => s

/-- Whether a repeat that waited is no longer to be sent (R276, R285): it has left the replay buffer, it has been answered,
or its credit came and no gap request asked for it. -/
def State.staleRepeat (s : State) (o : Outgoing) : Bool :=
  let p := o.packet
  o.again &&
  (if p.kind.isChannel then
     !(s.keptOf p.chan p.seq p.dst).any fun k => o.asked || !k.credited
   else if p.kind == .pld || p.kind == .patom then !s.pod.requests.any fun q => q.tag == p.seq && q.waits
   else false)

/-- Packets leave once a slot at every chip that they go to is free (R269), those for one chip in the order in which they came to wait.
DESIGN CHOICE, log entry 106. -/
def State.departAll (s : State) : State :=
  let step := fun (acc : State × List Outgoing) (o : Outgoing) =>
    let chips := o.packet.legs.map Packet.dst
    let blocked := o.packet.kind.takesSlot && chips.any fun c =>
      64 ≤ acc.1.slotsHeld c || acc.2.any fun w => (w.packet.legs.map Packet.dst).contains c
    if acc.1.staleRepeat o then acc
    else if blocked then (acc.1, acc.2 ++ [o])
    else (acc.1.leave o, acc.2)
  let r := s.pod.outWait.foldl step ({ s with pod := { s.pod with outWait := [] } }, [])
  { r.1 with pod := { r.1.pod with outWait := r.2 } }

/-- Flags whose release marks are complete take their sequence and wait to leave: those that one lane set sends on a channel in
order of its lanes (R286, R289), others in no order (R292). -/
def State.sendFlags (s : State) : State :=
  let ready := fun (s : State) (f : PendingFlag) =>
    match s.thread f.gid f.gidx with
    | some t => !t.sb.any fun e => e.seq = f.mark
    | none => true
  s.pod.flags.foldl (fun s f =>
    let before := s.pod.flags.takeWhile fun x => x.op != f.op || x.gid != f.gid || x.gidx != f.gidx
    if !ready s f || before.any fun x => x.packet.chan = f.packet.chan && x.gid = f.gid && x.op = f.op then s
    else
      let s := { s with pod := { s.pod with flags := s.pod.flags.filter fun x => x != f } }
      let (p, s) := s.makePacket f.packet []
      s.queueOut p (some (f.gid, f.gidx, f.op)) false) s

/-! ## Arrival: placement, writes and flags -/

/-- The receiver's state of a sending chip's channel; one that nothing has changed since reset stands as if NSEQ were 0
(log entry 24). -/
def State.recvOf (s : State) (src chan : Nat) : RecvChannel :=
  (s.pod.recv.find? fun r => r.src = src && r.chan = chan).getD
    { src := src, chan := chan, lastf := 0xFFFF, hseq := 0xFFFF, miss := [], arrived := [], filtered := [],
      polder := 0, withheld := [], heldWrites := [], applying := false, dead := none, notice := false, lastGap := none }

/-- The receiver's state of a channel replaced. -/
def State.putRecv (s : State) (r : RecvChannel) : State :=
  let others := s.pod.recv.filter fun x => !(x.src = r.src && x.chan = r.chan)
  { s with pod := { s.pod with recv := others ++ [r] } }

/-- The receiver's state of a channel changed. -/
def State.modRecv (s : State) (src chan : Nat) (f : RecvChannel → RecvChannel) : State := s.putRecv (f (s.recvOf src chan))

/-- A credit returned for a packet (R269). -/
def State.credit (s : State) (p : Packet) : State :=
  { s with pod := { s.pod with credits := s.pod.credits ++ [(p.src, p.creditChan, p.seq)] } }

/-- The die that receives a packet: the one whose replica its I/O die's walkers read. Pod ports of planes 0 to 3 are on I/O
die 0 (R371, R432). DESIGN CHOICE, log entry 25. -/
def State.landingDie (s : State) (p : Packet) : Nat := s.replicaOf (if p.plane < 4 then 32 else 33)

/-- The landing walk (R370). -/
def State.land (s : State) (p : Packet) (need : Need) : Except TrapInfo Loc :=
  let die := s.landingDie p
  s.locate ⟨die, (s.polder die p.polder).landCtx, p.polder, true⟩ need false (BitVec.ofNat 64 (p.addr % 2 ^ 48))

/-- The record of a landing fault (R285, R293). -/
def landRecord (p : Packet) (i : TrapInfo) : FaultRecord :=
  { name := 0, pc := 0, tval := BitVec.ofNat 64 p.addr, lanes := 0, lane := 0, cause := i.cause.code, entry := 0xFF,
    flags := recordFlags true false false i.malformed p.need.code, core := 0, slot := 0, aux := i.aux, handle := 0,
    detail := BitVec.ofNat 32 (p.src % 256 + p.chan % 4096 * 2 ^ 16) }

/-- A landing fault (R293): the record, and for a channel packet its place in the fault queue. -/
def State.landFault (s : State) (p : Packet) (i : TrapInfo) : State :=
  let die := s.landingDie p
  let s := s.addRecords die [landRecord p i]
  if p.kind.isChannel then s.modDie die fun d => { d with podQueue := d.podQueue ++ [p] } else s

/-- A pod packet's entry in a home's apply queue. Its source is no die. -/
def State.enqueuePod (s : State) (home : Nat) (k : ApplyKind) (polder : Nat) : State :=
  let e : ApplyEntry := { id := s.next.send, src := 64, home := home, polder := polder, kind := k }
  { s.modDie home (fun d => { d with queue := d.queue ++ [e] }) with next := { s.next with send := s.next.send + 1 } }

/-- A remote register store delivered to the die that its name gives (R290, Table 13-5). One that a service group or a control
core of this chip sent answers an `svc` (R329). DEDUCED, log entry 26. -/
def State.deliverRst (s : State) (p : Packet) : State :=
  let name : Dword := (p.target.extractLsb' 0 48).zeroExtend 64
  let idx := field p.target 48 10
  let words := (List.range (p.data.length / 4)).map fun i => wordOfBytes (p.data.drop (4 * i))
  match s.findOwn name with
  | some g =>
    if idx < g.nthr && p.reg + words.length ≤ g.budget then
      words.zipIdx.foldl (fun s w => s.storeRemote g.gid idx (p.reg + w.2) w.1 (p.src = s.pod.chip && p.answer)) s
    else s.countStale (nameDie name)
  | none => s.countStale (nameDie name)

/-- Whether the routing die delivers a remote register store to the die that its name gives, and from there to the group's (R290,
R380). -/
def State.rstPasses (s : State) (p : Packet) : Bool :=
  s.nameReached p.polder 32 ((p.target.extractLsb' 0 48).zeroExtend 64)

/-- Whether a thread's registers hold a remote register store that has been delivered (R29). -/
def State.rstHeld (s : State) (p : Packet) (gid gidx : Nat) : Bool :=
  match s.thread gid gidx with
  | some t => t.remote.any fun r => p.reg ≤ r.1 && r.1 < p.reg + p.data.length / 4
  | none => false

/-- The thread whose register holds a remote register store just delivered (R29). -/
def State.rstHolder (s : State) (p : Packet) : Option (Nat × Nat) :=
  let idx := field p.target 48 10
  match s.findOwn ((p.target.extractLsb' 0 48).zeroExtend 64) with
  | some g => if s.rstHeld p g.gid idx then some (g.gid, idx) else none
  | none => none

/-- Whether a write that a PREV of a channel names is still to be applied or discarded (R274): it is missing, held behind its own PREV, in
an apply queue or a fault queue, or held by its register. A PREV is older than its write, and so is placed or missing. -/
def State.writeOpen (s : State) (r : RecvChannel) (q : Half) : Bool :=
  let mine := fun (p : Packet) => p.kind.isWrite && p.src = r.src && p.chan = r.chan && p.seq == q
  r.miss.contains q || (r.heldWrites.any fun w => mine w.1) || (s.pod.holding.any fun h => mine h.1) ||
  s.dies.any fun d => d.2.podQueue.any mine || d.2.queue.any fun e => match e.kind with
    | .podWrite p _ => mine p
    | .podFlag _ _ => false
    | .podRead _ _ => false
    | .podAtom _ _ => false
    | .diff _ _ _ => false
    | .atomic _ _ _ _ _ _ _ _ => false

/-- A write of a channel has arrived, or is discarded: its credit returns (R269, R274). -/
def State.writeDone (s : State) (p : Packet) : State :=
  (s.modRecv p.src p.chan fun r => { r with arrived := r.arrived ++ [p.seq] }).credit p

/-- A flag is applied (R275): LASTF moves to it. -/
def State.flagDone (s : State) (p : Packet) : State :=
  s.modRecv p.src p.chan fun r =>
    { r with lastf := p.seq, applying := false, arrived := r.arrived.filter fun q => seqDist p.seq q < 0,
             filtered := r.filtered.filter fun q => seqDist p.seq q < 0 }

/-- A sequence of a channel is lost (R277, R293): the flag that covers it and every later flag are discarded, and a
pod-loss notice stands. -/
def RecvChannel.lose (r : RecvChannel) (q : Half) : RecvChannel :=
  { r with notice := true, dead := match r.dead with
      | some d => if seqDist q d < 0 then some q else some d
      | none => some q }

/-- The chip that sent a packet is told that it is discarded (R293, R395). -/
def State.tellSender (s : State) (p : Packet) : State :=
  if p.src = s.pod.chip then { s with pod := { s.pod with lossNotices := s.pod.lossNotices ++ [(p.creditChan, p.seq)] } }
  else { s with pod := { s.pod with noticesOut := s.pod.noticesOut ++ [(p.src, p.creditChan, p.seq)] } }

/-- A channel packet is discarded (R277, R293, R395): its sequence is lost, a write counts as arrived, and the sending
chip is told. -/
def State.dropPacket (s : State) (p : Packet) : State :=
  let s := s.modRecv p.src p.chan fun r => { r.lose p.seq with applying := r.applying && !p.kind.isFlag }
  (if p.kind.isFlag then s else s.writeDone p).tellSender p

/-- A channel packet lands (R370, R391): it enters its home's apply queue; one whose home is lost is discarded (R395), and
any other fault sends it to the fault queue. -/
def State.enterHome (s : State) (p : Packet) : State :=
  match s.land p .write with
  | .ok l =>
    (s.touch l.ctx l.home).enqueuePod l.home (if p.kind.isFlag then .podFlag p l else .podWrite p l) p.polder
  | .error i => if i.cause == .levee then s.dropPacket p else s.landFault p i

/-- A remote register store that has been applied, or discarded, counts as arrived (R290). -/
def State.rstDone (s : State) (p : Packet) : State := if p.kind == .rstFlag then s.flagDone p else s.writeDone p

/-- A remote register store goes to its die (R290, R380): one that its register holds (R29) counts as arrived only once it is
applied, and one that the polder filter drops arrives nowhere. One for a lost die is discarded as a packet to a lost home is (R393,
R395); DEDUCED, log entry 109. -/
def State.enterRst (s : State) (p : Packet) : State :=
  if s.nameLost ((p.target.extractLsb' 0 48).zeroExtend 64) then s.dropPacket p
  else if !s.rstPasses p then
    let s := s.countFiltered.modRecv p.src p.chan fun r => 
      { r with filtered := r.filtered ++ [p.seq], applying := r.applying && !p.kind.isFlag }
    if p.kind == .rstFlag then s else s.credit p
  else
    let s := s.deliverRst p
    match s.rstHolder p with
    | some (gid, gidx) => { s with pod := { s.pod with holding := s.pod.holding ++ [(p, gid, gidx)] } }
    | none => s.rstDone p

/-- A write that its PREV no longer holds back goes to its home, or is delivered (R274, R290). -/
def State.enterWrite (s : State) (p : Packet) : State := if p.kind == .rst then s.enterRst p else s.enterHome p

/-- A flag whose writes have arrived goes to its home, or is delivered (R275, R288). -/
def State.enterFlag (s : State) (p : Packet) : State :=
  if p.kind == .rstFlag then (s.modRecv p.src p.chan fun r => { r with applying := true }).enterRst p
  else if p.data = [] then s.flagDone p
  else (s.modRecv p.src p.chan fun r => { r with applying := true }).enterHome p

/-- Whether a flag may be applied (R275): all it covers has arrived, and the channel's previous flag was applied. -/
def RecvChannel.flagReady (r : RecvChannel) (p : Packet) : Bool :=
  !r.applying && p.seq - p.aux - 1 == r.lastf &&
  (List.range p.aux.toNat).all fun i => r.arrived.contains (p.seq - p.aux + BitVec.ofNat 16 i)

/-- Everything on a channel that may go on does (R274, R275, R277). -/
def State.checkChannel (s : State) (src chan : Nat) : Nat → State
  | 0 => s
  | n + 1 =>
    let r := s.recvOf src chan
    match r.heldWrites.find? fun w => w.1.aux == w.1.seq || !s.writeOpen r w.1.aux with
    | some w =>
      let s := s.putRecv { r with heldWrites := r.heldWrites.filter fun x => x != w }
      (s.enterWrite w.1).checkChannel src chan n
    | none =>
      match r.withheld.find? fun f => (match r.dead with
        | some d => decide (0 < seqDist f.1.seq d)
        | none => false) with
      | some f => (s.putRecv { r with withheld := r.withheld.filter fun x => x != f }).checkChannel src chan n
      | none =>
        match r.withheld.find? fun f => r.flagReady f.1 with
        | some f =>
          let s := s.putRecv { r with withheld := r.withheld.filter fun x => x != f }
          (s.enterFlag f.1).checkChannel src chan n
        | none => s

/-- A channel checked for as many packets as it holds. -/
def State.recheck (s : State) (src chan : Nat) : State :=
  let r := s.recvOf src chan
  s.checkChannel src chan (r.heldWrites.length + r.withheld.length + 1)

/-- Remote register stores that their registers no longer hold have arrived (R29, R290), and their channels go on. -/
def State.settleHeldRst (s : State) : State :=
  s.pod.holding.foldl (fun s h =>
    if s.rstHeld h.1 h.2.1 h.2.2 then s
    else
      let s := { s with pod := { s.pod with holding := s.pod.holding.filter fun x => x != h } }
      (s.rstDone h.1).recheck h.1.src h.1.chan) s

/-- The first sequence lost, as HSEQ moves by `e`: at most 16,383 before it, so that its order against every later flag shows (R277). A
sender's packets lie within as many of the first that has neither a credit nor an expiry (R271). -/
def RecvChannel.lostAt (r : RecvChannel) (e : Int) (seq : Half) : Option Half :=
  r.dead.map fun d => if 16383 < seqDist r.hseq d + e then seq - 16383 else d

/-- Placement of a write or flag of a channel (R273). A channel that misses nothing has no gap request to repeat (R276). -/
def State.placePacket (s : State) (p : Packet) : State :=
  let r := s.recvOf p.src p.chan
  let e := seqDist p.seq r.hseq
  let fresh := 0 < e || r.miss.contains p.seq
  if !fresh then s.credit p
  else
    let r := if 0 < e then
        let gap := (List.range (e.toNat - 1)).map fun i => r.hseq + BitVec.ofNat 16 (i + 1)
        { r with hseq := p.seq, miss := r.miss ++ gap, dead := r.lostAt e p.seq,
                 arrived := r.arrived.filter fun q => !(0 < seqDist q r.hseq && seqDist q r.hseq ≤ e),
                 filtered := r.filtered.filter fun q => !(0 < seqDist q r.hseq && seqDist q r.hseq ≤ e) }
      else { r with miss := r.miss.filter fun q => q != p.seq }
    let r := { r with polder := p.polder, lastGap := if r.miss = [] then none else r.lastGap }
    let s := if p.kind.isFlag then (s.putRecv { r with withheld := r.withheld ++ [(p, s.clock)] }).credit p
      else s.putRecv { r with heldWrites := r.heldWrites ++ [(p, s.clock)] }
    s.recheck p.src p.chan

/-! ## Requests at the receiver -/

/-- A reply leaves for its requester (R283), on its request's plane; DESIGN CHOICE, log entry 61. One without data names the die
that the bytes could not be read from; DEDUCED, log entry 27. -/
def State.sendReply (s : State) (p : Packet) (data : List Byte) (home : Nat) : State :=
  let r := { Packet.blank .reply with
    src := s.pod.chip, dst := p.src, polder := p.polder, seq := p.seq, addr := p.addr, len := data.length, data := data,
    aux := if data = [] then BitVec.ofNat 16 home else 0, plane := p.plane }
  let s := if p.kind == .patom then
      { s with pod := { s.pod with
          replies := mapIf (fun k => k.src = p.src && k.tag == p.seq) (fun k => { k with reply := some r, since := s.clock })
            s.pod.replies } }
    else s
  s.queueOut r none false

/-- A request arrives (R283 to R285): a repeated `patom` is answered from the store, or is already queued; a new one's reply
will be paid for by a credit of its own (R269); a landing fault drops the request with a record. One whose home is lost is discarded, and its sender told (R395). -/
def State.requestArrives (s : State) (p : Packet) : State :=
  let known := s.pod.replies.find? fun k => p.kind == .patom && k.src = p.src && k.tag == p.seq &&
    (k.reply.isNone || s.clock ≤ k.since + microseconds 2000)
  match known with
  | some k =>
    let s := s.credit p
    match k.reply with
    | some r => s.queueOut r none false
    | none => s
  | none =>
    match s.land p p.need with
    | .error i => (if i.cause == .levee then s.tellSender p else s.landFault p i).credit p
    | .ok l =>
      let s := s.touch l.ctx l.home
      if p.kind == .pld then s.enqueuePod l.home (.podRead p l) p.polder
      else
        let others := s.pod.replies.filter fun k => !(k.src = p.src && k.tag == p.seq)
        let entry : KeptReply := ⟨p.src, p.seq, none, s.clock⟩
        let tags := s.pod.paidTags.filter fun x => !(x.1 = p.src && x.2.1 = 4097 && x.2.2.1 == p.seq)
        { s with pod := { s.pod with replies := others ++ [entry], paidTags := tags } }.enqueuePod l.home (.podAtom p l) p.polder

/-! ## The next packet that arrives -/

/-- A copy received at this chip (R269): one that holds a slot keeps its record until its credit comes. -/
def receivedCopy (c : Copy) (cs : List Copy) : List Copy :=
  if c.slot then mapIf (fun x => x = c) (fun x => { x with here := true }) cs else cs.filter fun x => x != c

/-- The next packet of some kinds that arrives at this chip: one that came in, or one that this chip sent to itself and
that left at most 20 µs ago (R267, R276). -/
def State.nextArrival (s : State) (kinds : PacketKind → Bool) : Option (Packet × State) :=
  match s.pod.arrivals.find? fun p => kinds p.kind with
  | some p =>
    let rest := (s.pod.arrivals.takeWhile fun q => q != p) ++ (s.pod.arrivals.dropWhile fun q => q != p).drop 1
    let copies := match s.pod.copies.find? fun c =>
        p.src = s.pod.chip && !c.here && !c.lost && c.packet.sameCopy p with
      | some c => receivedCopy c s.pod.copies
      | none => s.pod.copies
    some (p, { s with pod := { s.pod with arrivals := rest, copies := copies } })
  | none =>
    match s.pod.copies.find? fun c => c.packet.dst = s.pod.chip && c.direct && !c.lost && !c.here &&
        s.clock ≤ c.left + microseconds 20 && kinds c.packet.kind with
    | some c => some (c.packet, { s with pod := { s.pod with copies := receivedCopy c s.pod.copies } })
    | none => none

/-- Whether the receiving chip admits a packet's polder (R278, Table 22-2). -/
def State.admits (s : State) (p : Packet) : Bool :=
  let e := s.polder (s.landingDie p) p.polder
  p.polder < 32 && e.valid && e.admits

/-- A packet of a polder that is not admitted is dropped, counted, and its slot returned (R278). -/
def State.filterDrop (s : State) (p : Packet) : State :=
  if p.kind.takesSlot then s.countFiltered.credit p else s.countFiltered

/-- A chip forwards a multicast packet to its next listed chip, whatever it does with its own copy (R291). -/
def State.forwardPmc (s : State) (p : Packet) : State :=
  match p.stops with
  | [] => s
  | x :: rest =>
    if p.src = s.pod.chip then s
    else
      let q := { p with dst := x.chip, chan := x.chan, seq := x.seq, aux := x.prev, stops := rest }
      { s with pod := { s.pod with
          copies := s.pod.copies ++ [⟨q, s.clock, false, true, s.planeLost q.plane, false, false⟩] } }

/-- POD_PACKET_ARRIVE (R273, R278, R283, R284, R291): the next write, flag or request that arrives. -/
def execPodPacketArrive (s : State) : Host.Outcome State Fault Refusal :=
  match s.nextArrival fun k => k.isChannel || k == .pld || k == .patom with
  | none => .next s
  | some (p, s) =>
    let s := s.forwardPmc p
    let p := { p with stops := [] }
    .next (if !s.admits p then s.filterDrop p
      else if p.kind.isChannel then s.placePacket p
      else s.requestArrives p)

/-- POD_REPLY (R283 to R285): the next reply that arrives fills its destination. A reply without data reports poison at the home
that it names: LEVEE with the lane's address and that die (R396, R415). DEDUCED, log entry 27. -/
def execPodReply (s : State) : Host.Outcome State Fault Refusal :=
  match s.nextArrival fun k => k == .reply with
  | none => .next s
  | some (p, s) =>
    if !s.admits p then .next (s.filterDrop p)
    else
      let s := s.credit p
      match s.pod.requests.find? fun q => q.tag == p.seq && q.waits with
      | none => .next s
      | some q =>
        let s := { s with pod := { s.pod with
          requests := mapIf (fun x => x.tag == q.tag) (fun x => { x with waits := false, ended := some s.clock })
            s.pod.requests } }
        if p.data = [] then .next (s.haltContext q.ctx (leveeTrap q.packet.need q.va p.aux.toNat))
        else
          .next (s.modGroup q.gid fun g =>
            match (g.thread q.gidx).bind fun t => t.ops.find? fun o => o.id = q.op with
            | none => g
            | some o =>
              let d := match o.kind with
                | .podRead d _ => d
                | .podAtom d _ => d
                | _ => 0
              let ws := (List.range (p.data.length / 4)).map fun i => wordOfBytes (p.data.drop (4 * i))
              (g.fillOp q.gidx o d ws).modThread q.gidx fun t => t.finishOp q.op)

/-! ## Credits, gap requests, retention and expiry -/

/-- The copies after a credit for a sequence or a tag at a chip (R269): the received copy's slot returns, those of lost
copies do, and that of a copy lost later will at once. -/
def creditCopies (mine : Copy → Bool) (cs : List Copy) : List Copy :=
  let kept := mapIf mine (fun c => { c with paid := true }) (cs.filter fun c => !(mine c && c.lost))
  match (kept.find? fun c => mine c && c.here).or (kept.find? mine) with
  | some c => (kept.takeWhile fun x => x != c) ++ (kept.dropWhile fun x => x != c).drop 1
  | none => kept

/-- The copies after a sequence's expiry, or a request's end (R269, R277): the slots of lost copies return. One that has been
received, or is held, keeps its slot until its credit comes. -/
def expireCopies (mine : Copy → Bool) (cs : List Copy) : List Copy :=
  mapIf mine (fun c => { c with paid := true }) (cs.filter fun c => !(mine c && c.lost))

/-- Whether a copy holds a slot that a credit names. -/
def Copy.named (c : Copy) (chip chan : Nat) (seq : Half) : Bool :=
  c.slot && c.packet.dst = chip && c.packet.creditChan = chan && c.packet.seq == seq

/-- CREDIT_RECEIVE (R269): one that this chip sent to itself must have been sent. -/
def execCreditReceive (chip chan : Nat) (seq : Half) (s : State) : Host.Outcome State Fault Refusal :=
  let own := chip = s.pod.chip
  if own && !s.pod.credits.contains (chip, chan, seq) then .next s
  else if !s.pod.copies.any fun c => c.named chip chan seq then .next s
  else
    let credits := if own then
        (s.pod.credits.takeWhile fun c => c != (chip, chan, seq)) ++
          (s.pod.credits.dropWhile fun c => c != (chip, chan, seq)).drop 1
      else s.pod.credits
    let tags := (s.pod.paidTags.filter fun x => s.clock < x.2.2.2 + microseconds 2000) ++
      if 4096 ≤ chan then [(chip, chan, seq, s.clock)] else []
    .next { s with pod := { s.pod with
      credits := credits
      paidTags := tags
      copies := creditCopies (fun c => c.named chip chan seq) s.pod.copies
      kept := mapIf (fun k => k.packet.chan = chan && k.packet.seq == seq && k.packet.dst = chip)
        (fun k => { k with credited := true }) s.pod.kept } }

/-- Whether some thread is held for room on a channel: in its count, or before its anchor. -/
def State.waitsOn (s : State) (chan : Nat) (count : Bool) : Bool :=
  s.groups.any fun g => g.2.threads.any fun t => t.2.state == .waiting (.channel chan count)

/-- MARKER_SEND (R271): a write waits on the channel's count, its earlier packets have left, and the anchor leaves a sequence.
A lane set that waits as a whole may wait below the limit, so the marker carries the count that stands. DEDUCED, log entry
28. -/
def execMarkerSend (chan : Nat) (s : State) : Host.Outcome State Fault Refusal :=
  match s.channel chan with
  | none => .next s
  | some c =>
    let left := !(s.pod.outWait.any fun o => o.packet.legs.any fun l => l.kind.isChannel && l.chan = chan) &&
      s.flagsDue chan = 0
    if s.waitsOn chan true && 32736 ≤ c.cnt && left && s.beforeLimit c 0 then
      let (p, s) := s.makePacket { Packet.blank .flag with
        chan := chan, polder := (s.contextEntry 32 c.ctx) / 2 ^ 6 % 32 } []
      .next (s.queueOut p none false)
    else .next s

/-- The sequence range list that a gap request carries: each missing sequence, 2 bytes little-endian. DESIGN CHOICE, log
entry 29. -/
def gapData (qs : List Half) : List Byte := qs.flatMap fun q => bytesOfNat q.toNat 2
/-- The sequences that a gap request names. -/
def gapSeqs (bs : List Byte) : List Half := (List.range (bs.length / 2)).map fun i => BitVec.ofNat 16 (natOfBytes ((bs.drop (2 * i)).take 2))

/-- GAP_REQUEST_SEND (R276): a flag or a write has been held for 20 µs and something is missing; then again every 20 µs while
anything is missing. -/
def execGapRequestSend (src chan : Nat) (s : State) : Host.Outcome State Fault Refusal :=
  let r := s.recvOf src chan
  let due := match r.lastGap, (r.withheld ++ r.heldWrites).map Prod.snd with
    | some t, _ => decide (t + microseconds 20 ≤ s.clock)
    | none, [] => false
    | none, x :: xs => decide (xs.foldl min x + microseconds 20 ≤ s.clock)
  if due && r.miss != [] then
    let data := gapData r.miss
    let p := { Packet.blank .gap with
      src := s.pod.chip, dst := src, chan := chan, polder := r.polder, len := data.length, data := data }
    .next ((s.putRecv { r with lastGap := some s.clock }).queueOut p none false)
  else .next s

/-- An expiry of a channel's sequence goes out (R277). -/
def State.sendExpiry (s : State) (chan dst polder : Nat) (seq : Half) : State :=
  s.queueOut { Packet.blank .expiry with src := s.pod.chip, dst := dst, chan := chan, seq := seq, polder := polder } none false

/-- The sender expires a sequence (R277): an expiry goes out, the slots of its lost copies return (R269), and the first time
its context traps PODLOSS. -/
def State.expire (s : State) (chan : Nat) (seq : Half) : State :=
  match s.channel chan with
  | none => s
  | some c =>
    let first := !c.expired.contains seq
    let s := s.modChannel chan fun c => { c with expired := if first then c.expired ++ [seq] else c.expired }
    let s := { s with pod := { s.pod with copies := expireCopies (fun x => x.named c.dest chan seq) s.pod.copies } }
    let s := s.sendExpiry chan c.dest (s.contextEntry 32 c.ctx / 2 ^ 6 % 32) seq
    if first then s.haltContext c.ctx { cause := .podLoss, tval := seq.zeroExtend 64, detail := BitVec.ofNat 32 chan } else s

/-- A kept packet is retransmitted, on the same plane and with the same header (R276); `asked` where a gap request names
it. -/
def State.retransmit (s : State) (k : Kept) (asked : Bool) : State :=
  let mine := fun (o : Outgoing) => o.again && o.packet == k.packet
  let out := s.pod.outWait
  let next := if out.any mine then mapIf mine (fun o => { o with asked := o.asked || asked }) out
    else out ++ [⟨k.packet, none, true, asked⟩]
  { s with pod := { s.pod with outWait := next } }

/-- GAP_REQUEST_RECEIVE (R276, R277): every packet named that is still kept is sent again, and of every other an expiry is sent. A
channel that this chip does not hold for the chip that asks, as after a module reset (R294), has no context to trap; DESIGN CHOICE, log
entry 105. -/
def execGapRequestReceive (s : State) : Host.Outcome State Fault Refusal :=
  match s.nextArrival fun k => k == .gap with
  | none => .next s
  | some (p, s) =>
    if !s.admits p then .next (s.filterDrop p)
    else
      .next ((gapSeqs p.data).foldl (fun s q =>
        match s.keptOf p.chan q p.src with
        | some k => s.retransmit k true
        | none =>
          if (s.channel p.chan).any fun c => c.dest = p.src then s.expire p.chan q
          else s.sendExpiry p.chan p.src p.polder q) s)

/-- RETRANSMIT_TIMER (R276): a packet without a credit 20 µs after the latest copy left. -/
def execRetransmitTimer (chan : Nat) (seq : Half) (s : State) : Host.Outcome State Fault Refusal :=
  match (s.pod.kept.filter fun k => k.packet.chan = chan && k.packet.seq == seq).find? fun k => !k.credited with
  | none => .next s
  | some k =>
    .next (if k.lastLeft + microseconds 20 ≤ s.clock && s.clock < k.firstLeft + microseconds 2000
      then s.retransmit k false else s)

/-- PACKET_AGE_DISCARD (R269, R276): a copy on its way for more than 20 µs is lost. Its slot has returned where another copy's
credit or the sequence's expiry has come. -/
def execPacketAgeDiscard (index : Nat) (s : State) : Host.Outcome State Fault Refusal :=
  match s.pod.copies[index]? with
  | none => .next s
  | some c =>
    if c.here || c.lost || s.clock ≤ c.left + microseconds 20 then .next s
    else
      .next { s with pod := { s.pod with
        copies := if c.slot && !c.paid then s.pod.copies.set index { c with lost := true } else s.pod.copies.eraseIdx index } }

/-- REPLAY_BUFFER_EXPIRE (R276, R277): 2 ms after it left, a packet leaves the replay buffer; without a credit its
sequence expires. -/
def execReplayBufferExpire (chan : Nat) (seq : Half) (s : State) : Host.Outcome State Fault Refusal :=
  match s.pod.kept.find? fun k => k.packet.chan = chan && k.packet.seq == seq with
  | none => .next s
  | some k =>
    if s.clock < k.firstLeft + microseconds 2000 then .next s
    else
      let s := { s with pod := { s.pod with kept := s.pod.kept.filter fun x => x != k } }
      let s := s.modChannel chan fun c =>
        { c with recent := (c.recent.filter fun q => s.clock < q.2 + microseconds 20) ++ [(seq, k.lastLeft)] }
      .next (if k.credited then s else s.expire chan seq)

/-- EXPIRY_RECEIVE (R277): the sequence is lost. It leaves MISS and counts as arrived, with HSEQ unmoved; DESIGN CHOICE, log entry
105. -/
def execExpiryReceive (s : State) : Host.Outcome State Fault Refusal :=
  match s.nextArrival fun k => k == .expiry with
  | none => .next s
  | some (p, s) =>
    if !s.admits p then .next (s.filterDrop p)
    else
      let s := s.modRecv p.src p.chan fun r =>
        let miss := r.miss.filter fun q => q != p.seq
        { r.lose p.seq with
          miss := miss, arrived := r.arrived ++ [p.seq], lastGap := if miss = [] then none else r.lastGap }
      .next (s.recheck p.src p.chan)

/-- CHANNEL_ALLOCATE (R270, R277): supervisor software writes a channel's state at the sender, which keeps NSEQ, and at the
receiver, which is given it. A channel that was never allocated has NSEQ and PLAST 0; DESIGN CHOICE, log entry 24. -/
def execChannelAllocate (src chan ctx dest : Nat) (nseq : Half) (s : State) : Host.Outcome State Fault Refusal :=
  if 4096 ≤ chan || 4096 ≤ ctx then .next s
  else
    let own := s.pod.chip
    let q := if src = own then ((s.channel chan).map Channel.nseq).getD 0 else nseq
    let s := if src = own then
        let c : Channel := { chan := chan, ctx := ctx, dest := dest, nseq := q, cnt := 0, anc := q, expired := [], recent := [],
                             plast := ((s.channel chan).map Channel.plast).getD (List.replicate 8 0) }
        { s with pod := { s.pod with
            channels := insertBy Channel.chan c (s.pod.channels.filter fun x => x.chan != chan) } }
      else s
    .next (if dest = own then
        s.modRecv src chan fun r =>
          { r with lastf := q - 1, hseq := q - 1, miss := [], arrived := [], filtered := [], withheld := [], dead := none,
                   lastGap := none }
      else s)

/-- ANCHOR_ADVANCE (R271): a channel's anchor moves to where Table 13-1 puts it. -/
def execAnchorAdvance (chan : Nat) (s : State) : Host.Outcome State Fault Refusal :=
  match s.channel chan with
  | none => .next s
  | some c => .next (s.modChannel chan fun x => { x with anc := s.anchorOf c })

/-- POD_REQUEST_RETRY (R285): sent again after 20 µs without a reply, under the same tag. -/
def execPodRequestRetry (tag : Half) (s : State) : Host.Outcome State Fault Refusal :=
  match s.pod.requests.find? fun q => q.tag == tag with
  | none => .next s
  | some q =>
    match q.first with
    | none => .next s
    | some f =>
      let waiting := s.pod.outWait.any fun o => o.again && o.packet == q.packet
      .next (if q.waits && !waiting && q.last + microseconds 20 ≤ s.clock && s.clock < f + microseconds 2000
        then s.queueOut q.packet none true else s)

/-- A request that the receiver discarded, or that is never answered, ends (R285, R395): its context traps PODLOSS, and its
destination stays empty. -/
def State.endRequest (s : State) (q : PodRequest) : State :=
  let s := { s with pod := { s.pod with
    requests := mapIf (fun x => x.tag == q.tag) (fun x => { x with waits := false, ended := some s.clock }) s.pod.requests
    copies := expireCopies (fun c => c.named q.packet.dst 4096 q.tag) s.pod.copies } }
  s.haltContext q.ctx { cause := .podLoss, tval := q.tag.zeroExtend 64 }

/-- POD_REQUEST_TIMEOUT (R285): unanswered after 2 ms, the request's context traps PODLOSS, and its destination stays
empty. -/
def execPodRequestTimeout (tag : Half) (s : State) : Host.Outcome State Fault Refusal :=
  match s.pod.requests.find? fun q => q.tag == tag with
  | none => .next s
  | some q =>
    match q.first with
    | none => .next s
    | some f =>
      .next (if q.waits && f + microseconds 2000 ≤ s.clock then s.endRequest q else s)

/-- SENDER_LOSS_NOTICE (R293, R395): told of a discarded packet, the sending context traps PODLOSS. -/
def execSenderLossNotice (s : State) : Host.Outcome State Fault Refusal :=
  match s.pod.lossNotices with
  | [] => .next s
  | (chan, seq) :: rest =>
    let s := { s with pod := { s.pod with lossNotices := rest } }
    if chan = 4096 then
      match s.pod.requests.find? fun q => q.tag == seq && q.waits with
      | some q => .next (s.endRequest q)
      | none => .next s
    else
      match s.channel chan with
      | none => .next s
      | some c =>
        if c.expired.contains seq then .next s
        else
          let s := s.modChannel chan fun c => { c with expired := c.expired ++ [seq] }
          .next (s.haltContext c.ctx { cause := .podLoss, tval := seq.zeroExtend 64, detail := BitVec.ofNat 32 chan })

/-! ## The fault queue -/

/-- A queued packet discarded (R293), and its channel checked. -/
def State.discardPacket (s : State) (p : Packet) : State := (s.dropPacket p).recheck p.src p.chan

/-- Queued packets whose walk lands go on (R293): the die walks each again. One whose home is lost is discarded (R395). -/
def State.rewalkPod (s : State) (die : Nat) : State :=
  let q := (s.die die).podQueue
  let s := s.modDie die fun d => { d with podQueue := [] }
  q.foldl (fun s p =>
    match s.land p .write with
    | .ok l =>
      (s.touch l.ctx l.home).enqueuePod l.home (if p.kind.isFlag then .podFlag p l else .podWrite p l) p.polder
    | .error i =>
      if i.cause == .levee then s.discardPacket p else s.modDie die fun d => { d with podQueue := d.podQueue ++ [p] }) s

/-- Every queued packet of a die whose landing walk still faults is discarded (R293, R402). -/
def State.dropQueue (s : State) (die : Nat) : State :=
  let s := s.rewalkPod die
  let q := (s.die die).podQueue
  q.foldl State.discardPacket (s.modDie die fun d => { d with podQueue := [] })

/-- QDROP (R293, R402). -/
def execQdrop (die : Nat) (s : State) : Host.Outcome State Fault Refusal := .next (s.dropQueue die)

/-! ## Ports and planes -/

/-- POD_PORT_DOWN (R432, R435): the link goes down, and copies on their way on its plane are lost. -/
def execPodPortDown (port : Nat) (s : State) : Host.Outcome State Fault Refusal :=
  if 16 ≤ port || s.ports.podDown.any fun x => x.1 = port then .next s
  else
    let copies := (s.pod.copies.map fun c =>
      if c.packet.plane = port / 2 && !c.here then { c with lost := true } else c).filter fun c => c.slot && !c.paid || !c.lost
    let assist := s.regs.assist.getLsbD 3
    let retrain := if assist then s.ports.retrain ++ [.podPort port] else s.ports.retrain
    let notice := if assist then s.regs.notice ||| 0x04000000 else s.regs.notice
    .next { s with
      pod := { s.pod with copies := copies }
      ports := { s.ports with podDown := s.ports.podDown ++ [(port, s.clock)], retrain := retrain }
      regs := { s.regs with notice := notice } }

/-- PLANE_DEAD (R432, R434): both ports of a plane have been down for 100 µs. -/
def execPlaneDead (plane : Nat) (s : State) : Host.Outcome State Fault Refusal :=
  let down := fun (port : Nat) => s.ports.podDown.any fun x => x.1 = port && x.2 + microseconds 100 ≤ s.clock
  if plane < 8 && down (2 * plane) && down (2 * plane + 1) && !s.regs.plmap.getLsbD (24 + plane) then
    .next { s with regs := { s.regs with plmap := s.regs.plmap ||| (1 <<< (24 + plane)),
                                         notice := s.regs.notice ||| 0x01000000 } }
  else .next s

/-- A write of MAP (R433): ignored where an entry names a dead plane. -/
def State.writePlmap (s : State) (w : Word) : State :=
  if (List.range 8).any fun i => s.regs.plmap.getLsbD (24 + field w (3 * i) 3) then s
  else { s with regs := { s.regs with plmap := s.regs.plmap.extractLsb' 24 8 ++ w.extractLsb' 0 24 } }

/-- PLMAP_WRITE (R433). -/
def execPlmapWrite (value : Word) (s : State) : Host.Outcome State Fault Refusal := .next (s.writePlmap value)

/-! ## The checks of pod instructions -/

/-- The window that a lane's address pair reaches: chip and physical address, or the trap (R267, R281). -/
def State.podWindow (s : State) (g : Group) (t : Thread) (base : Dword) (n : Nat) (need : Need) :
    Except TrapInfo (Nat × Nat) :=
  match globalAddress base 0 n need with
  | .error e => .error e
  | .ok ea =>
    match s.translate (whoOf g t) need ea with
    | .error e => .error e
    | .ok (.window chip addr) => .ok (chip, addr)
    | .ok (.here _) => .error (protTrap need ea)

/-- Check 3 of R281: the channel that a register names, owned by the thread's context and going to a chip. -/
def State.podChannel (s : State) (t : Thread) (w : Word) (chip : Nat) : Except TrapInfo Nat :=
  let c := field w 0 12
  match s.channel c with
  | some x => if x.ctx = t.ctxid.toNat && x.dest = chip then .ok c else .error { cause := .prot }
  | none => .error { cause := .prot }

/-- What a lane of a sending instruction sends: the packet without its sequence, and the further channels of a `pmc`. -/
structure PodSend where
  packet : Packet
  more : List Nat
  deriving DecidableEq, Repr

/-- The template of a packet to an address. -/
def addrPacket (kind : PacketKind) (t : Thread) (addr chan : Nat) (data : List Byte) : Packet :=
  { Packet.blank kind with polder := t.polder.toNat, chan := chan, addr := addr, len := data.length, data := data }

/-- The send of `pst` or `prel` in a lane (R281, R282, R286). -/
def State.addrSend (s : State) (g : Group) (t : Thread) (v : View) (kind : PacketKind) (n : Nat) : Except TrapInfo PodSend :=
  match s.podWindow g t (t.a64 v) n .write with
  | .error e => .error e
  | .ok (chip, addr) =>
    match s.podChannel t (t.b32 v) chip with
    | .error e => .error e
    | .ok c => .ok ⟨addrPacket kind t addr c (t.storeData v.d.toNat n), []⟩

/-- Whether a group answers service calls (R52, R328): the service group of its die, or a control-core thread. -/
def Group.answersSvc (g : Group) : Bool := g.control.isSome || (g.place.core = 63 && g.place.slot = 31)

/-- The send of `rst` in a lane (R288, R289). -/
def State.rstSend (s : State) (g : Group) (t : Thread) (v : View) (kind : PacketKind) (n : Nat) : Except TrapInfo PodSend :=
  let target := t.a64 v
  if field target 58 6 != 0 || field target 40 8 != t.polder.toNat then
    .error { cause := .prot }
  else
    match s.podChannel t (t.b32 v) (field target 0 8) with
    | .error e => .error e
    | .ok c =>
      .ok ⟨{ Packet.blank kind with
        polder := t.polder.toNat, chan := c, len := n, data := t.storeData v.d.toNat n, target := target,
        reg := v.tail.modifier.c.toNat, answer := g.answersSvc }, []⟩

/-- The listed channels of a `pmc` (R291). -/
def Thread.pmcList (t : Thread) (b : Nat) : List Nat :=
  let entries := (List.range 8).map fun i => field (t.reg (b + i / 2)) (16 * (i % 2)) 16
  (entries.takeWhile fun e => e.testBit 15).map fun e => e % 4096

/-- The send of `pmc` in a lane (R291). -/
def State.pmcSend (s : State) (g : Group) (t : Thread) (v : View) (n : Nat) : Except TrapInfo PodSend :=
  match s.podWindow g t (t.a64 v) n .write with
  | .error e => .error e
  | .ok (chip, addr) =>
    match t.pmcList v.b.toNat with
    | [] => .error { cause := .prot }
    | c :: cs =>
      let dest := fun k => match s.channel k with
        | some x => if x.ctx = t.ctxid.toNat then some x.dest else none
        | none => none
      let dests := (c :: cs).filterMap dest
      if dest c = some chip && dests.length = (c :: cs).length && dests.eraseDups.length = dests.length then
        .ok ⟨addrPacket .pmc t addr c (t.storeData v.d.toNat n), cs⟩
      else .error { cause := .prot }

/-! ## Sending -/

/-- Whether a thread has a flag of a channel that has not taken its sequence. -/
def State.flagPending (s : State) (gid gidx chan : Nat) : Bool :=
  s.pod.flags.any fun f => f.gid = gid && f.gidx = gidx && f.packet.chan = chan

/-- A lane of a sending instruction waits: for its class (R210), its own earlier flag of a channel that it sends on (log
entry 51), or room on a channel (R271), where `ahead` counts the packets that earlier lanes of the set send on it. Nothing
else of the thread orders a pod write (R215, R292). -/
def State.sendRoom (s : State) (g : Group) (t : Thread) (p : PodSend) (ahead : Nat → Nat) : Option Hold :=
  match t.classRoom .pod with
  | some h => some h
  | none =>
    let chans := p.packet.chan :: p.more
    match chans.find? fun c => s.flagPending g.gid t.gidx c with
    | some c => some (.flagOrder c)
    | none =>
      (chans.filterMap fun c => (s.channel c).bind fun x => s.channelRoom x p.packet.kind.isWrite (ahead c)).head?

/-- An operation of the pod class enters its thread. -/
def Thread.issuePod (t : Thread) (id : Nat) (k : OpKind) : Thread :=
  { t with ops := t.ops ++ [{ id := id, cls := some .pod, kind := k, done := false, cancelled := [] }] }

/-- A write or flag instruction of the pod in a lane set (R281, R282, R286, R289, R291): each lane's packet takes its
sequence in ascending lane position; a flag first awaits its release mark. -/
def State.runSend (s : State) (i : Instr) (flag : Bool) (send : Issue → View → Thread → Except TrapInfo PodSend) :
    Host.Outcome State Fault Refusal :=
  s.run i fun x v =>
    let sends := (x.lanes.filter fun t => laneActive v.tail.modifier t).filterMap fun t =>
      match send x v t with
      | .ok p => some (t.gidx, p)
      | .error _ => none
    let ahead := fun (t : Thread) (c : Nat) =>
      ((sends.takeWhile fun p => p.1 != t.gidx).filter fun p => p.2.packet.chan = c || p.2.more.contains c).length
    let room := fun (t : Thread) =>
      match send x v t with
      | .error _ => none
      | .ok p => (if flag then t.bufferRoom 1 else none).or (s.sendRoom x.group t p (ahead t))
    let mark := s.next.op
    let op := s.next.op + 1
    s.runSetRoom x i v room
      (fun t => match send x v t with
        | .error e => .trap e
        | .ok p =>
          let t := t.issuePod op (.podWrite p.packet.chan 0)
          .go (if flag then { t with sb := t.sb ++ [markEntry mark .dev] } else t) none)
      (fun went s => (went.foldl (fun s t =>
        match send x v t with
        | .error _ => s
        | .ok p =>
          if flag then
            { s with pod := { s.pod with flags := s.pod.flags ++ [⟨x.group.gid, t.gidx, op, mark, p.packet⟩] } }
          else
            let (q, s) := s.makePacket p.packet p.more
            s.queueOut q (some (x.group.gid, t.gidx, op)) false) s).takePlaces 2)
      false

/-- Bytes of the width code of `pst` and `pld` (Table 13-3). -/
def podWidth (x : BitVec 3) : Nat := 4 * 2 ^ (x.extractLsb' 0 2).toNat

/-- PST (R282). -/
def execPst (o : Rrr) (s : State) : Host.Outcome State Fault Refusal :=
  s.runSend (.pst o) false fun x v t => s.addrSend x.group t v .pst (podWidth v.tail.modifier.x)

/-- PREL (R286). -/
def execPrel (o : Rrr) (s : State) : Host.Outcome State Fault Refusal :=
  s.runSend (.prel o) true fun x v t => s.addrSend x.group t v .flag 4

/-- RST (R288, R289). -/
def execRst (o : Rrr) (s : State) : Host.Outcome State Fault Refusal :=
  let view := Instr.view (.rst o)
  let rel := (view.map fun v => v.tail.modifier.x.getLsbD 1).getD false
  s.runSend (.rst o) rel fun x v t =>
    s.rstSend x.group t v (if rel then .rstFlag else .rst) (if v.tail.modifier.x.getLsbD 0 then 8 else 4)

/-- PMC (R291). -/
def execPmc (o : Rrr) (s : State) : Host.Outcome State Fault Refusal :=
  s.runSend (.pmc o) false fun x v t => s.pmcSend x.group t v (if v.tail.modifier.x.getLsbD 0 then 8 else 4)

/-! ## Requests -/

/-- A request tag that is free: none of this chip's requests that are remembered has it (R285). -/
def State.freeTag (s : State) : Option Half :=
  let busy := fun (g : Half) => s.pod.requests.any fun q => q.tag == g
  ((List.range 65536).map fun i => s.pod.nextTag + BitVec.ofNat 16 i).find? fun g => !busy g

/-- Whether a request still has its tag (R285): it waits, it is less than 2 ms old, or a reply to it may still be kept, 2 ms after it
ceased to wait, and at this chip as long as it stands there. DEDUCED, log entry 62. -/
def State.tagInUse (s : State) (q : PodRequest) : Bool :=
  q.waits || s.clock < (q.first.getD s.clock) + microseconds 2000 || (q.ended.any fun t => s.clock ≤ t + microseconds 2000) ||
  s.pod.replies.any fun k => k.src = s.pod.chip && k.tag == q.tag && q.packet.dst = s.pod.chip &&
    (k.reply.isNone || s.clock ≤ k.since + microseconds 2000)

/-- Requests whose tags are no longer in use are forgotten. -/
def State.forgetRequests (s : State) : State :=
  { s with pod := { s.pod with requests := s.pod.requests.filter s.tagInUse } }

/-- Whether the tags leave room for another lane set's requests (R285). -/
def State.tagsFree (s : State) : Bool := (s.pod.requests.filter s.tagInUse).length < 65000

/-- A request sent for a lane (R283, R284). -/
def State.sendRequest (s : State) (g : Group) (t : Thread) (va : Dword) (op chip : Nat) (p : Packet) : State :=
  let s := s.forgetRequests
  match s.freeTag with
  | none => s
  | some tag =>
    let p := { p with src := s.pod.chip, dst := chip, seq := tag, chan := 0 }
    let q : PodRequest := { tag := tag, gid := g.gid, gidx := t.gidx, op := op, ctx := t.ctxid.toNat, packet := p,
                            first := none, last := s.clock, waits := true, va := va }
    { s with pod := { s.pod with requests := s.pod.requests ++ [q], nextTag := tag + 1 } }.queueOut p none false

/-- A lane of `pld` or `patom` waits for its class, or while every tag is in use. Nothing else of the thread orders it
(R292). -/
def State.requestRoom (s : State) (t : Thread) : Option Hold :=
  match t.classRoom .pod with
  | some h => some h
  | none => if s.tagsFree then none else some .tags

/-- PLD (R283). -/
def execPld (o : Rrr) (s : State) : Host.Outcome State Fault Refusal :=
  s.run (.pld o) fun x v =>
    let n := podWidth v.tail.modifier.x
    let win := fun (t : Thread) => s.podWindow x.group t (t.a64 v) n .read
    s.runSetRoom x (.pld o) v
      (fun t => match win t with
        | .error _ => none
        | .ok _ => s.requestRoom t)
      (fun t => match win t with
        | .error e => .trap e
        | .ok _ => .go ((t.markN v.d.toNat (n / 4) .pod).issuePod s.next.op (.podRead v.d.toNat n)) none)
      (fun went s' => (went.foldl (fun s' t =>
        match win t with
        | .error _ => s'
        | .ok (chip, addr) =>
          let p := { addrPacket .pld t addr 0 [] with len := n }
          s'.sendRequest x.group t (t.a64 v) s.next.op chip p) s').takePlaces 1)
      false

/-- PATOM (R284). -/
def execPatom (o : Rrr) (s : State) : Host.Outcome State Fault Refusal :=
  s.run (.patom o) fun x v =>
    let n := atomBytes v.b
    let win := fun (t : Thread) => s.podWindow x.group t (t.a64 v) n .both
    let word := fun (t : Thread) (r : Nat) => if n = 8 then t.pair r else (t.reg r).zeroExtend 64
    s.runSetRoom x (.patom o) v
      (fun t => match win t with
        | .error _ => none
        | .ok _ => s.requestRoom t)
      (fun t => match win t with
        | .error e => .trap e
        | .ok _ => .go ((t.markN v.d.toNat (n / 4) .pod).issuePod s.next.op (.podAtom v.d.toNat n)) none)
      (fun went s' => (went.foldl (fun s' t =>
        match win t with
        | .error _ => s'
        | .ok (chip, addr) =>
          let p := { addrPacket .patom t addr 0 [] with
            desc := v.b, operand := word t v.tail.modifier.c.toNat, expected := word t v.d.toNat }
          s'.sendRequest x.group t (t.a64 v) s.next.op chip p) s').takePlaces 1)
      false

/-! ## pacq -/

/-- Whether a word meets the condition of a `pacq` (R287). -/
def pacqMeets (kind : Nat) (w compare : Word) : Bool :=
  if kind = 0 then w != compare else if kind = 1 then w == compare else (w - compare).toNat < 2 ^ 31

/-- The word that a `pacq` reads (R206, R287): the thread's own buffered stores, else as an acquire load's reading step;
`none` where tokens are requested first, and where the polder filter drops the read, which is counted and not answered (R380). -/
def State.pacqRead (s : State) (g : Group) (t : Thread) (l : Loc) : Option Word × State :=
  let buffered := (List.range 4).map fun i => t.bufferByte s.next.op false (l.key + i)
  let r := if buffered.all Option.isSome then (some [], s)
    else if s.readReaches g.place.die .g l true then s.readStorage g .g l 4 true
    else (none, s.countFiltered)
  (r.1.map fun bs => wordOfBytes (buffered.zipIdx.map fun p => p.1.getD ((bs[p.2]?).getD 0)), r.2)

/-- PACQ (R281, R287). -/
def execPacq (o : Rrr) (s : State) : Host.Outcome State Fault Refusal :=
  s.run (.pacq o) fun x v =>
    let kind := v.tail.modifier.x.toNat
    let next := v.next x.pc
    let loc := fun (t : Thread) => s.globalAccess x.group t (t.a64 v) 0 4 .read
    let busy := fun (t : Thread) => t.acquires != [] || x.group.heldByOrder t s.next.op ||
      t.ops.any fun o => (match o.span, loc t with
      | some sp, .ok l => spansMeet sp (false, l.key, 4)
      | _, _ => false)
    let met := fun (t : Thread) (l : Loc) => match (s.pacqRead x.group t l).1 with
      | some w => if pacqMeets kind w (t.b32 v) then some w else none
      | none => none
    let read := fun (t : Thread) (s : State) => match loc t with
      | .ok l =>
        if laneActive v.tail.modifier t && (x.laneTrap (.pacq o) v t).isNone then
          let s := s.touch t.ctxid.toNat l.home
          if (s.pacqRead x.group t l).1.isSome then s.readServed x.group.place.die l 4
          else if s.readReaches x.group.place.die .g l true then s
          else s.countFiltered
        else s
      | .error _ => s
    s.runSetRoom x (.pacq o) v (fun t => match loc t with
        | .error _ => none
        | .ok _ => if busy t then some .podOrder else none)
      (fun t => match loc t with
        | .error e => .trap e
        | .ok l => match met t l with
          | some w => .go (t.setReg v.d.toNat w) none
          | none => .hold t (.pacq l (t.b32 v) kind v.d.toNat next))
      (fun went s' =>
        let s' := x.lanes.foldl (fun s t => read t s) s'
        if went != [] then s'.acquireStep x.group.place.die else s')
      false

/-- A held `pacq` reads its word again (R287): when the condition holds, d is filled and the acquire step taken. -/
def State.pollPacq (s : State) (gid gidx : Nat) : State :=
  match s.group gid with
  | none => s
  | some g =>
    match g.residency, g.thread gidx with
    | .resident _, some t =>
      match t.state with
      | .waiting (.pacq l c kind d next) =>
        if s.poisoned .read false l 4 then s.poisonHalt .read l
        else
          let r := s.pacqRead g t l
          match r.1 with
          | none => r.2
          | some w =>
            if pacqMeets kind w c then
              (r.2.acquireStep g.place.die).modGroup gid fun g =>
                (g.modThread gidx fun t => t.setReg d w).release gidx next false
            else r.2
      | _ => s
    | _, _ => s

/-- PACQ_POLL (R287). -/
def execPacqPoll (gid gidx : Nat) (s : State) : Host.Outcome State Fault Refusal := .next (s.pollPacq gid gidx)

end Sys2Proof.Machine
end

