-- ==== Sys2Proof/Machine/TableWrite.lean ====
section
/-!
DEFINITION. What a store leaves of a word of the table region (R7, R8, R371, R376 to R378, R382, R392), and the engine's stores
that a release completes (Table 21-4).
-/
namespace Sys2Proof.Machine

open Sys2Proof

/-! ## What a store leaves of a table word -/

/-- The bits of an aligned 8-byte word of the table region that a store sets (R7, R8, Tables 21-2, 22-2 to 22-4 and 22-6);
page tables keep every bit, since a walk judges their reserved bits (R366). -/
def tableMask (off : Nat) : Nat :=
  if off < 0x8000 then 0x0000FFFFFFFFFFC1
  else if off < 0x8800 then
    ([0xFFFFFFFF, 0xFFFFFFFFFFFF, 0xFFFFFFFFFFFF, 0x01FFFFFF01FFFFFF, 0x1FFF, 1, 0, 0][(off - 0x8000) / 8 % 8]?).getD 0
  else if off < 0x8910 then 7
  else if 0x9000 ≤ off && off < 0xB000 then 0x0F07FF81
  else if 0x10000 ≤ off && off < 0x18000 then 0x3FFFFFFFF
  else 2 ^ 64 - 1

/-- Fields of a connection entry (Table 22-4). -/
def ceValid (e : Nat) : Bool := e.testBit 0
def ceA (e : Nat) : Nat := e / 2 ^ 7 % 64
def ceB (e : Nat) : Nat := e / 2 ^ 13 % 64
def ceWaves (e : Nat) : Nat := e / 2 ^ 24 % 16
def ceLive (e : Nat) : Nat := e / 2 ^ 28 % 16
def ceSpares (e : Nat) : Nat := e / 2 ^ 32 % 16
def ceState (e : Nat) : Nat := e / 2 ^ 36 % 16
/-- A connection entry with its hardware fields replaced. -/
def ceWith (e live spares state : Nat) : Nat := e % 2 ^ 28 + live * 2 ^ 28 + spares * 2 ^ 32 + state * 2 ^ 36

/-- Connection entry i of a replica. -/
def State.connection (s : State) (replica i : Nat) : Nat := s.readNat replica (0x9000 + 8 * i) 8

/-- Live wavelengths of a die's transceivers, entry i left out (R382). -/
def State.liveWaves (s : State) (replica die i : Nat) : Nat :=
  ((List.range 1024).map fun k =>
    let e := s.connection replica k
    if k != i && ceValid e && (ceA e = die || ceB e = die) then ceLive e else 0).sum

/-- STATE, LIVE and SPARES of a connection entry as software has written it (R382): refused where it would exceed 256 live
wavelengths at either end, or names no pair of dies. Its spares are the model's choice (log entry 1). -/
def State.connect (s : State) (replica i e : Nat) : Nat :=
  let n := ceWaves e
  if !ceValid e || n = 0 then ceWith e 0 0 0
  else if ceB e ≤ ceA e || 33 < ceB e || 256 < s.liveWaves replica (ceA e) i + n || 256 < s.liveWaves replica (ceB e) i + n then
    ceWith e 0 0 3
  else ceWith e n 0 1

/-- Whether two valid polder entries share a die or a control core (R378). -/
def Polder.shares (p q : Polder) : Bool :=
  p.valid && q.valid && (p.dies &&& q.dies != 0 || p.cc0 &&& q.cc0 != 0 || p.cc1 &&& q.cc1 != 0)

/-- A die marked live: it has left reset, and a store names it in a polder (R392). -/
def State.markLive (s : State) (p : Polder) : State :=
  (List.range 34).foldl (fun s d =>
    if (s.die d).lost && (s.die d).leftReset && p.valid && p.hasDie d then
      s.modDie d fun x => { x with lost := false, leftReset := false }
    else s) s

/-- Bytes of a store written into one replica (R371, R376 to R378, R382): a store that would place a die or a control core in
two polders changes nothing there. -/
def State.writeReplica (s : State) (d off : Nat) (bs : List Byte) : State :=
  let word := off / 8 * 8
  let old := s.readNat d word 8
  let laid := natOfBytes (overlay (bytesOfNat old 8) (off - word) bs)
  let m := tableMask word
  let new := (laid &&& m) ||| (old &&& (2 ^ 64 - 1 - m))
  let put := fun (x : Nat) => { s with mem := s.mem.writeN (storageKey d word) (bytesOfNat x 8) }
  if 0x8000 ≤ word && word < 0x8800 then
    let i := (word - 0x8000) / 64
    let s' := put new
    let p := s'.polder d i
    if (List.range 32).any fun k => k != i && p.shares (s'.polder d k) then s else s'.markLive p
  else if 0x9000 ≤ word && word < 0xB000 then
    let i := (word - 0x9000) / 8
    put (s.connect d i new)
  else put new

/-- The stores that a die's engine has taken reach every replica that lacks them, and with them every store that comes before them in
the one order (R371): what a device-scope release of the die completes (Table 21-4, R373). What waits for a translation is walked
again in the step TABLE_REPLICA_WRITE. -/
def State.flushTables (s : State) (die : Nat) : State :=
  let last := ((s.tableStores.zipIdx.filter fun p => p.1.die = die && p.1.left != []).map fun p => p.2 + 1).getLast?.getD 0
  let due := s.tableStores.take last
  let s := due.foldl (fun s x => x.left.foldl (fun s d => s.writeReplica d x.offset x.data) s) s
  { s with tableStores := due.map (fun x => { x with left := [] }) ++ s.tableStores.drop last }

end Sys2Proof.Machine
end

