-- ==== Sys2Proof/Machine/Apply.lean ====
section
/-!
DEFINITION. What a home's apply queue does (R185, R191, R193, R196, R201, R274, R275, R283, R284).
-/
namespace Sys2Proof.Machine

open Sys2Proof

/-- Sectors that a difference carries whole (R415). -/
def wholeSectors (block : Nat) (runs : List Run) : List Nat :=
  let carried := runs.flatMap fun r => (List.range r.data.length).map fun i => r.offset + i
  ((List.range 16).filter fun k => (List.range 32).all fun i => carried.contains (32 * k + i)).map fun k => block + 32 * k

/-- A difference applied (R191): its runs' bytes are written into the home copy. One from a supervisor-level context clears
the poison of the sectors that it carries whole (R415). -/
def State.applyDiff (s : State) (block : Nat) (runs : List Run) (supervisor : Bool) : State :=
  let whole := wholeSectors block runs
  { s with
      mem := runs.foldl (fun m r => m.writeN (block + r.offset) r.data) s.mem
      poison := if supervisor then s.poison.filter fun k => !whole.contains k else s.poison }

/-- Whether a read at a home meets a poisoned sector or line (R394, R415). -/
def State.homePoisoned (s : State) (l : Loc) (n : Nat) : Bool := s.poisoned .both true l n

/-- Bytes of a location at its home, token-class lines gathered first (R201, R283, R388). -/
def State.homeRead (s : State) (l : Loc) (n : Nat) : List Byte × State :=
  if l.token && !l.table then s.homeTokenRead l.key n else (s.mem.readN l.key n, s)

/-- Bytes written at a home by its near-bank unit or its token agent. -/
def State.homeWrite (s : State) (l : Loc) (bs : List Byte) : State :=
  if l.table then s.tableStore l.home l bs [] 0
  else if l.token then s.homeTokenWrite l.key bs
  else { s with mem := s.mem.writeN l.key bs }

/-- An atomic performed at its home in one indivisible step (R185): the old value and the state. -/
def State.atomicHome (s : State) (l : Loc) (desc : RegNum) (operand expected : Dword) : Dword × State :=
  let n := atomBytes desc
  let r := s.homeRead l n
  let old := dwordOfBytes r.1
  match atomResult desc old operand expected with
  | some w => (old, r.2.homeWrite l (bytesOfNat w.toNat n))
  | none => (old, r.2)

/-- An atomic of a thread applied (R193, R225, R226): a returning one's result is on its way, unless the polder filter drops it
(R380), and a reduction is complete. -/
def State.applyAtomic (s : State) (gid gidx op : Nat) (l : Loc) (desc : RegNum) (operand expected : Dword) (ret : Bool) :
    State :=
  if s.homePoisoned l (atomBytes desc) then
    match s.operation gid gidx op with
    | some (_, _, o) => (s.poisonHalt .both l).failOp gid gidx o
    | none => s
  else
    let r := s.atomicHome l desc operand expected
    let back := match s.group gid with
      | some g => s.passes l.polder l.home g.place.die
      | none => true
    if ret && !back then r.2.countFiltered
    else r.2.modThread gid gidx fun t =>
      if ret then t.modOp op fun o => (match o.kind with
        | .atom sp l de x ex d rt ac sent _ => { o with kind := .atom sp l de x ex d rt ac sent (some r.1) }
        | _ => o)
      else t.finishOp op

/-- A channel packet applied at its home (R274, R275): a write counts as arrived, a flag moves LASTF. One that meets a
poisoned line is discarded. -/
def State.applyPod (s : State) (p : Packet) (l : Loc) : State :=
  if s.linePoisoned l false then s.discardPacket p
  else
    let s := s.homeWrite l p.data
    (if p.kind.isFlag then s.flagDone p else s.writeDone p).recheck p.src p.chan

/-- A request applied at its home (R283, R284): its reply carries no data where the home cannot be read (DEDUCED, log
entry 27). -/
def State.applyRequest (s : State) (p : Packet) (l : Loc) : State :=
  let n := if p.kind == .pld then p.len else atomBytes p.desc
  let s := s.credit p
  if s.homePoisoned l n then s.sendReply p [] l.home
  else if p.kind == .pld then
    let r := s.homeRead l n
    r.2.sendReply p r.1 l.home
  else
    let r := s.atomicHome l p.desc p.operand p.expected
    r.2.sendReply p (bytesOfNat r.1.toNat n) l.home

/-- An entry of a home's apply queue applied. -/
def State.applyEntry (s : State) (e : ApplyEntry) : State :=
  match e.kind with
  | .diff block runs supervisor => s.applyDiff block runs supervisor
  | .atomic gid gidx op l desc operand expected ret => s.applyAtomic gid gidx op l desc operand expected ret
  | .podWrite p l => s.applyPod p l
  | .podFlag p l => s.applyPod p l
  | .podRead p l => s.applyRequest p l
  | .podAtom p l => s.applyRequest p l

/-- The head of a home's apply queue applied. -/
def State.applyHead (s : State) (home : Nat) : State :=
  match (s.die home).queue with
  | [] => s
  | e :: rest => (s.modDie home fun d => { d with queue := rest }).applyEntry e

/-- The die whose entry to a home was sent first of those under way. -/
def State.oldestSender (s : State) (home : Nat) : Option Nat :=
  (leastBy Prod.snd (s.dies.flatMap fun d => (d.2.sent.filter fun e => e.home = home).map fun e => (d.1, e.id))).map Prod.fst

/-- APPLY (R191, R197, R199): with the queue empty, the entry sent first of those under way arrives first. -/
def execApply (home : Nat) (s : State) : Host.Outcome State Fault Refusal :=
  let s := if (s.die home).queue = [] then
      match s.oldestSender home with
      | some d => s.arriveFrom d home
      | none => s
    else s
  .next (s.applyHead home)

/-- Everything that a die sent before is applied within this step: the device-scope release of an engine (R203, log entry
12). Entries that other dies sent before them to the same homes are applied with them. -/
def State.drainHomes (s : State) (die : Nat) : Nat → State
  | 0 => s
  | n + 1 =>
    match (s.die die).sent with
    | e :: _ => (s.arriveFrom die e.home).drainHomes die n
    | [] =>
      match s.dies.find? fun d => d.2.queue.any fun e => e.src = die with
      | some d => (s.applyHead d.1).drainHomes die n
      | none => s

/-- A device-scope release that a die completes by itself (R203, R358, R373, R410): its twinned blocks are sent, all that it sent
is applied, and its table-region stores are in every replica (Table 21-4). -/
def State.engineRelease (s : State) (die : Nat) : State :=
  let s := (s.flushTables die).sendAll die
  s.drainHomes die (2 * (s.dies.map fun d => d.2.sent.length + d.2.queue.length).sum + 1)

end Sys2Proof.Machine
end

