-- ==== Sys2Proof/Machine/Fetch.lean ====
section
/-!
DEFINITION. Fetching the instruction of a lane set: check 1 of Table 3-12 (R85, R87, R88).
-/
namespace Sys2Proof.Machine

open Sys2Proof

/-- The location of the i-th word of an instruction, as the lane set's first thread fetches it. -/
def State.fetchLoc (s : State) (x : Issue) (t : Thread) (i : Nat) : Except TrapInfo Loc :=
  let va := (x.pc + BitVec.ofNat 56 (4 * i)).zeroExtend 64
  match s.locate (whoOf x.group t) .fetch false va with
  | .error e => .error e
  | .ok l => if s.poisoned .fetch false l 4 then .error (leveeTrap .fetch va l.home) else .ok l

/-- Words of an instruction from the i-th on, with the locations that the fetch reaches. -/
def State.fetchFrom (s : State) (x : Issue) (t : Thread) : Nat → Nat → Except TrapInfo (List (Loc × Word))
  | 0, _ => .ok []
  | n + 1, i =>
    match s.fetchLoc x t i with
    | .error e => .error e
    | .ok l =>
      match State.fetchFrom s x t n (i + 1) with
      | .error e => .error e
      | .ok ws => .ok ((l, wordOfBytes (s.readLoc x.group.place.die l 4)) :: ws)

/-- Words of an instruction by its base word's length code (Table 3-6). -/
def wordsOf (base : Word) : Nat :=
  if base.extractLsb' 0 2 == 0 then 1 else if base.extractLsb' 0 2 == 1 then 2 else 3

/-- The instruction at the lane set's program counter, whatever its words are (R87), and the locations its fetch reaches; or
the trap of check 1. An instruction is fetched as a whole (R88). -/
def State.fetchInstr (s : State) (x : Issue) : Except TrapInfo (Instr × List Loc) :=
  match x.lanes with
  | [] => .error { cause := .page }
  | t :: _ =>
    match s.fetchFrom x t 1 0 with
    | .error e => .error e
    | .ok first =>
      let base := ((first.map Prod.snd).head?).getD 0
      match s.fetchFrom x t (wordsOf base - 1) 1 with
      | .error e => .error e
      | .ok rest =>
        let ws := first ++ rest
        match decode ((ws.map Prod.snd).flatMap bytesOfWord) with
        | .ok (i, _) => .ok (i, ws.map Prod.fst)
        | .error _ => .error { cause := .page }

/-- A fetch that is done: the dies that it touched recorded, the I/O die of a control-core thread among them, which runs in its
context there (R391); its token-class reads served (R387, R388). -/
def State.touchFetch (s : State) (x : Issue) (ls : List Loc) : State :=
  match x.lanes with
  | [] => s
  | t :: _ =>
    let die := x.group.place.die
    let dies := ls.map Loc.home ++ if x.group.control.isSome then [die] else []
    let s := dies.foldl (fun s h => s.touch t.ctxid.toNat h) s
    ls.foldl (fun s l => s.readServed die l 4) s

/-- Bytes stored where the lane set fetches its next instruction, if its words can be fetched: in the home copy and in
the die's working copy, if it holds one. -/
def State.storeAtPc (s : State) (x : Issue) (words : List Word) : Option State :=
  match x.lanes with
  | [] => none
  | t :: _ =>
    words.zipIdx.foldl (fun r p =>
      match r, s.fetchLoc x t p.2 with
      | some s', .ok l =>
        let bs := bytesOfWord p.1
        let s' := { s' with mem := s'.mem.writeN l.key bs }
        some (s'.modDie x.group.place.die fun d => d.modBlock (blockOf l.key) fun b =>
          { b with bytes := b.bytes.writeN (l.key - b.key) bs })
      | _, _ => none) (some { s with agenda := [] })

/-- INSTRUCTION_FETCH_FAULT (R85, R86): every lane of the set takes the trap of the fetch that fails; a control-core thread whose
context was halted takes the trap of that first (R406). -/
def execInstructionFetchFault (s : State) : Host.Outcome State Fault Refusal :=
  match s.issue with
  | none => .next s
  | some x =>
    match s.fetchInstr x with
    | .ok _ => .next s
    | .error e =>
      let ts := x.lanes.map Thread.gidx
      let halted := if x.group.control.isSome then x.lanes.head?.bind Thread.trapped else none
      let traps := ts.map fun t => (t, halted.getD e)
      let s := ((s.takeTraps x.group ts traps).1).endStroke x.stroke
      .next (if halted.isNone then s.haltLevees x.lanes traps else s)

end Sys2Proof.Machine
end

