-- ==== Sys2Proof/Machine/Residency.lean ====
section
/-!
DEFINITION. Which groups hold a core's registers: blocks, granules and tiles (R347, R348), gangs, the moves between resident
and OUT, the quantum timer and its rule (R344, R349 to R351).
-/
namespace Sys2Proof.Machine

open Sys2Proof

/-! ## Choosing by several keys -/

/-- Lexicographic order of keys. -/
def lexLess : List Nat → List Nat → Bool
  | a :: as, b :: bs => a < b || (a = b && lexLess as bs)
  | [], _ => false
  | _ :: _, [] => false

/-- The element with the least keys, the earliest of equals. -/
def leastLex {α : Type} (f : α → List Nat) : List α → Option α
  | [] => none
  | x :: xs =>
    match leastLex f xs with
    | none => some x
    | some y => if lexLess (f y) (f x) then some y else some x

/-! ## What a group needs and holds -/

/-- Register blocks that a group of `nthr` threads with a budget needs (R347). -/
def blocksFor (nthr budget : Nat) : Nat := (nthr * budget + 8191) / 8192
/-- Register blocks that a group needs. -/
def Group.blocksNeeded (g : Group) : Nat := blocksFor g.nthr g.budget
/-- Granules of a scratchpad allocation (R348). -/
def granulesFor (scratch : Nat) : Nat := (scratch + 16383) / 16384
/-- A group's priority (Table 20-3). -/
def Group.prio (g : Group) : Nat := field g.ctl 4 2
/-- Whether a group is placed as part of a gang (R261). -/
def Group.ganged (g : Group) : Bool := g.ctl.getLsbD 6

/-- Whether a group is OUT and time-slicing may bring it back (R351). -/
def Group.isOut (g : Group) : Bool :=
  match g.residency with
  | .resident _ => false
  | .out _ held => !held
  | .saved _ _ _ => false

/-- When a group came to be resident or OUT. -/
def Group.since (g : Group) : Nat :=
  match g.residency with
  | .resident n => n
  | .out n _ => n
  | .saved _ _ _ => 0

/-- The groups that hold slots of a core. -/
def State.onCore (s : State) (die core : Nat) : List Group :=
  (s.groups.map Prod.snd).filter fun g => g.control.isNone && g.place.die = die && g.place.core = core

/-- The gang partners of a group, itself among them (R261, R410); a group outside a gang stands alone. -/
def State.gangOf (s : State) (g : Group) : List Group :=
  if g.ganged then
    (s.groups.map Prod.snd).filter fun x =>
      x.lid = g.lid && x.control.isNone && x.ordinal / 4 = g.ordinal / 4
  else [g]

/-- Where a launch stands in the order of acceptance (R343, R349). -/
def State.launchRank (s : State) (lid : Nat) : Nat :=
  ((findAt (fun (l : Launch) => l.lid = lid) s.launches 0).map fun p => p.1 + 1).getD 0

/-- The replay launch that a core holds (R359), or that is being restored to it (R421). -/
def State.replayOn (s : State) (die core : Nat) : Option Launch :=
  s.launches.find? fun l => l.header.ctl.getLsbD 8 && (l.onCore = some (die, core) || l.target = some (die, core))

/-! ## Leaving and joining a core -/

/-- The quantum of a group, as time (Table 20-1). -/
def Group.quantumTime (g : Group) : Nat := if g.quantum == 0 then microseconds 100 else microseconds g.quantum.toNat

/-- Order of residence: longest first, then the launch accepted first, then the lowest ordinal (R349). -/
def State.ageKeys (s : State) (g : Group) : List Nat := [g.since, g.moved, s.launchRank g.lid, g.ordinal]

/-- The length of a core's quantum: the QUANTUM of the group resident longest (R349). -/
def State.quantumLength (s : State) (die core : Nat) : Nat :=
  let rs := (s.onCore die core).filter Group.isResident
  match leastLex s.ageKeys rs with
  | some g => g.quantumTime
  | none => microseconds 100

/-- The quantum timer runs while some group of the core is resident, and starts when one comes to be (R349). A replay
core has no quantum (R360). -/
def State.settleTimer (s : State) (die core : Nat) : State :=
  let some' := (s.onCore die core).any Group.isResident
  let timer := if !some' || (s.replayOn die core).isSome then none
    else (s.core die core).quantum.or (some (s.clock, s.quantumLength die core))
  s.modCore die core fun c => { c with quantum := timer }

/-- A group leaves its core and gives up its blocks (R344, R347, R349): it is OUT, and held where a `ctxsv` takes it. Its
lanes that hold a slot leave at their strokes' ends (R24). -/
def State.leaveCore (s : State) (gid k : Nat) (held : Bool) : State :=
  match s.group gid with
  | none => s
  | some g =>
    match g.residency with
    | .resident _ =>
      let s := s.modCore g.place.die g.place.core fun c => { c with freeBlocks := sortBy id (c.freeBlocks ++ g.blocks) }
      s.putGroup { g with residency := .out (s.clockOf g) held, moved := k, blocks := [] }
    | .out since h => s.putGroup { g with residency := .out since (h || held) }
    | .saved _ _ _ => s

/-- The contexts that a group's threads run in. -/
def Group.contexts (g : Group) : List Nat := (g.live.map fun t => t.ctxid.toNat).eraseDups

/-- A group becomes resident (R347): it takes the lowest free blocks, its bins have not aged meanwhile (R33), an entry that
a reform made while it was OUT not since then, and its contexts have touched the die (R391). -/
def State.joinCore (s : State) (gid k : Nat) : State :=
  match s.group gid with
  | none => s
  | some g =>
    let die := g.place.die
    let now := s.clockOf g
    let free := (s.core die g.place.core).freeBlocks
    let n := g.blocksNeeded
    let s := g.contexts.foldl (fun s c => s.touch c die) s
    let s := s.modCore die g.place.core fun c => { c with freeBlocks := c.freeBlocks.drop n }
    let later := fun (b : Bin) => { b with entries := b.entries.map fun e => (e.1, e.2 + (now - max g.since e.2)) }
    s.putGroup { g with residency := .resident now, moved := k, blocks := free.take n, bins := g.bins.map later }

/-- Whether the free blocks of their cores hold every group of a unit. -/
def State.unitFits (s : State) (unit : List Group) : Bool :=
  unit.all fun g => g.blocksNeeded ≤ (s.core g.place.die g.place.core).freeBlocks.length

/-- Groups just admitted become resident where free blocks hold them, in ascending ordinal, a gang whole (R345); the others
begin OUT. -/
def State.joinNew (s : State) (gids : List Nat) : State :=
  gids.foldl (fun s gid =>
    match s.group gid with
    | none => s
    | some g =>
      let unit := s.gangOf g
      if unit.all Group.isOut && unit.all (fun p => gids.contains p.gid) && s.unitFits unit then
        unit.foldl (fun s p => s.joinCore p.gid 0) s
      else s) s

/-! ## The rule -/

/-- OUT groups of a core that time-slicing may bring back: their whole gang is OUT and none of it is held (R349, R351, R412). -/
def State.waitingUnits (s : State) (die core : Nat) : List Group :=
  (s.onCore die core).filter fun g => (s.gangOf g).all Group.isOut

/-- The pass of R349, `k` steps into it: `q` is the quantum that has ended, in time or in retired instructions. -/
def State.rotate (s : State) (die core q : Nat) : Nat → Nat → State
  | 0, _ => s
  | fuel + 1, k =>
    match leastLex (fun g => (3 - g.prio) :: s.ageKeys g) (s.waitingUnits die core) with
    | none => s
    | some w =>
      let unit := s.gangOf w
      if s.unitFits unit then (unit.foldl (fun s p => s.joinCore p.gid k) s).rotate die core q fuel (k + 1)
      else
        let short := unit.filter fun p => (s.core p.place.die p.place.core).freeBlocks.length < p.blocksNeeded
        let vs := (short.flatMap fun p => s.onCore p.place.die p.place.core).filter fun v =>
          v.isResident && !(unit.any fun p => p.gid = v.gid) && v.prio ≤ w.prio &&
          v.since + q ≤ s.clockOf v
        match leastLex (fun g => g.prio :: s.ageKeys g) vs with
        | none => s
        | some v => ((s.gangOf v).foldl (fun s p => s.leaveCore p.gid k false) s).rotate die core q fuel (k + 1)

/-- Whether a core's quantum has ended, or no group of it is resident while one waits (R349). -/
def State.quantumDue (s : State) (die core : Nat) : Bool :=
  (s.replayOn die core).isNone &&
  (match (s.core die core).quantum with
   | some (start, len) => start + len ≤ s.clock
   | none => s.waitingUnits die core != [])

/-- The cores on which any group of a gang stands with a group of this core. -/
def State.coresWith (s : State) (die core : Nat) : List (Nat × Nat) :=
  ((die, core) :: (s.onCore die core).flatMap fun g => (s.gangOf g).map fun p => (p.place.die, p.place.core)).eraseDups

/-- QUANTUM_END (R349): the rule is applied, and the timer starts anew. While no timer ran, no group of the core was resident, and
one that the pass makes resident has not been so for a quantum. -/
def execQuantumEnd (die core : Nat) (s : State) : Host.Outcome State Fault Refusal :=
  if !s.quantumDue die core then .next s
  else
    let q := (((s.core die core).quantum).map Prod.snd).getD (microseconds 100)
    let s := s.rotate die core q 256 1
    let s := s.modCore die core fun c => { c with quantum := none }
    .next ((s.coresWith die core).foldl (fun s c => s.settleTimer c.1 c.2) s)

/-- Whether a replay core's slice is over (R360): RQUANT instructions have retired since the last, or no group is resident while
one waits. -/
def State.sliceDue (s : State) (l : Launch) (die core : Nat) : Bool :=
  let q := if l.header.rquant == 0 then 65536 else l.header.rquant.toNat
  let idle := !((s.onCore die core).any Group.isResident) && s.waitingUnits die core != []
  (q ≤ l.sliceRetired || idle) && !l.stopped

/-- REPLAY_SLICE (R360): on a replay core the rule is applied after every RQUANT retired instructions, before the next one
issues. -/
def execReplaySlice (die core : Nat) (s : State) : Host.Outcome State Fault Refusal :=
  match s.replayOn die core with
  | none => .next s
  | some l =>
    if s.sliceDue l die core then
      let q := if l.header.rquant == 0 then 65536 else l.header.rquant.toNat
      let s := { s with launches := mapIf (fun x => x.lid = l.lid) (fun x => { x with sliceRetired := 0 }) s.launches }
      .next (s.rotate die core q 256 1)
    else .next s

end Sys2Proof.Machine
end

