-- ==== Sys2Proof/Machine/Repair.lean ====
section
/-!
DEFINITION. Fault records and the fault ring (R398 to R400), the commands of sys.fctl (R402, R403), hardware repair (R404) and
events (R335, R336, Table 19-6).
-/
namespace Sys2Proof.Machine

open Sys2Proof

/-! ## Events -/

/-- A die's service group (R328). -/
def State.serviceGroup (s : State) (die : Nat) : Option Group :=
  (s.groups.map Prod.snd).find? fun g =>
    g.control.isNone && g.place == ⟨die, 63, 31⟩ && g.live != [] && (match g.residency with
      | .saved _ _ _ => false
      | _ => true)

/-- EV set in every thread of a die's service group (R329, R400). -/
def State.wakeService (s : State) (die : Nat) : State :=
  match s.serviceGroup die with
  | none => s
  | some g => g.live.foldl (fun s t => s.modThread g.gid t.gidx fun t => { t with ev := true }) s

/-- The control-core thread of an I/O die and a unit (R326, Table 19-6). -/
def controlGid (die unit : Nat) : Nat := (die - 32) * 96 + unit

/-- EV set in every thread that a sev target word names (Table 19-6). -/
def State.sevTarget (s : State) (w : Word) : State :=
  let die := field w 8 6
  if die < 32 then s.wakeService die
  else if die < 34 && field w 0 7 < 96 then
    s.modThread (controlGid die (field w 0 7)) 0 fun t => { t with ev := true }
  else s

/-! ## The fault ring -/

/-- A fault record's 64 bytes (Table 23-3). -/
def FaultRecord.bytes (r : FaultRecord) : List Byte :=
  padTo 64 (bytesOfNat r.name.toNat 8 ++ bytesOfNat r.pc.toNat 8 ++ bytesOfNat r.tval.toNat 8 ++
    bytesOfNat r.lanes.toNat 4 ++ [r.lane, r.cause, r.entry, r.flags, r.core, r.slot, r.aux, r.handle] ++
    bytesOfNat r.detail.toNat 4)

/-- Where a die's fault ring lies (R398): a token-class page with A and W in the context and polder recorded. -/
def State.ringLoc (s : State) (die : Nat) : Option Loc :=
  let d := s.die die
  if d.fring == 0 then none
  else
    match s.locate ⟨die, d.fringCtx, d.fringPolder, false⟩ .both false d.fring with
    | .ok l => if l.token && !s.poisoned .both true l 4096 then some l else none
    | .error _ => none

/-- A group of records written to the ring at PROD, a word that wraps (R398), and PROD advanced by a device-scope release store
(R400). -/
def State.writeRecords (s : State) (die : Nat) (l : Loc) (prod : Nat) (rs : List FaultRecord) : State :=
  let w : Writer := ⟨(s.die die).fringCtx, (s.die die).fringPolder, true⟩
  let s := rs.zipIdx.foldl (fun s r => s.writeLoc die (l.at (64 + 64 * ((prod + r.2) % 2 ^ 32 % 63))) w r.1.bytes) s
  (s.engineRelease die).writeLoc die l w (bytesOfNat (prod + rs.length) 4)

/-- Whether a fragment's records wait for the ring: it stays stopped meanwhile (R400). -/
def State.recordsWait (s : State) (g : Group) (entry : Nat) : Bool :=
  (s.die g.place.die).records.any fun rs => rs.any fun r =>
    r.name == g.name && r.entry == BitVec.ofNat 8 entry && r.core == BitVec.ofNat 8 g.place.core &&
    r.slot == BitVec.ofNat 8 g.place.slot

/-- Whether a stopped transfer's record waits for the ring: it stays stopped meanwhile (R400). -/
def State.transferWaits (s : State) (g : Group) (handle : Nat) : Bool :=
  (s.die g.place.die).records.any fun rs => rs.any fun r =>
    r.name == g.name && r.flags.getLsbD 2 && r.handle == BitVec.ofNat 8 handle && r.core == BitVec.ofNat 8 g.place.core &&
    r.slot == BitVec.ofNat 8 g.place.slot

/-! ## Commands -/

/-- The group in a slot of a core (R402). -/
def State.groupAt (s : State) (die core slot : Nat) : Option Group :=
  (s.groups.map Prod.snd).find? fun g => g.control.isNone && g.place == ⟨die, core, slot⟩ && (match g.residency with
    | .saved _ _ _ => false
    | _ => true)

/-- A fragment of a group in a slot: the group, and the fragment's warp. -/
def State.fragmentAt (s : State) (die core slot entry : Nat) : Option (Group × Warp) :=
  match s.groupAt die core slot, tfind (s.core die core).frags entry with
  | some g, some (gid, wid, _) =>
    if gid = g.gid then (g.warps.find? fun w => w.id = wid).map fun w => (g, w) else none
  | _, _ => none

/-- UNPARK (R402): every warp of the core that R37 parked. -/
def State.unparkCore (s : State) (die core : Nat) : State :=
  s.unparkWarps die core fun w => match w.kind with
    | .parked _ => true
    | _ => false

/-- Bytes of the instruction at a thread's program counter (R66, R403); 4 where it cannot be read. -/
def State.lengthAt (s : State) (g : Group) (t : Thread) : Nat :=
  match s.locate (whoOf g t) .fetch false (t.pc.zeroExtend 64) with
  | .ok l => 4 * wordsOf (wordOfBytes (s.readLoc g.place.die l 4))
  | .error _ => 4

/-- RESUME and SKIP (R403): the die takes the acquire step, and the fragment runs as a warp of its own (R38). -/
def State.resumeFragment (s : State) (g : Group) (w : Warp) (entry : Nat) (skip : Bool) : State :=
  let s := s.acquireStep g.place.die
  let s := s.modGroup g.gid fun g =>
    let g := if skip then w.lanes.foldl (fun g l => g.modThread l.2 fun t =>
        { t with pc := t.pc + BitVec.ofNat 56 (s.lengthAt g t) }) g
      else g
    g.unparkWarp w.id
  s.freeEntry g.place.die g.place.core entry

/-- A command or a repair for a fragment of an OUT group waits for its restore: the first to reach it applies (R405). -/
def State.deferAction (s : State) (g : Group) (w : Warp) (action : Nat) : State :=
  if g.actions.any fun a => a.1 = w.id then s
  else s.modGroup g.gid fun g => { g with actions := g.actions ++ [(w.id, action)] }

/-- RESUME, SKIP or KILL of a fragment (R403, R405): at once, or, for an OUT group, at its restore. `action` is the code of
R409. -/
def State.actFragment (s : State) (g : Group) (w : Warp) (entry action : Nat) : State :=
  if !g.isResident then s.deferAction g w action
  else if action = 3 then (s.exitThreads g.gid (w.lanes.map Prod.snd)).freeEntry g.place.die g.place.core entry
  else s.resumeFragment g w entry (action = 2)

/-- RESUME or SKIP of the fragment that a command names (R402, R403). -/
def State.continueFragment (s : State) (die core slot entry : Nat) (skip : Bool) : State :=
  match s.fragmentAt die core slot entry with
  | some (g, w) => if s.recordsWait g entry then s else s.actFragment g w entry (if skip then 2 else 1)
  | none => s

/-- KILL (R403): the fragment's threads exit. -/
def State.killFragment (s : State) (die core slot entry : Nat) : State :=
  match s.fragmentAt die core slot entry with
  | some (g, w) => s.actFragment g w entry 3
  | none => s

/-- Commands that waited for a group's restore take effect (R405). -/
def State.applyActions (s : State) (g : Group) : State :=
  g.actions.foldl (fun s a =>
    let s := s.modGroup g.gid fun g => { g with actions := g.actions.filter fun x => x != a }
    match s.group g.gid with
    | none => s
    | some g =>
      match g.warps.find? fun w => w.id = a.1 with
      | some w => (match w.kind with
        | .fragment e => s.actFragment g w e a.2
        | _ => s)
      | none => s) s

/-- Threads of a group in no fragment that its core's table holds. -/
def State.unfragmented (s : State) (g : Group) : List Nat :=
  let tabled := ((s.core g.place.die g.place.core).frags.filter fun f => f.2.1 = g.gid).map fun f => f.2.2.1
  g.live.filterMap fun t => if (g.warpOf t.gidx).any fun w => tabled.contains w.id then none else some t.gidx

/-- GKILL (R403): every thread of the group exits, and its fragments leave the table. The fragments of an OUT group stay there,
and their threads exit at its restore (R405). -/
def State.killGroup (s : State) (die core slot : Nat) : State :=
  match s.groupAt die core slot with
  | none => s
  | some g =>
    let s := { s with strokes := s.strokes.filter fun k => k.gid != g.gid }
    let frags := (s.core die core).frags.filter fun f => f.2.1 = g.gid
    if g.isResident then
      let s := s.exitThreads g.gid (g.live.map Thread.gidx)
      (frags.map Prod.fst).foldl (fun s e => s.freeEntry die core e) s
    else
      let s := s.exitThreads g.gid (s.unfragmented g)
      frags.foldl (fun s f => s.modGroup g.gid fun g =>
        { g with actions := (g.actions.filter fun a => a.1 != f.2.2.1) ++ [(f.2.2.1, 3)] }) s

/-- GRESUME (R402, R406): every halted warp of the group executes again. -/
def State.resumeGroup (s : State) (die core slot : Nat) : State :=
  match s.groupAt die core slot with
  | none => s
  | some g => s.modGroup g.gid fun g => (g.warps.filter fun w => w.kind == .halted).foldl (fun g w => g.unparkWarp w.id) g

/-- A stopped transfer that a command names, its record written (R400). -/
def State.stoppedTransfer (s : State) (die core slot handle : Nat) : Option Transfer :=
  match s.groupAt die core slot with
  | none => none
  | some g =>
    if s.transferWaits g handle then none
    else s.transfers.find? fun x => x.die = die && x.core = core && x.handle = handle && x.gid = g.gid && x.fault.isSome

/-- A stopped transfer walks its faulting packet again (R242, R402): it goes on, or its fault is recorded again. -/
def State.retryTransfer (s : State) (x : Transfer) : State :=
  match s.group x.gid with
  | none => s
  | some g =>
    match g.thread x.gidx with
    | none => s
    | some t =>
      match s.packetPieces x g t (x.parts g x.asked) with
      | .ok _ => { s with transfers := mapIf x.same (fun y => { y with fault := none }) s.transfers }
      | .error e => s.faultPacket { x with fault := none } g t x.asked e.1 e.2.1 e.2.2

/-- RESUME (R403). -/
def execResume (die core slot entry : Nat) (s : State) : Host.Outcome State Fault Refusal :=
  .next (s.continueFragment die core slot entry false)
/-- SKIP (R403). -/
def execSkip (die core slot entry : Nat) (s : State) : Host.Outcome State Fault Refusal :=
  .next (s.continueFragment die core slot entry true)
/-- KILL (R403). -/
def execKill (die core slot entry : Nat) (s : State) : Host.Outcome State Fault Refusal :=
  .next (s.killFragment die core slot entry)
/-- UNPARK of a core, by a command whose SLOT names a group there (R402). -/
def State.unparkSlot (s : State) (die core slot : Nat) : State :=
  if (s.groupAt die core slot).isSome then s.unparkCore die core else s

/-- UNPARK (R37, R402). -/
def execUnpark (die core slot : Nat) (s : State) : Host.Outcome State Fault Refusal := .next (s.unparkSlot die core slot)
/-- GKILL (R402, R403). -/
def execGkill (die core slot : Nat) (s : State) : Host.Outcome State Fault Refusal := .next (s.killGroup die core slot)
/-- GRESUME (R402, R406). -/
def execGresume (die core slot : Nat) (s : State) : Host.Outcome State Fault Refusal := .next (s.resumeGroup die core slot)
/-- XRETRY (R402). -/
def execXretry (die core slot handle : Nat) (s : State) : Host.Outcome State Fault Refusal :=
  match s.stoppedTransfer die core slot handle with
  | some x => .next (s.retryTransfer x)
  | none => .next s
/-- XFAIL (R242, R402). -/
def execXfail (die core slot handle : Nat) (s : State) : Host.Outcome State Fault Refusal :=
  match s.stoppedTransfer die core slot handle with
  | some x => .next (s.failTransfer x ((x.fault.map Prod.fst).getD { cause := .xferErr }))
  | none => .next s

/-- A write of sys.fctl (R402, Table 23-5): one command to the writer's die. -/
def State.command (s : State) (die : Nat) (w : Word) : State :=
  let core := field w 0 6
  let entry := field w 6 6
  let slot := field w 12 5
  match field w 28 4 with
  | 1 => s.continueFragment die core slot entry false
  | 2 => s.continueFragment die core slot entry true
  | 3 => s.killFragment die core slot entry
  | 4 => s.unparkSlot die core slot
  | 5 => s.killGroup die core slot
  | 6 => s.resumeGroup die core slot
  | 7 =>
    match s.stoppedTransfer die core slot entry with
    | some x => s.retryTransfer x
    | none => s
  | 8 =>
    match s.stoppedTransfer die core slot entry with
    | some x => s.failTransfer x ((x.fault.map Prod.fst).getD { cause := .xferErr })
    | none => s
  | 9 => s.dropQueue die
  | _ => s

/-! ## Hardware repair -/

/-- Whether a fragment may be repaired in hardware (R404): every lane trapped PAGE, and no lane's walk faults PAGE any
longer. -/
def State.repairable (s : State) (g : Group) (w : Warp) : Bool :=
  w.lanes.all fun l =>
    match g.thread l.2 with
    | none => false
    | some t =>
      match t.trapped with
      | none => false
      | some i =>
        i.cause == .page && (match s.walk (whoOf g t) .read i.tval with
          | .error e => e.cause != .page
          | .ok _ => true)

/-- Fragments of a die that hardware repairs now (R404). -/
def State.repairFragments (s : State) (die : Nat) : State :=
  s.cores.foldl (fun s c =>
    if c.1 / 64 != die then s
    else c.2.frags.foldl (fun s f =>
      match s.group f.2.1 with
      | none => s
      | some g =>
        match g.warps.find? fun w => w.id = f.2.2.1 with
        | none => s
        | some w =>
          if f.2.2.2 && s.repairable g w && !s.recordsWait g f.1 then s.actFragment g w f.1 1 else s) s) s

/-- Transfers of a die stopped by PAGE that hardware walks again (R404). -/
def State.repairTransfers (s : State) (die : Nat) : State :=
  s.transfers.foldl (fun s x =>
    match x.fault, s.group x.gid with
    | some (i, true), some g =>
      if x.die = die && i.cause == .page && !s.transferWaits g x.handle then
        match (g.thread x.gidx).map fun t => s.packetPieces x g t (x.parts g x.asked) with
        | some (.error e) => if e.2.1.cause == .page then s else s.retryTransfer x
        | _ => s.retryTransfer x
      else s
    | _, _ => s) s

/-- What a table-region store that reaches a replica starts on its die (R293, R404). -/
def State.replicaReached (s : State) (die : Nat) : State := ((s.rewalkPod die).repairFragments die).repairTransfers die

/-! ## Records written -/

/-- FAULT_RECORD_WRITE (R400): the die's first group of records, when the ring has room, which is reached in its context (R391); then supervisor software is
woken, and the die repairs what stayed stopped meanwhile (R404). DEDUCED, log entry 14. -/
def execFaultRecordWrite (die : Nat) (s : State) : Host.Outcome State Fault Refusal :=
  match (s.die die).records, s.ringLoc die with
  | rs :: rest, some l =>
    let s := s.touch (s.die die).fringCtx l.home
    let s' := s.gather l.key
    let prod := natOfBytes (s'.readLoc die l 4)
    let cons := natOfBytes (s'.readLoc die (l.at 4) 4)
    if (prod + 2 ^ 32 - cons) % 2 ^ 32 + rs.length ≤ 63 && !(s.die die).lost then
      let s := (s'.modDie die fun d => { d with records := rest }).writeRecords die l prod rs
      let s := (s.repairFragments die).repairTransfers die
      .next (if s.regs.assist.getLsbD 1 then s.sevTarget s.regs.ntarget else s.wakeService die)
    else .next s
  | _, _ => .next s

end Sys2Proof.Machine
end

