-- ==== Sys2Proof/Machine/System.lean ====
section
/-!
DEFINITION. The system instructions (major opcodes 0xF0 to 0xFB, R319 to R339, R424) and the system registers.
-/
namespace Sys2Proof.Machine

open Sys2Proof

/-- An instruction that a core of the wrong kind executes traps ILLOP at check 7 (R330). -/
def excluded (v : View) : Plan := .trap { cause := .illop, tval := v.base.zeroExtend 64 }

/-! ## System registers -/

/-- A system register's value in a lane (Tables 19-1, 23-2, 24-1 and 26-1). sys.fctl is write-only and reads 0 (R7). -/
def State.sysRead (s : State) (g : Group) (t : Thread) (n : Nat) : Dword :=
  let d := s.die g.place.die
  let w := fun (x : Word) => x.zeroExtend 64
  if n = 0x000 then (0 : BitVec 60) ++ t.ppl ++ t.pl
  else if n = 0x001 then t.epc
  else if n = 0x003 then w t.cause
  else if n = 0x004 then t.tval
  else if n = 0x006 then t.vbase
  else if n = 0x008 then w t.ctxid
  else if n = 0x009 then w t.polder
  else if n = 0x00A then w s.regs.assist
  else if n = 0x00B then w d.svcring
  else if n = 0x00C then w d.stale
  else if n = 0x00D then w s.regs.filter
  else if n = 0x00E then w s.regs.ntarget
  else if n = 0x00F then (if t.ev then 1 else 0)
  else if n = 0x010 then d.fring
  else if n = 0x014 then d.hloc
  else if n = 0x016 then d.hrem
  else if n = 0x018 then w s.regs.plmap
  else if n = 0x01A then w s.regs.notice
  else if n = 0x01C then w s.regs.pwrcap
  else if 0x020 ≤ n ∧ n ≤ 0x027 then w ((s.regs.dmactx[n - 0x020]?).getD 0)
  else if n = 0x028 then t.pciaddr
  else 0

/-- A write of a Thread register (R7, R8, R322, Tables 19-2, 23-4 and 26-2). sys.polder keeps its low 5 bits. DESIGN CHOICE,
log entry 32. -/
def Thread.sysWrite (t : Thread) (n : Nat) (x : Dword) : Thread :=
  let w := x.extractLsb' 0 32
  if n = 0x000 then
    let ppl := x.extractLsb' 2 2
    if t.pl.toNat < ppl.toNat then t else { t with ppl := ppl }
  else if n = 0x001 then { t with epc := x }
  else if n = 0x003 then { t with cause := w }
  else if n = 0x004 then { t with tval := x }
  else if n = 0x006 then { t with vbase := x &&& 0x00FFFFFFFFFFFFFC }
  else if n = 0x008 then { t with ctxid := w }
  else if n = 0x009 then { t with polder := w &&& 0x1F }
  else if n = 0x00F then { t with ev := x.getLsbD 0 }
  else if n = 0x028 then
    let err := t.pciaddr &&& ~~~x &&& 0x0200000000000000
    { t with pciaddr := (x &&& 0xFCFFFFFFFFFFFFFF) ||| err }
  else t

/-- Waiting retraining proceeds (R435). -/
def State.releaseRetrain (s : State) : State :=
  { s with ports := { s.ports with retrain := [] }, regs := { s.regs with notice := s.regs.notice &&& ~~~0x04000000 } }

/-- A write of sys.notice: W1C bits clear, and RETRAIN lets retraining proceed (Table 26-4, R435). -/
def State.writeNotice (s : State) (w : Word) : State :=
  let s := { s with regs := { s.regs with notice := s.regs.notice &&& ~~~(w &&& 0x1DFF0000) } }
  if w.getLsbD 26 then s.releaseRetrain else s

/-- A write of a Die or Module register by a thread (R7, R8, R323, R398, R402). -/
def State.sysWrite (s : State) (g : Group) (t : Thread) (n : Nat) (x : Dword) : State :=
  let w := x.extractLsb' 0 32
  let die := g.place.die
  if n = 0x00A then { s with regs := { s.regs with assist := w &&& 0xF } }
  else if n = 0x00B then
    if w &&& 0x3F == 0 then s else s.modDie die fun d => { d with svcring := w &&& 0x3F }
  else if n = 0x00C then s.modDie die fun d => { d with stale := w }
  else if n = 0x00D then { s with regs := { s.regs with filter := w } }
  else if n = 0x00E then { s with regs := { s.regs with ntarget := w &&& 0x3F7F } }
  else if n = 0x010 then
    s.modDie die fun d =>
      { d with fring := x &&& 0xFFFFFFFFFFFFF000, fringCtx := t.ctxid.toNat, fringPolder := t.polder.toNat }
  else if n = 0x012 then s.command die w
  else if n = 0x014 then s.modDie die fun d => { d with hloc := x }
  else if n = 0x016 then s.modDie die fun d => { d with hrem := x }
  else if n = 0x018 then s.writePlmap w
  else if n = 0x01A then s.writeNotice w
  else if n = 0x01C then { s with regs := { s.regs with pwrcap := w &&& 0x1FF } }
  else if 0x020 ≤ n ∧ n ≤ 0x027 then
    { s with regs := { s.regs with dmactx := s.regs.dmactx.set (n - 0x020) (w &&& 0x80000FFF) } }
  else s

/-- Check 7 of `rdsys` and `wrsys` (R321, R424): the port registers on a compute core, and the register's least
privilege. -/
def sysCheck (g : Group) (t : Thread) (v : View) (write : Bool) : Option TrapInfo :=
  let base := v.base.zeroExtend 64
  match systemReg (sysNumber v) with
  | none => some { cause := .illop, tval := base }
  | some (_, _, rd, wr) =>
    if g.control.isNone && (sysNumber v == 0x028 || sysNumber v == 0x02A) then some { cause := .illop, tval := base }
    else if t.pl.toNat < (if write then wr else rd) then some { cause := .priv, tval := base }
    else none

/-! ## Downstream requests (R426) -/

/-- Bytes of a request, and whether its address is aligned to them (Table 26-2). -/
def Thread.pciSize (t : Thread) : Nat := 2 ^ field t.pciaddr 58 2
def Thread.pciAligned (t : Thread) : Bool := field t.pciaddr 0 56 % t.pciSize = 0
def Thread.pciConfig (t : Thread) : Bool := t.pciaddr.getLsbD 63
def Thread.pciPort (t : Thread) : Nat := field t.pciaddr 60 3
/-- ERR set (Table 26-2). -/
def Thread.pciFail (t : Thread) : Thread := { t with pciaddr := t.pciaddr ||| 0x0200000000000000 }

/-- A request waits until the thread's older stores have been performed (R426). -/
def Thread.pciRoom (t : Thread) (read : Bool) : Option Hold :=
  if t.sb != [] then some .drain else if read then t.classRoom .load else none

/-- A request that awaits its completion leaves; on a port that is down it is completed with an error (R428). -/
def State.pciSend (s : State) (gid op : Nat) (t : Thread) (write : Bool) (data : Dword) : State :=
  let r : PciOut :=
    { gid := gid, op := op, port := t.pciPort, config := t.pciConfig, write := write,
      addr := t.pciaddr &&& 0x00FFFFFFFFFFFFFF, size := t.pciSize, data := data, sent := s.clock }
  let s := { s with ports := { s.ports with outstanding := s.ports.outstanding ++ [r] } }
  if s.ports.rootDown.contains t.pciPort then
    { s with ports := { s.ports with pciIn := s.ports.pciIn ++ [(gid, op, true, 0)] } }
  else s

/-- A posted memory write leaves (R426); on a port that is down it sets ERR (R428). -/
def State.pciPost (s : State) (gid gidx op : Nat) (t : Thread) (data : Dword) : State :=
  if s.ports.rootDown.contains t.pciPort then s.modThread gid gidx Thread.pciFail
  else
    let r : PciOut :=
      { gid := gid, op := op, port := t.pciPort, config := false, write := true,
        addr := t.pciaddr &&& 0x00FFFFFFFFFFFFFF, size := t.pciSize,
        data := BitVec.ofNat 64 (data.toNat % 2 ^ (8 * t.pciSize)), sent := s.clock }
    { s with ports := { s.ports with posted := s.ports.posted ++ [r] } }

/-- A lane that reads sys.pcidata: its destination pair is empty until the completion; an unaligned request fills it with
a free value and sets ERR. -/
def Thread.pciRead (t : Thread) (op d : Nat) : Thread :=
  if t.pciAligned then
    let t := t.markN d 2 .load
    { t with ops := t.ops ++ [{ id := op, cls := some .load, kind := .pciRead d, done := false, cancelled := [] }] }
  else t.pciFail.setPair d (Config.pciUnsent op)

/-- What a read of sys.pcidata sends. -/
def State.pciReadSend (s : State) (gid op : Nat) (t : Thread) : State :=
  if t.pciAligned then s.pciSend gid op t false 0 else s

/-- What a write of sys.pcidata sends. -/
def State.pciWriteSend (s : State) (gid gidx op : Nat) (t : Thread) (data : Dword) : State :=
  if !t.pciAligned then s
  else if t.pciConfig then s.pciSend gid op t true (BitVec.ofNat 64 (data.toNat % 2 ^ (8 * t.pciSize)))
  else s.pciPost gid gidx op t data

/-- What a lane that writes sys.pcidata does: a configuration write holds it until its completion returns. -/
def Thread.pciWritePlan (t : Thread) (next : Pc) : Plan :=
  if !t.pciAligned then .go t.pciFail none else if t.pciConfig then .hold t (.pciWrite next) else .go t none

/-- RDSYS (R332, R426). -/
def execRdsys (o : Rrr) (s : State) : Host.Outcome State Fault Refusal :=
  s.run (.rdsys o) fun x v =>
    let n := sysNumber v
    s.runSetRoom x (.rdsys o) v
      (fun t => if n == 0x02A && (sysCheck x.group t v false).isNone then t.pciRoom true else none)
      (fun t => match sysCheck x.group t v false with
        | some i => .trap i
        | none =>
          if n == 0x02A then .go (t.pciRead s.next.op v.d.toNat) none
          else
            let value := s.sysRead x.group t n
            if systemWidth n = 2 then t.result64 v value else t.result v (value.extractLsb' 0 32))
      (fun went s' =>
        if n == 0x02A then (went.foldl (fun s' t => s'.pciReadSend x.group.gid s.next.op t) s').takePlaces 1 else s')
      false

/-- The source of `wrsys` in a lane. -/
def Thread.sysSource (t : Thread) (v : View) : Dword :=
  if systemWidth (sysNumber v) = 2 then t.d64 v else (t.d32 v).zeroExtend 64

/-- WRSYS (R322, R323, R332, R426): each active lane writes its own Thread register; of a Die or Module register the value
of the lowest active lane position is written. -/
def execWrsys (o : Rrr) (s : State) : Host.Outcome State Fault Refusal :=
  s.run (.wrsys o) fun x v =>
    let n := sysNumber v
    s.runSetRoom x (.wrsys o) v
      (fun t => if n == 0x02A && (sysCheck x.group t v true).isNone then t.pciRoom false else none)
      (fun t => match sysCheck x.group t v true with
        | some i => .trap i
        | none => if n == 0x02A then t.pciWritePlan (v.next x.pc) else .go (t.sysWrite n (t.sysSource v)) none)
      (fun went s' =>
        if n == 0x02A then
          ((x.lanes.filter fun t =>
            laneActive v.tail.modifier t && (x.laneTrap (.wrsys o) v t).isNone && (sysCheck x.group t v true).isNone).foldl (fun s' t =>
            s'.pciWriteSend x.group.gid t.gidx s.next.op t (t.sysSource v)) s').takePlaces 1
        else
          match went with
          | [] => s'
          | t :: _ => s'.sysWrite x.group t n (t.sysSource v))
      false

/-- Numbers of the system registers without behaviour of their own (R323): those but sys.fctl, sys.plmap, sys.notice and
sys.pcidata. -/
def plainSysReg (n : Nat) : Bool :=
  (systemReg n).isSome && !(n == 0x012 || n == 0x018 || n == 0x01A || n == 0x02A)

/-- REGISTER_WRITE (R7, R8, R323): a thread's write of a register without behaviour of its own, where its level and its
core allow it. -/
def execRegisterWrite (gid gidx : Nat) (number : BitVec 14) (value : Dword) (s : State) : Host.Outcome State Fault Refusal :=
  let n := number.toNat
  match s.group gid with
  | none => .next s
  | some g =>
    match g.thread gidx, systemReg n with
    | some t, some (_, scope, _, wr) =>
      let where' := if g.control.isSome then scope != .die else n != 0x028
      if plainSysReg n && where' && wr ≤ t.pl.toNat then
        .next ((s.modThread gid gidx fun t => t.sysWrite n value).sysWrite g t n value)
      else .next s
    | _, _ => .next s

/-- RETRAIN_RELEASE (R435): 1 is written to NOTICE.RETRAIN. -/
def execRetrainRelease (s : State) : Host.Outcome State Fault Refusal := .next s.releaseRetrain

/-- PCIDATA_WRITE (R426): a control-core thread's write of sys.pcidata; a configuration write holds it. -/
def execPcidataWrite (gid gidx : Nat) (value : Dword) (s : State) : Host.Outcome State Fault Refusal :=
  match s.group gid with
  | none => .next s
  | some g =>
    match g.control, g.thread gidx with
    | some _, some t =>
      if t.sb != [] || t.state != .ready then .next s
      else
        let s' := s.modThread gid gidx fun t => match t.pciWritePlan t.pc with
          | .go t _ => t
          | .hold t h => { t with state := .waiting h }
          | .trap _ => t
        .next ((s'.pciWriteSend gid gidx s.next.op t value).takePlaces 1)
    | _, _ => .next s

/-- PCIDATA_READ (R426): a control-core thread's read of sys.pcidata into a pair. -/
def execPcidataRead (gid gidx : Nat) (d : RegNum) (s : State) : Host.Outcome State Fault Refusal :=
  match s.group gid with
  | none => .next s
  | some g =>
    match g.control, g.thread gidx with
    | some _, some t =>
      if t.sb != [] || t.state != .ready || (t.classRoom .load).isSome || d.toNat % 2 != 0 ||
        !(t.isFull d.toNat && t.isFull (d.toNat + 1)) then .next s
      else
        let s' := s.modThread gid gidx fun t => t.pciRead s.next.op d.toNat
        .next ((s'.pciReadSend gid s.next.op t).takePlaces 1)
    | _, _ => .next s

/-! ## eret, wfe, halt and sev -/

/-- ERET (R331). -/
def execEret (o : Rrr) (s : State) : Host.Outcome State Fault Refusal :=
  s.run (.eret o) fun x v =>
    s.runSet x (.eret o) v
      (fun t =>
        if x.group.control.isNone then excluded v
        else match t.returnFromTrap with
          | some t' => .go t' (some t'.pc)
          | none => .trap { cause := .align, tval := t.epc })
      (fun _ s => s) false

/-- A lane that waits for an event (R335): it consumes one that is set. -/
def Thread.atEvent (t : Thread) (next : Pc) : Plan :=
  if t.ev then .go { t with ev := false, fence := .idle } none else .hold { t with fence := .idle } (.wfe next)

/-- WFE (R335). -/
def execWfe (o : Rrr) (s : State) : Host.Outcome State Fault Refusal :=
  s.run (.wfe o) fun x v =>
    s.runSet x (.wfe o) v (fun t => t.atEvent (v.next x.pc))
      (fun went s => if went != [] then s.acquireStep x.group.place.die else s) false

/-- A lane's release before an instruction's own effect (R335, R336): it is held until its mark is complete. -/
def Thread.releaseFirst (t : Thread) (drains : Bool) (kind seq : Nat) (after : Thread → Plan) : Plan :=
  match t.fence with
  | .idle =>
    if drains && !t.drained then .hold t (.fence kind)
    else .hold { t with sb := t.sb ++ [markEntry seq .dev], fence := .releasing seq } (.fence kind)
  | .releasing m => if t.sb.any fun e => e.seq = m then .hold t (.fence kind) else after { t with fence := .idle }
  | .ticking _ => after { t with fence := .idle }

/-- HALT (R335). -/
def execHalt (o : Rrr) (s : State) : Host.Outcome State Fault Refusal :=
  s.run (.halt o) fun x v =>
    s.runSetRoom x (.halt o) v
      (fun t => if x.group.control.isSome && t.fence == .idle then t.bufferRoom 1 else none)
      (fun t =>
        if x.group.control.isNone then excluded v
        else t.releaseFirst true 4 s.next.op fun t => t.atEvent (v.next x.pc))
      (fun went s => (if went != [] then s.acquireStep x.group.place.die else s).takePlaces 1) false

/-- Whether a lane may send an event to a target (R336, Table 19-6). -/
def State.sevOk (s : State) (g : Group) (t : Thread) (w : Word) : Bool :=
  let die := field w 8 6
  let unit := field w 0 7
  let p := s.polder (s.replicaOf g.place.die) t.polder.toNat
  let inPolder := t.polder == 0 ||
    (if die < 32 then p.dies.testBit die
     else if die = 32 then p.cc0.testBit (unit / 2) else p.cc1.testBit (unit / 2))
  w &&& 0xFFFFC080 == 0 && die < 34 && (if die < 32 then unit = 0 else unit < 96) && inPolder

/-- SEV (R336). -/
def execSev (o : Rrr) (s : State) : Host.Outcome State Fault Refusal :=
  s.run (.sev o) fun x v =>
    s.runSetRoom x (.sev o) v
      (fun t => if t.fence == .idle && s.sevOk x.group t (t.b32 v) then t.bufferRoom 1 else none)
      (fun t =>
        if !s.sevOk x.group t (t.b32 v) then .trap { cause := .prot }
        else t.releaseFirst false 5 s.next.op fun t => .go t none)
      (fun went s => (went.foldl (fun s t => s.sevTarget (t.b32 v)) s).takePlaces 1) false

/-! ## tlbi and tlbsync -/

/-- The trap of a `tlbi` in a lane (R333). -/
def State.tlbiTrap (s : State) (g : Group) (t : Thread) (v : View) : Option TrapInfo :=
  let x := v.tail.modifier.x.toNat
  let ctx := (t.b32 v).toNat
  if x = 3 && t.pl != 2 then some { cause := .priv, tval := v.base.zeroExtend 64 }
  else if x < 2 && t.pl != 2 &&
    (4096 ≤ ctx || s.contextEntry g.place.die ctx / 2 ^ 6 % 32 != t.polder.toNat) then some { cause := .prot }
  else none

/-- Dies whose caches a `tlbi` awaits: those that are not lost (R373, R374). -/
def State.liveDies (s : State) : List Nat := (List.range 34).filter fun d => !(s.die d).lost || (s.die d).leftReset

/-- A `tlbi` is broadcast for a lane (R333, R373). -/
def State.startTlbi (s : State) (g : Group) (t : Thread) (v : View) : State :=
  let r : Tlbi :=
    { id := s.next.tlbi, kind := v.tail.modifier.x.toNat, va := t.a64 v, ctx := (t.b32 v).toNat, polder := t.polder.toNat,
      gid := g.gid, gidx := t.gidx, seq := s.next.op, left := s.liveDies }
  { s with tlbis := s.tlbis ++ [r], next := { s.next with tlbi := s.next.tlbi + 1 } }

/-- TLBI (R333). -/
def execTlbi (o : Rrr) (s : State) : Host.Outcome State Fault Refusal :=
  s.run (.tlbi o) fun x v =>
    s.runSet x (.tlbi o) v
      (fun t => match s.tlbiTrap x.group t v with
        | some i => .trap i
        | none => .go t none)
      (fun went s => went.foldl (fun s t => s.startTlbi x.group t v) s) false

/-- Whether a `tlbsync` of a thread is complete (R334, Table 21-4). -/
def State.tlbSynced (s : State) (g : Group) (t : Thread) : Bool :=
  !(s.tlbis.any fun i => i.gid = g.gid && i.gidx = t.gidx) && !s.tablePending g.gid t.gidx s.next.op &&
  !t.sb.any SbEntry.toTable

/-- The monitor tables' digest taken for measurement 2 (R431, Table 22-1). -/
def State.measureTables (s : State) : State :=
  { s with ports := { s.ports with
      measurement2 := Config.sha512 (s.mem.readN (storageKey (s.replicaOf 32) 0x8000) 0x3000) } }

/-- TLBSYNC (R334): then the device-scope acquire step; at monitor level the monitor tables are measured (R431). -/
def execTlbsync (o : Rrr) (s : State) : Host.Outcome State Fault Refusal :=
  s.run (.tlbsync o) fun x v =>
    s.runSet x (.tlbsync o) v (fun t => if s.tlbSynced x.group t then .go t none else .hold t .tlbsync)
      (fun went s =>
        let s := if went != [] then s.acquireStep x.group.place.die else s
        if went.any fun t => t.pl == 2 then s.measureTables else s) false

/-! ## dstep, ctxsv, ctxld and kerase -/

/-- The checks of a `dstep` target pair (R337, Table 13-4). -/
def State.dstepOk (s : State) (t : Thread) (target : Dword) : Bool :=
  field target 58 6 = 0 && field target 0 8 = s.pod.chip && field target 40 8 = t.polder.toNat

/-- A step request of a lane sent (R337): a stale name, an exited thread or an INDEX beyond the group is discarded and counted, and so
is a request that the polder filter drops (R380). -/
def State.requestStep (s : State) (g : Group) (t : Thread) (target : Dword) : State :=
  let name : Dword := (target.extractLsb' 0 48).zeroExtend 64
  let idx := field target 48 10
  let live : Option Nat := match s.findOwn name with
    | some g => (g.thread idx).bind fun t => if t.state == TState.exited then none else some g.gid
    | none => none
  if !s.nameReached t.polder.toNat g.place.die name then s.countFiltered
  else match live with
  | some gid => { s with steps := s.steps ++ [(⟨gid, idx, none⟩ : StepRequest)] }
  | none => s.countStale (nameDie name)

/-- DSTEP (R337). -/
def execDstep (o : Rrr) (s : State) : Host.Outcome State Fault Refusal :=
  s.run (.dstep o) fun x v =>
    s.runSet x (.dstep o) v
      (fun t => if s.dstepOk t (t.a64 v) then .go t none else .trap { cause := .prot })
      (fun went s => went.foldl (fun s t => s.requestStep x.group t (t.a64 v)) s) false

/-- Whether a group's launch runs in replay mode. -/
def State.replayOf (s : State) (g : Group) : Option Launch :=
  s.launches.find? fun l => l.lid = g.lid && l.header.ctl.getLsbD 8

/-- A `ctxsv` takes a group OUT, with its gang partners, and holds it (R338, R351, R410); of a replay launch, once the launch has
stopped, which it is asked to do (R420). -/
def State.takeOut (s : State) (target : Group) : State :=
  match s.replayOf target with
  | some l =>
    if l.stopped then s.leaveCore target.gid 0 true
    else { s with launches := mapIf (fun x => x.lid = l.lid) (fun x => { x with stopAsked := true }) s.launches }
  | none =>
    (s.gangOf target).foldl (fun s p =>
      (s.leaveCore p.gid 0 (p.gid = target.gid)).settleTimer p.place.die p.place.core) s

/-- A `ctxsv` of a lane (R338): the request, and the group taken OUT. One that the polder filter drops on its way is counted, and
never completes (R380). -/
def State.requestSave (s : State) (g : Group) (t : Thread) (name area : Dword) : State :=
  if !s.nameReached t.polder.toNat g.place.die name then s.countFiltered
  else match s.findName name with
  | none =>
    let r : SaveRequest := ⟨false, 0, area, 0, t.ctxid.toNat, t.polder.toNat, t.pl, g.place.die, name, false⟩
    { s with saves := s.saves ++ [r] }
  | some target =>
    let r : SaveRequest := ⟨false, target.gid, area, 0, t.ctxid.toNat, t.polder.toNat, t.pl, target.place.die, name, false⟩
    { s with saves := s.saves ++ [r] }.takeOut target

/-- CTXSV (R338). -/
def execCtxsv (o : Rrr) (s : State) : Host.Outcome State Fault Refusal :=
  s.run (.ctxsv o) fun x v =>
    s.runSet x (.ctxsv o) v (fun t => .go t none)
      (fun went s => went.foldl (fun s t => s.requestSave x.group t (t.a64 v) (t.b64 v)) s) false

/-- Whether a placement operand is legal (R338). -/
def placementOk (w : Word) : Bool := field w 17 15 = 0 && (w.getLsbD 16 || field w 11 5 = 0)

/-- A `ctxld` of a lane (R338): the request to the die that its placement names, unless the polder filter drops it (R380). -/
def State.requestRestore (s : State) (g : Group) (t : Thread) (area : Dword) (placement : Word) : State :=
  let die := field placement 6 5
  if g.place.die = die || s.delivers t.polder.toNat die then
    let r : SaveRequest := ⟨true, 0, area, placement, t.ctxid.toNat, t.polder.toNat, t.pl, die, 0, false⟩
    { s with saves := s.saves ++ [r] }
  else s.countFiltered

/-- CTXLD (R338). -/
def execCtxld (o : Rrr) (s : State) : Host.Outcome State Fault Refusal :=
  s.run (.ctxld o) fun x v =>
    s.runSet x (.ctxld o) v (fun t => if placementOk (t.b32 v) then .go t none else .trap { cause := .prot })
      (fun went s => went.foldl (fun s t => s.requestRestore x.group t (t.a64 v) (t.b32 v)) s) false

/-- KERASE (R339): on a control core of I/O die 0. -/
def execKerase (o : Rrr) (s : State) : Host.Outcome State Fault Refusal :=
  s.run (.kerase o) fun x v =>
    s.runSet x (.kerase o) v
      (fun t => if x.group.control.isNone || x.group.place.die != 32 then excluded v else .go t none)
      (fun went s => if went != [] then { s with ports := { s.ports with keys := false } } else s) false

end Sys2Proof.Machine
end

