-- ==== Sys2Proof/Machine/Service.lean ====
section
/-!
DEFINITION. Service calls and the batch ring (R152, R153, R328, R329), group names looked up (R157), launch headers
(R340, R341), device-side launches (R155, R156) and the registration of folios (R353).
-/
namespace Sys2Proof.Machine

open Sys2Proof

/-! ## Service calls -/

/-- The entries of a die's batch ring (R328). -/
def State.ringEntries (s : State) (die : Nat) : Nat := field (s.die die).svcring 0 6

/-- PROD and CONS of a service group's ring (R328). -/
def Group.ringProd (g : Group) : Nat := natOfBytes (g.scratch.readN 0 4)
def Group.ringCons (g : Group) : Nat := natOfBytes (g.scratch.readN 4 4)

/-- Whether a die's ring takes one more batch after `ahead` others (R328, R329). -/
def State.ringRoom (s : State) (die ahead : Nat) : Bool :=
  match s.serviceGroup die with
  | none => false
  | some g =>
    2048 * (s.ringEntries die + 1) ≤ g.scratchSize &&
    (g.ringProd + 2 ^ 32 - g.ringCons) % 2 ^ 32 + ahead < s.ringEntries die

/-- Whether an `svc` on a die waits (R329): the batches not yet placed count as placed. -/
def State.svcWaits (s : State) (die : Nat) : Bool := !s.ringRoom die (s.batches.filter fun b => b.die = die).length

/-- The service group or a control core, where `svc` traps (R153). -/
def Group.servesItself (g : Group) : Bool := g.control.isSome || (g.place.core = 63 && g.place.slot = 31)

/-- An `svc` call record (Table 6-3). -/
def svcRecord (g : Group) (t : Thread) (v : View) : List Byte :=
  bytesOfNat g.name.toNat 8 ++ bytesOfNat t.wid.toNat 8 ++ bytesOfNat (t.a64 v).toNat 8 ++ bytesOfNat (t.b32 v).toNat 4 ++
  bytesOfNat v.d.toNat 1 ++ bytesOfNat (if v.tail.modifier.x == 1 then 1 else 0) 1 ++ bytesOfNat t.lane 1 ++ [0]

/-- SVC (R152, R153, R329): each active lane's result is awaited behind a die-scope release mark, and the set's records
form one batch. -/
def execSvc (o : Rrr) (s : State) : Host.Outcome State Fault Refusal :=
  s.run (.svc o) fun x v =>
    let die := x.group.place.die
    let itself := x.group.servesItself
    s.runSetRoom x (.svc o) v
      (fun t => if itself then none else if s.svcWaits die then some .svcRing else t.bufferRoom 1)
      (fun t =>
        if itself then .trap { cause := .svc, tval := t.a64 v, detail := t.b32 v }
        else
          let t := t.markN v.d.toNat (if v.tail.modifier.x == 1 then 2 else 1) .svc
          .go { t with sb := t.sb ++ [markEntry s.next.op .die] } none)
      (fun went s' =>
        if went = [] then s'
        else
          let b : SvcBatch :=
            { die := die, records := went.map fun t => (t.gidx, svcRecord x.group t v),
              marks := went.map fun t => (x.group.gid, t.gidx, s.next.op) }
          { s' with batches := s'.batches ++ [b] }.takePlaces 1)
      false

/-- Whether a release mark has taken its last step: its thread's buffer no longer holds it. -/
def State.markDone (s : State) (m : Nat × Nat × Nat) : Bool :=
  match s.thread m.1 m.2.1 with
  | some t => !t.sb.any fun e => e.seq = m.2.2
  | none => true

/-- A batch ring entry (Table 19-5). -/
def SvcBatch.entry (b : SvcBatch) : List Byte :=
  padTo 2048 (padTo 128 (padTo 64 (b.records.flatMap fun r => bytesOfNat r.1 2) ++ bytesOfNat b.records.length 4) ++
    b.records.flatMap Prod.snd)

/-- SVC_BATCH_PLACE (R329): the oldest batch of the die whose callers' marks are complete is written at PROD mod ENTRIES,
PROD advances, and the service group's events are set. A lost die places none (R393). -/
def execSvcBatchPlace (die : Nat) (s : State) : Host.Outcome State Fault Refusal :=
  match s.batches.find? fun b => b.die = die && b.marks.all s.markDone, s.serviceGroup die with
  | some b, some g =>
    if s.ringRoom die 0 && !(s.die die).lost then
      let n := s.ringEntries die
      let prod := g.ringProd
      let m := g.scratch.writeN (2048 + 2048 * (prod % n)) b.entry
      let m := m.writeN 0 (bytesOfNat (prod + 1) 4)
      let s := { s with batches := s.batches.erase b }
      .next ((s.modGroup g.gid fun g => { g with scratch := m }).wakeService die)
    else .next s
  | _, _ => .next s

/-! ## Group names looked up -/

/-- A lane of `gname` awaits its name in a pair (R157). -/
def Thread.issueName (t : Thread) (id : Nat) (wid : Dword) (d : Nat) : Thread :=
  let t := t.markN d 2 .gname
  { t with ops := t.ops ++ [{ id := id, cls := none, kind := .gname wid d, done := false, cancelled := [] }] }

/-- GNAME (R157). -/
def execGname (o : Rrr) (s : State) : Host.Outcome State Fault Refusal :=
  s.run (.gname o) fun x v =>
    s.runSet x (.gname o) v (fun t => .go (t.issueName s.next.op (t.a64 v) v.d.toNat) none)
      (fun _ s' => s'.takePlaces 1) false

/-- The live group of a group's launch that holds the thread of a work identifier (R19, R157). -/
def State.groupOfWid (s : State) (g : Group) (wid : Dword) : Option Group :=
  if g.control.isSome || g.lid = 0 then none
  else
    (s.groups.map Prod.snd).find? fun x =>
      x.control.isNone && x.lid = g.lid && x.live != [] && (wid - x.base).toNat / x.nthr = x.ordinal

/-- The value of a finished lookup put into registers, but for those it no longer writes (R59), wherever the group is. -/
def State.fillResult (s : State) (g : Group) (gidx : Nat) (o : Op) (d : Nat) (ws : List Word) : State :=
  ws.zipIdx.foldl (fun s p =>
    if o.cancelled.contains (d + p.2) then s
    else
      match s.group g.gid with
      | some g => s.fillWherever g gidx (d + p.2) p.1 false
      | none => s) s

/-- GNAME_COMPLETE (R157): the pair is filled with the name, or 0. -/
def execGnameComplete (gid gidx op : Nat) (s : State) : Host.Outcome State Fault Refusal :=
  match s.operation gid gidx op with
  | none => .next s
  | some (g, _, o) =>
    match o.kind with
    | .gname wid d =>
      if o.done then .next s
      else
        let name := ((s.groupOfWid g wid).map Group.name).getD 0
        let s := s.fillResult g gidx o d [name.extractLsb' 0 32, name.extractLsb' 32 32]
        .next (s.modThread gid gidx fun t => t.finishOp op)
    | _ => .next s

/-! ## Launch headers -/

/-- A header's fields (Table 20-1). -/
def headerOf (bs : List Byte) : Header :=
  let f := areaField bs
  { entry := BitVec.ofNat 64 (f 0 8), param := BitVec.ofNat 64 (f 8 8), base := BitVec.ofNat 64 (f 16 8), groups := f 24 8,
    wid := BitVec.ofNat 64 (f 32 8), scratch := f 40 4, ctl := BitVec.ofNat 32 (f 44 4), dies := BitVec.ofNat 32 (f 48 4),
    quantum := BitVec.ofNat 32 (f 52 4), rquant := BitVec.ofNat 32 (f 56 4), preds := f 60 4, done := BitVec.ofNat 64 (f 64 8),
    doneVal := BitVec.ofNat 32 (f 72 4), succn := f 76 2, succOff := f 80 4 }

/-- Width i of a WID word (Table 20-2). -/
def widthOf (wid : Dword) (i : Nat) : Nat := field wid (8 * i) 7
/-- The number of index bits of a group: S (R18). -/
def Header.indexBits (h : Header) : Nat := ((List.range (field h.wid 52 3)).map fun i => widthOf h.wid i).sum
/-- Threads of a group (R18). -/
def Header.threads (h : Header) : Nat := 2 ^ h.indexBits
/-- Whether WID keeps R18. -/
def widOk (wid : Dword) : Bool :=
  let n := field wid 48 3
  let level := field wid 52 3
  wid &&& ~~~0x00777F7F7F7F7F7F == 0 && 1 ≤ n && n ≤ 6 && level ≤ n &&
  ((List.range 6).all fun i => if i < n then 1 ≤ widthOf wid i && widthOf wid i ≤ 64 else widthOf wid i = 0) &&
  ((List.range n).map fun i => widthOf wid i).sum ≤ 64 && ((List.range level).map fun i => widthOf wid i).sum ≤ 10

/-- The checks of a header that need nothing but its bytes and its eligible dies (R341). -/
def headerFieldsOk (bs : List Byte) (h : Header) (node : Bool) (eligible : Nat) : Bool :=
  let dies := ((List.range 32).filter fun d => eligible.testBit d).length
  bs.length = 128 && areaField bs 78 2 = 0 && ((bs.drop 84).all fun b => b == 0) &&
  1 ≤ h.groups && h.groups ≤ 2 ^ 32 && h.scratch ≤ 524288 && h.ctl.extractLsb' 10 22 == 0 && h.tiles ≤ 8 &&
  (h.quantum == 0 || (10 ≤ h.quantum.toNat && h.quantum.toNat ≤ 10000)) && h.rquant.toNat ≤ 2 ^ 24 &&
  h.done.toNat % 4 = 0 && widOk h.wid && h.entry.extractLsb' 0 2 == 0 && h.entry.extractLsb' 56 8 == 0 &&
  (if node then h.preds ≤ 4095 && h.succn ≤ 4095 && h.succOff % 2 = 0
   else h.preds = 0 && h.succn = 0 && h.succOff = 0) &&
  (!h.isGang || h.groups % 4 = 0) &&
  (h.isStream || h.groups ≤ (if h.isGang then 2044 else 2047) * dies) &&
  !(h.isReplay && (h.isGang || h.isStream || 31 < h.groups))

/-- The budget that the entry word at an address declares, where it can be read with execute permission (R145, R341). -/
def State.entryBudget (s : State) (w : Who) (entry : Dword) : Option Nat :=
  match s.locate w .fetch false entry with
  | .error _ => none
  | .ok l =>
    if s.poisoned .fetch false l 4 then none
    else
      let x := wordOfBytes (s.readLoc w.die l 4)
      if field x 3 8 != 0x81 || field x 0 2 != 0 || field x 18 14 != 0 then none else some (field x 11 7 + 1)

/-- Compute dies of a polder that are not lost. -/
def State.liveOf (s : State) (die polder : Nat) : Nat :=
  (((s.polder (s.replicaOf die) polder).dieList.filter fun d => !(s.die d).lost).map fun d => 2 ^ d).sum

/-- The dies that a header makes eligible: those that it names, or all of the polder. -/
def State.eligible (s : State) (w : Who) (h : Header) : Nat :=
  if h.dies == 0 then (s.polder (s.replicaOf w.die) w.polder).dies else h.dies.toNat

/-- Whether a header keeps R341 but for its kernel's entry word. On a control core a header with DIES = 0 is bad; a folio's node
stands on its engine's die. -/
def State.headerOk (s : State) (w : Who) (node : Bool) (bs : List Byte) : Bool :=
  let h := headerOf bs
  !(h.dies.toNat &&& s.liveOf w.die w.polder != h.dies.toNat) && !(h.dies == 0 && 32 ≤ w.die) && !h.isFolio &&
  headerFieldsOk bs h node (s.eligible w h)

/-- A header that is not bad (R341), with DIES replaced by the eligible dies, and its kernel's budget. -/
def State.goodHeader (s : State) (w : Who) (node : Bool) (bs : List Byte) : Option (Header × Nat) :=
  let h := headerOf bs
  if !s.headerOk w node bs then none
  else (s.entryBudget w h.entry).map fun b => ({ h with dies := BitVec.ofNat 32 (s.eligible w h) }, b)

/-- The entry word that a header's check has read: its die is touched (R391), and its token-class read served, a folio engine's at
the home (R387, R388). -/
def State.touchCode (s : State) (w : Who) (node : Bool) (bs : List Byte) : State :=
  if s.headerOk w node bs then
    match s.locate w .fetch false (headerOf bs).entry with
    | .ok l =>
      let s := s.touch w.ctx l.home
      if node && l.token && !l.table then (s.homeTokenRead l.key 4).2 else s.readServed w.die l 4
    | .error _ => s
  else s

/-- The lowest die of a set, `none` of an empty one. -/
def lowestDie (dies : Nat) : Option Nat := (List.range 32).find? fun d => dies.testBit d

/-! ## The pending-launch store -/

/-- Whether a launch holds an entry of its store (R342, R346). -/
def Launch.holdsEntry (l : Launch) : Bool :=
  l.phase == .queued || (l.header.isStream && l.admitted < l.header.groups)

/-- Entries in use of a die's store. -/
def State.storeUsed (s : State) (die : Nat) : Nat := (s.launches.filter fun l => l.store = die && l.holdsEntry).length

/-- `launch.w` operations that await an entry of a die's store (R156): when issued, lane, group, thread and operation. -/
def State.storeWaiters (s : State) (die : Nat) : List (Nat × Nat × Nat × Nat) :=
  s.groups.flatMap fun g => g.2.threads.flatMap fun t => t.2.ops.filterMap fun o =>
    match o.kind with
    | .launch true _ store none _ => if store = die && !o.done && !o.dropped then some (o.id, t.2.lane, g.1, t.1) else none
    | _ => none

/-- A launch accepted into a store (R342): it runs in the context and polder of its issuer; `held` where a halt has stopped that
context (R393). -/
def State.acceptLaunch (s : State) (h : Header) (budget ctx polder store : Nat) (mark : Option (Nat × Nat × Nat))
    (node : Option (Nat × Nat)) (held : Bool) : State :=
  let l : Launch :=
    { lid := s.next.lid, header := h, ctx := ctx, polder := polder, store := store, phase := .queued, mark := mark,
      admitted := 0, budget := budget, dies := [], node := node, retired := 0, sliceRetired := 0, held := held,
      stopAsked := false, stopped := false, restored := [], resumeAt := 0, onCore := none, target := none, before := [], lastKey := 0 }
  { s with launches := s.launches ++ [l], next := { s.next with lid := s.next.lid + 1 } }

/-! ## Folios registered -/

/-- A folio's node header (Table 20-4). -/
def nodeAddress (base : Dword) (i : Nat) : Dword := base + BitVec.ofNat 64 (128 + 128 * i)

/-- A folio's successor list of a node. -/
def State.successors (s : State) (w : Who) (base : Dword) (h : Header) : Option (List Nat × State) :=
  (s.deviceRead w (base + BitVec.ofNat 64 h.succOff) (2 * h.succn)).map fun x =>
    ((List.range h.succn).map fun i => areaField x.1 (2 * i) 2, x.2)

/-- Whether a graph of predecessor counts and successor lists has no cycle: nodes without predecessors are taken away until
none is left. -/
def acyclic (succ : List (List Nat)) : Nat → List (Nat × Nat) → Bool
  | 0, left => left = []
  | fuel + 1, left =>
    match left.find? fun n => n.2 = 0 with
    | none => left = []
    | some n =>
      let out := (succ[n.1]?).getD []
      acyclic succ fuel ((left.filter fun m => m.1 != n.1).map fun m => (m.1, if out.contains m.1 then m.2 - 1 else m.2))

/-- A node of a folio as it is read (R353): its predecessor count and its successors, where its header is good. -/
def State.folioNode (s : State) (w : Who) (base : Dword) (i : Nat) : Option ((Nat × List Nat) × State) :=
  (s.deviceRead w (nodeAddress base i) 128).bind fun x =>
    let s := x.2.touchCode w true x.1
    (s.goodHeader w true x.1).bind fun h => (s.successors w base h.1).map fun l => ((h.1.preds, l.1), l.2)

/-- The nodes of a folio read in order, up to the first that cannot be. -/
def State.readNodes (s : State) (w : Who) (base : Dword) (n : Nat) : List (Nat × List Nat) × State :=
  (List.range n).foldl (fun acc i =>
    if acc.1.length < i then acc
    else match acc.2.folioNode w base i with
      | some x => (acc.1 ++ [x.1], x.2)
      | none => acc) ([], s)

/-- Whether every node of a folio was read and the lists agree (R353): each node's PREDS is the number of lists that name it, and
there is no cycle. -/
def folioAgrees (nodes : List (Nat × List Nat)) (n : Nat) : Bool :=
  let succ := nodes.map Prod.snd
  let preds := nodes.map Prod.fst
  let named := fun i => (succ.filter fun l => l.contains i).length
  nodes.length = n && (succ.all fun l => l.all fun k => k < n) &&
  (preds.zipIdx.all fun p => p.1 = named p.2) && acyclic succ n (preds.zipIdx.map fun p => (p.2, p.1))

/-- Whether the polder filter drops a read that a folio's engine makes of a node: of its header, its successor list or, where `code`,
its kernel's entry word (R380). -/
def State.nodeLost (s : State) (w : Who) (base : Dword) (i : Nat) (code : Bool) : Bool :=
  s.deviceLost w .read (nodeAddress base i) 128 ||
  (s.deviceRead w (nodeAddress base i) 128).any fun x =>
    let h := headerOf x.1
    s.deviceLost w .read (base + BitVec.ofNat 64 h.succOff) (2 * h.succn) ||
    (code && s.headerOk w true x.1 && match s.locate w .fetch false h.entry with
      | .ok l => !s.reaches w.die l
      | .error _ => false)

/-- Whether the polder filter drops a read of a folio's node count or of its nodes (R380). -/
def State.nodesLost (s : State) (w : Who) (base : Dword) (code : Bool) : Bool :=
  s.deviceLost w .read (base + 16) 2 ||
  (s.deviceRead w (base + 16) 2).any fun x =>
    natOfBytes x.1 ≤ 4096 && (List.range (natOfBytes x.1)).any fun i => s.nodeLost w base i code

/-- Whether a registration is never answered: its engine reads what the polder filter keeps away (R380). -/
def State.registrationLost (s : State) (w : Who) (h : Header) : Bool :=
  match (List.range 32).filter fun d => h.dies.toNat.testBit d with
  | [d] => s.nodesLost ⟨d, w.ctx, w.polder, false⟩ h.entry true
  | _ => false

/-- Registration of a folio (R353): whether the header is good, and the state with the folio. -/
def State.registerFolio (s : State) (w : Who) (bs : List Byte) : Bool × State :=
  let h := headerOf bs
  let others := bs.zipIdx.all fun p => p.2 < 8 || (44 ≤ p.2 && p.2 < 52) || p.1 == 0
  let live := s.liveOf w.die w.polder
  match (List.range 32).filter fun d => h.dies.toNat.testBit d with
  | [d] =>
    let who : Who := ⟨d, w.ctx, w.polder, false⟩
    let early := others && h.ctl == 0x200 && live.testBit d && h.entry.toNat % 4096 = 0 && h.entry.extractLsb' 56 8 == 0
    match s.locate who .both false h.entry, s.deviceRead who (h.entry + 16) 2 with
    | .ok l, some (x, s1) =>
      let n := natOfBytes x
      if early && l.token && !l.table && 1 ≤ n && n ≤ 4096 then
        let r := (s1.touch w.ctx l.home).readNodes who h.entry n
        let s := r.2
        if folioAgrees r.1 n then
          let f : Folio :=
            { fid := s.next.lid, die := d, base := h.entry, ctx := w.ctx, polder := w.polder, run := false, err := false,
              runs := 0, nodes := [], stale := false }
          (true, { s with folios := s.folios ++ [f], next := { s.next with lid := s.next.lid + 1 } })
        else (false, s)
      else (false, s)
    | _, _ => (false, s)
  | _ => (false, s)

/-! ## Device-side launches -/

/-- Bytes of the header that a lane names: its own buffered stores over what the die reads (R155, R198). -/
def State.headerBytes (s : State) (die : Nat) (t : Thread) (seq : Nat) (l : Loc) : List Byte :=
  (s.readLoc die l 128).zipIdx.map fun p => (t.bufferByte seq false (l.key + p.2)).getD p.1

/-- The store of a lane's launch (R155, R156): the issuing die's, or that of the lowest die the header names. -/
def storeOf (g : Group) (h : Header) : Nat :=
  if g.control.isSome then (lowestDie h.dies.toNat).getD 0 else g.place.die

/-- The store decides a lane's launch (R156, R341, Table 6-4): the status, or none where it awaits an entry. One whose
context has been halted since it was issued does not start (R393). -/
def State.decideLaunch (s : State) (g : Group) (t : Thread) (bs : List Byte) (wait first : Bool) (mark : Nat) :
    Option Nat × State :=
  let w := whoOf g t
  let h := headerOf bs
  let s := s.touchCode w false bs
  if h.isFolio && t.pl != 0 then
    if s.registrationLost w h then (none, s.countFiltered.dropOp g.gid t.gidx (mark + 1))
    else
      let r := s.registerFolio w bs
      (some (if r.1 then 0 else 2), r.2)
  else
    match s.goodHeader w false bs with
    | none => (some 2, s)
    | some (h, b) =>
      let store := storeOf g h
      if s.storeUsed store < 4096 && (first || s.storeWaiters store = []) then
        (some 0, s.acceptLaunch h b w.ctx w.polder store (some (g.gid, t.gidx, mark)) none
          ((t.ops.find? fun o => o.id = mark + 1).any Op.held))
      else if wait then (none, s) else (some 1, s)

/-- The header's location and the checks of a lane's launch (R155). -/
def State.launchLoc (s : State) (g : Group) (t : Thread) (v : View) : Except TrapInfo Loc :=
  s.globalAccess g t (t.a64 v) 0 128 .read

/-- A launch operation of a lane: its release mark, and the awaited status. -/
def Thread.issueLaunch (t : Thread) (seq : Nat) (wait : Bool) (l : Loc) (store d : Nat) : Thread :=
  let t := t.mark d (if wait then .launchW else .launch)
  { t with
      sb := t.sb ++ [markEntry seq .dev]
      ops := t.ops ++ [{ id := seq + 1, cls := none, kind := .launch wait l store none d, done := false, cancelled := [] }] }

/-- A launch's status decided, to be returned (R156). -/
def Thread.setStatus (t : Thread) (op : Nat) (status : Option Nat) : Thread :=
  t.modOp op fun o => match o.kind with
    | .launch wait l store _ d => { o with kind := .launch wait l store status d }
    | _ => o

/-- `launch` and `launch.w` in a lane set (R155, R156): the lanes are submitted in ascending position, once no access that a
barrier orders before the read of the header is left (R41). The read does not wait for an older acquire of the lane; DESIGN CHOICE, log
entry 95. -/
def State.runLaunch (s : State) (i : Instr) (wait : Bool) : Host.Outcome State Fault Refusal :=
  s.run i fun x v =>
    let seq := s.next.op
    let bytes := fun (t : Thread) (l : Loc) => s.headerBytes x.group.place.die t seq l
    s.runSetRoom x i v (fun t => if x.group.heldByOrder t seq then some .drain else t.bufferRoom 1)
      (fun t => match s.launchLoc x.group t v with
        | .error e => .trap e
        | .ok l => .go (t.issueLaunch seq wait l (storeOf x.group (headerOf (bytes t l))) v.d.toNat) none)
      (fun went s' => (went.foldl (fun s' t =>
        match s.launchLoc x.group t v with
        | .error _ => s'
        | .ok l =>
          let s' := (s'.touch t.ctxid.toNat l.home).readServed x.group.place.die l 128
          let mine := (storeOf x.group (headerOf (bytes t l)))
          let ahead := (s'.storeWaiters mine).any fun w => w.1 < seq + 1 || w.2.1 < t.lane
          let r := s'.decideLaunch x.group t (bytes t l) wait (!ahead) seq
          r.2.modThread x.group.gid t.gidx fun y => y.setStatus (seq + 1) r.1) s').takePlaces 2)
      false

/-- LAUNCH (R155). -/
def execLaunch (o : Rrr) (s : State) : Host.Outcome State Fault Refusal := s.runLaunch (.launch o) false
/-- LAUNCH_W (R156). -/
def execLaunchW (o : Rrr) (s : State) : Host.Outcome State Fault Refusal := s.runLaunch (.launchW o) true

/-- The entry word that the check of a launch's header reads (R341). -/
def State.kernelReads (s : State) (w : Who) (bs : List Byte) : List Loc :=
  if !s.headerOk w false bs then []
  else
    match s.locate w .fetch false (headerOf bs).entry with
    | .error _ => []
    | .ok l => if s.poisoned .fetch false l 4 then [] else [l]

/-- The header of a launch, and, once it can be read, the entry word that it names. -/
def State.launchReads (s : State) (g : Group) (t : Thread) (seq : Nat) (l : Loc) : List Loc :=
  if s.readable g.place.die l then l :: s.kernelReads (whoOf g t) (s.headerBytes g.place.die t seq l) else [l]

/-- Whether a waiting `launch.w` is not to be decided yet: its store has no free entry, or an older one waits (R156). -/
def State.launchWaits (s : State) (t : Thread) (o : Op) (store : Nat) : Bool :=
  ((s.storeWaiters store).any fun w => w.1 < o.id || (w.1 = o.id && w.2.1 < t.lane)) || 4096 ≤ s.storeUsed store

/-- A waiting `launch.w` whose turn has come is decided: the header is copied as it stands when the store takes it (R156,
R340). One that can no longer be read is bad; DESIGN CHOICE, log entry 35. What is read again may need tokens first (R385), or never be
answered (R380); its home stands in the context's mask before it is asked for (R391). -/
def State.decideWaiting (s : State) (g : Group) (t : Thread) (o : Op) (l : Loc) (store : Nat) : Option Nat × State :=
  if s.launchWaits t o store then (none, s)
  else
    match s.locate (whoOf g t) .read false l.va with
    | .error _ => (some 2, s)
    | .ok l =>
      let die := g.place.die
      match (s.launchReads g t o.id l).find? fun r => !s.readable die r with
      | some r =>
        let s := s.touch r.ctx r.home
        (none, if s.reaches die r then s.requestTokens die r.polder r.key false else s.countFiltered.dropOp g.gid t.gidx o.id)
      | none =>
        let s' := (s.touch t.ctxid.toNat l.home).readServed die l 128
        s'.decideLaunch g t (s.headerBytes die t o.id l) true true (o.id - 1)

/-- LAUNCH_STATUS_RETURN (R155, R156): a decided launch fills its register; a waiting `launch.w` is decided first when an
entry is free. -/
def execLaunchStatusReturn (gid gidx op : Nat) (s : State) : Host.Outcome State Fault Refusal :=
  match s.operation gid gidx op with
  | none => .next s
  | some (g, t, o) =>
    match o.kind with
    | .launch _ l store status d =>
      if o.done || o.dropped then .next s
      else
        let r := match status with
          | some n => (some n, s)
          | none => s.decideWaiting g t o l store
        match r.1 with
        | none => .next r.2
        | some n =>
          let s := r.2.fillResult g gidx o d [BitVec.ofNat 32 n]
          .next (s.modThread gid gidx fun t => t.finishOp op)
    | _ => .next s

end Sys2Proof.Machine
end

