-- ==== Sys2Proof/Machine/Flags.lean ====
section
/-!
DEFINITION. Floating-point flags, enables and rounding modes of a lane (R78, R94, R95, R108, R161, R162).
-/
namespace Sys2Proof.Machine

open Sys2Proof

/-- The rounding mode and saturation that an instruction gives a lane: its own sr.fpctl.RND where RM is dynamic (R78). -/
def Thread.mode (t : Thread) (m : Modifier) : Mode :=
  { rm := if m.rm == 5 then field t.fpctl 0 3 else m.rm.toNat, sat := m.sat }

/-- Exception bits as sr.fpflags lays them out (Table 3-3). -/
def flagWord (flags : Nat) : Word := BitVec.ofNat 32 (flags % 32)

/-- The enables of sr.fpctl, in the places of sr.fpflags (Table 3-2). -/
def Thread.fpEnables (t : Thread) : Word := (t.fpctl >>> 8) &&& 0x1F

/-- A lane's exceptions set in its sr.fpflags, which are sticky (R94). -/
def Thread.raise (t : Thread) (flags : Nat) : Thread := { t with fpflags := t.fpflags ||| flagWord flags }

/-- What a lane does with a floating-point result: FPEXC with its registers and flags unchanged where an enabled exception
is raised, else the flags are set and the result written (R95, R162). `write` writes the destination. -/
def Thread.fpFinish (t : Thread) (flags : Nat) (write : Thread → Thread) : Plan :=
  if (flagWord flags &&& t.fpEnables) != 0 then .trap { cause := .fpExc, detail := flagWord flags }
  else .go ((write t).raise flags) none

/-- The union of exceptions of several elements. -/
def flagUnion (fs : List Nat) : Nat := fs.foldl (fun a b => a ||| b) 0

end Sys2Proof.Machine
end

