-- ==== Sys2Proof/Machine/Tile.lean ====
section
/-!
DEFINITION. Tile registers and matrix instructions (major opcodes 0xD0 to 0xD9, R246 to R266, R105 to R111). An instruction
checks its operands and joins the group's tile operations at issue; TILE_COMPLETE performs it.
-/
namespace Sys2Proof

/-- Whether an instruction is counted in the tile class (Table 9-4). -/
def Instr.tileCounted : Instr → Bool
  | .tld _ => true
  | .tst _ => true
  | .trd _ => true
  | .twr _ => true
  | _ => false

/-- Whether an instruction reads or writes memory, and with what need. -/
def Instr.tileNeed : Instr → Option Machine.Need
  | .tld _ => some .read
  | .tst _ => some .write
  | _ => none

end Sys2Proof

namespace Sys2Proof.Machine

open Sys2Proof

/-! ## Elements and bits -/

/-- An element's bytes as a number. -/
def Group.tileElem (g : Group) (t r c w : Nat) : Nat := natOfBytes (g.tileMem.readN (tileAt t r c w) w)

/-- A bitmap bit (R247). -/
def Group.tileBit (g : Group) (t r c : Nat) : Bool := !g.bitmapZero.contains (tileAt t r c 1)

/-- An element written, which ends an error in it. -/
def Group.setTileElem (g : Group) (t r c w x : Nat) : Group :=
  { g with tileMem := g.tileMem.writeN (tileAt t r c w) (bytesOfNat x w),
           tileErrors := g.tileErrors.filter fun e => e.2 || !(tileAt t r c w ≤ e.1 && e.1 < tileAt t r c w + w) }

/-- A bitmap bit written, which ends an error in it. -/
def Group.setTileBit (g : Group) (t r c : Nat) (b : Bool) : Group :=
  let zs := g.bitmapZero.filter fun k => k != tileAt t r c 1
  { g with bitmapZero := if b then zs else insertBy id (tileAt t r c 1) zs,
           tileErrors := g.tileErrors.filter fun e => e != (tileAt t r c 1, true) }

/-- An element as an operand: +0 where a byte of it carries an uncorrectable error (R111). -/
def Group.operandElem (g : Group) (t r c w : Nat) : Nat :=
  if g.tileErrors.any fun e => !e.2 && tileAt t r c w ≤ e.1 && e.1 < tileAt t r c w + w then 0 else g.tileElem t r c w

/-- A bitmap bit as an operand: 0 where it carries an uncorrectable error (R111). -/
def Group.operandBit (g : Group) (t r c : Nat) : Bool :=
  !g.tileErrors.contains (tileAt t r c 1, true) && g.tileBit t r c

/-- An element or bitmap bit that is replaced: tile, row, column, whether a bit. -/
abbrev Spot := Nat × Nat × Nat × Bool

/-- The element of w bytes, or the bitmap bit, that an error lies in (R247). -/
def spotOf (w : Nat) (e : Nat × Bool) : Spot :=
  (e.1 / 65536, e.1 % 65536 / 512, if e.2 then e.1 % 512 else e.1 % 512 / w, e.2)

/-- One replacement logged in sr.terr (R111, Table 3-4). MULTI, which is cleared by writing 1, stays where STICKY alone was cleared
(DESIGN CHOICE, log entry 79). -/
def logReplacement (terr : Word) (e : Spot) : Word :=
  if terr.getLsbD 31 then terr ||| 0x40000000
  else (terr &&& 0x40000000) ||| BitVec.ofNat 32 (2 ^ 31 + e.1 % 8 * 2 ^ 20 + e.2.1 % 128 * 2 ^ 13 + e.2.2.1 % 512 * 2 ^ 4)

/-- The elements and bits of a group that an instruction reads and that carry an error; `width` gives a tile's element width. An
element counts once, however often the instruction uses it, and apart from its own bitmap bit (DESIGN CHOICE, log entry
79). -/
def Group.replaced (g : Group) (width : Nat → Nat) (reads : Spot → Bool) : List Spot :=
  ((g.tileErrors.map fun e => spotOf (width (e.1 / 65536)) e).eraseDups).filter reads

/-- sr.terr after one instruction's replacements, logged in ascending order of tile, row and element (R111). -/
def logSpots (terr : Word) (hits : List Spot) : Word :=
  (sortBy (fun (e : Spot) => 65536 * 2 * e.1 + 1024 * e.2.1 + 2 * e.2.2.1) hits).foldl logReplacement terr

/-- The errors among the elements and bits that an instruction reads are logged. -/
def Group.logErrors (g : Group) (width : Nat → Nat) (reads : Spot → Bool) : Group :=
  { g with terr := logSpots g.terr (g.replaced width reads) }

/-- A shape that is valid (R249). -/
def shapeValid (sh : Word) : Bool :=
  1 ≤ shapeRows sh && shapeRows sh ≤ 128 && 1 ≤ shapeCols sh && shapeCols sh * shapeWidth sh ≤ 512

/-- All pairs below two bounds, by rows. -/
def gridOf (m n : Nat) : List (Nat × Nat) := (List.range m).flatMap fun r => (List.range n).map fun c => (r, c)

/-! ## Operands of an instruction -/

/-- The tiles that an instruction reads, and those it writes (R252). -/
def tileUse (i : Instr) (v : View) : List Nat × List Nat :=
  let d := v.d.toNat
  let a := v.a.toNat
  let b := v.b.toNat
  match i with
  | .tld _ => ([], [d])
  | .tst _ => ([d], [])
  | .tzero _ => ([], [d])
  | .tmma _ => ([a, b, d], [d])
  | .tmmas _ => ([a, b, d], [d])
  | .tscal _ => ([a, b, d], [d])
  | .trd _ => ([b], [])
  | .twr _ => ([], [d])
  | .tcvt _ => ([a], [d])
  | .ttr _ => ([a], [d])
  | _ => ([], [])

/-- The shapes of tiles d, a and b as the instruction reads them at issue, 0 where a field names no tile (R249). -/
def tileShapes (i : Instr) (v : View) (g : Group) : List Word :=
  let use := (tileUse i v).1 ++ (tileUse i v).2
  [v.d, v.a, v.b].map fun f => if use.contains f.toNat then g.shape f.toNat else 0

/-- Element widths of a product's inputs and of its accumulator (Table 12-3). -/
def productWidths (x : Nat) : Nat × Nat :=
  if x < 3 then (1, 4) else if x < 5 then (2, 4) else if x = 5 then (4, 4) else (8, 8)

/-- Whether the shapes of an instruction meet its entry's conditions (R249, R259, R261, R262, R264, R265). -/
def tileShapesOk (i : Instr) (v : View) (g : Group) : Bool :=
  let d := g.shape v.d.toNat
  let a := g.shape v.a.toNat
  let b := g.shape v.b.toNat
  let m := v.tail.modifier
  let product := fun (_ : Unit) =>
    let w := productWidths m.x.toNat
    shapeValid d && shapeValid a && shapeValid b && shapeWidth a = w.1 && shapeWidth b = w.1 && shapeWidth d = w.2 &&
    shapeRows a = shapeRows d && shapeCols a = shapeRows b && shapeCols b = shapeCols d && shapeCols a ≤ 128 &&
    (!m.c.getLsbD 0 || g.ctl.getLsbD 6)
  match i with
  | .tzero _ => true
  | .tld _ => shapeValid d
  | .tst _ => shapeValid d
  | .twr _ => shapeValid d
  | .trd _ => shapeValid b
  | .tmma _ => product ()
  | .tmmas _ => product ()
  | .tscal _ =>
    shapeValid d && shapeValid a && shapeValid b && shapeWidth d = 4 && shapeWidth a = 4 && shapeWidth b = 4 &&
    shapeRows a = shapeRows d && shapeCols a = shapeCols d && 2 ≤ shapeRows b &&
    max (shapeRows d) (shapeCols d) ≤ shapeCols b
  | .tcvt _ =>
    let width := fun (f : RegNum) => ((numFormat (descCode f)).map NumFormat.width).getD 0
    shapeValid d && shapeValid a && shapeRows d = shapeRows a && shapeCols d = shapeCols a &&
    8 * shapeWidth a = width m.c && 8 * shapeWidth d = width v.b
  | .ttr _ =>
    shapeValid d && shapeValid a && shapeRows d = shapeCols a && shapeCols d = shapeRows a && shapeWidth d = shapeWidth a
  | _ => true

/-- Bytes of a row in memory of `tld` and `tst` (R256, R257). -/
def tileRowBytes (sh : Word) (bitmap : Bool) : Nat :=
  if bitmap then (shapeCols sh + 7) / 8 else shapeCols sh * shapeWidth sh

/-- Whether `tld` or `tst` moves the bitmap alone. -/
def movesBitmap (i : Instr) (v : View) : Bool :=
  match i with
  | .tld _ => v.tail.modifier.x.toNat % 4 = 2
  | _ => v.tail.modifier.x.toNat % 4 = 1

/-- The rows of `tld` or `tst` in memory, checked before anything is moved (R256). -/
def State.tileRows (s : State) (g : Group) (t : Thread) (i : Instr) (v : View) (need : Need) :
    Except TrapInfo (List (List (Loc × Nat))) :=
  let sh := g.shape v.d.toNat
  let bm := movesBitmap i v
  let n := tileRowBytes sh bm
  let base := t.a64 v
  let pitch : Int := if v.tail.modifier.x.getLsbD 2 then (t.reg v.b.toNat).toInt else n
  if base.extractLsb' 56 8 != 0 then .error (protTrap need base)
  else if !bm && (base.toNat % shapeWidth sh != 0 || pitch % shapeWidth sh != 0) then
    .error { cause := .align, tval := base, access := need.code }
  else
    (List.range (shapeRows sh)).foldr (fun (r : Nat) acc =>
      match s.enginePieces g t need (base + BitVec.ofInt 64 ((r : Int) * pitch)) n, acc with
      | .error e, _ => .error e.1
      | .ok _, .error e => .error e
      | .ok ps, .ok rows => .ok (ps :: rows)) (.ok [])

/-- The trap that every active lane of a tile instruction takes at check 7, if any (R249, R251, R263). -/
def tileTrap (i : Instr) (v : View) (g : Group) : Option TrapInfo :=
  if !tileShapesOk i v g then some { cause := .illop, tval := v.base.zeroExtend 64 }
  else
    match tilePair i v g with
    | none => none
    | some r =>
      if r % 2 = 1 then some { cause := .illop, tval := v.base.zeroExtend 64 }
      else if g.budget ≤ r + 1 then some { cause := .regBudget, tval := BitVec.ofNat 64 (r + 1) }
      else none

/-! ## Issue -/

/-- The lanes that execute: active, and without a trap before their own execution. -/
def Issue.acting (x : Issue) (i : Instr) (v : View) : List Thread :=
  x.lanes.filter fun t => laneActive v.tail.modifier t && (x.laneTrap i v t).isNone

/-- The wait of a lane set before it issues: for room in the class, for its older stores, or for the second register of a
pair (R210, R253, R263). -/
def tileRoom (x : Issue) (i : Instr) (v : View) (t : Thread) : Option Hold :=
  if (tileTrap i v x.group).isSome then none
  else
    let pair := match tilePair i v x.group with
      | some r => (x.acting i v).filterMap fun t =>
          if t.isFull (r + 1) || v.tail.modifier.teb then none else some (t.gidx, r + 1)
      | none => []
    if pair != [] then some (.regs pair)
    else if i.tileCounted then
      match t.classRoom .tile with
      | some h => some h
      | none => if i.tileNeed.isSome && t.sb != [] then some .drain else none
    else none

/-- A lane's REGEMPTY at the second register of a pair under TEB (R79, R263). -/
def pairEmpty (x : Issue) (i : Instr) (v : View) (t : Thread) : Option TrapInfo :=
  match tilePair i v x.group with
  | some r =>
    if v.tail.modifier.teb && !t.isFull (r + 1) then some { cause := .regEmpty, tval := BitVec.ofNat 64 (r + 1) } else none
  | none => none

/-- A lane after the issue of a tile instruction: counted in its tile class, a `trd` destination marked empty. -/
def Thread.issueTile (t : Thread) (i : Instr) (v : View) (g : Group) (id : Nat) : Thread :=
  let t := match i with
    | .trd _ => t.markN v.d.toNat (if (tilePair i v g).isSome then 2 else 1) .trd
    | _ => t
  if i.tileCounted then
    { t with ops := t.ops ++ [{ id := id, cls := some .tile, kind := .tile id, done := false, cancelled := [] }] }
  else t

/-- The tile operation that lanes issue. The first lane's rounding mode is the instruction's (R251). -/
def makeTileOp (x : Issue) (i : Instr) (v : View) (went : List Thread) (id : Nat) (rows : List (List (Loc × Nat))) : TileOp :=
  let g := x.group
  let arg := fun (t : Thread) =>
    (t.gidx, t.a32 v, (if (tilePair i v g).isSome then t.pair v.b.toNat else (t.reg v.b.toNat).zeroExtend 64), v.d.toNat)
  let gang := match i with
    | .tmma _ => v.tail.modifier.c.getLsbD 0
    | .tmmas _ => v.tail.modifier.c.getLsbD 0
    | _ => false
  { id := id, die := g.place.die, core := g.place.core, gid := g.gid, lanes := went.map fun t => (t.gidx, id), instr := i,
    shapes := tileShapes i v g, rm := ((went.head?).map fun t => (t.mode v.tail.modifier).rm).getD 0, rows := rows,
    args := went.map arg, rank := g.place.core % 4, gang := if gang then some g.gangIssued else none }

/-- A tile instruction in a lane set (R249 to R251). -/
def State.runTile (s : State) (i : Instr) : Host.Outcome State Fault Refusal :=
  s.run i fun x v =>
    let lead := (x.acting i v).head?
    let rows : Except TrapInfo (List (List (Loc × Nat))) :=
      match tileTrap i v x.group, i.tileNeed, lead with
      | some e, _, _ => .error e
      | none, some need, some t => s.tileRows x.group t i v need
      | none, _, _ => .ok []
    let plan := fun (t : Thread) =>
      match rows, pairEmpty x i v t with
      | .error e, _ => Plan.trap e
      | .ok _, some e => .trap e
      | .ok _, none => .go (t.issueTile i v x.group s.next.op) none
    s.runSetRoom x i v (tileRoom x i v) plan
      (fun went s' =>
        match rows with
        | .error _ => s'
        | .ok rs =>
          if went = [] then s'
          else
            let op := makeTileOp x i v went s.next.op rs
            let s' := (rs.flatten).foldl (fun s p => s.touch p.1.ctx p.1.home) s'
            let s' := if op.gang.isSome then s'.modGroup x.group.gid fun g => { g with gangIssued := g.gangIssued + 1 } else s'
            { s' with tileOps := s'.tileOps ++ [op] }.takePlaces 1) false

/-- TLD (R256). -/
def execTld (o : Rrr) (s : State) : Host.Outcome State Fault Refusal := s.runTile (.tld o)
/-- TST (R257). -/
def execTst (o : Rrr) (s : State) : Host.Outcome State Fault Refusal := s.runTile (.tst o)
/-- TZERO (R258). -/
def execTzero (o : Rrr) (s : State) : Host.Outcome State Fault Refusal := s.runTile (.tzero o)
/-- TMMA (R259). -/
def execTmma (o : Rrr) (s : State) : Host.Outcome State Fault Refusal := s.runTile (.tmma o)
/-- TMMAS (R259). -/
def execTmmas (o : Rrr) (s : State) : Host.Outcome State Fault Refusal := s.runTile (.tmmas o)
/-- TSCAL (R262). -/
def execTscal (o : Rrr) (s : State) : Host.Outcome State Fault Refusal := s.runTile (.tscal o)
/-- TRD (R263). -/
def execTrd (o : Rrr) (s : State) : Host.Outcome State Fault Refusal := s.runTile (.trd o)
/-- TWR (R263). -/
def execTwr (o : Rrr) (s : State) : Host.Outcome State Fault Refusal := s.runTile (.twr o)
/-- TCVT (R264). -/
def execTcvt (o : Rrr) (s : State) : Host.Outcome State Fault Refusal := s.runTile (.tcvt o)
/-- TTR (R265). -/
def execTtr (o : Rrr) (s : State) : Host.Outcome State Fault Refusal := s.runTile (.ttr o)

/-! ## Products -/

/-- The value by which an element enters a product (R107). -/
def enterElem (x e : Nat) : FVal :=
  match x with
  | 0 => fmtF32.unpack (convert .dm8 .f32 ⟨0, false⟩ false e).1
  | 3 => fmtH16.unpack e
  | 4 => fmtBf16.unpack e
  | 5 => fmtF32.unpack e
  | _ => fmtF64.unpack e

/-- One step of R105 on an accumulator. -/
def productStep (x rm acc a b : Nat) : Rounded :=
  if x = 1 || x = 2 then
    (intBits 32 (readInt true 32 acc + readInt (x = 1) 8 a * readInt (x = 1) 8 b), 0)
  else
    let f := if x = 6 then fmtF64 else fmtF32
    f.fma ⟨rm, false⟩ (enterElem x a) (enterElem x b) (f.unpack acc)

/-- One element of a product, with its exceptions (R105, R109): `ga` holds A, `ta` and `tb` number the tiles. -/
def productElem (ga g : Group) (sparse : Bool) (x rm ta tb w k i j acc : Nat) : Rounded :=
  (List.range k).foldl (fun (r : Rounded) n =>
    if sparse && !(ga.operandBit ta i n && g.operandBit tb n j) then r
    else
      let q := productStep x rm r.1 (ga.operandElem ta i n w) (g.operandElem tb n j w)
      (q.1, r.2 ||| q.2)) (acc, 0)

/-- A whole product in one group (R105, R259): D and the exceptions. -/
def Group.product (g ga : Group) (v : View) (sparse : Bool) (shapes : List Word) (rm ta : Nat) : Group × Nat :=
  let sd := (shapes[0]?).getD 0
  let sa := (shapes[1]?).getD 0
  let x := v.tail.modifier.x.toNat
  let w := productWidths x
  let d := v.d.toNat
  (gridOf (shapeRows sd) (shapeCols sd)).foldl (fun (acc : Group × Nat) p =>
    let r := productElem ga g sparse x rm ta v.b.toNat w.1 (shapeCols sa) p.1 p.2 (g.operandElem d p.1 p.2 w.2)
    (acc.1.setTileElem d p.1 p.2 w.2 r.1, acc.2 ||| r.2)) (g, 0)

/-- Whether a product reads an element or a bit of a tile as A, at (i, k), or else as B, at (k, j), or D, at (i, j) (R109,
R111). `asA` and `own` say which roles the tiles of the asked group play. -/
def productReads (g ga : Group) (v : View) (sparse : Bool) (shapes : List Word) (ta : Nat) (asA own : Bool)
    (e : Spot) : Bool :=
  let sd := (shapes[0]?).getD 0
  let m := shapeRows sd
  let n := shapeCols sd
  let k := shapeCols ((shapes[1]?).getD 0)
  let r := e.2.1
  let c := e.2.2.1
  let live := fun i q j => !sparse || (ga.operandBit ta i q && g.operandBit v.b.toNat q j)
  let a := asA && e.1 = ta && r < m && c < k && (if e.2.2.2 then sparse else (List.range n).any fun j => live r c j)
  let b := own && e.1 = v.b.toNat && r < k && c < n && (if e.2.2.2 then sparse else (List.range m).any fun i => live i r c)
  let d := own && e.1 = v.d.toNat && r < m && c < n && !e.2.2.2
  a || b || d

/-- The element width of a tile that a product uses: D's, or A's and B's. -/
def productWidth (v : View) (t : Nat) : Nat :=
  let w := productWidths v.tail.modifier.x.toNat
  if t = v.d.toNat then w.2 else w.1

/-! ## Completion -/

/-- Bits of a row packed into bytes, bit c at bit c mod 8 of byte c / 8 (R257). -/
def packBits (n : Nat) (bit : Nat → Bool) : List Byte :=
  (List.range ((n + 7) / 8)).map fun i =>
    BitVec.ofNat 8 ((List.range 8).foldl (fun acc b => if 8 * i + b < n && bit (8 * i + b) then acc + 2 ^ b else acc) 0)

/-- A row that `tld` has read enters the tile (R256). -/
def Group.loadTileRow (g : Group) (t r mode : Nat) (sh : Word) (bs : List Byte) : Group :=
  let w := shapeWidth sh
  (List.range (shapeCols sh)).foldl (fun g c =>
    if mode = 2 then g.setTileBit t r c (((bs[c / 8]?).getD 0).getLsbD (c % 8))
    else
      let x := natOfBytes ((bs.drop (c * w)).take w)
      (g.setTileElem t r c w x).setTileBit t r c (mode = 0 || x != 0)) g

/-- The bytes of a row that `tst` writes (R257, R266). -/
def Group.tileRowOut (g : Group) (t r : Nat) (bitmap : Bool) (sh : Word) : List Byte :=
  if bitmap then packBits (shapeCols sh) fun c => g.operandBit t r c
  else (List.range (shapeCols sh)).flatMap fun c => bytesOfNat (g.operandElem t r c (shapeWidth sh)) (shapeWidth sh)

/-- `tscal` on one element (R110). -/
def scaleStep (rm d p sr sc : Nat) : Rounded :=
  let f := fmtF32
  let s := f.mul ⟨rm, false⟩ (f.unpack sr) (f.unpack sc)
  let r := f.fma ⟨rm, false⟩ (f.unpack p) (f.unpack s.1) (f.unpack d)
  (r.1, s.2 ||| r.2)

/-- The result of an instruction that acts on the group's tiles alone, with its exceptions, and what it reads. -/
def Group.tileResult (g : Group) (op : TileOp) (v : View) : Group × Nat :=
  let sd := (op.shapes[0]?).getD 0
  let sa := (op.shapes[1]?).getD 0
  let d := v.d.toNat
  let a := v.a.toNat
  let b := v.b.toNat
  let wd := shapeWidth sd
  let wa := shapeWidth sa
  let grid := gridOf (shapeRows sd) (shapeCols sd)
  match op.instr with
  | .tzero _ =>
    ({ g with tileMem := g.tileMem.filter fun c => !(65536 * d ≤ c.1 && c.1 < 65536 * (d + 1)),
              bitmapZero := g.bitmapZero.filter fun c => !(65536 * d ≤ c && c < 65536 * (d + 1)),
              tileErrors := g.tileErrors.filter fun e => e.1 / 65536 != d }, 0)
  | .tscal _ =>
    grid.foldl (fun (acc : Group × Nat) p =>
      let r := scaleStep op.rm (g.operandElem d p.1 p.2 4) (g.operandElem a p.1 p.2 4) (g.operandElem b 0 p.1 4)
        (g.operandElem b 1 p.2 4)
      (acc.1.setTileElem d p.1 p.2 4 r.1, acc.2 ||| r.2)) (g, 0)
  | .tcvt _ =>
    match numFormat (descCode v.tail.modifier.c), numFormat (descCode v.b) with
    | some sf, some df =>
      grid.foldl (fun (acc : Group × Nat) p =>
        let r := convert sf df ⟨op.rm, v.tail.modifier.sat⟩ (v.b.getLsbD 0) (g.operandElem a p.1 p.2 wa)
        ((acc.1.setTileElem d p.1 p.2 wd r.1).setTileBit d p.1 p.2 (g.operandBit a p.1 p.2), acc.2 ||| r.2)) (g, 0)
    | _, _ => (g, 0)
  | .ttr _ =>
    (grid.foldl (fun acc p =>
      (acc.setTileElem d p.1 p.2 wd (g.operandElem a p.2 p.1 wd)).setTileBit d p.1 p.2 (g.operandBit a p.2 p.1)) g, 0)
  | .twr _ =>
    (op.args.foldl (fun acc q =>
      let r := field q.2.1 16 16
      let c := field q.2.1 0 16
      if shapeRows sd ≤ r || shapeCols sd ≤ c then acc
      else if v.tail.modifier.x == 1 then acc.setTileBit d r c (q.2.2.1.getLsbD 0)
      else acc.setTileElem d r c wd q.2.2.1.toNat) g, 0)
  | _ => (g, 0)

/-- Whether an instruction on the group's tiles alone reads an element or a bit. -/
def tileReads (op : TileOp) (v : View) (e : Spot) : Bool :=
  let sd := (op.shapes[0]?).getD 0
  let sa := (op.shapes[1]?).getD 0
  let sb := (op.shapes[2]?).getD 0
  let within := fun (t : Nat) (sh : Word) => e.1 = t && e.2.1 < shapeRows sh && e.2.2.1 < shapeCols sh
  match op.instr with
  | .tscal _ =>
    !e.2.2.2 && (within v.d.toNat sd || within v.a.toNat sa ||
      (e.1 = v.b.toNat && (e.2.1 = 0 && e.2.2.1 < shapeRows sd || e.2.1 = 1 && e.2.2.1 < shapeCols sd)))
  | .tcvt _ => within v.a.toNat sa
  | .ttr _ => within v.a.toNat sa
  | .tst _ => within v.d.toNat sd && e.2.2.2 == movesBitmap op.instr v
  | .trd _ =>
    e.1 = v.b.toNat && e.2.2.2 == (v.tail.modifier.x == 1) && e.2.1 < shapeRows sb && e.2.2.1 < shapeCols sb &&
    op.args.any fun q => field q.2.1 16 16 = e.2.1 && field q.2.1 0 16 = e.2.2.1
  | _ => false

/-- What a `trd` lane's register receives (R263). -/
def Group.tileRead (g : Group) (op : TileOp) (v : View) (idx : Word) : Nat :=
  let sh := (op.shapes[2]?).getD 0
  let r := field idx 16 16
  let c := field idx 0 16
  if shapeRows sh ≤ r || shapeCols sh ≤ c then 0
  else if v.tail.modifier.x == 1 then (if g.operandBit v.b.toNat r c then 1 else 0)
  else g.operandElem v.b.toNat r c (shapeWidth sh)

/-- The element width of a tile that an operation uses, by the shapes read at its issue (R249). -/
def TileOp.width (op : TileOp) (v : View) (t : Nat) : Nat :=
  let sh := if t = v.d.toNat then op.shapes[0]? else if t = v.a.toNat then op.shapes[1]? else op.shapes[2]?
  shapeWidth (sh.getD 0)

/-- The issuing lanes' flags raised (R108, R254), and their tile class counted down. -/
def State.finishTile (s : State) (op : TileOp) (flags : Nat) : State :=
  let s := op.lanes.foldl (fun s l => s.modThread op.gid l.1 fun t => (t.raise flags).finishOp l.2) s
  { s with tileOps := s.tileOps.filter fun o => o.id != op.id || o.gid != op.gid }

/-- The tiles that an operation reads and those that it writes. -/
def TileOp.uses (o : TileOp) : List Nat × List Nat :=
  match o.instr.view with
  | some v => tileUse o.instr v
  | none => ([], [])

/-- Whether an operation waits behind an earlier one (R252): one of its group that writes a tile that it uses, or uses a tile that it
writes. -/
def TileOp.follows (op e : TileOp) : Bool :=
  op.gid = e.gid && ((e.uses.2.any fun t => op.uses.1.contains t || op.uses.2.contains t) ||
    e.uses.1.any fun t => op.uses.2.contains t)

/-- The operations issued before one. -/
def State.earlierOps (s : State) (op : TileOp) : List TileOp :=
  s.tileOps.takeWhile fun o => !(o.id = op.id && o.gid = op.gid)

/-- Whether an operation may be performed by its group's order (R252). -/
def State.tileOrder (s : State) (op : TileOp) : Bool := !(s.earlierOps op).any op.follows

/-- The rows of `tld` or `tst` in memory: each one's address and length. -/
def TileOp.stretches (op : TileOp) : List (Nat × Nat) :=
  op.rows.map fun ps => ((ps.head?.map fun p => p.1.va.toNat).getD 0, (ps.map Prod.snd).sum)

/-- The location of a byte of a row that lies in pieces. -/
def pieceFrom : List (Loc × Nat) → Nat → Option Loc
  | [], _ => none
  | p :: ps, c => if c < p.2 then some (p.1.at c) else pieceFrom ps (c - p.2)

/-- Bytes that one step of `tld` or `tst` moves at most from an address: an aligned sector, and of token class an aligned part that `tst`
performs as one store (R195, R253). -/
def TileOp.unit (op : TileOp) (l : Loc) : Nat := if op.instr.tileNeed == some .write && l.token && !l.table then 8 else 32

/-- The last address that the next step of `tld` or `tst` reaches, plus 1; none where every byte has moved. -/
def TileOp.stepEnd (op : TileOp) : Option Nat :=
  (nextByte op.stretches op.upTo).bind fun a =>
    ((partsIn op.stretches a (a + 1)).head?).bind fun p => (op.rows[p.1]?).bind fun ps =>
      (pieceFrom ps p.2.1).map fun l => op.unit l * (a / op.unit l + 1)

/-- What the next step of `tld` or `tst` moves, in ascending order of the rows: row, byte of the row, length, and location. -/
def TileOp.parts (op : TileOp) : List (Nat × Nat × Nat × Loc) :=
  match op.stepEnd with
  | none => []
  | some e => (partsIn op.stretches op.upTo e).filterMap fun p =>
    (op.rows[p.1]?).bind fun ps => (pieceFrom ps p.2.1).map fun l => (p.1, p.2.1, p.2.2, l)

/-- The memory that the next step of an operation reaches. -/
def TileOp.pieces (op : TileOp) : List (Loc × Nat) := op.parts.map fun p => (p.2.2.2, p.2.2.1)

/-- Whether an operation's turn has come: its order, and, for memory, its threads' older accesses (R253) and room for the twins
that it makes (R390). -/
def State.tileReady (s : State) (op : TileOp) : Bool :=
  !op.dropped && s.tileOrder op &&
  (op.instr.tileNeed.isNone || op.lanes.all fun l =>
    match s.thread op.gid l.1 with
    | some t => ((s.group op.gid).map fun g => s.engineReady g t l.2).getD true
    | none => true) &&
  !(op.instr.tileNeed == some .write && s.piecesAwaitTwin op.die op.pieces)

/-- An operation after its next step, its record put back. -/
def State.putTileOp (s : State) (op : TileOp) : State :=
  { s with tileOps := mapIf (fun o => o.id = op.id && o.gid = op.gid) (fun _ => op) s.tileOps }

/-- Bytes of a row in memory of an operation. -/
def TileOp.rowBytes (op : TileOp) (v : View) : Nat := tileRowBytes ((op.shapes[0]?).getD 0) (movesBitmap op.instr v)

/-- The rows that a `tld` has read put into its tile (R256). -/
def Group.loadTile (g : Group) (op : TileOp) (v : View) : Group :=
  (List.range op.rows.length).foldl (fun g r =>
    g.loadTileRow v.d.toNat r (v.tail.modifier.x.toNat % 4) ((op.shapes[0]?).getD 0)
      (op.buffer.readN (r * op.rowBytes v) (op.rowBytes v))) g

/-- A step of `tld` (R195, R256): the next sector is read, and with the last one the tile is written. One that meets a sector poisoned since
its issue halts its context and loads nothing (log entry 52). -/
def State.performTld (s : State) (op : TileOp) (v : View) : State :=
  match op.pieces.find? fun p => s.poisoned .read false p.1 p.2 with
  | some p => (s.poisonHalt .read p.1).finishTile op 0
  | none =>
    let r := op.parts.foldl (fun (acc : Memory × State) p =>
      let q := acc.2.engineRead op.die [(p.2.2.2, p.2.2.1)]
      (acc.1.writeN (p.1 * op.rowBytes v + p.2.1) q.1, q.2)) (op.buffer, s)
    let op := { op with buffer := r.1, upTo := (op.stepEnd).getD op.upTo }
    if op.stepEnd.isSome then r.2.putTileOp op else (r.2.modGroup op.gid fun g => g.loadTile op v).finishTile op 0

/-- A step of `tst` (R195, R253, R257): the next sector is written, of rows that overlap the later one's bytes last. The instruction is
complete when every sector is performed, those of the table region in every replica (R371). -/
def State.performTst (s : State) (op : TileOp) (v : View) (g : Group) : State :=
  let sup := ((op.lanes.head?).bind fun l => g.thread l.1).any fun t => t.pl != 0
  let issuers := op.lanes.map fun l => (op.gid, l.1, l.2)
  let row := fun (r : Nat) => g.tileRowOut v.d.toNat r (movesBitmap op.instr v) ((op.shapes[0]?).getD 0)
  let s := op.parts.foldl (fun s p => s.enginePiece op.die sup issuers p.2.2.2 (((row p.1).drop p.2.1).take p.2.2.1)) s
  let op := { op with upTo := (op.stepEnd).getD op.upTo }
  if op.stepEnd.isSome || op.lanes.any fun l => s.tablePending op.gid l.1 (l.2 + 1) then s.putTileOp op
  else (s.modGroup op.gid fun g => g.logErrors (op.width v) (tileReads op v)).finishTile op 0

/-- One operation that is no gang product performed; `tld` and `tst`, their next step. -/
def State.performTile (s : State) (op : TileOp) : State :=
  match op.instr.view, s.group op.gid with
  | some v, some g =>
    let log := fun (s : State) => s.modGroup op.gid fun g => g.logErrors (op.width v) (tileReads op v)
    match op.instr with
    | .tld _ => s.performTld op v
    | .tst _ => s.performTst op v g
    | .trd _ =>
      let s := (log s).modGroup op.gid fun gg => op.args.foldl (fun gg q =>
        let x := g.tileRead op v q.2.1
        let n := if v.tail.modifier.x == 0 && shapeWidth ((op.shapes[2]?).getD 0) = 8 then 2 else 1
        match (gg.thread q.1).bind fun t => t.ops.find? fun o => o.id = op.id with
        | some o => gg.fillOp q.1 o q.2.2.2 ((List.range n).map fun i => BitVec.ofNat 32 (x / 2 ^ (32 * i)))
        | none => gg) gg
      s.finishTile op 0
    | .tmma _ =>
      let r := g.product g v false op.shapes op.rm v.a.toNat
      let s := (s.putGroup { r.1 with terr := (g.logErrors (productWidth v) (productReads g g v false op.shapes v.a.toNat true true)).terr })
      s.finishTile op r.2
    | .tmmas _ =>
      let r := g.product g v true op.shapes op.rm v.a.toNat
      let s := (s.putGroup { r.1 with terr := (g.logErrors (productWidth v) (productReads g g v true op.shapes v.a.toNat true true)).terr })
      s.finishTile op r.2
    | _ =>
      let r := g.tileResult op v
      let s := s.putGroup { r.1 with terr := (g.logErrors (op.width v) (tileReads op v)).terr }
      s.finishTile op r.2
  | _, _ => s

/-- The four operations of one gang product, if every rank has issued (R261): the gang's groups hold the four cores of one
quarter of the die, and the same launch. -/
def State.gangOps (s : State) (op : TileOp) : List TileOp :=
  let launch := (s.group op.gid).map Group.lid
  let ordinal := ((s.group op.gid).map Group.ordinal).getD 0
  (List.range 4).filterMap fun r => s.tileOps.find? fun o =>
    o.die = op.die && o.core = op.core / 4 * 4 + r && o.gang.isSome && o.gang = op.gang &&
    (match s.group o.gid with
     | some g => some g.lid = launch && g.ordinal / 4 = ordinal / 4
     | none => false)

/-- A rank's product of a gang operation: its own B and D, and rank 0's A (R261). Every rank logs the errors that it meets in rank
0's tile in its own group, under the tile's number there (DESIGN CHOICE, log entry 79). -/
def State.performRank (s : State) (op : TileOp) (ga : Group) (ta : Nat) : State :=
  match op.instr.view, s.group op.gid with
  | some v, some g =>
    let sparse := match op.instr with
      | .tmmas _ => true
      | _ => false
    let own := g.gid = ga.gid
    let r := g.product ga v sparse op.shapes op.rm ta
    let w := productWidths v.tail.modifier.x.toNat
    let mine := g.replaced (productWidth v) (productReads g ga v sparse op.shapes ta own true)
    let theirs := if own then [] else ga.replaced (fun _ => w.1) (productReads g ga v sparse op.shapes ta true false)
    let terr := logSpots g.terr (mine ++ theirs)
    (s.putGroup { r.1 with terr := terr }).finishTile op r.2
  | _, _ => s

/-- TILE_COMPLETE (R252, R254, R261): an operation whose turn has come is performed, `tld` and `tst` a sector at a time (R195), unless the
polder filter keeps its memory away (R380); a gang product by all four ranks in one step. -/
def execTileComplete (die core op : Nat) (s : State) : Host.Outcome State Fault Refusal :=
  match s.tileOps.find? fun o => o.die = die && o.core = core && o.id = op with
  | none => .next s
  | some o =>
    match o.gang with
    | none =>
      if !s.tileReady o then .next s
      else if s.piecesReach die o.pieces then .next (s.performTile o)
      else
        let same := fun (x : TileOp) => x.die = die && x.core = core && x.id = op
        .next { s.countFiltered with tileOps := mapIf same (fun x => { x with dropped := true }) s.tileOps }
    | some _ =>
      let ops := s.gangOps o
      match ops.head? with
      | none => .next s
      | some first =>
        match s.group first.gid, first.instr.view with
        | some ga, some v0 =>
          if ops.length = 4 && ops.all fun q => s.tileReady q then
            .next (ops.foldl (fun s q => s.performRank q ga v0.a.toNat) s)
          else .next s
        | _, _ => .next s

end Sys2Proof.Machine
end

