-- ==== Sys2Proof/Machine/Schedule.lean ====
section
/-!
DEFINITION. The group scheduler and the stroke arbiter: strokes (R22, R24, R352, R360), bins that come of age (R33), launches
started, admitted and completed (R343 to R346, R358, R359), slots freed (R47, R148), folios run (R354 to R357) and replay
launches stopped (R420).
-/
namespace Sys2Proof.Machine

open Sys2Proof

/-! ## Strokes -/

/-- Whether a thread's step request waits (R337): it is taken before the thread issues again. -/
def State.stepPending (s : State) (gid gidx : Nat) : Bool := s.steps.any fun r => r.gid = gid && r.gidx = gidx

/-- The READY lanes of a warp that take part in the vote (R22). -/
def State.voters (s : State) (g : Group) (w : Warp) : List Thread :=
  w.lanes.filterMap fun l => (g.thread l.2).filter fun t => t.state == .ready && !s.stepPending g.gid t.gidx

/-- The lane sets of a warp that its vote forms, lowest program counter first, at most `n` (R22). -/
def laneSets (ts : List Thread) : Nat → List (List Nat)
  | 0 => []
  | n + 1 =>
    match leastBy (fun (t : Thread) => t.pc.toNat) ts with
    | none => []
    | some t => ((ts.filter fun x => x.pc == t.pc).map Thread.gidx) :: laneSets (ts.filter fun x => x.pc != t.pc) n

/-- The groups of a core whose warps may win a slot; a hardware thread of a control core is one of them (R55, R352). -/
def State.issuers (s : State) (die core : Nat) : List Group :=
  (s.groups.map Prod.snd).filter fun g => g.place.die = die && g.place.core = core && g.isResident

/-- A warp's rank in the arbiter's order (R352): warps that never won, in order of formation, then by last win. -/
def Warp.rank (w : Warp) : List Nat :=
  match w.lastWin with
  | none => [0, w.id]
  | some n => [1, n]

/-- The READY warps of a core with their groups: a warp with READY lanes competes even while another lane set of it issues.
DEDUCED, log entry 82. -/
def State.contenders (s : State) (die core : Nat) : List (Group × Warp) :=
  ((s.issuers die core).flatMap fun g => g.warps.map fun w => (g, w)).filter fun p => s.voters p.1 p.2 != []

/-- A key of replay order (R360), counted from 1: the group's ordinal, then the lowest group index of the warp. -/
def replayKey (g : Group) (w : Warp) : Nat := 1 + g.ordinal * 1024 + ((leastBy id (w.lanes.map Prod.snd)).getD 0)

/-- Whether an operation's effects are still to come, of those that a replay launch waits for (R360). -/
def Op.busy (o : Op) : Bool :=
  !o.done && (match o.kind with
    | .podWrite _ _ => false
    | .podRead _ _ => false
    | .podAtom _ _ => false
    | _ => true)

/-- Whether a thread's instruction has effects to come: buffered stores, operations, or the phases of a fence or of `tlbsync` that hold
it (R208, R228, R334). -/
def Thread.works (t : Thread) : Bool :=
  t.sb != [] || t.ops.any Op.busy || (match t.state with
    | .waiting (.fence _) => true
    | .waiting .tlbsync => true
    | _ => false)

/-- Whether an instruction of a group has not completed all its effects (R360): those of its threads, its tile operations, its service
records yet to be placed (R329), its table-region stores yet to reach a replica (R371) and its invalidations (R333). -/
def State.groupWorks (s : State) (g : Group) : Bool :=
  (g.threads.any fun t => t.2.works) || (s.tileOps.any fun o => o.gid = g.gid) ||
  (s.batches.any fun b => b.marks.any fun m => m.1 = g.gid) ||
  (s.tableStores.any fun x => x.left != [] && x.issuers.any fun i => i.1 = g.gid) || s.tlbis.any fun i => i.gid = g.gid

/-- Whether an instruction of a replay launch has not completed all its effects (R360). -/
def State.replayBusy (s : State) (lid : Nat) : Bool :=
  s.groups.any fun g => g.2.lid = lid && g.2.control.isNone && s.groupWorks g.2

/-- Whether a trap stops all issue of a replay launch (R360): a thread of it is parked. -/
def State.replayTrapped (s : State) (lid : Nat) : Bool :=
  s.groups.any fun g => g.2.lid = lid && g.2.control.isNone && g.2.threads.any fun t => t.2.state == .parked

/-- The READY lanes of a warp that are in the middle of a fence: they execute it again before anything else issues on a replay core,
since it has not completed its effects (R208, R360). -/
def State.midFence (s : State) (g : Group) (w : Warp) : List Thread := (s.voters g w).filter fun t => t.fence != .idle

/-- The winner that comes next in a replay core's key order (R360), its lanes that vote, and whether it lies beyond the last one; lanes
in the middle of a fence go first; none while a trap stops all issue. -/
def State.replayNext (s : State) (l : Launch) (die core : Nat) : Option (Group × Warp × List Thread × Bool) :=
  if s.replayTrapped l.lid then none
  else
    let cs := s.contenders die core
    let key := fun (p : Group × Warp) => replayKey p.1 p.2
    match cs.find? fun p => s.midFence p.1 p.2 != [] with
    | some p => some (p.1, p.2, s.midFence p.1 p.2, true)
    | none =>
      match leastBy key (cs.filter fun p => l.lastKey < key p) with
      | some p => some (p.1, p.2, s.voters p.1 p.2, true)
      | none => (leastBy key cs).map fun p => (p.1, p.2, s.voters p.1 p.2, false)

/-- Whether the slot of a core is free. -/
def State.slotFree (s : State) (die core slot : Nat) : Bool :=
  !s.strokes.any fun k => k.die = die && k.core = core && k.slot = slot

/-- A lane set wins a slot (R22, R24): its lanes are ISSUING, and its warp has won. -/
def State.giveSlot (s : State) (die core slot gid wid : Nat) (lanes : List Nat) : State :=
  let (win, s) := s.freshWin
  let s := s.modGroup gid fun g =>
    let g := { g with warps := mapIf (fun w => w.id = wid) (fun w => { w with lastWin := some win }) g.warps }
    lanes.foldl (fun g t => g.modThread t fun x => { x with state := .issuing }) g
  { s with strokes := s.strokes ++ [{ die := die, core := core, slot := slot, gid := gid, warp := wid, lanes := lanes, count := 0 }] }

/-- A stroke start of an ordinary core (R22, R352): the warp whose last win lies furthest back takes the slot; with the other
slot free too, its second lane set, or the next warp, takes that. -/
def State.startStroke (s : State) (die core slot : Nat) : State :=
  match leastLex (fun (p : Group × Warp) => p.2.rank) (s.contenders die core) with
  | none => s
  | some (g, w) =>
    let other := 1 - slot
    let both := s.slotFree die core other
    match laneSets (s.voters g w) 2 with
    | [] => s
    | [a] =>
      let s := s.giveSlot die core slot g.gid w.id a
      if !both then s
      else
        match leastLex (fun (p : Group × Warp) => p.2.rank) (s.contenders die core) with
        | none => s
        | some (g, w) =>
          match laneSets (s.voters g w) 1 with
          | a :: _ => s.giveSlot die core other g.gid w.id a
          | [] => s
    | a :: b :: _ =>
      let s := s.giveSlot die core slot g.gid w.id a
      if both then s.giveSlot die core other g.gid w.id b else s

/-- Whether a replay launch is to stop (R420): a `ctxsv` asked, nothing of it is under way, no slice of R360 is due, whose groups
might win, and the next winner does not lie beyond the last. -/
def State.stopDue (s : State) (l : Launch) (die core : Nat) : Bool :=
  l.stopAsked && !l.stopped && !s.replayBusy l.lid && !s.sliceDue l die core &&
  !(s.strokes.any fun k => k.die = die && k.core = core) &&
  (match s.replayNext l die core with
   | some (_, _, _, beyond) => !beyond
   | none => true)

/-- A stroke start of a replay core (R360): slot 0 alone, in key order, once everything before is complete. -/
def State.startReplay (s : State) (l : Launch) (die core slot : Nat) : State :=
  if slot != 0 || l.stopped || s.replayBusy l.lid || s.sliceDue l die core || s.stopDue l die core then s
  else
    match s.replayNext l die core with
    | none => s
    | some (g, w, ts, _) =>
      match laneSets ts 1 with
      | a :: _ =>
        let s := s.giveSlot die core 0 g.gid w.id a
        { s with launches := mapIf (fun x => x.lid = l.lid) (fun x => { x with lastKey := replayKey g w }) s.launches }
      | [] => s

/-- STROKE_START (R22, R24, R352, R360). No core runs before the boot check or in recovery
(R436), and a lost die runs nothing (R392, log entry 37). -/
def execStrokeStart (die core slot : Nat) (s : State) : Host.Outcome State Fault Refusal :=
  if 2 ≤ slot || !s.slotFree die core slot || (s.die die).lost || s.ports.boot != .running then .next s
  else
    match s.replayOn die core with
    | some l => .next (s.startReplay l die core slot)
    | none => .next (s.startStroke die core slot)

/-- Whether the current slot's lane set waits for a read that the polder filter keeps from its home (R380): it never goes on.
DEDUCED, log entry 100. -/
def State.unanswered (s : State) : Bool := s.issue.any fun x => x.stroke.dropped

/-- Whether the current slot's lane set may issue: the image runs (R436), each read that it has made is answered (R380), and on a
replay core every earlier effect is complete, no trap stops issue, and no slice is due (R360). -/
def State.mayIssue (s : State) : Bool :=
  s.ports.boot == .running && !s.unanswered &&
  (match s.replayOn s.cur.1 s.cur.2.1 with
   | some l => !s.replayBusy l.lid && !s.replayTrapped l.lid && !s.sliceDue l s.cur.1 s.cur.2.1
   | none => true)

/-- A stroke of a replay core ends where a trap stops all issue (R360). -/
def State.endTrappedStrokes (s : State) : State :=
  (s.strokes.filter fun k => (s.replayOn k.die k.core).any fun l => s.replayTrapped l.lid).foldl (fun s k => s.endStroke k) s

/-! ## Bins -/

/-- BIN_AGE_FIRE (R33): a bin of a resident group whose age has reached 128. -/
def execBinAgeFire (gid : Nat) (key : Pc) (s : State) : Host.Outcome State Fault Refusal :=
  match s.group gid with
  | none => .next s
  | some g =>
    match g.bins.find? fun b => b.key == key with
    | none => .next s
    | some b => .next (if g.isResident && b.earliest + 128 ≤ s.clockOf g then s.fireBin gid key else s)

/-! ## Placement -/

/-- Whether a slot of a core takes a group (R47, R53, R328): it holds none, and was freed at least 1 µs ago. -/
def State.slotOffered (s : State) (die core slot : Nat) : Bool :=
  core < 64 && slot < 32 && !(core = 63 && slot = 31) &&
  !((s.onCore die core).any fun g => g.place.slot = slot) &&
  (match tfind (s.core die core).freed slot with
   | some n => n + microseconds 1 ≤ s.clock
   | none => true)

/-- Groups of a shape that a core's granules and tiles still hold (R348). -/
def State.coreHolds (s : State) (die core scratch tiles : Nat) : Nat :=
  let c := s.core die core
  let n := granulesFor scratch
  min (if n = 0 then 32 else c.freeGranules.length / n) (if tiles = 0 then 32 else c.freeTiles.length / tiles)

/-- Whether a core may take groups of a launch: the die is eligible and not lost, and no replay launch holds the core (R344,
R359). -/
def State.coreOpen (s : State) (l : Launch) (die core : Nat) : Bool :=
  die < 32 && core < 64 && l.header.dies.toNat.testBit die && !(s.die die).lost &&
  (match s.replayOn die core with
   | some r => r.lid = l.lid
   | none => true)

/-- The slots of a core that a launch's groups may take, as many as the core holds. -/
def State.coreSlots (s : State) (l : Launch) (die core : Nat) : List Nat :=
  if !s.coreOpen l die core then []
  else ((List.range 32).filter fun k => s.slotOffered die core k).take (s.coreHolds die core l.header.scratch l.header.tiles)

/-- The core that a replay launch may take, if any (R359). -/
def State.replayCore (s : State) (l : Launch) (die core : Nat) : Bool :=
  core < 63 && s.coreOpen l die core && s.onCore die core = [] && (s.replayOn die core).isNone &&
  l.header.groups ≤ (s.coreSlots l die core).length &&
  (List.range l.header.groups).all fun k => s.slotOffered die core k

/-- Gangs that four cores of a die take: one slot of each core (R261, R344). -/
def State.gangSlots (s : State) (l : Launch) (die q : Nat) : List (List Place) :=
  let at' := fun k => (s.coreSlots l die (4 * q + k)).map fun x => (⟨die, 4 * q + k, x⟩ : Place)
  ((at' 0).zip ((at' 1).zip ((at' 2).zip (at' 3)))).map fun p => [p.1, p.2.1, p.2.2.1, p.2.2.2]

/-- Whether places suit the next groups of a launch, `n` of them (R344, R346, R359). -/
def State.placesOk (s : State) (l : Launch) (n : Nat) (ps : List Place) : Bool :=
  ps.length = n && ps.eraseDups.length = n &&
  (ps.all fun p => s.coreOpen l p.die p.core && s.slotOffered p.die p.core p.slot &&
    (ps.filter fun q => q.die = p.die && q.core = p.core).length ≤ s.coreHolds p.die p.core l.header.scratch l.header.tiles) &&
  (!l.header.isGang || (List.range (n / 4)).all fun m =>
    match ps.drop (4 * m) with
    | a :: b :: c :: d :: _ =>
      a.core % 4 = 0 && [b, c, d].all (fun p => p.die = a.die) && b.core = a.core + 1 && c.core = a.core + 2 && d.core = a.core + 3
    | _ => false) &&
  (!l.header.isReplay || (match ps.head? with
    | some p => s.replayCore l p.die p.core && ps == (List.range n).map fun k => (⟨p.die, p.core, k⟩ : Place)
    | none => false))

/-- Places for the next `n` groups of a launch, the lowest ones (the model's own choice, log entry 4). -/
def State.plan (s : State) (l : Launch) (n : Nat) : Option (List Place) :=
  let dies := (List.range 32).filter fun d => l.header.dies.toNat.testBit d
  let ps :=
    if l.header.isReplay then
      match (dies.flatMap fun d => (List.range 63).map fun c => (d, c)).find? fun p => s.replayCore l p.1 p.2 with
      | some p => (List.range n).map fun k => (⟨p.1, p.2, k⟩ : Place)
      | none => []
    else if l.header.isGang then
      ((dies.flatMap fun d => (List.range 16).flatMap fun q => s.gangSlots l d q).take (n / 4)).flatMap id
    else
      (dies.flatMap fun d => (List.range 64).flatMap fun c => (s.coreSlots l d c).map fun k => (⟨d, c, k⟩ : Place)).take n
  if ps.length = n then some ps else none

/-- Groups that a launch admits together (R345, R346). -/
def Launch.batch (l : Launch) : Nat :=
  if l.header.isStream then (if l.header.isGang then 4 else 1) else l.header.groups

/-- Whether a launch is ready and has groups still to be admitted (R155, R343, R346), in a store of a die that is not lost (R393). One
whose issuer's release mark is not complete is passed over; DESIGN CHOICE, log entry 101. -/
def State.launchReady (s : State) (l : Launch) : Bool :=
  l.holdsEntry && !l.held && !(s.die l.store).lost && (match l.mark with
    | some m => s.markDone m
    | none => true)

/-- Ready launches of a store that the scheduler considers before a launch (R343). -/
def State.considered (s : State) (l : Launch) : List Launch :=
  s.launches.filter fun x => x.store = l.store && x.lid != l.lid && s.launchReady x &&
    (l.header.prio < x.header.prio || (x.header.prio = l.header.prio && s.launchRank x.lid < s.launchRank l.lid))

/-- Whether the scheduler may take in groups of a launch now: no ready launch before it can be admitted (R343). -/
def State.mayAdmit (s : State) (l : Launch) : Bool :=
  s.launchReady l && (s.considered l).all fun x => (s.plan x x.batch).isNone

/-! ## Admission -/

/-- The generation that a placement gives a slot (R47): the next one that no live group named after the slot carries. -/
def State.nextGen (s : State) (die core slot : Nat) : Half :=
  let now := tget 0 (s.core die core).gens slot
  let used := fun (gen : Half) => (s.die die).names.any fun e => e.slot = slot * 64 + core && e.gen == gen
  (((List.range 65536).map fun i => now + 1 + BitVec.ofNat 16 i).find? fun x => !used x).getD (now + 1)

/-- A group's name (Table 2-4). -/
def groupName (chip polder die core slot : Nat) (gen : Half) : Dword :=
  BitVec.ofNat 64 (polder * 2 ^ 40 + gen.toNat * 2 ^ 24 + slot * 2 ^ 19 + core * 2 ^ 13 + die * 2 ^ 8 + chip % 256)

/-- A kernel thread as it begins (R14, R19, R64, R319, R364). Bits of the work identifier above its last field that BASE or a carry
sets are kept; DESIGN CHOICE, log entry 90. -/
def Thread.fresh (g : Group) (h : Header) (ctx polder t lane : Nat) : Thread :=
  let wid := g.base + BitVec.ofNat 64 (g.ordinal * g.nthr + t)
  let regs := [h.param.extractLsb' 0 32, h.param.extractLsb' 32 32, wid.extractLsb' 0 32, wid.extractLsb' 32 32]
  { Thread.controlReset with
      gidx := t, wid := wid, pc := h.entry.extractLsb' 0 56 + 4, state := .ready, lane := lane,
      regs := (regs.take g.budget).zipIdx.foldl (fun m p => tset 0 m p.2 p.1) [], pl := 0, ctxid := BitVec.ofNat 32 ctx,
      polder := BitVec.ofNat 32 polder }

/-- A slot, its granules and its tiles taken for a group, with its generation and name-table entry (R47, R48, R348). The
answer is the group with what it received. -/
def State.takeSlot (s : State) (g : Group) : Group × State :=
  let p := g.place
  let c := s.core p.die p.core
  let n := granulesFor g.scratchSize
  let g := { g with granules := c.freeGranules.take n, tileRegs := c.freeTiles.take g.tiles }
  (g, s.modCore p.die p.core fun c => { c with freeGranules := c.freeGranules.drop n, freeTiles := c.freeTiles.drop g.tiles })

/-- A slot's generation advances as a group is placed in it (R47). -/
def State.advanceGen (s : State) (p : Place) : Half × State :=
  let gen := s.nextGen p.die p.core p.slot
  (gen, s.modCore p.die p.core fun c => { c with gens := tset 0 c.gens p.slot gen })

/-- A fresh name for a group in its slot (R46 to R48). -/
def State.nameGroup (s : State) (g : Group) (polder : Nat) : Group × State :=
  let p := g.place
  let (gen, s) := s.advanceGen p
  let s := s.modDie p.die fun d => { d with names := d.names ++ [⟨p.slot * 64 + p.core, gen, g.gid⟩] }
  ({ g with name := groupName s.pod.chip polder p.die p.core p.slot gen }, s)

/-- A group admitted to a slot (R14, R35, R64, R180, R247, R344): it begins OUT, to be made resident where blocks are
free. -/
def State.admitGroup (s : State) (l : Launch) (p : Place) : State :=
  let h := l.header
  let nthr := h.threads
  let ordinal := l.admitted
  let g : Group := { Group.controlReset 0 with
    gid := s.next.gid, control := none, place := p, residency := .out s.clock false, lid := l.lid, ordinal := ordinal,
    base := h.base, widWord := h.wid, entry := h.entry, ctl := h.ctl, quantum := h.quantum, rquant := h.rquant,
    budget := l.budget, nthr := nthr, scratchSize := h.scratch, tiles := h.tiles, warps := [], threads := [] }
  let (g, s) := s.takeSlot { g with residency := .out (s.clockOf g) false }
  let (g, s) := s.nameGroup g l.polder
  let n := (nthr + 31) / 32
  let warps := (List.range n).map fun k =>
    (⟨s.next.win + k, .normal, (List.range (min 32 (nthr - 32 * k))).map fun i => (i, 32 * k + i), none⟩ : Warp)
  let threads := (List.range nthr).map fun t => (t, Thread.fresh g h l.ctx l.polder t (t % 32))
  let up := fun (x : Launch) =>
    { x with admitted := ordinal + 1, phase := .started,
             dies := if x.dies.contains p.die then x.dies else x.dies ++ [p.die],
             onCore := if h.isReplay then some (p.die, p.core) else none }
  let s := (s.touch l.ctx p.die).acquireStep p.die
  { (s.modDie p.die fun d => { d with kcopies := [] }).putGroup { g with warps := warps, threads := threads } with
      next := { s.next with gid := s.next.gid + 1, win := s.next.win + n }
      launches := mapIf (fun x => x.lid = l.lid) up s.launches }

/-- Groups of a launch admitted to places, in ascending ordinal; then those that free blocks hold are resident (R345). -/
def State.admitAll (s : State) (lid : Nat) (ps : List Place) : State :=
  let first := s.next.gid
  let s := ps.foldl (fun s p =>
    match s.launches.find? fun x => x.lid = lid with
    | some l => s.admitGroup l p
    | none => s) s
  let s := s.joinNew ((List.range ps.length).map fun i => first + i)
  ((ps.map fun p => (p.die, p.core)).eraseDups).foldl (fun s c => s.settleTimer c.1 c.2) s

/-- LAUNCH_START (R343 to R345, R359). -/
def execLaunchStart (lid : Nat) (places : List Place) (s : State) : Host.Outcome State Fault Refusal :=
  match s.launches.find? fun l => l.lid = lid with
  | none => .next s
  | some l =>
    if !l.header.isStream && s.mayAdmit l && s.placesOk l l.header.groups places then .next (s.admitAll lid places)
    else .next s

/-- STREAM_ADMIT (R343, R346): the next group of a launch, or its next gang. -/
def execStreamAdmit (lid : Nat) (places : List Place) (s : State) : Host.Outcome State Fault Refusal :=
  match s.launches.find? fun l => l.lid = lid with
  | none => .next s
  | some l =>
    if l.header.isStream && s.mayAdmit l && s.placesOk l l.batch places then .next (s.admitAll lid places)
    else .next s

/-! ## Slots freed and launches completed -/

/-- A group's slot, blocks, granules and tiles given back (R47, R148). -/
def State.releaseSlot (s : State) (g : Group) : State :=
  s.modCore g.place.die g.place.core fun c =>
    { c with freeBlocks := sortBy id (c.freeBlocks ++ g.blocks), freeGranules := sortBy id (c.freeGranules ++ g.granules),
             freeTiles := sortBy id (c.freeTiles ++ g.tileRegs), freed := tput c.freed g.place.slot s.clock }

/-- Whether a gang product can never start (R261): a rank that has not issued it has ended. Log entry 86. -/
def State.deadGang (s : State) (o : TileOp) : Bool :=
  match o.gang, s.group o.gid with
  | some n, some g =>
    let ranks := s.gangOf g
    (List.range 4).any fun k =>
      !(s.tileOps.any fun x => x.gang = some n && x.rank = k && ranks.any fun p => p.gid = x.gid) &&
      (ranks.filter fun p => p.place.core % 4 = k).all fun p => p.live = []
  | _, _ => false

/-- Tile operations that are never performed, by group and number, to a depth (R252, R261): gang products that can never start, those of
the same gang operation, and what waits behind one of them. -/
def State.deadOps (s : State) : Nat → List (Nat × Nat)
  | 0 => []
  | n + 1 =>
    let dead := s.deadOps n
    let isDead := fun (o : TileOp) => dead.contains (o.gid, o.id)
    (s.tileOps.filter fun o => s.deadGang o || (o.gang.isSome && (s.gangOps o).any isDead) ||
      (s.earlierOps o).any fun e => isDead e && o.follows e).map fun o => (o.gid, o.id)

/-- Whether a group's slot may be freed (R148): every thread has exited, and no operation or store of theirs is outstanding. Tile
operations that can never be performed end with the group (R261, log entry 86). -/
def State.spent (s : State) (g : Group) : Bool :=
  let dead := s.deadOps s.tileOps.length
  g.control.isNone && g.threads != [] && g.live = [] &&
  (g.threads.all fun t => t.2.sb = [] && t.2.ops.all fun o => o.done || (match o.kind with
    | .tile id => dead.contains (g.gid, id)
    | _ => false)) &&
  s.tileOps.all fun o => o.gid != g.gid || dead.contains (o.gid, o.id)

/-- SLOT_FREE (R148): the slot is free, and the name-table entry gone (R48). -/
def execSlotFree (gid : Nat) (s : State) : Host.Outcome State Fault Refusal :=
  match s.group gid with
  | none => .next s
  | some g =>
    if !s.spent g then .next s
    else
      let s := s.releaseSlot g
      let s := s.modDie (nameDie g.name) fun d => { d with names := d.names.filter fun e => e.gid != gid }
      let s := { s with
        groups := tdel s.groups gid, steps := s.steps.filter fun r => r.gid != gid
        tileOps := s.tileOps.filter fun o => o.gid != gid }
      .next (s.settleTimer g.place.die g.place.core)

/-- FSTATE of a folio (Table 20-4). -/
def Folio.fstate (f : Folio) : List Byte :=
  bytesOfNat (f.runs.toNat + (if f.run then 2 ^ 32 else 0) + (if f.err then 2 ^ 33 else 0)) 8

/-- Who a folio's engine is (R353): its die, in the folio's context at supervisor privilege. -/
def Folio.who (f : Folio) : Who := ⟨f.die, f.ctx, f.polder, false⟩

/-- A folio's record replaced. -/
def State.putFolio (s : State) (f : Folio) : State := { s with folios := mapIf (fun x => x.fid = f.fid) (fun _ => f) s.folios }

/-- FSTATE written by the engine (Table 20-4). -/
def State.writeFstate (s : State) (f : Folio) : State :=
  let s := s.putFolio { f with stale := false }
  (s.deviceWrite f.who (f.base + 8) f.fstate).getD s

/-- A run ends with an error (R356): RUN is cleared and RUNS unchanged. -/
def State.failRun (s : State) (f : Folio) : State :=
  let mine : Launch → Bool := fun l => match l.node with
    | some n => n.1 = f.fid
    | none => false
  { s with launches := mapIf mine (fun l => { l with node := none }) s.launches }.writeFstate
    { f with run := false, err := true, nodes := [] }

/-- A run whose every node has completed ends (R356): RUNS advances and RUN is cleared by a device-scope release store. -/
def State.endRun (s : State) (f : Folio) : State :=
  if f.run && f.nodes.all fun n => n.2.2 then
    (s.engineRelease f.die).writeFstate { f with run := false, runs := f.runs + 1, nodes := [] }
  else s

/-- An access of a folio's engine was dropped by the polder filter: it is counted, and the engine does not go on with the folio
(R380). DEDUCED, log entry 100. -/
def State.dropFolio (s : State) (f : Folio) : State := s.countFiltered.putFolio { f with dropped := true }

/-- A node of a run has completed (R356, R357): its successors' counts fall by 1. A lost die's engine does nothing (R393). -/
def State.completeNode (s : State) (f : Folio) (i : Nat) : State :=
  if (s.die f.die).lost then s
  else if s.nodeLost f.who f.base i false then s.dropFolio f
  else
  let read := (s.deviceRead f.who (nodeAddress f.base i) 128).bind fun x => x.2.successors f.who f.base (headerOf x.1)
  let s := (read.map Prod.snd).getD s
  let succ := read.map Prod.fst
  let down := f.nodes.zipIdx.map fun (p : (Nat × Bool × Bool) × Nat) =>
    let n := p.1
    (if (succ.getD []).contains p.2 then n.1 - 1 else n.1, n.2.1, n.2.2 || p.2 = i)
  let f := { f with nodes := down }
  if succ.isNone then s.failRun f else (s.putFolio f).endRun f

/-- The record by which a DONE write that faults is reported for a device-side launch (R358). DESIGN CHOICE, log entry 33. -/
def doneRecord (i : TrapInfo) : FaultRecord :=
  { name := 0, pc := 0, tval := i.tval, lanes := 0, lane := 0, cause := i.cause.code, entry := 0xFF,
    flags := recordFlags true false false i.malformed i.access, core := 0, slot := 0, aux := i.aux, handle := 0,
    detail := i.detail }

/-- DONEVAL written to DONE as a device-scope release store (R358), in the launch's context at user privilege; a write that
faults is dropped and reported, and one that the polder filter drops is counted (R380). -/
def State.writeDone' (s : State) (l : Launch) : State :=
  let report := fun (s : State) (i : TrapInfo) =>
    match l.node.bind fun n => s.folios.find? fun f => f.fid = n.1 with
    | some f => s.writeFstate { f with err := true }
    | none => s.addRecords l.store [doneRecord i]
  match s.locate ⟨l.store, l.ctx, l.polder, true⟩ .write false l.header.done with
  | .error i => report s i
  | .ok x =>
    if s.linePoisoned x false then report s (leveeTrap .write l.header.done x.home)
    else if s.accessLost ⟨l.store, l.ctx, l.polder, true⟩ .write x then s.countFiltered
    else
      let s := (s.touch l.ctx x.home).writeLoc l.store x ⟨l.ctx, l.polder, false⟩ (bytesOfNat l.header.doneVal.toNat 4)
      if x.token || x.table then s else s.sendBlock l.store (blockOf x.key)

/-- Whether every group of a launch has exited and its slot has been freed (R358). -/
def State.launchDone (s : State) (l : Launch) : Bool :=
  l.phase == .started && l.admitted = l.header.groups && !(s.groups.any fun g => g.2.control.isNone && g.2.lid = l.lid)

/-- LAUNCH_COMPLETE (R358): each die that ran a group releases, DONE is written, and a folio's successors become ready. The store of a
lost die completes nothing (R393). -/
def execLaunchComplete (lid : Nat) (s : State) : Host.Outcome State Fault Refusal :=
  match s.launches.find? fun l => l.lid = lid with
  | none => .next s
  | some l =>
    if !s.launchDone l || (s.die l.store).lost then .next s
    else
      let s := l.dies.foldl (fun s d => if (s.die d).lost then s else s.engineRelease d) s
      let s := if l.header.done == 0 then s else s.writeDone' l
      let s := { s with launches := s.launches.filter fun x => x.lid != lid }
      match l.node with
      | some (fid, i) =>
        match s.folios.find? fun f => f.fid = fid && f.run with
        | some f => .next (s.completeNode f i)
        | none => .next s
      | none => .next s

/-! ## Folio runs -/

/-- A patch table's entries applied in ascending order as 8-byte stores (R355); false where one faults. -/
def State.patchEntries (s : State) (f : Folio) (p : Dword) : Nat → Nat → Bool × State
  | 0, _ => (true, s)
  | n + 1, j =>
    match s.deviceRead f.who (p + BitVec.ofNat 64 (8 + 16 * j)) 16 with
    | none => (false, s)
    | some (bs, s1) =>
      let dst := dwordOfBytes (bs.take 8)
      if dst.toNat % 8 != 0 then (false, s1)
      else
        match s1.deviceWrite f.who dst (bs.drop 8) with
        | none => (false, s1)
        | some s2 => s2.patchEntries f p n (j + 1)

/-- The patches of a run (R355). -/
def State.applyPatches (s : State) (f : Folio) (p : Dword) : Bool × State :=
  match s.deviceRead f.who p 8 with
  | none => (false, s)
  | some (bs, s1) =>
    let n := natOfBytes (bs.take 4)
    if 65535 < n || natOfBytes (bs.drop 4) != 0 then (false, s1)
    else
      let r := s1.patchEntries f p n 0
      (r.1, if r.1 then r.2.engineRelease f.die else r.2)

/-- Predecessor counts of a folio's first n nodes, as their headers stand. -/
def State.nodeCounts (s : State) (w : Who) (base : Dword) (n : Nat) : Option (List Nat × State) :=
  (List.range n).foldl (fun acc i => acc.bind fun a =>
    (a.2.deviceRead w (nodeAddress base i) 128).map fun x => (a.1 ++ [(headerOf x.1).preds], x.2)) (some ([], s))

/-- Whether the polder filter drops an access that the patches of a run make (R380). -/
def State.patchLost (s : State) (f : Folio) (p : Dword) : Bool :=
  s.deviceLost f.who .read p 8 || (s.deviceRead f.who p 8).any fun x =>
    let n := natOfBytes (x.1.take 4)
    n ≤ 65535 && (s.deviceLost f.who .read (p + 8) (16 * n) || (s.deviceRead f.who (p + 8) (16 * n)).any fun x =>
      (List.range n).any fun j => s.deviceLost f.who .write (BitVec.ofNat 64 (areaField x.1 (16 * j) 8)) 8)

/-- A run starts with a patch table (R356, steps 1 and 2): then its nodes wait to be submitted. One that the polder filter keeps from
what it reads stands still from there on (R380). -/
def State.startRun (s : State) (f : Folio) (p : Dword) : State :=
  let f := { f with run := true, err := false }
  let s := s.writeFstate f
  if s.patchLost f p || s.nodesLost f.who f.base false then s.dropFolio f
  else
  let r := s.applyPatches f p
  let s := r.2
  match r.1, (s.deviceRead f.who (f.base + 16) 2).bind fun x => x.2.nodeCounts f.who f.base (natOfBytes x.1) with
  | true, some (ns, s) => s.putFolio { f with nodes := ns.map fun k => (k, false, false) }
  | _, _ => s.failRun f

/-- FOLIO_KICK_TAKE (R354, R355): with no run in progress, KICK is exchanged with 0; its value starts a run, retires the
folio, or ends the run at once with an error. A lost die's engine does nothing (R393). Where KICK's page no longer translates, the
engine takes nothing, keeps ERR for the folio and writes no FSTATE; DESIGN CHOICE, log entry 102. -/
def execFolioKickTake (fid : Nat) (s : State) : Host.Outcome State Fault Refusal :=
  match s.folios.find? fun f => f.fid = fid && !(s.die f.die).lost with
  | none => .next s
  | some f =>
    match s.locate f.who .both false f.base with
    | .error _ => .next (if f.run then s else s.putFolio { f with err := true })
    | .ok l =>
      if f.run || f.dropped || !l.token || s.poisoned .both true l 8 then .next s
      else if !s.passes f.polder f.die l.home then .next (s.dropFolio f)
      else
        let s := (s.touch f.ctx l.home).gather l.key
        let kick := dwordOfBytes (s.tokenRead l.key 8)
        let s := s.homeTokenWrite l.key (bytesOfNat 0 8)
        if kick == 0 then .next s
        else if kick == 1 then .next { s with folios := s.folios.filter fun x => x.fid != fid }
        else if kick.toNat % 8 != 0 then .next (s.failRun f)
        else .next (s.startRun f kick)

/-- The store that a folio's node goes to (R356, step 3). -/
def Folio.storeOf (f : Folio) (h : Header) : Nat := (lowestDie h.dies.toNat).getD f.die

/-- FOLIO_NODE_SUBMIT (R356, R357): a node whose predecessors have completed is accepted once its store has room. A header
that supervisor software made bad ends the run with an error. A lost die's engine does nothing (R393). -/
def execFolioNodeSubmit (fid node : Nat) (s : State) : Host.Outcome State Fault Refusal :=
  match s.folios.find? fun f => f.fid = fid && f.run && !(s.die f.die).lost with
  | none => .next s
  | some f =>
    match f.nodes[node]? with
    | some (0, false, false) =>
      if f.dropped then .next s
      else if s.nodeLost f.who f.base node true then .next (s.dropFolio f)
      else
      match s.deviceRead f.who (nodeAddress f.base node) 128 with
      | none => .next (s.failRun f)
      | some (bs, s1) =>
        let s1 := s1.touchCode f.who true bs
        match s1.goodHeader f.who true bs with
        | none => .next (s1.failRun f)
        | some (h, b) =>
          let store := f.storeOf (headerOf bs)
          if 4096 ≤ s1.storeUsed store then .next s
          else
            let s := s1.putFolio { f with nodes := f.nodes.set node (0, true, false) }
            .next (s.acceptLaunch h b f.ctx f.polder store none (some (fid, node)) false)
    | _ => .next s

/-! ## Replay stops -/

/-- REPLAY_STOP (R420): the launch stops, and the groups that a `ctxsv` has named leave the core. -/
def execReplayStop (lid : Nat) (s : State) : Host.Outcome State Fault Refusal :=
  match s.launches.find? fun l => l.lid = lid with
  | none => .next s
  | some l =>
    match l.onCore with
    | none => .next s
    | some (die, core) =>
      if !s.stopDue l die core then .next s
      else
        let mine := (s.groups.map Prod.snd).filter fun g => g.control.isNone && g.lid = lid
        let before := mine.map fun g => (g.ordinal, g.residency, g.moved)
        let up := fun (x : Launch) => { x with stopped := true, lastKey := 0, restored := [], target := none, before := before }
        let s := { s with launches := mapIf (fun x => x.lid = lid) up s.launches }
        .next (s.saves.foldl (fun s r =>
          match s.group r.gid with
          | some g => if !r.load && g.control.isNone && g.lid = lid then s.leaveCore g.gid 0 true else s
          | none => s) s)

end Sys2Proof.Machine
end

