-- ==== Sys2Proof/Machine/Context.lean ====
section
/-!
DEFINITION. Context save and restore (R338, R407 to R412, R420, R421) and step requests taken (R337).
-/
namespace Sys2Proof.Machine

open Sys2Proof

/-! ## Completion -/

/-- Completion codes (Table 19-8). -/
def doneSaved : Nat := 1
def doneRestored : Nat := 2
def failStale : Nat := 0x80000001
def failRoom : Nat := 0x80000002
def failArea : Nat := 0x80000003

/-- Who reaches an area for a request (R410): a die, in the context and polder of the issuer, at supervisor privilege. -/
def SaveRequest.who (r : SaveRequest) (die : Nat) : Who := ⟨die, r.ctx, r.polder, false⟩

/-- COMPLETE written last, as a device-scope release store (R338), by a die; it is dropped where the area faults. The
request is over. -/
def State.completeSave (s : State) (r : SaveRequest) (die code : Nat) : State :=
  let s := { s with saves := s.saves.erase r }
  let s := s.engineRelease die
  match s.deviceWrite (r.who die) r.area (bytesOfNat code 4) with
  | some s => s.engineRelease die
  | none => s

/-- An access of a request to its area was dropped by the polder filter: it is counted, and the request does not go on (R380).
DEDUCED, log entry 100. -/
def State.dropSave (s : State) (r : SaveRequest) : State :=
  { s.countFiltered with saves := mapIf (fun x => x == r) (fun x => { x with dropped := true }) s.saves }

/-! ## Saving -/

/-- Whether a group may be written into its area (R410, R420): it is OUT, no lane of it holds a slot, and every producer that
must complete has, with every tile instruction. -/
def State.readyToSave (s : State) (g : Group) : Bool :=
  !g.isResident && !(s.strokes.any fun k => k.gid = g.gid) && !(g.threads.any fun t => t.2.ops.any Op.blocksSave) &&
  !(s.tileOps.any fun o => o.gid = g.gid) &&
  (match s.replayOf g with
   | some l => l.stopped
   | none => true)

/-- The fragments of a group leave the fragment table (R405, R410). -/
def State.dropFragments (s : State) (g : Group) : State :=
  (((s.core g.place.die g.place.core).frags.filter fun f => f.2.1 = g.gid).map Prod.fst).foldl
    (fun s e => s.freeEntry g.place.die g.place.core e) s

/-- The hold of a `ctxsv` ends (R351): its group, and its gang, return to time-slicing. -/
def State.unhold (s : State) (gid : Nat) : State :=
  s.modGroup gid fun g => match g.residency with
    | .out since _ => { g with residency := .out since false }
    | .resident _ => g
    | .saved _ _ _ => g

/-- A group of a replay launch that is saved again before all are restored is no longer a restored one (R421). -/
def State.forgetRestored (s : State) (g : Group) : State :=
  { s with launches := mapIf (fun l => l.lid = g.lid && l.header.isReplay) (fun l =>
      let rest := l.restored.filter fun n => n != g.ordinal
      { l with restored := rest, target := if rest = [] then none else l.target }) s.launches }

/-- A group written into its area (R410): every section but COMPLETE, the fragments taken from the table, a device-scope
release of the saving die, the name table's record and the completion word. Its bins have not aged since it went OUT (R33). -/
def State.saveGroup (s : State) (r : SaveRequest) (g : Group) : State :=
  let die := g.place.die
  let retired := ((s.replayOf g).map Launch.retired).getD 0
  let image := g.areaImage g.since retired
  if r.area.toNat % 4096 != 0 then (s.unhold g.gid).completeSave r die failArea
  else if s.deviceLost (r.who die) .write r.area image.length then s.dropSave r
  else
    match s.deviceWrite (r.who die) (r.area + 4) (image.drop 4) with
    | none => (s.unhold g.gid).completeSave r die failArea
    | some s =>
      let s := (s.dropFragments g).engineRelease die
      let s := s.modGroup g.gid fun g => { g with residency := .saved r.area r.ctx r.polder, actions := [] }
      (s.forgetRestored g).completeSave r die doneSaved

/-- CONTEXT_SAVE (R338, R410): a `ctxsv` that waits proceeds; it takes its group OUT first where that is resident again since. A lost
die saves nothing: the request is answered with an error (R393), as an area that faults is. DEDUCED, log entry 109. -/
def execContextSave (index : Nat) (s : State) : Host.Outcome State Fault Refusal :=
  match s.saves[index]? with
  | none => .next s
  | some r =>
    if r.load || r.dropped then .next s
    else if s.nameLost r.name then .next (s.completeSave r r.die failArea)
    else
      match s.findName r.name with
      | none => .next (s.completeSave r r.die failStale)
      | some g =>
        match g.residency with
        | .saved _ _ _ => .next (s.completeSave r r.die failStale)
        | _ => .next (if !g.taken then s.takeOut g else if s.readyToSave g then s.saveGroup r g else s)

/-! ## Restoring -/

/-- An area as it is read: its bytes, if no part of it faults and its header keeps R407. -/
def State.readArea (s : State) (r : SaveRequest) (die : Nat) : Option (List Byte × State) :=
  if r.area.toNat % 4096 != 0 then none
  else
    match s.deviceRead (r.who die) r.area 0x180 with
    | none => none
    | some (h, s1) =>
      if !areaHeaderOk h then none
      else (s1.deviceRead (r.who die) r.area (areaShapeOf h).size).bind fun x => if areaContentsOk x.1 then some x else none

/-- The group that an area is restored to: the one saved there, or none for an area of NAME 0 (R328, R338). `failStale` where
the name is not recorded against this area. -/
def State.areaGroup (s : State) (r : SaveRequest) (bs : List Byte) : Except Nat (Option Group) :=
  let name := BitVec.ofNat 64 (areaField bs 8 8)
  if name == 0 then .ok none
  else
    match s.findName name with
    | none => .error failStale
    | some g =>
      match g.residency with
      | .saved area _ _ => if area == r.area then .ok (some g) else .error failStale
      | _ => .error failStale

/-- Where a saved store goes: translated with write permission in its thread's context, at its thread's privilege (R412). -/
def State.savedLoc (s : State) (die : Nat) (t : Thread) (va : Dword) : Except TrapInfo Loc :=
  s.locate ⟨die, t.ctxid.toNat, t.polder.toNat, t.pl == 0⟩ .write (t.pl == 2) va

/-- The slot that a restored group takes: its name's slot for a replay launch (R421), the one named, or any free one but slot
31 of core 63 (R338). The slot that the group itself keeps is free for it. `none` where none is free yet. -/
def State.restoreSlot (s : State) (r : SaveRequest) (old : Option Group) (die core : Nat) (replay : Bool) : Except Nat (Option Nat) :=
  let mine := fun k => match old with
    | some g => g.place == ⟨die, core, k⟩
    | none => false
  let taken := fun k => (s.onCore die core).any fun g => g.place.slot = k
  let rested := fun k => match tfind (s.core die core).freed k with
    | some n => n + microseconds 1 ≤ s.clock
    | none => true
  let named := if replay then old.map fun g => field g.name 19 5
    else if r.placement.getLsbD 16 then some (field r.placement 11 5) else none
  match named with
  | some k => if mine k then .ok (some k) else if taken k then .error failRoom else .ok (if rested k then some k else none)
  | none =>
    let free := (List.range 32).filter fun k => !(core = 63 && k = 31) && (mine k || !taken k)
    match free.find? fun k => mine k || rested k with
    | some k => .ok (some k)
    | none => if free = [] then .error failRoom else .ok none

/-- Whether a core has the granules, tiles and blocks for a restored group, counting what the group itself holds there (R338,
R348). A replay launch's groups may begin OUT. -/
def State.restoreRoom (s : State) (a : AreaShape) (old : Option Group) (die core : Nat) (replay ganged : Bool) : Bool :=
  let c := s.core die core
  let here := match old with
    | some g => if g.place.die = die && g.place.core = core then (g.granules.length, g.tileRegs.length) else (0, 0)
    | none => (0, 0)
  granulesFor a.scratch ≤ c.freeGranules.length + here.1 && a.tiles ≤ c.freeTiles.length + here.2 &&
  (replay || ganged || blocksFor a.nthr a.budget ≤ c.freeBlocks.length) && !(s.die die).lost

/-- Whether a core may take a group of a launch under R359 and R421. -/
def State.replayRoom (s : State) (l : Launch) (die core : Nat) : Bool :=
  core < 63 && (s.onCore die core).all (fun g => g.lid = l.lid) &&
  (l.target = none || l.target = some (die, core)) &&
  (match s.replayOn die core with
   | some x => x.lid = l.lid
   | none => true)

/-- Threads of a restored group as its area gives them, over what their records keep (R408, R412). `up` says that the group goes to
slot 31 of core 63, where it runs at supervisor level; elsewhere it runs at user level (R319, R324, R328). -/
def State.restoredThreads (s : State) (bs : List Byte) (old : Option Group) (g : Group) (r : SaveRequest) (up : Bool) :
    List (Nat × Thread) :=
  let a := areaShapeOf bs
  let warps := (List.range a.nwarp).map fun i => areaWarp bs i
  (List.range a.nthr).map fun t =>
    let base : Thread := match old.bind fun o => o.thread t with
      | some x => x
      | none => { Thread.controlReset with gidx := t, pl := 0, ctxid := BitVec.ofNat 32 r.ctx, polder := BitVec.ofNat 32 r.polder }
    let base := { base with gidx := t, wid := g.base + BitVec.ofNat 64 (g.ordinal * a.nthr + t), pl := if up then 1 else 0 }
    let w := warps.find? fun w => w.2.2.any fun l => l.2 = t
    let held := areaThreadField bs t 8 1 = 1 && areaThreadField bs t 12 1 = 1
    let parked := match w with
      | some (kind, action, _) => action = 0 && (kind = 1 || kind = 3 || (kind = 2 && !held))
      | none => false
    let loc := fun va => match s.savedLoc g.place.die base va with
      | .ok l => l
      | .error _ => scratchLoc 0
    let kind := (w.map fun w => w.1).getD 0
    let x := (areaThread bs base parked kind s.next.op loc).applyFull
    let lane := (w.bind fun w => w.2.2.find? fun l => l.2 = t).map Prod.fst
    let skip := match w with
      | some (kind, 2, _) => kind != 0
      | _ => false
    (t, { x with lane := lane.getD x.lane, pc := if skip then x.pc + BitVec.ofNat 56 (s.lengthAt g x) else x.pc })

/-- The warps of a restored group (R409, R412): a resumed, skipped or killed one is a normal warp. -/
def restoredWarps (bs : List Byte) (first : Nat) (hw : Bool) : List Warp :=
  let a := areaShapeOf bs
  ((List.range a.nwarp).filterMap fun i =>
    let (kind, action, lanes) := areaWarp bs i
    let lanes := lanes.filter fun l => l.2 < a.nthr && areaThreadField bs l.2 8 1 != 4 && areaThreadField bs l.2 8 1 != 2
    let k : WarpKind := if action = 1 || action = 2 || action = 3 || kind = 0 then .normal
      else if kind = 1 then .fragment 64 else if kind = 2 then .parked hw else .halted
    if lanes = [] then none else some (⟨first + i, k, lanes, none⟩ : Warp))

/-- Threads that a warp's ACTION kills (R409). -/
def killedThreads (bs : List Byte) : List Nat :=
  (List.range (areaShapeOf bs).nwarp).flatMap fun i =>
    let (kind, action, lanes) := areaWarp bs i
    if kind != 0 && action = 3 then lanes.map Prod.snd else []

/-- Scratchpad and tiles of an area (R407). -/
def areaMemory (bs : List Byte) (at' n : Nat) (base : Nat) (m : Memory) : Memory := m.writeN base ((bs.drop at').take n)

/-- A restored group's data: registers of the group, of which the reserved fields stay zero (R8), scratchpad, tiles, bins, threads
and warps (R412, step 3). A tile byte or bitmap bit is restored with no error, whatever it carried when it was saved; DESIGN CHOICE,
log entry 98. -/
def State.restoredGroup (s : State) (bs : List Byte) (old : Option Group) (r : SaveRequest) (p : Place) : Group :=
  let a := areaShapeOf bs
  let f := areaField bs
  let up := p.core = 63 && p.slot = 31
  let tiles := (List.range a.tiles).foldl (fun m k => areaMemory bs (a.til + 73728 * k) 65536 (65536 * k) m) ([] : Memory)
  let zeros := (List.range a.tiles).flatMap fun k => (List.range 8192).flatMap fun i =>
    let b := (bs[a.til + 73728 * k + 65536 + i]?).getD 0
    ((List.range 8).filter fun j => !b.getLsbD j).map fun j => 65536 * k + 8 * i + j
  let g0 : Group := old.getD { Group.controlReset 0 with gid := s.next.gid, control := none }
  let g : Group := { g0 with
    place := p, residency := .out (s.clockOf g0) false, moved := 0, base := BitVec.ofNat 64 (f 0x010 8),
    widWord := BitVec.ofNat 64 (f 0x018 8), entry := BitVec.ofNat 64 (f 0x020 8), ctl := BitVec.ofNat 32 (f 0x028 4),
    quantum := BitVec.ofNat 32 (f 0x068 4), rquant := BitVec.ofNat 32 (f 0x06C 4), budget := a.budget, nthr := a.nthr,
    scratchSize := a.scratch, scratch := areaMemory bs a.scr a.scratch 0 [], tiles := a.tiles, tileMem := tiles,
    bitmapZero := zeros, tileErrors := [], scratchErrors := [], actions := [], tshape := (List.range 8).map fun k => BitVec.ofNat 32 (f (0x048 + 4 * k) 4) &&& 0x03FFFF03,
    terr := BitVec.ofNat 32 (f 0x040 4) &&& 0xC07FFFF0, ovr := BitVec.ofNat 32 (f 0x044 4) &&& 1, bins := areaBins bs (s.clockOf g0),
    blocks := [], granules := [], tileRegs := [], gangIssued := g0.gangIssued }
  let threads := s.restoredThreads bs old g r up
  let applied := threads.any fun t => ((old.bind fun o => o.thread t.1).any fun x => x.remote.length != t.2.remote.length)
  { g with ovr := if applied then g.ovr ||| 1 else g.ovr, threads := threads,
           warps := restoredWarps bs s.next.win (!s.regs.assist.getLsbD 2) }

/-- Saved store buffer entries performed into the saving die's working store, and its release and the target's acquire
step, where a group moves to another die (R212, R412, step 4). The scratchpad's own entries are performed into its image. -/
def State.migrateStores (s : State) (g : Group) (from' : Nat) : Group × State :=
  let r := g.threads.foldl (fun (acc : Group × State) t => t.2.sb.foldl (fun acc e =>
    let bs := bytesOfNat e.data.toNat e.size
    match e.kind with
    | .scratch o => ({ acc.1 with scratch := acc.1.scratch.writeN o bs }, acc.2)
    | .global l _ =>
      (acc.1, (acc.2.touch l.ctx l.home).writeLocFor from' l ⟨l.ctx, l.polder, t.2.pl != 0⟩ [(g.gid, t.1, e.seq)] bs)
    | .mark _ _ => acc) acc) (g, s)
  let g := { r.1 with threads := r.1.threads.map fun t => (t.1, { t.2 with sb := [] }) }
  (g, (r.2.engineRelease from').acquireStep g.place.die)

/-- Restored fragments enter the target core's fragment table, or, with no entry free, are parked as R37 parks a warp and
reported by FRAGFULL (R412, step 3). -/
def State.placeFragments (s : State) (gid : Nat) : State :=
  match s.group gid with
  | none => s
  | some g =>
    g.warps.foldl (fun s w =>
      if w.kind != .fragment 64 then s
      else
        let die := g.place.die
        let hw := !s.regs.assist.getLsbD 2
        match (s.core die g.place.core).freeEntry with
        | some e =>
          let s := s.modCore die g.place.core fun c => { c with frags := tput c.frags e (gid, w.id, hw) }
          s.modGroup gid fun g => { g with warps := mapIf (fun x => x.id = w.id) (fun x => { x with kind := .fragment e }) g.warps }
        | none =>
          let s := s.modGroup gid fun g => { g with warps := mapIf (fun x => x.id = w.id) (fun x => { x with kind := .parked hw }) g.warps }
          match (w.lanes.head?).bind fun l => g.thread l.2 with
          | some t =>
            let under := (t.trapped.map fun i => i.cause.code).getD 0
            let info : TrapInfo := { cause := .fragFull, detail := under.zeroExtend 32 }
            s.addRecords die [threadRecord g t info (laneMask (w.lanes.map Prod.fst)) 0xFF true false]
          | none => s) s

/-- A replay launch counts a restored group (R421): the RETIRED of the first is kept, and the others must follow to that core. The
count itself stands until the launch goes on, so that a `ctxsv` before then saves the same RETIRED (R420). -/
def State.countRestored (s : State) (g : Group) (die core retired : Nat) : State :=
  let up := fun (l : Launch) =>
    { l with resumeAt := if l.restored = [] then retired else l.resumeAt, target := some (die, core),
             restored := (l.restored.filter fun n => n != g.ordinal) ++ [g.ordinal] }
  { s with launches := mapIf (fun l => l.lid = g.lid && l.header.isReplay) up s.launches }

/-- The groups of a launch that have not exited. -/
def State.groupsOf (s : State) (lid : Nat) : List Group :=
  (s.groups.map Prod.snd).filter fun g => g.control.isNone && g.lid = lid && g.live != []

/-- Whether every group of a stopped replay launch that has not exited is restored (R421). -/
def State.allRestored (s : State) (l : Launch) : Bool :=
  l.stopped && l.target.isSome && (s.groupsOf l.lid).all fun g =>
    l.restored.contains g.ordinal && l.target = some (g.place.die, g.place.core) && g.isOut

/-- A group's bins with their entry times moved. -/
def Group.moveBins (g : Group) (f : Nat → Nat) : Group :=
  { g with bins := g.bins.map fun b => { b with entries := b.entries.map fun e => (e.1, f e.2) } }

/-- A replay launch goes on at RETIRED once all its groups are restored (R362, R421): those that were resident at the stop are
again, each since the count at which it came to be, and bins keep their ages, as all of it stands to RETIRED. -/
def State.goOn (s : State) (l : Launch) : State :=
  let move := fun (n : Nat) => n + l.resumeAt - l.retired
  let s := l.before.foldl (fun s b =>
    match (s.groupsOf l.lid).find? fun g => g.ordinal = b.1 with
    | none => s
    | some g =>
      match b.2.1 with
      | .resident n => (s.joinCore g.gid b.2.2).modGroup g.gid fun g => { g.moveBins move with residency := .resident (move n) }
      | .out n _ => s.modGroup g.gid fun g =>
        { g.moveBins (fun e => move e + n - l.retired) with residency := .out (move n) false, moved := b.2.2 }
      | .saved _ _ _ => s) s
  let up := fun (l : Launch) =>
    { l with retired := l.resumeAt, onCore := l.target, target := none, restored := [], before := [], stopped := false, stopAsked := false, lastKey := 0 }
  { s with launches := mapIf (fun x => x.lid = l.lid) up s.launches }

/-- A launch whose group now runs on a die releases there too when it completes (R358). -/
def State.ranOn (s : State) (lid die : Nat) : State :=
  { s with launches := mapIf (fun l => l.lid = lid) (fun l => { l with dies := if l.dies.contains die then l.dies else l.dies ++ [die] }) s.launches }

/-- What a restored group's saved stores reach is touched in their contexts (R391). -/
def State.touchStores (s : State) (g : Group) : State :=
  g.threads.foldl (fun s t => t.2.sb.foldl (fun s e => match e.kind with
    | .global l _ => s.touch l.ctx l.home
    | .scratch _ => s
    | .mark _ _ => s) s) s

/-- A checked area restored to a slot (R412, steps 2 to 6): the slot's generation advances (R47), the die keeps no read-only
bytes from before (R179), and the threads that a warp's ACTION kills exit with what R242 reports of them. -/
def State.restoreGroup (s : State) (r : SaveRequest) (bs : List Byte) (old : Option Group) (p : Place) : State :=
  let g := s.restoredGroup bs old r p
  let n := (areaShapeOf bs).nsb + (areaShapeOf bs).nwarp + 1
  let s := { s with next := { s.next with op := s.next.op + n, win := s.next.win + n, gid := s.next.gid + 1 } }
  let s := match old with
    | some o => s.releaseSlot o
    | none => s
  let (g, s) := s.takeSlot g
  let (g, s) := match old with
    | some _ => (g, (s.advanceGen p).2)
    | none => s.nameGroup g r.polder
  let s := s.touchStores g
  let from' := (old.map fun o => o.place.die).getD p.die
  let (g, s) := if from' = p.die then (g, s) else s.migrateStores g from'
  let resumed := (List.range (areaShapeOf bs).nwarp).any fun i => (areaWarp bs i).1 != 0 && (areaWarp bs i).2.1 != 0
  let s := if resumed then s.acquireStep p.die else s
  let s := g.contexts.foldl (fun s c => s.touch c p.die) (s.putGroup g)
  let s := (s.modDie p.die fun d => { d with kcopies := [] }).exitThreads g.gid (killedThreads bs)
  let s := ((s.placeFragments g.gid).countRestored g p.die p.core (areaField bs 0x070 8)).ranOn g.lid p.die
  let s := if (s.replayOf g).isSome then s else s.joinNew ((s.gangOf g).map Group.gid)
  let s := (s.coresWith p.die p.core).foldl (fun s c => s.settleTimer c.1 c.2) s
  let s := match old with
    | some o => s.settleTimer o.place.die o.place.core
    | none => s
  s.completeSave r p.die doneRestored

/-- A `ctxld`'s checks (R338, R359, R412, R421) and its restore: `none` while the slot that it takes rests (R47). A lost die restores
nothing: the request is answered with an error (R393), as a core without room is. DEDUCED, log entry 109. -/
def State.tryRestore (s : State) (r : SaveRequest) : Option State :=
  let die := field r.placement 6 5
  let core := field r.placement 0 6
  if (s.die die).lost then some (s.completeSave r r.die failRoom)
  else match s.readArea r die with
  | none => some (s.completeSave r die failArea)
  | some (bs, s1) =>
    match s1.areaGroup r bs with
    | .error code => some (s1.completeSave r die code)
    | .ok old =>
      let launch := old.bind fun g => s1.replayOf g
      let replay := launch.isSome
      let ganged := (BitVec.ofNat 32 (areaField bs 0x028 4)).getLsbD 6
      let up := core = 63 && r.placement.getLsbD 16 && field r.placement 11 5 = 31
      let stores := s1.restoredThreads bs old ((old.getD (Group.controlReset 0))) r up
      let ok := (areaStores bs).all fun e => e.kind != 0 ||
        (match stores.find? fun t => t.1 = e.thread with
         | some t => (match s1.savedLoc die t.2 e.addr with
           | .ok _ => true
           | .error _ => false)
         | none => false)
      let sameCount := match launch with
        | some l => l.restored = [] || l.resumeAt = areaField bs 0x070 8
        | none => true
      let room := s1.restoreRoom (areaShapeOf bs) old die core replay ganged && (match launch with
        | some l => s1.replayRoom l die core
        | none => (s1.replayOn die core).isNone)
      if !ok || !sameCount then some (s1.completeSave r die failArea)
      else if !room then some (s1.completeSave r die failRoom)
      else
        match s1.restoreSlot r old die core replay with
        | .error code => some (s1.completeSave r die code)
        | .ok none => none
        | .ok (some k) => some (s1.restoreGroup r bs old ⟨die, core, k⟩)

/-- Whether the polder filter drops a read that a `ctxld` makes of its area (R380). -/
def State.areaLost (s : State) (r : SaveRequest) (die : Nat) : Bool :=
  r.area.toNat % 4096 = 0 &&
  (s.deviceLost (r.who die) .read r.area 0x180 || (s.deviceRead (r.who die) r.area 0x180).any fun h =>
    areaHeaderOk h.1 && s.deviceLost (r.who die) .read r.area (areaShapeOf h.1).size)

/-- CONTEXT_RESTORE (R338, R412, R421). -/
def execContextRestore (index : Nat) (s : State) : Host.Outcome State Fault Refusal :=
  match s.saves[index]? with
  | none => .next s
  | some r =>
    .next (if !r.load || r.dropped then s
      else if !(s.die (field r.placement 6 5)).lost && s.areaLost r (field r.placement 6 5) then s.dropSave r
      else (s.tryRestore r).getD s)

/-! ## Steps -/

/-- The trap of a thread taken by a step request (R337, Table 23-1). -/
def stepTrap (pc : Pc) : TrapInfo := { cause := .step, tval := pc.zeroExtend 64 }

/-- A thread leaves its bin. -/
def Group.leaveBin (g : Group) (t : Nat) : Group :=
  let bs := g.bins.map fun b => { b with entries := b.entries.filter fun e => e.1 != t }
  { g with bins := bs.filter fun b => b.entries != [] }

/-- A parked thread leaves its fragment or its parked warp as a warp of its own, to run one instruction (R39, R337). -/
def State.runOne (s : State) (g : Group) (t : Thread) : State :=
  let (wid, s) := s.freshWin
  let entry := match g.kindOf t.gidx with
    | .fragment e => if ((g.warpOf t.gidx).map fun (w : Warp) => w.lanes.length) = some 1 then some e else none
    | _ => none
  let g := g.leaveWarp [t.gidx]
  let g := { g with warps := g.warps ++ [(⟨wid, .normal, [(t.lane, t.gidx)], none⟩ : Warp)] }
  let s := s.putGroup (g.modThread t.gidx fun x => { x with state := .ready, trapped := none, stepping := .toRun })
  match entry with
  | some e => s.freeEntry g.place.die g.place.core e
  | none => s

/-- A step request taken (R337), or `none` where it waits: for its thread to stop issuing or for its condition, for its
group to be resident, for a free fragment entry, for its fragment's records to be written, or for its halt to end. A thread that was held
at a fence, `tlbsync`, `xwait` or `sev`, which neither list of R337 names, has the holding instruction as its recorded PC; DESIGN CHOICE,
log entry 108. -/
def State.takeStep (s : State) (r : StepRequest) (g : Group) (t : Thread) : Option State :=
  let free := ((s.core g.place.die g.place.core).freeEntry)
  let taken := fun (g : Group) => free.map fun e =>
    (s.putGroup g).splitFragment g.gid e [(t.gidx, stepTrap (r.ran.getD t.pc))]
  if !g.isResident then none
  else
    match t.state, r.ran with
    | .ready, _ => taken g
    | .binned, _ => taken (g.leaveBin t.gidx)
    | .parked, none =>
      match g.kindOf t.gidx with
      | .halted => none
      | .fragment e => if s.recordsWait g e then none else some (s.runOne g t)
      | _ => some (s.runOne g t)
    | .parked, some _ => none
    | .issuing, _ => none
    | .waiting _, _ => none
    | .exited, _ => none

/-- STEP_TAKE (R337): a request whose thread has exited is discarded and counted. -/
def execStepTake (index : Nat) (s : State) : Host.Outcome State Fault Refusal :=
  match s.steps[index]? with
  | none => .next s
  | some r =>
    let gone := { s with steps := s.steps.eraseIdx index }
    match s.group r.gid with
    | none => .next gone
    | some g =>
      match g.thread r.gidx with
      | none => .next gone
      | some t =>
        if t.state == .exited then .next (if r.ran.isSome then gone else gone.countStale (nameDie g.name))
        else
          match gone.takeStep r g t with
          | some s' => .next s'
          | none => .next s

end Sys2Proof.Machine
end

