-- ==== Sys2Proof/Machine/IssueReads.lean ====
section
/-!
DEFINITION. What a lane set reads as it issues: the words of its instruction, the entry words that calls check (R144), and the
header and entry word of a launch (R155, R341). Each is a read of the die like any other: of a token-class line it needs a token
(R385), and a home that the polder filter keeps away never answers it (R380).
-/
namespace Sys2Proof.Machine

open Sys2Proof

/-- The words of the lane set's instruction, as far as they translate: those after the first once the first can be read. -/
def State.wordReads (s : State) (x : Issue) : List Loc :=
  match x.lanes with
  | [] => []
  | t :: _ =>
    match s.fetchLoc x t 0 with
    | .error _ => []
    | .ok l =>
      if !s.readable x.group.place.die l then [l]
      else
        let n := wordsOf (wordOfBytes (s.readLoc x.group.place.die l 4))
        l :: (((List.range (n - 1)).map fun i => (s.fetchLoc x t (i + 1)).toOption).takeWhile Option.isSome).filterMap id

/-- The entry word that a call of a lane checks (R144). -/
def State.entryReads (s : State) (g : Group) (t : Thread) (target : Pc) : List Loc :=
  match s.locate (whoOf g t) .fetch false ((target - 4).zeroExtend 64) with
  | .error _ => []
  | .ok l => if s.poisoned .fetch false l 4 then [] else [l]

/-- What an active lane reads, beyond its instruction, as it issues. -/
def State.laneReads (s : State) (x : Issue) (i : Instr) (v : View) (t : Thread) : List Loc :=
  let launch := match s.launchLoc x.group t v with
    | .error _ => []
    | .ok l => s.launchReads x.group t s.next.op l
  match i with
  | .call _ => s.entryReads x.group t (brTarget v x.pc)
  | .callr _ =>
    match pairTarget t v with
    | .error _ => []
    | .ok p => s.entryReads x.group t p
  | .launch _ => launch
  | .launchW _ => launch
  | _ => []

/-- Major opcodes of the instructions that read at issue: `call`, `callr`, `launch`, `launch.w` (Table 6-1). -/
def readsAtIssue (base : Word) : Bool := ([0x73, 0x74, 0x7E, 0x7F] : List Nat).contains (field base 3 8)

/-- What the lanes of a set whose instruction passes checks 2 to 6 read as they issue. -/
def State.operandReads (s : State) (x : Issue) : List Loc :=
  match s.fetchInstr x with
  | .error _ => []
  | .ok (i, _) =>
    match i.view with
    | none => []
    | some v =>
      if (x.staticTrap i v).isSome || x.maskNeeds v != [] || x.operandNeeds i v != [] then []
      else (x.lanes.filter fun t => laneActive v.tail.modifier t && (x.laneTrap i v t).isNone).flatMap (s.laneReads x i v)

/-- All that the lane set reads as it issues. -/
def State.issueReads (s : State) (x : Issue) : List Loc :=
  let ls := s.wordReads x
  let base := (ls.head?.map fun l => wordOfBytes (s.readLoc x.group.place.die l 4)).getD 0
  if readsAtIssue base && ls.all (s.readable x.group.place.die) then ls ++ s.operandReads x else ls

/-- The first read of the lane set that cannot be made as things stand: its tokens are missing (R385), or its home does not answer
(R380). -/
def State.fetchWants (s : State) (x : Issue) : Option Loc :=
  (s.issueReads x).find? fun l => !s.readable x.group.place.die l

/-- The lane set asks for the tokens of a line, and waits (R386), once the line's home stands in the mask of the context that asks
(R391). A request that the polder filter drops is counted, and the lane set waits for an answer that never comes (R380). -/
def State.askFetch (s : State) (x : Issue) (l : Loc) : State :=
  let s := s.touch l.ctx l.home
  if s.reaches x.group.place.die l then s.requestTokens x.group.place.die l.polder l.key false
  else s.countFiltered.putStroke { x.stroke with dropped := true }

/-- Whether the lane set of an issue slot waits for tokens that it has asked for. -/
def State.fetchWaits (s : State) : Bool :=
  s.issue.any fun x => (s.fetchWants x).any fun l => s.askFetch x l = s

end Sys2Proof.Machine
end

