-- ==== Sys2Proof/Machine/TableUpdate.lean ====
section
/-!
DEFINITION. The table-update engine: table-region stores that reach the replicas (R371, R376 to R378, R382, R404), cached
translations filled (R372), and invalidations acknowledged (R373).
-/
namespace Sys2Proof.Machine

open Sys2Proof

/-! ## Replicas -/

/-- A table-region store reaches one more replica: the first that still lacks it and lacks no earlier store (R371, one order
for all). -/
def State.nextReplica (s : State) (index : Nat) : Option Nat :=
  match s.tableStores[index]? with
  | none => none
  | some x => x.left.find? fun d => !(s.tableStores.take index).any fun y => y.left.contains d

/-- TABLE_REPLICA_WRITE (R371): the store is written; then the die walks again what waits for a translation (R293, R404), and so
does every die for one that a release has written whole. -/
def execTableReplicaWrite (index : Nat) (s : State) : Host.Outcome State Fault Refusal :=
  match s.tableStores[index]?, s.nextReplica index with
  | some x, some d =>
    let left := x.left.filter fun k => k != d
    let stores := if left = [] then s.tableStores.eraseIdx index else s.tableStores.set index { x with left := left }
    let s := { s with tableStores := stores }.writeReplica d x.offset x.data
    .next ((List.range 34).foldl (fun s k => if s.replicaOf k = d then s.replicaReached k else s) s)
  | some x, none =>
    if x.left != [] then .next s
    else .next ((List.range 34).foldl (fun s k => s.replicaReached k) { s with tableStores := s.tableStores.eraseIdx index })
  | none, _ => .next s

/-! ## Translation caches -/

/-- The table that a walk of an address reads at a level, by the replica of the walker's die. -/
def State.tableAt (s : State) (die root va level : Nat) : Nat → Nat → Option Nat
  | 0, _ => none
  | fuel + 1, lvl =>
    if lvl = level then some root
    else
      let e := s.readNat (s.replicaOf die) (root + 8 * tableIndex va lvl) 8
      if peValid e && !peLeaf e && lvl != 0 then s.tableAt die (peFrame e * 4096) va level fuel (lvl - 1) else none

/-- TLB_FILL (R372): a translation cache takes the entry of one level of an address's walk, if it is valid and not
malformed in its walker's replica. -/
def execTlbFill (die ctx level : Nat) (va : Dword) (s : State) : Host.Outcome State Fault Refusal :=
  let c := s.contextEntry die ctx
  if 34 ≤ die || ((s.die die).lost && !(s.die die).leftReset) || 4096 ≤ ctx || !c.testBit 0 || 4 < level then .next s
  else
    match s.tableAt die (c / 2 ^ 11 % 2 ^ 37 * 2048) va.toNat level 5 4 with
    | none => .next s
    | some table =>
      let off := table + 8 * tableIndex va.toNat level
      let e := s.readNat (s.replicaOf die) off 8
      let p := s.polder (s.replicaOf die) (c / 2 ^ 6 % 32)
      if !peValid e || s.malformed p level e then .next s
      else .next (s.modDie die fun d =>
        { d with tlb := d.tlb.filter (fun t => t.offset != off) ++ [⟨off, BitVec.ofNat 64 e⟩] })

/-! ## Acknowledgements -/

/-- Whether a thread has an access translated under a covered entry that has not been performed (R373, step 2). -/
def Tlbi.holdsThread (i : Tlbi) (t : Thread) : Bool :=
  (t.sb.any fun e => match e.kind with
    | .global l _ => i.coversLoc l
    | .scratch _ => false
    | .mark _ _ => false) ||
  (t.ops.any fun o => !o.done && (match o.kind with
    | .load .g l _ _ _ _ _ => i.coversLoc l
    | .load .k l _ _ _ _ _ => i.coversLoc l
    | .atom .g l _ _ _ _ _ _ _ _ => i.coversLoc l
    | _ => false))

/-- Whether an entry of an apply queue is a pod packet that the die's walker landed under a covered entry. -/
def State.holdsEntry (s : State) (i : Tlbi) (die : Nat) (e : ApplyEntry) : Bool :=
  match e.kind with
  | .podWrite p l => s.landingDie p = die && i.coversLoc l
  | .podFlag p l => s.landingDie p = die && i.coversLoc l
  | .podRead p l => s.landingDie p = die && i.coversLoc l
  | .podAtom p l => s.landingDie p = die && i.coversLoc l
  | .diff _ _ _ => false
  | .atomic _ _ _ _ _ _ _ _ => false

/-- Whether a pod write or flag of a die's thread, translated in a covered context, is still on the chip (R373, step 2): its channel
belongs to the context that it was sent in (R271). -/
def State.holdsSend (s : State) (i : Tlbi) (die : Nat) : Bool :=
  let from' := fun (gid : Nat) (p : Packet) =>
    ((s.group gid).any fun g => g.place.die = die) &&
    s.pod.channels.any fun c => c.chan = p.chan && i.covers c.ctx p.polder
  (s.pod.outWait.any fun w => w.owner.any fun o => from' o.1 w.packet) || s.pod.flags.any fun f => from' f.gid f.packet

/-- Whether a die must wait before it acknowledges an invalidation (R373, step 2). -/
def State.tlbiWaits (s : State) (i : Tlbi) (die : Nat) : Bool :=
  (s.groups.any fun g => g.2.place.die = die && (match g.2.residency with
    | .saved _ _ _ => false
    | _ => true) && g.2.threads.any fun t => i.holdsThread t.2) ||
  (s.tileOps.any fun o => o.die = die && o.rows.any fun r => r.any fun p => i.coversLoc p.1) ||
  (s.pod.requests.any fun q => q.waits && q.first.isNone && (match s.group q.gid with
    | some g => g.place.die = die && i.covers q.ctx q.packet.polder
    | none => false)) ||
  s.holdsSend i die || s.dies.any fun d => d.2.queue.any fun e => s.holdsEntry i die e

/-- Threads of a die held at `pacq` under a covered entry translate again (R287, R373). -/
def State.wakePacqs (s : State) (i : Tlbi) (die : Nat) : State :=
  s.groups.foldl (fun s g =>
    if g.2.place.die != die then s
    else g.2.threads.foldl (fun s t => match t.2.state with
      | .waiting (.pacq l _ _ _ _) =>
        if i.coversLoc l then
          s.modGroup g.1 fun g => g.modThread t.1 fun x => { x with state := g.freeState t.1, resumed := true }
        else s
      | _ => s) s) s

/-- A die's acknowledgement counted; the invalidation is complete once every cache has given it (R373). No cache then holds an entry
from before (R372): one that filled again since its acknowledgement drops it. -/
def State.acknowledge (s : State) (id die : Nat) : State :=
  let is := mapIf (fun (i : Tlbi) => i.id = id) (fun i => { i with left := i.left.filter fun d => d != die }) s.tlbis
  let whole := is.any fun i => i.left = []
  { s with tlbis := is.filter fun i => i.left != []
           dies := if whole then s.dies.map fun d => (d.1, { d.2 with tlb := [] }) else s.dies }

/-- Whether an older store of an invalidation's issuer to the table region has not reached every replica. No cache acknowledges before it
has, so that none fills again with the entry that the store replaces (R372); DEDUCED, log entry 103. -/
def State.tlbiBehind (s : State) (i : Tlbi) : Bool :=
  s.tablePending i.gid i.gidx i.seq || ((s.thread i.gid i.gidx).any fun t => t.sb.any fun e => e.seq < i.seq && e.toTable)

/-- TLBI_ACK (R373): a die drops its cached entries, and, once every access under a covered one is performed, completes a
device-scope release and acknowledges. It drops more than is covered (log entry 11). -/
def execTlbiAck (die id : Nat) (s : State) : Host.Outcome State Fault Refusal :=
  match s.tlbis.find? fun i => i.id = id && i.left.contains die && !s.tlbiBehind i with
  | none => .next s
  | some i =>
    let s := s.modDie die fun d => { d with tlb := [] }
    if s.tlbiWaits i die then .next s
    else .next (((s.wakePacqs i die).engineRelease die).acknowledge id die)

end Sys2Proof.Machine
end

