-- ==== Sys2Proof/Machine/Tokens.lean ====
section
/-!
DEFINITION. The token protocol's messages and requests (R384 to R388).
-/
namespace Sys2Proof.Machine

open Sys2Proof

/-! ## Lines -/

/-- Tokens received by a die's agent or by home memory, which takes the data (R386). -/
def State.receiveTokens (s : State) (m : TokenMsg) : State :=
  let t := s.lineOrHome m.line
  match m.dest with
  | none =>
    let s := if m.owner then { s with mem := s.mem.writeN m.line m.data } else s
    s.putLine { t with homeTokens := t.homeTokens + m.tokens, homeOwner := t.homeOwner || m.owner }
  | some d =>
    let h := t.held (some d)
    let hs := t.holders.filter (fun x => x.die != d) ++ [⟨d, h.1 + m.tokens, h.2 || m.owner⟩]
    s.putLine { t with holders := sortBy Holder.die hs }

/-! ## Events -/

/-- What a holder answers to a transient request (Table of R386): tokens, and whether the owner token is among them. -/
def TokenLine.answer (t : TokenLine) (who : Option Nat) (write : Bool) : Nat × Bool :=
  let h := t.held who
  if write then h
  else if !h.2 then (0, false)
  else if who.isNone && h.1 = 64 then (64, true)
  else if h.1 = 1 then (1, true)
  else (1, false)

/-- TRANSIENT_REQUEST_RECEIVE (R386): a holder answers. While a persistent request is active for the line its tokens go
there instead (R387), a poisoned line has none (R394), and none pass to a die outside the line's polder (R380, R384). -/
def execTransientRequestReceive (index : Nat) (s : State) : Host.Outcome State Fault Refusal :=
  match s.tokens.reqMsgs[index]? with
  | none => .next s
  | some m =>
    let s := { s with tokens := { s.tokens with reqMsgs := s.tokens.reqMsgs.eraseIdx index } }
    let t := s.lineOrHome m.line
    if t.poisoned || m.dest = some m.src || (s.activeRequester m.line).isSome then .next s
    else
      let a := if (s.lineAgents m.line).contains m.src then t.answer m.dest m.write else (0, false)
      .next (s.sendTokens m.line m.dest (some m.src) a.1 a.2)

/-- TRANSIENT_RETRY (R386): a request whose die still lacks what it needs after 0.5 µs is sent again. -/
def execTransientRetry (die line : Nat) (s : State) : Host.Outcome State Fault Refusal :=
  match s.tokens.reqs.find? fun r => r.die = die && r.line = line with
  | none => .next s
  | some r =>
    if s.clock < r.last + nanoseconds 500 || !s.lacksTokens die line r.write then .next s
    else
      let again := mapIf (fun (x : TokenReq) => x.die = die && x.line = line) (fun x => { x with last := s.clock }) s.tokens.reqs
      let s := { s with tokens := { s.tokens with reqs := again } }
      .next (s.broadcastRequest die r.polder line r.write)

/-- Whether a die may issue a persistent request (R387): it has none active, and every one that was active when it last
deactivated has been deactivated. -/
def State.mayEscalate (s : State) (die : Nat) : Bool :=
  !(s.tokens.persistent.any fun p => p.1 = die) && !(s.tokens.waiting.any fun w => w.1 = die && w.2 != [])

/-- PERSISTENT_ESCALATE (R387): a requester of the line's polder that lacks what it needs 2 µs after its first transient request. -/
def execPersistentEscalate (die line : Nat) (s : State) : Host.Outcome State Fault Refusal :=
  match s.tokens.reqs.find? fun r => r.die = die && r.line = line with
  | none => .next s
  | some r =>
    if s.clock < r.first + microseconds 2 || !s.lacksTokens die line r.write || !s.mayEscalate die ||
      !(s.lineAgents line).contains die then .next s
    else
      .next ({ s with tokens := { s.tokens with
        persistent := s.tokens.persistent ++ [(die, line, false)] } }.feedPersistent line)

/-- Whether a waiting `launch.w` whose turn has come has such a read to make (R156, R385). -/
def State.launchNeeds (s : State) (g : Group) (t : Thread) (o : Op) (on : Loc → Bool) : Bool :=
  match o.kind with
  | .launch _ l store none _ =>
    !o.done && !o.dropped && !s.launchWaits t o store &&
    (match s.locate (whoOf g t) .read false l.va with
     | .error _ => false
     | .ok l => (s.launchReads g t o.id l).any on)
  | _ => false

/-- Whether a lane set of a die waits for such a read as it issues (R385). -/
def State.issueNeeds (s : State) (die : Nat) (on : Loc → Bool) : Bool :=
  s.strokes.any fun k => k.die = die && !k.dropped &&
    (let s := { s with cur := (k.die, k.core, k.slot) }
     s.issue.any fun x => (s.fetchWants x).any on)

/-- Whether a thread of a die still has an access to a line to perform, or an instruction to issue that reads it. -/
def State.needsLine (s : State) (die line : Nat) : Bool :=
  let on := fun (l : Loc) => l.token && !l.table && lineOf l.key = line
  s.issueNeeds die on || s.groups.any fun g => g.2.place.die = die && g.2.threads.any fun t =>
    (t.2.sb.any fun e => match e.kind with
      | .global l _ => on l
      | .scratch _ => false
      | .mark _ _ => false) ||
    (t.2.ops.any fun o => o.unperformed && (match o.kind with
      | .load _ l _ _ _ _ _ => on l
      | _ => false)) ||
    (t.2.ops.any fun o => s.launchNeeds g.2 t.2 o on) ||
    (match t.2.state with
      | .waiting (.pacq l _ _ _ _) => on l
      | _ => false)

/-- Requests of a die that its tokens now serve, and of which no access is left, are over (R386). One whose access is still to be
performed stands, with the time that it was first made, as others may take the tokens before (R387). -/
def State.closeRequests (s : State) (die line : Nat) : State :=
  if s.needsLine die line then s
  else
    { s with tokens := { s.tokens with
        reqs := s.tokens.reqs.filter fun r => !(r.die = die && r.line = line && !s.lacksTokens die line r.write) } }

/-- TOKEN_RESPONSE_RECEIVE (R384, R386, R387): tokens arrive; those of a line with an active persistent request go on to its
requester. A message to a lost die is gone (R394). -/
def execTokenResponseReceive (index : Nat) (s : State) : Host.Outcome State Fault Refusal :=
  match s.tokens.msgs[index]? with
  | none => .next s
  | some m =>
    let s := { s with tokens := { s.tokens with msgs := s.tokens.msgs.eraseIdx index } }
    let s := (s.receiveTokens m).feedPersistent m.line
    match m.dest with
    | some d => .next (s.closeRequests d m.line)
    | none => .next s

/-- A persistent request is gone: it is waited for no longer, and the line's tokens go to the next requester (R387). -/
def State.endPersistent (s : State) (die line : Nat) : State :=
  let left := s.tokens.persistent.filter fun p => p.1 != die
  let others := left.map fun p => (p.1, p.2.1)
  let waiting := (s.tokens.waiting.filter fun w => w.1 != die).map fun w => (w.1, w.2.filter fun x => x != (die, line))
  { s with tokens := { s.tokens with
      persistent := left, waiting := (waiting ++ [(die, others)]).filter fun w => w.2 != [] } }.feedPersistent line

/-- PERSISTENT_DEACTIVATE (R387): after its one access, or when its die has no access to the line left. -/
def execPersistentDeactivate (die : Nat) (s : State) : Host.Outcome State Fault Refusal :=
  match s.tokens.persistent.find? fun p => p.1 = die with
  | none => .next s
  | some (_, line, served) =>
    let unasked := { s with tokens := { s.tokens with reqs := s.tokens.reqs.filter fun r => !(r.die = die && r.line = line) } }
    .next (if served then s.endPersistent die line
      else if !s.needsLine die line then unasked.endPersistent die line else s)

/-- TOKEN_GIVE_UP (R386): an agent sends all its tokens of a line home. -/
def execTokenGiveUp (die line : Nat) (s : State) : Host.Outcome State Fault Refusal :=
  match s.tokens.lines.find? fun t => t.key = line && !t.poisoned with
  | none => .next s
  | some t =>
    let h := t.held (some die)
    .next ((s.sendTokens line (some die) none h.1 h.2).feedPersistent line)

end Sys2Proof.Machine
end

