-- ==== Sys2Proof/Machine/Loss.lean ====
section
/-!
DEFINITION. Dies lost and dies that leave reset (R374, R392 to R395), wavelengths that fail (R383), and uncorrectable
errors (R111, R415).
-/
namespace Sys2Proof.Machine

open Sys2Proof

/-! ## Circuits -/

/-- Whether a die has a live circuit (R382, R383). -/
def State.hasCircuit (s : State) (die : Nat) : Bool :=
  (List.range 1024).any fun i =>
    let e := s.connection routingCopy i
    ceValid e && (ceState e = 1 || ceState e = 2) && (ceA e = die || ceB e = die)

/-- Connection entry i replaced in every replica. -/
def State.putConnection (s : State) (i e : Nat) : State := s.writeTables (0x9000 + 8 * i) (bytesOfNat e 8)

/-! ## The steps of a die's loss -/

/-- Whether an operation is a request that a lost die's loss answers with an error: it awaits a reply from the die, a
launch that awaits an entry of its store among them, or it is a request of a thread on the die (R393). -/
def Op.refused (o : Op) (die place : Nat) : Bool :=
  !o.done && (match o.kind with
    | .load space l _ _ _ _ value => space != .l && value.isNone && (l.home = die || place = die)
    | .atom space l _ _ _ _ _ _ _ result => space != .l && result.isNone && (l.home = die || place = die)
    | .launch _ _ store status _ => (status.isNone && store = die) || place = die
    | .gname _ _ => place = die
    | _ => false)

/-- A global operation's location: of a launch, its header's. -/
def Op.loc (o : Op) : Option Loc :=
  match o.kind with
  | .load _ l _ _ _ _ _ => some l
  | .atom _ l _ _ _ _ _ _ _ _ => some l
  | .launch _ l _ _ _ => some l
  | _ => none

/-- The operations that a die's loss answers with an error: group, thread and operation. -/
def State.refusedOps (s : State) (die : Nat) : List (Nat × Nat × Op) :=
  s.groups.flatMap fun g => g.2.threads.flatMap fun t =>
    (t.2.ops.filter fun o => o.refused die g.2.place.die).map fun o => (g.1, t.1, o)

/-- A thread of the lost die has lost its store buffer (R374); any other loses its token-class stores to lines homed
there, which have no tokens left (R394). -/
def Thread.loseStores (t : Thread) (die place : Nat) : Thread :=
  { t with sb := t.sb.filter fun e => place != die && (match e.kind with
      | .global l _ => !(l.token && l.home = die)
      | .scratch _ => true
      | .mark _ _ => true) }

/-- Tile operations that a die's loss ends: those of its cores, and those with rows homed on it. -/
def TileOp.refused (o : TileOp) (die : Nat) : Bool := o.die = die || o.rows.any fun r => r.any fun p => p.1.home = die

/-- Step 1 of R393: no traffic passes to or from the die. Requests awaiting a reply are answered with an error, and what the
die's own engines and threads had under way is lost. -/
def State.refuseTraffic (s : State) (die : Nat) : State :=
  let s := (s.refusedOps die).foldl (fun s p => s.failOp p.1 p.2.1 p.2.2) s
  let s := (s.tileOps.filter fun o => o.refused die).foldl (fun s o =>
    o.lanes.foldl (fun s l => s.modThread o.gid l.1 fun t => t.finishOp l.2) s) s
  let s := (s.transfers.filter fun x => x.die = die).foldl (fun s x => s.modThread x.gid x.gidx fun t => t.finishOp x.opId) s
  let here := fun (f : PendingFlag) => match s.group f.gid with
    | some g => g.place.die = die
    | none => false
  let s := (s.pod.flags.filter here).foldl (fun s f => s.modThread f.gid f.gidx fun t => t.finishOp f.op) s
  let s := { s with
    tileOps := s.tileOps.filter fun o => !o.refused die
    transfers := s.transfers.filter fun x => x.die != die
    pod := { s.pod with flags := s.pod.flags.filter fun f => !here f } }
  let s := (s.strokes.filter fun k => k.die = die).foldl (fun s k => s.endStroke k) s
  s.groups.foldl (fun s g => s.modGroup g.1 fun x =>
    { x with threads := x.threads.map fun t => (t.1, t.2.loseStores die x.place.die) }) s

/-- The contexts that something in the module runs in. -/
def State.usedContexts (s : State) : List Nat :=
  ((s.groups.flatMap fun g => g.2.contexts) ++ s.launches.map Launch.ctx ++ s.folios.map Folio.ctx).eraseDups

/-- Step 2 of R393: contexts that touched the die halt with DIELOSS; one whose request was answered with an error, or whose store was refused, although
its mask lacks the bit halts with LEVEE (R395). -/
def State.haltDependents (s : State) (die : Nat) (failed : List Loc) : State :=
  let cs := s.usedContexts.filter fun c => (s.touchedDies c).testBit die
  let s := cs.foldl (fun s c => s.haltContext c { cause := .dieLoss, detail := BitVec.ofNat 32 die }) s
  (failed.filter fun l => !cs.contains l.ctx).foldl (fun s l =>
    s.haltContext l.ctx { cause := .levee, tval := l.va, detail := BitVec.ofNat 32 die }) s

/-- A pod packet in a lost die's apply queue is discarded (R395); a request is not answered. -/
def State.discardEntry (s : State) (e : ApplyEntry) : State :=
  match e.kind with
  | .podWrite p _ => s.discardPacket p
  | .podFlag p _ => s.discardPacket p
  | .podRead p _ => (s.credit p).tellSender p
  | .podAtom p _ => (s.credit p).tellSender p
  | .diff _ _ _ => s
  | .atomic _ _ _ _ _ _ _ _ => s

/-- Step 3 of R393: entries sent to the die count as applied. The die's own stores are lost with its caches; where it enters
reset, so is what it sent and no home has applied (R374). -/
def State.discardSent (s : State) (die : Nat) (reset : Bool) : State :=
  let queued := (s.die die).queue
  let stays := fun (e : ApplyEntry) => e.home != die && e.src != die
  let keep := fun (d : Nat × Die) =>
    if d.1 = die then
      (d.1, { d.2 with sent := [], queue := [], work := [], kcopies := [], kinvHeld := [], tlb := [] })
    else
      (d.1, { d.2 with sent := d.2.sent.filter stays, queue := d.2.queue.filter fun e => !(reset && e.src = die) })
  queued.foldl (fun s e => s.discardEntry e) { s with dies := (s.dies.map keep).filter fun d => d.2 != Die.reset }

/-! ## The token sweep -/

/-- The polders that a die belongs to (R378). -/
def State.poldersOf (s : State) (die : Nat) : List Polder :=
  ((List.range 32).map fun p => s.polder (s.replicaOf 32) p).filter fun p => p.valid && p.hasDie die

/-- What the home of a line counts when the lost die's tokens are gone (R394): whether the owner token is among them. -/
def State.ownerSurvives (s : State) (t : TokenLine) (die : Nat) : Bool :=
  t.homeOwner || (t.holders.any fun h => h.die != die && h.owner) ||
  s.tokens.msgs.any fun m => m.line = t.key && m.dest != some die && m.owner

/-- Tokens of a line that reach its home in the sweep. -/
def State.survivingTokens (s : State) (t : TokenLine) (die : Nat) : Nat :=
  t.homeTokens + ((t.holders.filter fun h => h.die != die).map Holder.tokens).sum +
  ((s.tokens.msgs.filter fun m => m.line = t.key && m.dest != some die).map TokenMsg.tokens).sum

/-- One line swept (R394): all its tokens are at its home again, with the owner's data, or it is poisoned. -/
def State.sweepLine (s : State) (t : TokenLine) (die : Nat) : State :=
  let all := { t with homeTokens := 64, homeOwner := true, holders := [], data := [] }
  let s' := { s with tokens := { s.tokens with msgs := s.tokens.msgs.filter fun m => m.line != t.key } }
  if t.poisoned then s'
  else if keyHome t.key = die then s'.putLine all
  else if s.ownerSurvives t die then
    { s' with mem := if t.homeOwner then s'.mem else s'.mem.writeN t.key t.data }.putLine all
  else s'.putLine { all with homeTokens := s.survivingTokens t die, homeOwner := false, poisoned := true }

/-- Step 4 of R393: the token sweep of the lost die's polders (R394), after which a line's tokens go to a persistent request that is
still active (R387). Requests for lines homed on the die, whose tokens are gone, end with it (R393). -/
def State.sweep (s : State) (die : Nat) : State :=
  let ps := s.poldersOf die
  let lines := s.tokens.lines.filter fun t => keyHome t.key = die || ps.any fun p => p.hasDie (keyHome t.key)
  let s := lines.foldl (fun s t => s.sweepLine t die) s
  let s := { s with tokens := { s.tokens with
    reqs := s.tokens.reqs.filter fun r => r.die != die && keyHome r.line != die
    reqMsgs := s.tokens.reqMsgs.filter fun m => m.src != die && m.dest != some die && keyHome m.line != die } }
  let s := (s.tokens.persistent.filter fun p => p.1 = die || keyHome p.2.1 = die).foldl (fun s p => s.endPersistent p.1 p.2.1) s
  (lines.filter fun t => keyHome t.key != die).foldl (fun s t => s.feedPersistent t.key) s

/-- Step 5 of R393: invalidations and table-region stores no longer await the die (R371, R374). -/
def State.stopAwaiting (s : State) (die : Nat) : State :=
  let s := s.tlbis.foldl (fun s i => s.acknowledge i.id die) s
  { s with tableStores := s.tableStores.map fun x => { x with left := x.left.filter fun d => d != die } }

/-- Token-class stores of threads elsewhere to lines homed on a lost die, which are not performed (R394, R395). -/
def State.refusedStores (s : State) (die : Nat) : List Loc :=
  s.groups.flatMap fun g => g.2.threads.flatMap fun t => t.2.sb.filterMap fun e => match e.kind with
    | .global l _ => if g.2.place.die != die && l.token && l.home = die then some l else none
    | .scratch _ => none
    | .mark _ _ => none

/-- A DIE IS LOST (R392, R393): the steps in their order. -/
def State.loseDie (s : State) (die : Nat) (reset : Bool) : State :=
  let failed := ((s.refusedOps die).filterMap fun p => p.2.2.loc) ++ s.refusedStores die
  let s := s.modDie die fun d => { d with lost := true, leftReset := false }
  let s := (s.refuseTraffic die).haltDependents die failed
  ((s.discardSent die reset).sweep die).stopAwaiting die

/-- Whether a die's loss may happen for a reason (R392): a silent die or one that enters reset, or a die that no circuit
reaches. A relay needs a live circuit to the die as well. -/
def State.lossDue (s : State) (die : Nat) (why : LossCause) : Bool :=
  die < 34 && !(s.die die).lost && (why != .circuits || !s.hasCircuit die)

/-- A die that was lost, has left reset and is not yet marked live enters reset again: its caches are destroyed, and what awaits its
acknowledgement awaits it no longer (R374). -/
def State.resetAgain (s : State) (die : Nat) : State :=
  ((s.modDie die fun d => { d with leftReset := false }).discardSent die true).stopAwaiting die

/-- DIE_LOSS (R374, R392 to R395). -/
def execDieLoss (die : Nat) (why : LossCause) (s : State) : Host.Outcome State Fault Refusal :=
  .next (if s.lossDue die why then s.loseDie die (why == .reset)
    else if why == .reset && (s.die die).lost && (s.die die).leftReset then s.resetAgain die
    else s)

/-! ## Leaving reset -/

/-- A die's replica of the table region rebuilt from another (R374). -/
def State.rebuildReplica (s : State) (die src : Nat) : State :=
  let base := storageKey die 0
  let from' := storageKey src 0
  let size := 2 ^ 32
  let others := s.mem.filter fun c => !(base ≤ c.1 && c.1 < base + size)
  let cells := (s.mem.filter fun c => from' ≤ c.1 && c.1 < from' + size).map fun c => (c.1 - from' + base, c.2)
  { s with mem := cells.foldl (fun m c => m.write c.1 c.2) others }

/-- Table-region stores that the replica a die rebuilt its own from still lacks are to reach the die's too (R371, R374). -/
def State.awaitRebuilt (s : State) (die src : Nat) : State :=
  { s with tableStores := mapIf (fun x => x.left.contains src) (fun x => { x with left := x.left ++ [die] }) s.tableStores }

/-- A die's configuration word's INKSZ (Table 22-3). -/
def State.inkSizeOf (s : State) (die : Nat) : BitVec 3 := BitVec.ofNat 3 (s.readNat (s.replicaOf 32) (0x8800 + 8 * die) 8)

/-- DIE_RESET_EXIT (R374, R389, R392): a lost die leaves reset with empty caches, its registers at their reset values and
its replica rebuilt. It stays lost until supervisor software marks it live. Groups on it stay parked (log entry 37). -/
def execDieResetExit (die : Nat) (s : State) : Host.Outcome State Fault Refusal :=
  if 34 ≤ die || !(s.die die).lost then .next s
  else
    let src := (List.range 32).find? fun d => d != die && !(s.die d).lost
    let s := match src with
      | some d => if die < 32 then (s.rebuildReplica die d).awaitRebuilt die d else s
      | none => s
    .next (s.modDie die fun d =>
      { Die.reset with lost := true, leftReset := true, names := d.names, records := d.records, podQueue := d.podQueue,
                       inkSize := s.inkSizeOf die, ioInkSize := s.inkSizeOf (if die = 0 then 32 else 33) })

/-! ## Wavelengths -/

/-- A connection entry after one of its wavelengths has failed (R383). -/
def ceFail (e : Nat) : Nat :=
  if 0 < ceSpares e then ceWith e (ceLive e) (ceSpares e - 1) (ceState e)
  else ceWith e (ceLive e - 1) 0 (if ceLive e ≤ 1 then 0 else 2)

/-- WAVELENGTH_FAIL (R383, R435): a spare takes its place, or the circuit degrades and the wavelength is to be retrained. A
die left with no live circuit is lost. -/
def execWavelengthFail (entry : Nat) (s : State) : Host.Outcome State Fault Refusal :=
  let e := s.connection routingCopy entry
  if 1024 ≤ entry || !ceValid e || !(ceState e = 1 || ceState e = 2) then .next s
  else
    let s := s.putConnection entry (ceFail e)
    let wait := s.regs.assist.getLsbD 3 && ceSpares e = 0
    let s := if wait then
        { s with ports := { s.ports with retrain := s.ports.retrain ++ [.wavelength entry] },
                 regs := { s.regs with notice := s.regs.notice ||| 0x04000000 } }
      else s
    .next ([ceA e, ceB e].foldl (fun s d => if s.lossDue d .circuits then s.loseDie d false else s) s)

/-! ## Uncorrectable errors -/

/-- A register that carries an error until it is written (R415): a lane that reads it traps (`Issue.laneTrap`). -/
def State.registerError (s : State) (gid gidx reg : Nat) : State :=
  s.modThread gid gidx fun t => if t.state == .exited then t else { t with regErrors := t.regErrors ++ [reg] }

/-- A scratchpad byte that carries an error until it is written (R415): a lane that reads it traps (`scratchLevee`). -/
def State.scratchByteError (s : State) (gid off : Nat) : State :=
  s.modGroup gid fun g => if off < g.scratchSize then { g with scratchErrors := g.scratchErrors ++ [off] } else g

/-- A tile element, in the tile's present shape, or a bitmap bit that carries an error (R111). -/
def State.tileError (s : State) (gid tile row col : Nat) (bit : Bool) : State :=
  s.modGroup gid fun g =>
    let w := if bit then 1 else shapeWidth (g.shape tile)
    if tile < g.tiles then
      { g with tileErrors := g.tileErrors ++ (List.range w).map fun i => (tileAt tile row col w + i, bit) }
    else g

/-- A twin that cannot be read (R415): the difference from the home copy is sent, and the context that made the twin
halts. -/
def State.twinError (s : State) (die block : Nat) : State :=
  match (s.die die).block block with
  | none => s
  | some b =>
    match b.twin with
    | none => s
    | some _ =>
      let runs := runsOf b.bytes (changedOffsets b.bytes (s.homeBlock block))
      let s := s.modDie die fun d => d.modBlock block fun b => { b with twin := none }
      let s := if runs = [] then s else s.sendEntry die (keyHome block) b.twinPolder (.diff block runs b.twinSupervisor)
      s.haltContext b.twinCtx { cause := .levee, tval := Config.twinAddress block, detail := BitVec.ofNat 32 die }

/-- UNCORRECTABLE_ERROR (R111, R415, Table 23-8). -/
def execUncorrectableError (site : ErrorSite) (s : State) : Host.Outcome State Fault Refusal :=
  match site with
  | .register gid gidx reg => .next (s.registerError gid gidx reg)
  | .scratch gid _ off => .next (s.scratchByteError gid off)
  | .tileElem gid tile row col => .next (s.tileError gid tile row col false)
  | .tileBit gid tile row col => .next (s.tileError gid tile row col true)
  | .memory home off =>
    let k := sectorOf (storageKey home off)
    .next (if home < 32 && !s.poison.contains k then { s with poison := insertBy id k s.poison } else s)
  | .twin die block => .next (s.twinError die block)

end Sys2Proof.Machine
end

