-- ==== Sys2Proof/Machine/Ports.lean ====
section
/-!
DEFINITION. The root ports (R425 to R428): downstream completions, inbound requests, links that go down, and links that are
retrained (R435).
-/
namespace Sys2Proof.Machine

open Sys2Proof

/-! ## Downstream completions -/

/-- An outstanding request completed (R426): a read fills its pair, with all ones under an error; a configuration write
frees its lane past the instruction. -/
def State.pciComplete (s : State) (r : PciOut) (error : Bool) (data : Dword) : State :=
  let outs := s.ports.outstanding.filter fun x => !(x.gid = r.gid && x.op = r.op)
  let s := { s with ports := { s.ports with outstanding := outs } }
  let s := if error then s.modThread r.gid 0 Thread.pciFail else s
  s.modGroup r.gid fun g =>
    match g.thread 0 with
    | none => g
    | some t =>
      if r.write then
        match t.state with
        | .waiting (.pciWrite next) => g.release 0 next false
        | _ => g
      else
        match t.ops.find? fun o => o.id = r.op with
        | none => g
        | some o =>
          let x := if error then 2 ^ 64 - 1 else data.toNat % 2 ^ (8 * r.size)
          let d := match o.kind with
            | .pciRead d => d
            | _ => 0
          (g.fillOp 0 o d [BitVec.ofNat 32 x, BitVec.ofNat 32 (x / 2 ^ 32)]).modThread 0 fun t => t.finishOp r.op

/-- An outstanding downstream request. -/
def State.pciRequest (s : State) (gid op : Nat) : Option PciOut := s.ports.outstanding.find? fun r => r.gid = gid && r.op = op

/-- PCI_COMPLETION (R426): the next completion; one whose request has timed out changes nothing. -/
def execPciCompletion (s : State) : Host.Outcome State Fault Refusal :=
  match s.ports.pciIn with
  | [] => .next s
  | (gid, op, error, data) :: rest =>
    let s := { s with ports := { s.ports with pciIn := rest } }
    match s.pciRequest gid op with
    | some r => .next (s.pciComplete r error data)
    | none => .next s

/-- PCI_TIMEOUT (R426): no completion within 50 ms. -/
def execPciTimeout (gid op : Nat) (s : State) : Host.Outcome State Fault Refusal :=
  match s.pciRequest gid op with
  | some r => .next (if r.sent + microseconds 50000 ≤ s.clock then s.pciComplete r true 0 else s)
  | none => .next s

/-! ## Inbound requests -/

/-- A completion returned to a requester. -/
def State.pciAnswer (s : State) (port tag : Nat) (status : PciStatus) (data : List Byte) : State :=
  { s with ports := { s.ports with completions := s.ports.completions ++ [(port, tag, status, data)] } }

/-- A fault of an inbound request (R427): it is logged in the port's AER registers and forms no fragment; a read is completed
as Completer Abort. A posted write has no completion. -/
def State.pciAbort (s : State) (port : Nat) (addr : Dword) (tag : Option Nat) : State :=
  let s := { s with ports := { s.ports with aer := s.ports.aer ++ [(port, addr)] } }
  match tag with
  | some k => s.pciAnswer port k .abort []
  | none => s

/-- The I/O die of a root port (R425). -/
def portDie (port : Nat) : Nat := if port < 4 then 32 else 33

/-- Who an inbound request of a port is (R427): its I/O die at supervisor privilege, in context CTX of sys.dmactx and that
context's polder. -/
def State.portWho (s : State) (port : Nat) : Who :=
  let ctx := field ((s.regs.dmactx[port]?).getD 0) 0 12
  ⟨portDie port, ctx, s.contextEntry (portDie port) ctx / 2 ^ 6 % 32, false⟩

/-- Whether a port's inbound requests are enabled. -/
def State.portEnabled (s : State) (port : Nat) : Bool := ((s.regs.dmactx[port]?).getD 0).getLsbD 31

/-- Whether the routing die delivers every piece of an access to its home (R380, R427). -/
def State.piecesDelivered (s : State) (w : Who) (ps : List (Loc × Nat)) : Bool := ps.all fun p => s.delivers w.polder p.1.home

/-- An inbound memory request performed as an access of the I/O die (R427): all that the die wrote before has reached its
home first. A home outside the context's polder is refused (R380). -/
def State.inboundAccess (s : State) (port : Nat) (need : Need) (addr : Dword) (n : Nat) (tag : Option Nat)
    (act : State → Who → List (Loc × Nat) → State) : State :=
  let w := s.portWho port
  let va : Dword := (addr.extractLsb' 0 56).zeroExtend 64
  match s.stretch w need false va n with
  | none => s.pciAbort port addr tag
  | some ps =>
    if s.piecesDelivered w ps then
      act ((ps.foldl (fun s p => s.touch w.ctx p.1.home) s).engineRelease w.die) w ps
    else s.countFiltered.pciAbort port addr tag

/-- What a port does with a request that it receives (R425, R427). -/
def State.inbound (s : State) (port : Nat) (r : PciRequest) : State :=
  match r with
  | .intx _ => s
  | .peer _ tag => s.pciAnswer port tag .unsupported []
  | .write _ addr data =>
    if !s.portEnabled port then s
    else s.inboundAccess port .write addr data.length none fun s w ps => s.engineWrite w.die true ps data
  | .read _ addr n tag =>
    if !s.portEnabled port then s.pciAnswer port tag .unsupported []
    else
      s.inboundAccess port .read addr n (some tag) fun s w ps =>
        let r := s.engineRead w.die ps
        r.2.pciAnswer port tag .success r.1

/-- INBOUND_REQUEST (R425, R427, R428): the next request that a port received. One of a port that is down is discarded. -/
def execInboundRequest (s : State) : Host.Outcome State Fault Refusal :=
  match s.ports.inbound with
  | [] => .next s
  | (port, r) :: rest =>
    let s := { s with ports := { s.ports with inbound := rest } }
    .next (if 8 ≤ port || s.ports.rootDown.contains port then s else s.inbound port r)

/-! ## Links -/

/-- PORT_LINK_DOWN (R428, R435): a port's link goes down, or DPC contains it. -/
def execPortLinkDown (port : Nat) (s : State) : Host.Outcome State Fault Refusal :=
  if 8 ≤ port || s.ports.rootDown.contains port then .next s
  else
    let wait := s.regs.assist.getLsbD 3
    let failed := (s.ports.outstanding.filter fun r => r.port = port).map fun r => (r.gid, r.op, true, (0 : Dword))
    let bit : Word := 1 <<< (16 + port)
    .next { s with
      ports := { s.ports with
        rootDown := s.ports.rootDown ++ [port]
        inbound := s.ports.inbound.filter fun r => r.1 != port
        pciIn := s.ports.pciIn ++ failed
        retrain := if wait then s.ports.retrain ++ [.rootPort port] else s.ports.retrain }
      regs := { s.regs with notice := s.regs.notice ||| bit ||| (if wait then 0x04000000 else 0) } }

/-- A connection entry after one of its wavelengths has been retrained (R383). -/
def ceRetrain (e : Nat) : Nat :=
  ceWith e (ceLive e + 1) (ceSpares e) (if ceLive e + 1 = ceWaves e then 1 else 2)

/-- LINK_RETRAIN (R383, R428, R432, R435): a failed link that does not wait for supervisor software carries traffic again. -/
def execLinkRetrain (link : LinkName) (s : State) : Host.Outcome State Fault Refusal :=
  if s.ports.retrain.contains link then .next s
  else
    match link with
    | .rootPort k => .next { s with ports := { s.ports with rootDown := s.ports.rootDown.filter fun x => x != k } }
    | .podPort k =>
      if s.ports.podDown.any fun x => x.1 = k then
        let dead : Word := if k < 16 then 1 <<< (24 + k / 2) else 0
        .next { s with
          ports := { s.ports with podDown := s.ports.podDown.filter fun x => x.1 != k }
          regs := { s.regs with plmap := s.regs.plmap &&& ~~~dead } }
      else .next s
    | .wavelength i =>
      let e := s.connection routingCopy i
      .next (if i < 1024 && ceValid e && ceState e != 3 && ceLive e < ceWaves e then s.putConnection i (ceRetrain e) else s)

end Sys2Proof.Machine
end

