-- ==== Sys2Proof/Machine/Sideband.lean ====
section
/-!
DEFINITION. The sideband port (R429 to R431): signed requests, the reset window, the SPDM responder, and firmware images in
recovery (R436, R441).
-/
namespace Sys2Proof

/-- The bytes that a sideband request's signature covers: its nonce and its body (R429). -/
def SidebandMsg.signed (m : SidebandMsg) : List Byte := Machine.bytesOfNat m.nonce 8 ++ m.body

end Sys2Proof

namespace Sys2Proof.Machine

open Sys2Proof

/-! ## Requests -/

/-- An answer given at the sideband port. -/
def State.answer (s : State) (a : SidebandAnswer) : State :=
  { s with ports := { s.ports with sidebandOut := s.ports.sidebandOut ++ [a] } }

/-- Signature failures of the last second (R440). -/
def State.recentFailures (s : State) : List Nat := s.ports.failures.filter fun t => s.clock < t + seconds 1

/-- A request whose signature fails is discarded (R429); the sixteenth within a second raises the alarm (R440), and the count
starts anew: each sixteen are one event. DESIGN CHOICE, log entry 41. -/
def State.badSignature (s : State) : State :=
  let fs := s.recentFailures ++ [s.clock]
  if 16 ≤ fs.length then { s with ports := { s.ports with failures := [], alarmIn := s.ports.alarmIn ++ [.signatures] } }
  else { s with ports := { s.ports with failures := fs } }

/-- The next sideband message, if it asks one of some kinds: signed under a key of the store, and with a nonce not used
since reset, it is acted on; otherwise it is discarded (R429). A module without keys has nothing to verify with:
`keyless` says what it does (R441). -/
def State.takeSideband (s : State) (kinds : SidebandKind → Bool) (keyless act : SidebandMsg → State → State) : State :=
  match s.ports.sideband with
  | [] => s
  | m :: rest =>
    if !kinds m.kind then s
    else
      let s := { s with ports := { s.ports with sideband := rest } }
      if !s.ports.keys then keyless m s
      else if !Config.signatureValid m.signed m.signature then s.badSignature
      else if s.ports.nonces.contains m.nonce then s
      else act m { s with ports := { s.ports with nonces := s.ports.nonces ++ [m.nonce] } }

/-- A request refused with an error and no effect. -/
def State.refuseSideband (m : SidebandMsg) (s : State) : State := s.answer (.error m.kind)

/-! ## Reset -/

/-- Whether some polder but polder 0 holds a valid context (R430). -/
def State.tenants (s : State) : Bool :=
  (List.range 4096).any fun c =>
    let e := s.contextEntry 32 c
    e.testBit 0 && e / 2 ^ 6 % 32 != 0

/-- A valid reset request (R430): during boot, and with no tenant, the module resets at once; otherwise a window of 200 ms
opens, in which a second request changes nothing. -/
def State.resetRequest (m : SidebandMsg) (s : State) : State :=
  let s := s.answer (.accepted m.kind)
  if s.ports.resetWindow.isSome then s
  else if s.ports.boot == .check || !s.tenants then s.moduleReset
  else
    { s with
      regs := { s.regs with notice := (s.regs.notice &&& 0xFFFF0000) ||| 0x02000000 ||| 200 }
      ports := { s.ports with resetWindow := some s.clock } }.sevTarget s.regs.ntarget

/-- SIDEBAND_RESET_REQUEST (R429, R430, R441). -/
def execSidebandResetRequest (s : State) : Host.Outcome State Fault Refusal :=
  .next (s.takeSideband (fun k => k == .reset) State.refuseSideband State.resetRequest)

/-- MSLEFT of sys.notice (Table 26-4). -/
def State.msLeft (s : State) : Nat := field s.regs.notice 0 16

/-- RESET_WINDOW_COUNT (R430): a millisecond of the window has passed. -/
def execResetWindowCount (s : State) : Host.Outcome State Fault Refusal :=
  match s.ports.resetWindow with
  | none => .next s
  | some t =>
    if s.clock < t + microseconds 1000 || s.msLeft = 0 then .next s
    else
      .next { s with
        regs := { s.regs with notice := s.regs.notice - 1 }
        ports := { s.ports with resetWindow := some (t + microseconds 1000) } }

/-- RESET_WINDOW_EXPIRE (R430): MSLEFT has reached 0. -/
def execResetWindowExpire (s : State) : Host.Outcome State Fault Refusal :=
  .next (if s.ports.resetWindow.isSome && s.msLeft = 0 then s.moduleReset else s)

/-! ## SPDM -/

/-- An SPDM request answered (R431); a module without keys answers ERROR (R441). -/
def State.spdm (s : State) (kind : SidebandKind) (reply : SidebandMsg → SidebandAnswer) : State :=
  s.takeSideband (fun k => k == kind) State.refuseSideband fun m s => s.answer (reply m)

/-- The answer to a request that measures nothing. -/
def plainAnswer (m : SidebandMsg) : SidebandAnswer := .spdm m.kind [] (Config.spdmAnswer m.body)

/-- GET_VERSION (R431). -/
def execGetVersion (s : State) : Host.Outcome State Fault Refusal := .next (s.spdm .getVersion plainAnswer)
/-- GET_CAPABILITIES (R431). -/
def execGetCapabilities (s : State) : Host.Outcome State Fault Refusal := .next (s.spdm .getCapabilities plainAnswer)
/-- NEGOTIATE_ALGORITHMS (R431): 4,096-bit RSA and SHA-512 only. -/
def execNegotiateAlgorithms (s : State) : Host.Outcome State Fault Refusal :=
  .next (s.spdm .negotiateAlgorithms fun m =>
    if Config.spdmOffers m.body then .algorithms 4096 512 (Config.spdmAnswer m.body) else .unsupported m.kind)
/-- GET_DIGESTS (R431). -/
def execGetDigests (s : State) : Host.Outcome State Fault Refusal := .next (s.spdm .getDigests plainAnswer)
/-- GET_CERTIFICATE (R431). -/
def execGetCertificate (s : State) : Host.Outcome State Fault Refusal := .next (s.spdm .getCertificate plainAnswer)
/-- CHALLENGE (R431). -/
def execChallenge (s : State) : Host.Outcome State Fault Refusal := .next (s.spdm .challenge plainAnswer)

/-- A measurement (R431): 1 is the digest of the firmware image, 2 that of the monitor tables at the last `tlbsync` completed at
monitor level. No other block is measured. -/
def State.measurement (s : State) (block : Nat) : Option (List Byte) :=
  if block = 1 then some (Config.sha512 ((s.ports.image.map Image.bytes).getD []))
  else if block = 2 then some s.ports.measurement2
  else none

/-- GET_MEASUREMENTS (R431): the blocks asked for; a request for any other is not supported. -/
def execGetMeasurements (s : State) : Host.Outcome State Fault Refusal :=
  .next (s.spdm .getMeasurements fun m =>
    match (Config.spdmBlocks m.body).mapM s.measurement with
    | some ds => .spdm m.kind (ds.flatMap id) (Config.spdmAnswer m.body)
    | none => .unsupported m.kind)

/-- Whether a request is one that the port does not support as things stand (R429, R436): anything else, and an image
request outside recovery. -/
def State.unsupportedKind (s : State) (k : SidebandKind) : Bool :=
  k == .other || ((k == .imageWrite || k == .imageCommit) && s.ports.boot != .recovery)

/-- SIDEBAND_UNSUPPORTED (R429, R431, R436): answered with an error, without effect: ERROR, UnsupportedRequest, but an image
request outside recovery is rejected. -/
def execSidebandUnsupported (s : State) : Host.Outcome State Fault Refusal :=
  .next (s.takeSideband s.unsupportedKind State.refuseSideband fun m s =>
    if m.kind == .other then s.answer (.unsupported .other) else State.refuseSideband m s)

/-! ## Images -/

/-- Whether an image request of a kind is taken: in recovery (R436). -/
def State.inRecovery (s : State) (kind k : SidebandKind) : Bool := k == kind && s.ports.boot == .recovery

/-- The image that staged bytes make, by what its header names. -/
def stagedImage (bs : List Byte) : Image :=
  { bytes := bs, entry := Config.imageEntry bs, secondary := Config.imageSecondary bs, trap := Config.imageTrap bs,
    signature := Config.imageSignature bs }

/-- IMAGE_WRITE (R436): in recovery, the request's bytes follow those already written. -/
def execImageWrite (s : State) : Host.Outcome State Fault Refusal :=
  .next (s.takeSideband (s.inRecovery .imageWrite) State.refuseSideband fun m s =>
    { s with ports := { s.ports with staged := s.ports.staged ++ m.body } }.answer (.accepted m.kind))

/-- IMAGE_COMMIT (R436): in recovery, an image that verifies replaces the old one, and the module resets. -/
def execImageCommit (s : State) : Host.Outcome State Fault Refusal :=
  .next (s.takeSideband (s.inRecovery .imageCommit) State.refuseSideband fun m s =>
    let image := stagedImage s.ports.staged
    if Config.signatureValid image.bytes image.signature then
      { s with ports := { s.ports with image := some image } }.moduleReset
    else { s with ports := { s.ports with staged := [] } }.answer (.error m.kind))

end Sys2Proof.Machine
end

