-- ==== Sys2Proof/Machine/Election.lean ====
section
/-!
DEFINITION. The election of a pod's boot leader (R437 to R439) and what the leader loads; the alarm, power and cooling (R440,
R442, R443).
-/
namespace Sys2Proof

/-- The bytes that a claim's signature covers: the serial and the state (R437). -/
def Claim.signed (c : Claim) : List Byte :=
  let code : Byte := match c.state with
    | .claiming => 0
    | .leader => 1
    | .follower => 2
  Machine.bytesOfNat c.serial.toNat 8 ++ [code]

/-- The bytes that a progress beat's signature covers: the leader's serial (R438). -/
def beatBytes (serial : Dword) : List Byte := Machine.bytesOfNat serial.toNat 8

end Sys2Proof

namespace Sys2Proof.Machine

open Sys2Proof

/-- The election's record changed. -/
def State.modElection (s : State) (f : Election → Election) : State :=
  { s with ports := { s.ports with election := f s.ports.election } }

/-! ## Claims -/

/-- The chip's own claim (R437). -/
def State.ownClaim (s : State) : Claim :=
  let c : Claim := { serial := Config.serial, state := s.ports.election.state, signature := [] }
  { c with signature := Config.sign c.signed }

/-- Pod ports whose link is up. -/
def State.livePodPorts (s : State) : List Nat := (List.range 16).filter fun k => !s.ports.podDown.any fun x => x.1 = k

/-- Whether a claim is due (R437, R441): the image runs, there are keys, and 10 ms have passed since the last. -/
def State.claimDue (s : State) : Bool :=
  s.ports.boot == .running && s.ports.keys && (match s.ports.election.lastClaim with
    | some t => decide (t + microseconds 10000 ≤ s.clock)
    | none => true)

/-- CLAIM_SEND (R437): a claim on every live pod port. -/
def execClaimSend (s : State) : Host.Outcome State Fault Refusal :=
  if s.claimDue then
    let out := s.livePodPorts.map fun k => (k, s.ownClaim)
    .next ({ s with ports := { s.ports with claimsOut := s.ports.claimsOut ++ out } }.modElection fun e =>
      { e with lastClaim := some s.clock })
  else .next s

/-- PODADM of a polder entry set to a value in every replica (Table 22-2). -/
def State.setAdmit (s : State) (p : Nat) (on : Bool) : State :=
  let old := s.readNat (s.replicaOf 32) (0x8000 + 64 * p + 32) 8
  s.writeTables (0x8000 + 64 * p + 32) (bytesOfNat (old / 2 * 2 + (if on then 1 else 0)) 8)

/-- Everything that another leader has loaded into this chip is discarded (R438). -/
def State.discardLoad (s : State) : State :=
  if !s.ports.election.configured then s
  else
    let s := (List.range 32).foldl (fun s p => s.setAdmit p false) s
    { s with
        pod := { s.pod with chip := 0, channels := [] }
        regs := { s.regs with plmap := s.regs.plmap.extractLsb' 24 8 ++ (0xFAC688 : BitVec 24) } }.modElection fun e =>
      { e with configured := false, followers := [], sentTo := none }

/-- The chip becomes a follower of a leader (R438): what it has loaded into others, and what another leader has loaded into it,
is discarded; but what a leader that fell silent had loaded and assigned stays under a new leader of the same set (R439). -/
def State.follow (s : State) (leader : Dword) : State :=
  let same := s.ports.election.followers.any fun f => f.1 == leader
  let s := if same then s else s.discardLoad.modElection fun e => { e with followers := [], kept := false }
  { s with ports := { s.ports with configsOut := [] } }.modElection fun e =>
    { e with state := .follower, lowest := some leader, loading := false, sentTo := none,
             lastBeat := s.clock }

/-- A leader's followers with another serial (R438, R439): CHIP indices rise with the serials from 1 on; once an index has
been kept from an earlier leader or a follower is complete, a new one takes the next index. -/
def addFollower (kept : Bool) (fs : List (Dword × Nat × Bool)) (serial : Dword) : List (Dword × Nat × Bool) :=
  if fs.any fun f => f.1 == serial then fs
  else if kept || fs.any fun f => f.2.2 then fs ++ [(serial, 1 + (fs.map fun f => f.2.1).foldl max 0, false)]
  else (insertBy (fun f => f.1.toNat) (serial, 0, false) fs).zipIdx.map fun p => (p.1.1, p.2 + 1, false)

/-- A load message leaves for a chip. -/
def State.sendLoad (s : State) (serial : Dword) (m : LoadMsg) : State :=
  { s with ports := { s.ports with configsOut := s.ports.configsOut ++ [(serial, m)] } }

/-- A leader tells every follower the indices that it has assigned and which followers are complete, so that whichever of them leads
next keeps them (R439). DESIGN CHOICE, log entry 80. -/
def State.announce (s : State) : State :=
  let fs := s.ports.election.followers
  let own : Dword × Nat × Bool := (Config.serial, s.pod.chip, true)
  fs.foldl (fun s f => s.sendLoad f.1 (.marks (own :: fs))) s

/-- The chip leads, with a serial higher than its own to load (R438). One that an earlier leader gave an index keeps it, and so do
the others (R439). A follower whose index has changed is loaded anew. -/
def State.lead (s : State) (serial : Dword) : State :=
  let own := s.ports.election.followers.find? fun f => f.1 == Config.serial
  let kept := s.ports.election.kept || own.isSome
  let old := s.ports.election.followers.filter fun f => f.1 != Config.serial
  let fs := addFollower kept old serial
  let sent := s.ports.election.sentTo.filter fun x => (fs.find? fun f => f.1 == x.1) == old.find? fun f => f.1 == x.1
  let s := { s with pod := { s.pod with chip := (own.map fun (f : Dword × Nat × Bool) => f.2.1).getD s.pod.chip } }
  let s := s.modElection fun e =>
    { e with state := .leader, loading := fs.any (fun f => !f.2.2), followers := fs, kept := kept, sentTo := sent }
  if fs = old then s else s.announce

/-- A valid claim of another serial (R438): a lower one makes the chip a follower of the lowest it has seen; a higher one is a
follower to load, unless the chip itself follows. -/
def State.takeClaim (s : State) (serial : Dword) : State :=
  let e := s.ports.election
  if e.without.contains serial then s
  else
    let lowest := match e.lowest with
      | some l => decide (serial.toNat < l.toNat)
      | none => true
    if serial.toNat < Config.serial.toNat then
      if lowest then s.follow serial else s
    else if e.state == .follower then s
    else s.lead serial

/-- CLAIM_RECEIVE (R437, R438, R440): the next claim. One that is not valid is discarded and counted; one with the chip's
own serial raises the alarm. -/
def execClaimReceive (s : State) : Host.Outcome State Fault Refusal :=
  match s.ports.claimsIn with
  | [] => .next s
  | (_, c) :: rest =>
    let s := { s with ports := { s.ports with claimsIn := rest } }
    if !s.ports.keys || !Config.signatureValid c.signed c.signature then .next s.countFiltered
    else if c.serial == Config.serial then
      .next { s with ports := { s.ports with alarmIn := s.ports.alarmIn ++ [.serials] } }
    else .next (s.takeClaim c.serial)

/-! ## Progress beats -/

/-- PROGRESS_BEAT_SEND (R438): a leader that is loading, every 100 ms; it names the assigned indices again (log entry 80). -/
def execProgressBeatSend (s : State) : Host.Outcome State Fault Refusal :=
  let e := s.ports.election
  if e.state == .leader && e.loading && e.lastBeat + microseconds 100000 ≤ s.clock then
    let beat := Config.sign (beatBytes Config.serial)
    .next ({ s with ports := { s.ports with beatsOut := s.ports.beatsOut ++ [beat] } }.modElection fun e =>
      { e with lastBeat := s.clock }).announce
  else .next s

/-- PROGRESS_BEAT_RECEIVE (R439): the next beat; a signed one of the follower's leader starts its silence timer anew. -/
def execProgressBeatReceive (s : State) : Host.Outcome State Fault Refusal :=
  match s.ports.beatsIn with
  | [] => .next s
  | (serial, sig) :: rest =>
    let s := { s with ports := { s.ports with beatsIn := rest } }
    let e := s.ports.election
    if e.state == .follower && e.lowest == some serial && s.ports.keys && Config.signatureValid (beatBytes serial) sig then
      .next (s.modElection fun e => { e with lastBeat := s.clock })
    else .next s

/-- PROGRESS_BEAT_TIMEOUT (R439): a follower that has had no beat for 5 s starts an election without its leader. -/
def execProgressBeatTimeout (s : State) : Host.Outcome State Fault Refusal :=
  let e := s.ports.election
  if e.state == .follower && e.lastBeat + seconds 5 ≤ s.clock then
    .next (s.modElection fun e =>
      { e with state := .claiming, without := e.without ++ e.lowest.toList, lowest := none, lastBeat := s.clock,
               lastClaim := none })
  else .next s

/-! ## Pod configurations -/

/-- The configuration that a leader loads into a follower: what its firmware decides, and the indices assigned. -/
def State.configFor (s : State) (serial : Dword) (chip : Nat) : PodConfig :=
  let own : Dword × Nat × Bool := (Config.serial, s.pod.chip, true)
  { chip := chip, channels := (Config.podChannels serial).map fun c => ⟨c.1, c.2.1, c.2.2⟩,
    plmap := Config.podPlmap serial, admits := Config.podAdmit serial,
    assigned := own :: s.ports.election.followers }

/-- A configuration loaded into this chip (R438): CHIP, channel tables, MAP and polder admission. -/
def State.loadConfig (s : State) (c : PodConfig) : State :=
  let channels := c.channels.map fun x =>
    ({ chan := x.chan, ctx := x.ctx, dest := x.dest, nseq := 0, cnt := 0, anc := 0, expired := [], recent := [],
       plast := List.replicate 8 0 } : Channel)
  let s := { s with pod := { s.pod with chip := c.chip, channels := sortBy Channel.chan channels } }
  let s := s.writePlmap ((0 : Byte) ++ c.plmap)
  let s := (List.range 32).foldl (fun s p => s.setAdmit p (c.admits.contains p)) s
  s.modElection fun e => { e with configured := true, followers := c.assigned }

/-- A follower's configuration has been loaded and verified (R438): its leader marks it complete, and every follower learns it. -/
def State.markComplete (s : State) (serial : Dword) : State :=
  let e := s.ports.election
  let fs := mapIf (fun (x : Dword × Nat × Bool) => x.1 == serial) (fun x => (x.1, x.2.1, true)) e.followers
  (s.modElection fun e => { e with followers := fs, sentTo := none, loading := fs.any fun f => !f.2.2 }).announce

/-- A load message taken. A follower heeds its leader's only, and a leader that of the follower it is loading, where it verifies the
index that the follower has now (R438). -/
def State.takeLoad (s : State) (serial : Dword) (m : LoadMsg) : State :=
  let e := s.ports.election
  let leads := e.state == .follower && e.lowest == some serial
  match m with
  | .config c => if leads then (s.loadConfig c).sendLoad serial (.verified c.chip) else s
  | .verified chip =>
    if e.state == .leader && (e.sentTo.any fun x => x.1 == serial) &&
        (e.followers.any fun f => f.1 == serial && f.2.1 = chip && !f.2.2) then s.markComplete serial else s
  | .marks fs => if leads then s.modElection fun e => { e with followers := fs } else s

/-- POD_CONFIGURATION_LOAD (R438, R439): the next load message is taken; with none, a leader sends its first follower that is
not complete its configuration, and again every 100 ms until it is verified. DESIGN CHOICE, log entry 80. -/
def execPodConfigurationLoad (s : State) : Host.Outcome State Fault Refusal :=
  let e := s.ports.election
  match s.ports.configsIn with
  | (serial, m) :: rest => .next (({ s with ports := { s.ports with configsIn := rest } } : State).takeLoad serial m)
  | [] =>
    match e.followers.find? fun f => !f.2.2 with
    | none => .next s
    | some f =>
      let sent := match e.sentTo with
        | some (x, t) => x == f.1 && decide (s.clock < t + microseconds 100000)
        | none => false
      if e.state != .leader || sent then .next s
      else .next ((s.sendLoad f.1 (.config (s.configFor f.1 f.2.1))).modElection fun e =>
        { e with sentTo := some (f.1, s.clock) })

/-! ## Alarm, power and cooling -/

/-- SECURITY_ALARM (R440): NOTICE.ALARM is set; with the fuse set, the keys are erased and the module resets. -/
def execSecurityAlarm (s : State) : Host.Outcome State Fault Refusal :=
  match s.ports.alarmIn with
  | [] => .next s
  | _ :: rest =>
    let s := { s with ports := { s.ports with alarmIn := rest }, regs := { s.regs with notice := s.regs.notice ||| 0x08000000 } }
    .next (if s.ports.eraseFuse then { s with ports := { s.ports with keys := false } }.moduleReset else s)

/-- The power cap in watts (R442): CAP in units of 100 W, taken as the nearest limit where it lies outside 60 to 260. -/
def State.powerCap (s : State) : Nat := 100 * min 260 (max 60 (field s.regs.pwrcap 0 9))

/-- The arithmetic clock lowered by a step of 125 MHz, from 2 GHz down to 1 GHz (R442). -/
def State.slower (s : State) : State := { s with ports := { s.ports with throttle := min 8 (s.ports.throttle + 1) } }

/-- POWER_CAP_THROTTLE (R442): the power drawn is above the cap, or no longer is. -/
def execPowerCapThrottle (s : State) : Host.Outcome State Fault Refusal :=
  match s.ports.powerIn with
  | [] => .next s
  | w :: rest =>
    let s := { s with ports := { s.ports with powerIn := rest } }
    .next (if s.powerCap < w then s.slower else { s with ports := { s.ports with throttle := s.ports.throttle - 1 } })

/-- JUNCTION_THROTTLE (R443): a die junction of at least 105 °C and below 115 °C. -/
def execJunctionThrottle (s : State) : Host.Outcome State Fault Refusal :=
  match s.ports.junctionIn with
  | [] => .next s
  | (_, t) :: rest =>
    if 115 ≤ t then .next s
    else
      let s := { s with ports := { s.ports with junctionIn := rest } }
      .next (if 105 ≤ t then { s.slower with regs := { s.regs with notice := s.regs.notice ||| 0x10000000 } } else s)

/-- JUNCTION_RESET (R443): a die junction of 115 °C. -/
def execJunctionReset (s : State) : Host.Outcome State Fault Refusal :=
  match s.ports.junctionIn with
  | [] => .next s
  | (_, t) :: _ => .next (if 115 ≤ t then s.moduleReset else s)

end Sys2Proof.Machine
end

