-- ==== Sys2Proof/Machine/Float.lean ====
section
/-!
DEFINITION. Floating-point and conversion instructions (major opcodes 0x40 to 0x68, R158 to R175).
-/
namespace Sys2Proof

/-- Width of one element in bits (R159). -/
def FpType.width : FpType → Nat
  | .f32 => 32
  | .f64 => 64
  | .h2 => 16
  | .bh2 => 16

/-- Elements of one operand (R90, R159). -/
def FpType.count : FpType → Nat
  | .f32 => 1
  | .f64 => 1
  | .h2 => 2
  | .bh2 => 2

/-- The type that the modifier's X gives (R82). -/
def View.xType (v : View) : FpType := typeOfX v.tail.modifier.x

end Sys2Proof

namespace Sys2Proof.Machine

open Sys2Proof

/-- The binary format of a type (Table 4-1). -/
def typeFormat : FpType → BinFormat
  | .f32 => fmtF32
  | .f64 => fmtF64
  | .h2 => fmtH16
  | .bh2 => fmtBf16

/-- Elements of an operand, lowest first (R90). -/
def elemsOf (w n : Nat) (x : Dword) : List Nat := (List.range n).map fun i => field x (w * i) w

/-- Elements packed, lowest first. -/
def packElems (w : Nat) (xs : List Nat) : Dword :=
  BitVec.ofNat 64 (xs.foldr (fun x acc => x % 2 ^ w + 2 ^ w * acc) 0)

/-- The operand a of a type. -/
def Thread.fpA (t : Thread) (v : View) (ty : FpType) : Dword := if ty == .f64 then t.a64 v else (t.a32 v).zeroExtend 64
/-- The operand b of a type, or the literal (R160). -/
def Thread.fpB (t : Thread) (v : View) (ty : FpType) : Dword := if ty == .f64 then t.b64 v else (t.b32 v).zeroExtend 64
/-- The operand c of a type. -/
def Thread.fpC (t : Thread) (v : View) (ty : FpType) : Dword := if ty == .f64 then t.c64 v else (t.c32 v).zeroExtend 64

/-- A destination of one register or a pair. -/
def Thread.setWidth (t : Thread) (d : Nat) (pair : Bool) (x : Dword) : Thread :=
  if pair then t.setPair d x else t.setReg d (x.extractLsb' 0 32)

/-- One operation on each element, with the results packed in elements of `w` bits and the exceptions joined (R91, R163).
The operation takes the element's place and the elements of a, b and c. -/
def Thread.fpLane (t : Thread) (v : View) (ty : FpType) (w : Nat) (pair : Bool)
    (f : Nat → Nat → Nat → Nat → Rounded) : Plan :=
  let el := fun (x : Dword) => elemsOf ty.width ty.count x
  let rs := (List.range ty.count).map fun i =>
    f i (((el (t.fpA v ty))[i]?).getD 0) (((el (t.fpB v ty))[i]?).getD 0) (((el (t.fpC v ty))[i]?).getD 0)
  t.fpFinish (flagUnion (rs.map Prod.snd)) fun t => t.setWidth v.d.toNat pair (packElems w (rs.map Prod.fst))

/-- An operation whose results are of the operands' type. -/
def State.runFp (s : State) (i : Instr) (ty : View → FpType)
    (f : BinFormat → Mode → Nat → Nat → Nat → Rounded) : Host.Outcome State Fault Refusal :=
  s.runLanes i fun _ v t =>
    let y := ty v
    t.fpLane v y y.width (y == .f64) fun _ a b c => f (typeFormat y) (t.mode v.tail.modifier) a b c

/-! ## Arithmetic -/

/-- FADD (R163). -/
def execFadd (ty : FpType) (o : Rrr) (s : State) : Host.Outcome State Fault Refusal :=
  s.runFp (.fadd ty o) (fun _ => ty) fun f md a b _ => f.add md (f.unpack a) (f.unpack b)
/-- FSUB (R163): the difference is the sum with b's sign changed. -/
def execFsub (ty : FpType) (o : Rrr) (s : State) : Host.Outcome State Fault Refusal :=
  s.runFp (.fsub ty o) (fun _ => ty) fun f md a b _ => f.add md (f.unpack a) (f.unpack b).negate
/-- FMUL (R163). -/
def execFmul (ty : FpType) (o : Rrr) (s : State) : Host.Outcome State Fault Refusal :=
  s.runFp (.fmul ty o) (fun _ => ty) fun f md a b _ => f.mul md (f.unpack a) (f.unpack b)
/-- FMA (R163). -/
def execFma (ty : FpType) (o : Rrr) (s : State) : Host.Outcome State Fault Refusal :=
  s.runFp (.fma ty o) (fun _ => ty) fun f md a b c => f.fma md (f.unpack a) (f.unpack b) (f.unpack c)
/-- FMIN (R164). -/
def execFmin (ty : FpType) (o : Rrr) (s : State) : Host.Outcome State Fault Refusal :=
  s.runFp (.fmin ty o) (fun _ => ty) fun f _ a b _ => f.minmax false a b
/-- FMAX (R164). -/
def execFmax (ty : FpType) (o : Rrr) (s : State) : Host.Outcome State Fault Refusal :=
  s.runFp (.fmax ty o) (fun _ => ty) fun f _ a b _ => f.minmax true a b

/-- What fcmp writes for one element: 0 or 1 for a whole register, 0x0000 or 0xFFFF for a half (R165). -/
def fcmpBits (ty : FpType) (holds : Bool) : Nat := if holds then (if ty.count = 2 then 0xFFFF else 1) else 0

/-- FCMP (R165). -/
def execFcmp (ty : FpType) (o : Rrr) (s : State) : Host.Outcome State Fault Refusal :=
  s.runLanes (.fcmp ty o) fun _ v t =>
    let f := typeFormat ty
    t.fpLane v ty (32 / ty.count) false fun _ a b _ =>
      let r := fcmpHolds v.tail.modifier.x (f.unpack a) (f.unpack b)
      (fcmpBits ty r.1, if r.2 then flagNV else 0)

/-- FCLASS (R166): it raises no exception. -/
def execFclass (o : Rrr) (s : State) : Host.Outcome State Fault Refusal :=
  s.runLanes (.fclass o) fun _ v t =>
    let ty := v.xType
    t.fpLane v ty (32 / ty.count) false fun _ a _ _ => ((typeFormat ty).classify a, 0)

/-- FRND (R167). -/
def execFrnd (o : Rrr) (s : State) : Host.Outcome State Fault Refusal :=
  s.runFp (.frnd o) View.xType fun f md a _ _ => f.rint md.rm (f.unpack a)
/-- FDIV (R168). -/
def execFdiv (o : Rrr) (s : State) : Host.Outcome State Fault Refusal :=
  s.runFp (.fdiv o) View.xType fun f md a b _ => f.div md (f.unpack a) (f.unpack b)
/-- FSQRT (R168). -/
def execFsqrt (o : Rrr) (s : State) : Host.Outcome State Fault Refusal :=
  s.runFp (.fsqrt o) View.xType fun f md a _ _ => f.sqrt md (f.unpack a)
/-- FRCP (R168): 1.0 divided by a. -/
def execFrcp (o : Rrr) (s : State) : Host.Outcome State Fault Refusal :=
  s.runFp (.frcp o) View.xType fun f md a _ _ => f.div md (.fin false 1 0) (f.unpack a)
/-- FRSQ (R169). -/
def execFrsq (o : Rrr) (s : State) : Host.Outcome State Fault Refusal :=
  s.runFp (.frsq o) View.xType fun f md a _ _ => f.rsqrt md (f.unpack a)
/-- FEX2 (R169). -/
def execFex2 (o : Rrr) (s : State) : Host.Outcome State Fault Refusal :=
  s.runFp (.fex2 o) View.xType fun f md a _ _ => f.exp2 md a
/-- FLG2 (R169). -/
def execFlg2 (o : Rrr) (s : State) : Host.Outcome State Fault Refusal :=
  s.runFp (.flg2 o) View.xType fun f md a _ _ => f.log2 md a
/-- FSIN (R169). -/
def execFsin (o : Rrr) (s : State) : Host.Outcome State Fault Refusal :=
  s.runFp (.fsin o) View.xType fun f md a _ _ => f.sincos md false a
/-- FCOS (R169). -/
def execFcos (o : Rrr) (s : State) : Host.Outcome State Fault Refusal :=
  s.runFp (.fcos o) View.xType fun f md a _ _ => f.sincos md true a

/-! ## Scaling and exponents -/

/-- A scale limited to ±8192, beyond which every format overflows or underflows alike. -/
def limitScale (n : Int) : Int := limitInt n (-8192) 8192

/-- The value of an element scaled by 2^n (R170): a zero is delivered unchanged. -/
def BinFormat.ldexp (f : BinFormat) (md : Mode) (x : FVal) (n : Int) : Rounded :=
  match x with
  | .nan s => (f.nan, if s then flagNV else 0)
  | .inf neg => (f.inf neg, 0)
  | .fin neg m e => f.roundDyadic md neg m (e + limitScale n)

/-- LDEXP (R170). -/
def execLdexp (o : Rrr) (s : State) : Host.Outcome State Fault Refusal :=
  s.runLanes (.ldexp o) fun _ v t =>
    let ty := v.xType
    let f := typeFormat ty
    t.fpLane v ty ty.width (ty == .f64) fun i a _ _ =>
      let n := if ty.count = 2 then readInt true 16 (field (t.b32 v) (16 * i) 16) else (t.b32 v).toInt
      f.ldexp (t.mode v.tail.modifier) (f.unpack a) n

/-- FREXP (R171). -/
def execFrexp (o : Rrr) (s : State) : Host.Outcome State Fault Refusal :=
  s.runLanes (.frexp o) fun _ v t =>
    let ty := v.xType
    let w := 32 / ty.count
    t.fpLane v ty w false fun _ a _ _ =>
      let x := (typeFormat ty).unpack a
      match x.frexp with
      | some e => (intBits w e, 0)
      | none => (2 ^ (w - 1), if x.snan then flagNV else 0)

/-! ## Conversion -/

/-- CVT (R172 to R175): one element by the two descriptors; a narrow result keeps the other bits of d. -/
def execCvt (o : Rrr) (s : State) : Host.Outcome State Fault Refusal :=
  s.runLanes (.cvt o) fun _ v t =>
    let m := v.tail.modifier
    match numFormat (descCode m.c), numFormat (descCode v.b) with
    | some sf, some df =>
      let src := if sf.width = 64 then t.a64 v else (t.a32 v).zeroExtend 64
      let r := convert sf df (t.mode m) (v.b.getLsbD 0) (field src (sf.width * descPos m.c) sf.width)
      t.fpFinish r.2 fun t =>
        if df.width < 32 then
          let mask : Word := BitVec.ofNat 32 ((2 ^ df.width - 1) * 2 ^ (df.width * descPos v.b))
          t.setReg v.d.toNat ((t.reg v.d.toNat &&& ~~~mask) ||| BitVec.ofNat 32 (r.1 * 2 ^ (df.width * descPos v.b)))
        else t.setWidth v.d.toNat (df.width = 64) (BitVec.ofNat 64 r.1)
    | _, _ => .trap { cause := .illop, tval := v.base.zeroExtend 64 }

end Sys2Proof.Machine
end

