-- ==== Sys2Proof/Machine/Integer.lean ====
section
/-!
DEFINITION. Integer, address, packed and movement instructions (major opcodes 0x00 to 0x3F, R112 to R135).
-/
namespace Sys2Proof.Machine

open Sys2Proof

/-! ## Arithmetic -/

/-- An exact integer limited to a range. -/
def clampInt (x lo hi : Int) : Int := if x < lo then lo else if hi < x then hi else x

/-- A word read signed, or unsigned under X[0] (R117). -/
def readWord (z : Bool) (a : Word) : Int := if z then (a.toNat : Int) else a.toInt

/-- An exact result wrapped, or clamped under SAT to the range that X[0] selects (R116, R117). -/
def narrow32 (m : Modifier) (r : Int) : Word :=
  if m.sat then
    BitVec.ofInt 32 (if m.x.getLsbD 0 then clampInt r 0 (2 ^ 32 - 1) else clampInt r (-(2 ^ 31)) (2 ^ 31 - 1))
  else BitVec.ofInt 32 r

/-- add, sub, mul and mad (R117): an exact operation on the operands as X[0] reads them. -/
def arith (f : Int → Int → Int → Int) (m : Modifier) (a b c : Word) : Word :=
  let z := m.x.getLsbD 0
  narrow32 m (f (readWord z a) (readWord z b) (readWord z c))

/-- The result of `add` (R117). -/
def addResult : Modifier → Word → Word → Word → Word := arith fun a b _ => a + b
/-- The result of `sub` (R117). -/
def subResult : Modifier → Word → Word → Word → Word := arith fun a b _ => a - b
/-- The result of `mul` (R117). -/
def mulResult : Modifier → Word → Word → Word → Word := arith fun a b _ => a * b
/-- The result of `mad` (R117). -/
def madResult : Modifier → Word → Word → Word → Word := arith fun a b c => a * b + c

/-- ADD (R117). -/
def execAdd (o : Rrr) (s : State) : Host.Outcome State Fault Refusal := s.runWord (.add o) addResult
/-- SUB (R117). -/
def execSub (o : Rrr) (s : State) : Host.Outcome State Fault Refusal := s.runWord (.sub o) subResult
/-- MUL (R117). -/
def execMul (o : Rrr) (s : State) : Host.Outcome State Fault Refusal := s.runWord (.mul o) mulResult
/-- MAD (R117). -/
def execMad (o : Rrr) (s : State) : Host.Outcome State Fault Refusal := s.runWord (.mad o) madResult
/-- ADD, imm7 form (R117). -/
def execAddImm7 (o : Rri) (s : State) : Host.Outcome State Fault Refusal := s.runWord (.addImm7 o) addResult

/-- The result of `addc` (Table 5-2). -/
def addcResult (m : Modifier) (a b c : Word) : Word :=
  let sum := a.toNat + b.toNat + (c.getLsbD 0).toNat
  if m.x == 0 then BitVec.ofNat 32 sum else BitVec.ofNat 32 (sum / 2 ^ 32)
/-- ADDC (R118). -/
def execAddc (o : Rrr) (s : State) : Host.Outcome State Fault Refusal := s.runWord (.addc o) addcResult

/-- The result of `subb` (Table 5-2). -/
def subbResult (m : Modifier) (a b c : Word) : Word :=
  if m.x == 0 then a - b - (if c.getLsbD 0 then 1 else 0)
  else if a.toNat < b.toNat + (c.getLsbD 0).toNat then 1 else 0
/-- SUBB (R118). -/
def execSubb (o : Rrr) (s : State) : Host.Outcome State Fault Refusal := s.runWord (.subb o) subbResult

/-- MULH (R119). -/
def execMulh (o : Rrr) (s : State) : Host.Outcome State Fault Refusal :=
  s.runWord (.mulh o) fun _ a b _ => (a.signExtend 64 * b.signExtend 64).extractLsb' 32 32
/-- MULHZ (R119). -/
def execMulhz (o : Rrr) (s : State) : Host.Outcome State Fault Refusal :=
  s.runWord (.mulhz o) fun _ a b _ => (a.zeroExtend 64 * b.zeroExtend 64).extractLsb' 32 32

/-- ABS (R120). -/
def execAbs (o : Rrr) (s : State) : Host.Outcome State Fault Refusal :=
  s.runWord (.abs o) fun m a _ _ => narrow32 m a.toInt.natAbs
/-- NEG (R120). -/
def execNeg (o : Rrr) (s : State) : Host.Outcome State Fault Refusal :=
  s.runWord (.neg o) fun m a _ _ => narrow32 m (-a.toInt)

/-- MIN (R121). -/
def execMin (o : Rrr) (s : State) : Host.Outcome State Fault Refusal :=
  s.runWord (.min o) fun _ a b _ => if a.slt b then a else b
/-- MAX (R121). -/
def execMax (o : Rrr) (s : State) : Host.Outcome State Fault Refusal :=
  s.runWord (.max o) fun _ a b _ => if a.slt b then b else a
/-- MINZ (R121). -/
def execMinz (o : Rrr) (s : State) : Host.Outcome State Fault Refusal :=
  s.runWord (.minz o) fun _ a b _ => if a.ult b then a else b
/-- MAXZ (R121). -/
def execMaxz (o : Rrr) (s : State) : Host.Outcome State Fault Refusal :=
  s.runWord (.maxz o) fun _ a b _ => if a.ult b then b else a

/-- The signed quotient, with its borderline operands (R122). -/
def divResult (_ : Modifier) (a b _ : Word) : Word :=
  if b == 0 then 0xFFFFFFFF else BitVec.ofInt 32 (a.toInt.tdiv b.toInt)
/-- The signed remainder (R122). -/
def remResult (_ : Modifier) (a b _ : Word) : Word := if b == 0 then a else BitVec.ofInt 32 (a.toInt.tmod b.toInt)
/-- The unsigned quotient (R122). -/
def divzResult (_ : Modifier) (a b _ : Word) : Word := if b == 0 then 0xFFFFFFFF else BitVec.ofNat 32 (a.toNat / b.toNat)
/-- The unsigned remainder (R122). -/
def remzResult (_ : Modifier) (a b _ : Word) : Word := if b == 0 then a else BitVec.ofNat 32 (a.toNat % b.toNat)

/-- DIV (R122). -/
def execDiv (o : Rrr) (s : State) : Host.Outcome State Fault Refusal := s.runWord (.div o) divResult
/-- DIVZ (R122). -/
def execDivz (o : Rrr) (s : State) : Host.Outcome State Fault Refusal := s.runWord (.divz o) divzResult
/-- REM (R122). -/
def execRem (o : Rrr) (s : State) : Host.Outcome State Fault Refusal := s.runWord (.rem o) remResult
/-- REMZ (R122). -/
def execRemz (o : Rrr) (s : State) : Host.Outcome State Fault Refusal := s.runWord (.remz o) remzResult

/-! ## Logic, shifts and bit counting -/

/-- AND (R123). -/
def execAnd (o : Rrr) (s : State) : Host.Outcome State Fault Refusal := s.runWord (.and o) fun _ a b _ => a &&& b
/-- OR (R123). -/
def execOr (o : Rrr) (s : State) : Host.Outcome State Fault Refusal := s.runWord (.or o) fun _ a b _ => a ||| b
/-- XOR (R123). -/
def execXor (o : Rrr) (s : State) : Host.Outcome State Fault Refusal := s.runWord (.xor o) fun _ a b _ => a ^^^ b
/-- ANDN (R123). -/
def execAndn (o : Rrr) (s : State) : Host.Outcome State Fault Refusal := s.runWord (.andn o) fun _ a b _ => a &&& ~~~b
/-- NOT (R123). -/
def execNot (o : Rrr) (s : State) : Host.Outcome State Fault Refusal := s.runWord (.not o) fun _ a _ _ => ~~~a
/-- AND, imm7 form (R123). -/
def execAndImm7 (o : Rri) (s : State) : Host.Outcome State Fault Refusal := s.runWord (.andImm7 o) fun _ a b _ => a &&& b
/-- OR, imm7 form (R123). -/
def execOrImm7 (o : Rri) (s : State) : Host.Outcome State Fault Refusal := s.runWord (.orImm7 o) fun _ a b _ => a ||| b

/-- The shift count: b[4:0] (R124). -/
def shiftCount (b : Word) : Nat := (b.extractLsb' 0 5).toNat

/-- SHL (R124). -/
def execShl (o : Rrr) (s : State) : Host.Outcome State Fault Refusal :=
  s.runWord (.shl o) fun _ a b _ => a <<< shiftCount b
/-- SHR (R124). -/
def execShr (o : Rrr) (s : State) : Host.Outcome State Fault Refusal :=
  s.runWord (.shr o) fun _ a b _ => a >>> shiftCount b
/-- SAR (R124). -/
def execSar (o : Rrr) (s : State) : Host.Outcome State Fault Refusal :=
  s.runWord (.sar o) fun _ a b _ => a.sshiftRight (shiftCount b)
/-- ROL (R124). -/
def execRol (o : Rrr) (s : State) : Host.Outcome State Fault Refusal :=
  s.runWord (.rol o) fun _ a b _ => a.rotateLeft (shiftCount b)
/-- SHL, imm7 form (R124). -/
def execShlImm7 (o : Rri) (s : State) : Host.Outcome State Fault Refusal :=
  s.runWord (.shlImm7 o) fun _ a b _ => a <<< shiftCount b
/-- SHR, imm7 form (R124). -/
def execShrImm7 (o : Rri) (s : State) : Host.Outcome State Fault Refusal :=
  s.runWord (.shrImm7 o) fun _ a b _ => a >>> shiftCount b
/-- SAR, imm7 form (R124). -/
def execSarImm7 (o : Rri) (s : State) : Host.Outcome State Fault Refusal :=
  s.runWord (.sarImm7 o) fun _ a b _ => a.sshiftRight (shiftCount b)

/-- Positions of the 1 bits of a word, ascending. -/
def onesOf (a : Word) : List Nat := (List.range 32).filter fun i => a.getLsbD i
/-- CLZ (R125). -/
def execClz (o : Rrr) (s : State) : Host.Outcome State Fault Refusal :=
  s.runWord (.clz o) fun _ a _ _ => match (onesOf a).getLast? with
    | some i => BitVec.ofNat 32 (31 - i)
    | none => 32
/-- CTZ (R125). -/
def execCtz (o : Rrr) (s : State) : Host.Outcome State Fault Refusal :=
  s.runWord (.ctz o) fun _ a _ _ => match (onesOf a).head? with
    | some i => BitVec.ofNat 32 i
    | none => 32
/-- POPC (R125). -/
def execPopc (o : Rrr) (s : State) : Host.Outcome State Fault Refusal :=
  s.runWord (.popc o) fun _ a _ _ => BitVec.ofNat 32 (onesOf a).length
/-- BREV (R125). -/
def execBrev (o : Rrr) (s : State) : Host.Outcome State Fault Refusal := s.runWord (.brev o) fun _ a _ _ => a.reverse

/-! ## Bit fields -/

/-- The position and the effective length of a field descriptor (R126). -/
def fieldOf (b : Word) : Nat × Nat :=
  let p := field b 0 5
  (p, min (field b 8 6) (32 - p))

/-- BFX (R126). -/
def execBfx (o : Rrr) (s : State) : Host.Outcome State Fault Refusal :=
  s.runWord (.bfx o) fun _ a b _ =>
    let (p, e) := fieldOf b
    if e = 0 then 0 else ((a <<< (32 - p - e)).sshiftRight (32 - e))
/-- BFXZ (R126). -/
def execBfxz (o : Rrr) (s : State) : Host.Outcome State Fault Refusal :=
  s.runWord (.bfxz o) fun _ a b _ =>
    let (p, e) := fieldOf b
    if e = 0 then 0 else ((a <<< (32 - p - e)) >>> (32 - e))
/-- BFI (R126). -/
def execBfi (o : Rrr) (s : State) : Host.Outcome State Fault Refusal :=
  s.runWord (.bfi o) fun _ a b c =>
    let (p, e) := fieldOf b
    let mask : Word := BitVec.ofNat 32 ((2 ^ e - 1) * 2 ^ p)
    if e = 0 then c else (c &&& ~~~mask) ||| ((a <<< p) &&& mask)

/-! ## Compare and select -/

/-- The conditions of Table 5-3 on exact values. -/
def condition (x : BitVec 3) (a b : Int) : Bool :=
  match x.toNat with
  | 0 => a = b
  | 1 => a ≠ b
  | 2 => a < b
  | 3 => a ≤ b
  | 4 => b < a
  | _ => b ≤ a

/-- The result of a signed compare (R127). -/
def cmpResult (m : Modifier) (a b _ : Word) : Word := if condition m.x a.toInt b.toInt then 1 else 0
/-- The result of an unsigned compare (R127). -/
def cmpzResult (m : Modifier) (a b _ : Word) : Word := if condition m.x a.toNat b.toNat then 1 else 0

/-- CMP (R127). -/
def execCmp (o : Rrr) (s : State) : Host.Outcome State Fault Refusal := s.runWord (.cmp o) cmpResult
/-- CMPZ (R127). -/
def execCmpz (o : Rrr) (s : State) : Host.Outcome State Fault Refusal := s.runWord (.cmpz o) cmpzResult
/-- CMP, imm7 form (R127). -/
def execCmpImm7 (o : Rri) (s : State) : Host.Outcome State Fault Refusal := s.runWord (.cmpImm7 o) cmpResult
/-- CMPZ, imm7 form (R127). -/
def execCmpzImm7 (o : Rri) (s : State) : Host.Outcome State Fault Refusal := s.runWord (.cmpzImm7 o) cmpzResult
/-- SEL (R128). -/
def execSel (o : Rrr) (s : State) : Host.Outcome State Fault Refusal :=
  s.runWord (.sel o) fun _ a b c => if c.getLsbD 0 then a else b

/-! ## Pairs and addresses -/

/-- ADD64 (R129). -/
def execAdd64 (o : Rrr) (s : State) : Host.Outcome State Fault Refusal :=
  s.runPair (.add64 o) fun v t => t.a64 v + t.b64 v
/-- SUB64 (R129). -/
def execSub64 (o : Rrr) (s : State) : Host.Outcome State Fault Refusal :=
  s.runPair (.sub64 o) fun v t => t.a64 v - t.b64 v
/-- MUL64 (R129). -/
def execMul64 (o : Rrr) (s : State) : Host.Outcome State Fault Refusal :=
  s.runPair (.mul64 o) fun v t => t.a64 v * t.b64 v
/-- SHL64 (R130). -/
def execShl64 (o : Rrr) (s : State) : Host.Outcome State Fault Refusal :=
  s.runPair (.shl64 o) fun v t => t.a64 v <<< ((t.b32 v).extractLsb' 0 6).toNat
/-- SHR64 (R130). -/
def execShr64 (o : Rrr) (s : State) : Host.Outcome State Fault Refusal :=
  s.runPair (.shr64 o) fun v t => t.a64 v >>> ((t.b32 v).extractLsb' 0 6).toNat

/-- The offset operand of `lea` (R131). -/
def Thread.leaOffset (t : Thread) (v : View) : Dword :=
  if v.tail.hasLit then v.tail.literal else (t.reg v.b.toNat).zeroExtend 64
/-- LEA (R131). -/
def execLea (o : Rrr) (s : State) : Host.Outcome State Fault Refusal :=
  s.runPair (.lea o) fun v t => t.a64 v + (t.leaOffset v <<< v.tail.modifier.x.toNat)

/-! ## Packed halves and the byte product -/

/-- Both halves of a word. -/
def halves (f : Half → Half → Half) (a b : Word) : Word :=
  f (a.extractLsb' 16 16) (b.extractLsb' 16 16) ++ f (a.extractLsb' 0 16) (b.extractLsb' 0 16)

/-- An exact half result wrapped, or clamped under SAT (R132). -/
def narrow16 (m : Modifier) (r : Int) : Half :=
  if m.sat then
    BitVec.ofInt 16 (if m.x.getLsbD 0 then clampInt r 0 (2 ^ 16 - 1) else clampInt r (-(2 ^ 15)) (2 ^ 15 - 1))
  else BitVec.ofInt 16 r

/-- A half read signed, or unsigned under X[0]. -/
def readHalf (z : Bool) (a : Half) : Int := if z then (a.toNat : Int) else a.toInt

/-- ADD2 (R132). -/
def execAdd2 (o : Rrr) (s : State) : Host.Outcome State Fault Refusal :=
  s.runWord (.add2 o) fun m a b _ => halves (fun a b =>
    narrow16 m (readHalf (m.x.getLsbD 0) a + readHalf (m.x.getLsbD 0) b)) a b
/-- SUB2 (R132). -/
def execSub2 (o : Rrr) (s : State) : Host.Outcome State Fault Refusal :=
  s.runWord (.sub2 o) fun m a b _ => halves (fun a b =>
    narrow16 m (readHalf (m.x.getLsbD 0) a - readHalf (m.x.getLsbD 0) b)) a b
/-- MIN2 (R132). -/
def execMin2 (o : Rrr) (s : State) : Host.Outcome State Fault Refusal :=
  s.runWord (.min2 o) fun m a b _ => halves (fun a b =>
    if readHalf (m.x.getLsbD 0) a < readHalf (m.x.getLsbD 0) b then a else b) a b
/-- MAX2 (R132). -/
def execMax2 (o : Rrr) (s : State) : Host.Outcome State Fault Refusal :=
  s.runWord (.max2 o) fun m a b _ => halves (fun a b =>
    if readHalf (m.x.getLsbD 0) a < readHalf (m.x.getLsbD 0) b then b else a) a b

/-- The conditions of Table 5-4. -/
def condition2 (x : BitVec 3) (a b : Half) : Bool :=
  match x.toNat with
  | 0 => a == b
  | 1 => a != b
  | 2 => a.slt b
  | 3 => a.sle b
  | 4 => a.ult b
  | _ => a.ule b
/-- CMP2 (R132). -/
def execCmp2 (o : Rrr) (s : State) : Host.Outcome State Fault Refusal :=
  s.runWord (.cmp2 o) fun m a b _ => halves (fun a b => if condition2 m.x a b then 0xFFFF else 0) a b

/-- Byte i of a word, unsigned where `z` says so (R133). -/
def byteOf (z : Bool) (a : Word) (i : Nat) : Int :=
  let b := a.extractLsb' (8 * i) 8
  if z then (b.toNat : Int) else b.toInt

/-- The result of `dot4` (R133). Operand c is read as signed in all four forms: DESIGN CHOICE, log entry 83. -/
def dot4Result (m : Modifier) (a b c : Word) : Word :=
  let term := fun i => byteOf (m.x.getLsbD 0) a i * byteOf (m.x.getLsbD 1) b i
  let r := c.toInt + (term 0 + term 1 + term 2 + term 3)
  if m.sat then BitVec.ofInt 32 (clampInt r (-(2 ^ 31)) (2 ^ 31 - 1)) else BitVec.ofInt 32 r
/-- DOT4 (R133). -/
def execDot4 (o : Rrr) (s : State) : Host.Outcome State Fault Refusal := s.runWord (.dot4 o) dot4Result

/-! ## Movement -/

/-- MOV (R134). -/
def execMov (o : Rrr) (s : State) : Host.Outcome State Fault Refusal :=
  s.runLanes (.mov o) fun _ v t => if v.tail.modifier.x == 1 then t.result64 v (t.a64 v) else t.result v (t.a32 v)

/-- The value of `movi` (R135). -/
def moviValue (v : View) : Word :=
  if v.tail.hasLit then v.tail.literal.extractLsb' 0 32 else v.imm14.signExtend 32
/-- MOVI (R135). -/
def execMovi (o : Ri) (s : State) : Host.Outcome State Fault Refusal :=
  s.runLanes (.movi o) fun _ v t => t.result v (moviValue v)

/-- ARM (R141). -/
def execArm (o : Rrr) (s : State) : Host.Outcome State Fault Refusal :=
  s.runLanes (.arm o) fun _ v t => .go (t.mark v.d.toNat .armed) none

end Sys2Proof.Machine
end

