-- ==== Sys2Proof/Machine/Dispatch.lean ====
section
/-!
DEFINITION. The meaning of each instruction and step: one arm per constructor of Instr.
-/
namespace Sys2Proof.Machine

open Sys2Proof

def exec (i : Instr) (s : State) : Host.Outcome State Fault Refusal :=
  match i with
  | .add a => Sys2Proof.Machine.execAdd a s
  | .sub a => Sys2Proof.Machine.execSub a s
  | .addc a => Sys2Proof.Machine.execAddc a s
  | .subb a => Sys2Proof.Machine.execSubb a s
  | .mul a => Sys2Proof.Machine.execMul a s
  | .mulh a => Sys2Proof.Machine.execMulh a s
  | .mulhz a => Sys2Proof.Machine.execMulhz a s
  | .mad a => Sys2Proof.Machine.execMad a s
  | .div a => Sys2Proof.Machine.execDiv a s
  | .divz a => Sys2Proof.Machine.execDivz a s
  | .rem a => Sys2Proof.Machine.execRem a s
  | .remz a => Sys2Proof.Machine.execRemz a s
  | .min a => Sys2Proof.Machine.execMin a s
  | .max a => Sys2Proof.Machine.execMax a s
  | .minz a => Sys2Proof.Machine.execMinz a s
  | .maxz a => Sys2Proof.Machine.execMaxz a s
  | .abs a => Sys2Proof.Machine.execAbs a s
  | .neg a => Sys2Proof.Machine.execNeg a s
  | .and a => Sys2Proof.Machine.execAnd a s
  | .or a => Sys2Proof.Machine.execOr a s
  | .xor a => Sys2Proof.Machine.execXor a s
  | .andn a => Sys2Proof.Machine.execAndn a s
  | .not a => Sys2Proof.Machine.execNot a s
  | .sel a => Sys2Proof.Machine.execSel a s
  | .shl a => Sys2Proof.Machine.execShl a s
  | .shr a => Sys2Proof.Machine.execShr a s
  | .sar a => Sys2Proof.Machine.execSar a s
  | .rol a => Sys2Proof.Machine.execRol a s
  | .clz a => Sys2Proof.Machine.execClz a s
  | .ctz a => Sys2Proof.Machine.execCtz a s
  | .popc a => Sys2Proof.Machine.execPopc a s
  | .brev a => Sys2Proof.Machine.execBrev a s
  | .bfx a => Sys2Proof.Machine.execBfx a s
  | .bfxz a => Sys2Proof.Machine.execBfxz a s
  | .bfi a => Sys2Proof.Machine.execBfi a s
  | .cmp a => Sys2Proof.Machine.execCmp a s
  | .cmpz a => Sys2Proof.Machine.execCmpz a s
  | .lea a => Sys2Proof.Machine.execLea a s
  | .add64 a => Sys2Proof.Machine.execAdd64 a s
  | .sub64 a => Sys2Proof.Machine.execSub64 a s
  | .mul64 a => Sys2Proof.Machine.execMul64 a s
  | .shl64 a => Sys2Proof.Machine.execShl64 a s
  | .shr64 a => Sys2Proof.Machine.execShr64 a s
  | .add2 a => Sys2Proof.Machine.execAdd2 a s
  | .sub2 a => Sys2Proof.Machine.execSub2 a s
  | .min2 a => Sys2Proof.Machine.execMin2 a s
  | .max2 a => Sys2Proof.Machine.execMax2 a s
  | .cmp2 a => Sys2Proof.Machine.execCmp2 a s
  | .dot4 a => Sys2Proof.Machine.execDot4 a s
  | .mov a => Sys2Proof.Machine.execMov a s
  | .movi a => Sys2Proof.Machine.execMovi a s
  | .getsr a => Sys2Proof.Machine.execGetsr a s
  | .setsr a => Sys2Proof.Machine.execSetsr a s
  | .shfl a => Sys2Proof.Machine.execShfl a s
  | .vote a => Sys2Proof.Machine.execVote a s
  | .arm a => Sys2Proof.Machine.execArm a s
  | .addImm7 a => Sys2Proof.Machine.execAddImm7 a s
  | .andImm7 a => Sys2Proof.Machine.execAndImm7 a s
  | .orImm7 a => Sys2Proof.Machine.execOrImm7 a s
  | .shlImm7 a => Sys2Proof.Machine.execShlImm7 a s
  | .shrImm7 a => Sys2Proof.Machine.execShrImm7 a s
  | .sarImm7 a => Sys2Proof.Machine.execSarImm7 a s
  | .cmpImm7 a => Sys2Proof.Machine.execCmpImm7 a s
  | .cmpzImm7 a => Sys2Proof.Machine.execCmpzImm7 a s
  | .fadd a b => Sys2Proof.Machine.execFadd a b s
  | .fsub a b => Sys2Proof.Machine.execFsub a b s
  | .fmul a b => Sys2Proof.Machine.execFmul a b s
  | .fma a b => Sys2Proof.Machine.execFma a b s
  | .fmin a b => Sys2Proof.Machine.execFmin a b s
  | .fmax a b => Sys2Proof.Machine.execFmax a b s
  | .fcmp a b => Sys2Proof.Machine.execFcmp a b s
  | .fclass a => Sys2Proof.Machine.execFclass a s
  | .frnd a => Sys2Proof.Machine.execFrnd a s
  | .fdiv a => Sys2Proof.Machine.execFdiv a s
  | .fsqrt a => Sys2Proof.Machine.execFsqrt a s
  | .frcp a => Sys2Proof.Machine.execFrcp a s
  | .frsq a => Sys2Proof.Machine.execFrsq a s
  | .fex2 a => Sys2Proof.Machine.execFex2 a s
  | .flg2 a => Sys2Proof.Machine.execFlg2 a s
  | .fsin a => Sys2Proof.Machine.execFsin a s
  | .fcos a => Sys2Proof.Machine.execFcos a s
  | .ldexp a => Sys2Proof.Machine.execLdexp a s
  | .frexp a => Sys2Proof.Machine.execFrexp a s
  | .cvt a => Sys2Proof.Machine.execCvt a s
  | .br a => Sys2Proof.Machine.execBr a s
  | .brc a => Sys2Proof.Machine.execBrc a s
  | .jmp a => Sys2Proof.Machine.execJmp a s
  | .call a => Sys2Proof.Machine.execCall a s
  | .callr a => Sys2Proof.Machine.execCallr a s
  | .ret a => Sys2Proof.Machine.execRet a s
  | .reform a => Sys2Proof.Machine.execReform a s
  | .exit a => Sys2Proof.Machine.execExit a s
  | .bar a => Sys2Proof.Machine.execBar a s
  | .sync a => Sys2Proof.Machine.execSync a s
  | .svc a => Sys2Proof.Machine.execSvc a s
  | .trap a => Sys2Proof.Machine.execTrap a s
  | .nop a => Sys2Proof.Machine.execNop a s
  | .yield a => Sys2Proof.Machine.execYield a s
  | .launch a => Sys2Proof.Machine.execLaunch a s
  | .launchW a => Sys2Proof.Machine.execLaunchW a s
  | .gname a => Sys2Proof.Machine.execGname a s
  | .entryWord a => Sys2Proof.Machine.execEntryWord a s
  | .ldGB a => Sys2Proof.Machine.execLdGB a s
  | .ldGH a => Sys2Proof.Machine.execLdGH a s
  | .ldGW a => Sys2Proof.Machine.execLdGW a s
  | .ldGD a => Sys2Proof.Machine.execLdGD a s
  | .ldGQ a => Sys2Proof.Machine.execLdGQ a s
  | .ldLB a => Sys2Proof.Machine.execLdLB a s
  | .ldLH a => Sys2Proof.Machine.execLdLH a s
  | .ldLW a => Sys2Proof.Machine.execLdLW a s
  | .ldLD a => Sys2Proof.Machine.execLdLD a s
  | .ldLQ a => Sys2Proof.Machine.execLdLQ a s
  | .ldKB a => Sys2Proof.Machine.execLdKB a s
  | .ldKH a => Sys2Proof.Machine.execLdKH a s
  | .ldKW a => Sys2Proof.Machine.execLdKW a s
  | .ldKD a => Sys2Proof.Machine.execLdKD a s
  | .ldKQ a => Sys2Proof.Machine.execLdKQ a s
  | .stGB a => Sys2Proof.Machine.execStGB a s
  | .stGH a => Sys2Proof.Machine.execStGH a s
  | .stGW a => Sys2Proof.Machine.execStGW a s
  | .stGD a => Sys2Proof.Machine.execStGD a s
  | .stGQ a => Sys2Proof.Machine.execStGQ a s
  | .stLB a => Sys2Proof.Machine.execStLB a s
  | .stLH a => Sys2Proof.Machine.execStLH a s
  | .stLW a => Sys2Proof.Machine.execStLW a s
  | .stLD a => Sys2Proof.Machine.execStLD a s
  | .stLQ a => Sys2Proof.Machine.execStLQ a s
  | .ldAcq a => Sys2Proof.Machine.execLdAcq a s
  | .stRel a => Sys2Proof.Machine.execStRel a s
  | .atom a => Sys2Proof.Machine.execAtom a s
  | .red a => Sys2Proof.Machine.execRed a s
  | .fence a => Sys2Proof.Machine.execFence a s
  | .pref a => Sys2Proof.Machine.execPref a s
  | .twflush a => Sys2Proof.Machine.execTwflush a s
  | .cctl a => Sys2Proof.Machine.execCctl a s
  | .xfer a => Sys2Proof.Machine.execXfer a s
  | .xgat a => Sys2Proof.Machine.execXgat a s
  | .slset a => Sys2Proof.Machine.execSlset a s
  | .slwait a => Sys2Proof.Machine.execSlwait a s
  | .xwait a => Sys2Proof.Machine.execXwait a s
  | .tld a => Sys2Proof.Machine.execTld a s
  | .tst a => Sys2Proof.Machine.execTst a s
  | .tzero a => Sys2Proof.Machine.execTzero a s
  | .tmma a => Sys2Proof.Machine.execTmma a s
  | .tmmas a => Sys2Proof.Machine.execTmmas a s
  | .tscal a => Sys2Proof.Machine.execTscal a s
  | .trd a => Sys2Proof.Machine.execTrd a s
  | .twr a => Sys2Proof.Machine.execTwr a s
  | .tcvt a => Sys2Proof.Machine.execTcvt a s
  | .ttr a => Sys2Proof.Machine.execTtr a s
  | .pst a => Sys2Proof.Machine.execPst a s
  | .pld a => Sys2Proof.Machine.execPld a s
  | .patom a => Sys2Proof.Machine.execPatom a s
  | .prel a => Sys2Proof.Machine.execPrel a s
  | .pacq a => Sys2Proof.Machine.execPacq a s
  | .rst a => Sys2Proof.Machine.execRst a s
  | .pmc a => Sys2Proof.Machine.execPmc a s
  | .eret a => Sys2Proof.Machine.execEret a s
  | .rdsys a => Sys2Proof.Machine.execRdsys a s
  | .wrsys a => Sys2Proof.Machine.execWrsys a s
  | .tlbi a => Sys2Proof.Machine.execTlbi a s
  | .tlbsync a => Sys2Proof.Machine.execTlbsync a s
  | .halt a => Sys2Proof.Machine.execHalt a s
  | .wfe a => Sys2Proof.Machine.execWfe a s
  | .sev a => Sys2Proof.Machine.execSev a s
  | .dstep a => Sys2Proof.Machine.execDstep a s
  | .ctxsv a => Sys2Proof.Machine.execCtxsv a s
  | .ctxld a => Sys2Proof.Machine.execCtxld a s
  | .kerase a => Sys2Proof.Machine.execKerase a s
  | .strokeStart a b c => Sys2Proof.Machine.execStrokeStart a b c s
  | .binAgeFire a b => Sys2Proof.Machine.execBinAgeFire a b s
  | .performStore a b c => Sys2Proof.Machine.execPerformStore a b c s
  | .performLoad a b c => Sys2Proof.Machine.execPerformLoad a b c s
  | .fetch a b => Sys2Proof.Machine.execFetch a b s
  | .drop a b => Sys2Proof.Machine.execDrop a b s
  | .send a b => Sys2Proof.Machine.execSend a b s
  | .apply a => Sys2Proof.Machine.execApply a s
  | .dataReturn a b c => Sys2Proof.Machine.execDataReturn a b c s
  | .atomicReturn a b c => Sys2Proof.Machine.execAtomicReturn a b c s
  | .launchStatusReturn a b c => Sys2Proof.Machine.execLaunchStatusReturn a b c s
  | .gnameComplete a b c => Sys2Proof.Machine.execGnameComplete a b c s
  | .tileComplete a b c => Sys2Proof.Machine.execTileComplete a b c s
  | .transferPacket a b c d => Sys2Proof.Machine.execTransferPacket a b c d s
  | .slotFree a => Sys2Proof.Machine.execSlotFree a s
  | .svcBatchPlace a => Sys2Proof.Machine.execSvcBatchPlace a s
  | .launchStart a b => Sys2Proof.Machine.execLaunchStart a b s
  | .streamAdmit a b => Sys2Proof.Machine.execStreamAdmit a b s
  | .quantumEnd a b => Sys2Proof.Machine.execQuantumEnd a b s
  | .replaySlice a b => Sys2Proof.Machine.execReplaySlice a b s
  | .launchComplete a => Sys2Proof.Machine.execLaunchComplete a s
  | .folioKickTake a => Sys2Proof.Machine.execFolioKickTake a s
  | .folioNodeSubmit a b => Sys2Proof.Machine.execFolioNodeSubmit a b s
  | .faultRecordWrite a => Sys2Proof.Machine.execFaultRecordWrite a s
  | .resume a b c d => Sys2Proof.Machine.execResume a b c d s
  | .skip a b c d => Sys2Proof.Machine.execSkip a b c d s
  | .kill a b c d => Sys2Proof.Machine.execKill a b c d s
  | .unpark a b c => Sys2Proof.Machine.execUnpark a b c s
  | .gkill a b c => Sys2Proof.Machine.execGkill a b c s
  | .gresume a b c => Sys2Proof.Machine.execGresume a b c s
  | .xretry a b c d => Sys2Proof.Machine.execXretry a b c d s
  | .xfail a b c d => Sys2Proof.Machine.execXfail a b c d s
  | .qdrop a => Sys2Proof.Machine.execQdrop a s
  | .tableReplicaWrite a => Sys2Proof.Machine.execTableReplicaWrite a s
  | .tlbFill a b c d => Sys2Proof.Machine.execTlbFill a b c d s
  | .tlbiAck a b => Sys2Proof.Machine.execTlbiAck a b s
  | .contextSave a => Sys2Proof.Machine.execContextSave a s
  | .contextRestore a => Sys2Proof.Machine.execContextRestore a s
  | .replayStop a => Sys2Proof.Machine.execReplayStop a s
  | .stepTake a => Sys2Proof.Machine.execStepTake a s
  | .creditReceive a b c => Sys2Proof.Machine.execCreditReceive a b c s
  | .markerSend a => Sys2Proof.Machine.execMarkerSend a s
  | .gapRequestSend a b => Sys2Proof.Machine.execGapRequestSend a b s
  | .retransmitTimer a b => Sys2Proof.Machine.execRetransmitTimer a b s
  | .packetAgeDiscard a => Sys2Proof.Machine.execPacketAgeDiscard a s
  | .replayBufferExpire a b => Sys2Proof.Machine.execReplayBufferExpire a b s
  | .channelAllocate a b c d e => Sys2Proof.Machine.execChannelAllocate a b c d e s
  | .podRequestRetry a => Sys2Proof.Machine.execPodRequestRetry a s
  | .podRequestTimeout a => Sys2Proof.Machine.execPodRequestTimeout a s
  | .pacqPoll a b => Sys2Proof.Machine.execPacqPoll a b s
  | .transientRequestReceive a => Sys2Proof.Machine.execTransientRequestReceive a s
  | .tokenResponseReceive a => Sys2Proof.Machine.execTokenResponseReceive a s
  | .transientRetry a b => Sys2Proof.Machine.execTransientRetry a b s
  | .persistentEscalate a b => Sys2Proof.Machine.execPersistentEscalate a b s
  | .persistentDeactivate a => Sys2Proof.Machine.execPersistentDeactivate a s
  | .tokenGiveUp a b => Sys2Proof.Machine.execTokenGiveUp a b s
  | .dieLoss a b => Sys2Proof.Machine.execDieLoss a b s
  | .wavelengthFail a => Sys2Proof.Machine.execWavelengthFail a s
  | .dieResetExit a => Sys2Proof.Machine.execDieResetExit a s
  | .uncorrectableError a => Sys2Proof.Machine.execUncorrectableError a s
  | .pciTimeout a b => Sys2Proof.Machine.execPciTimeout a b s
  | .pcidataWrite a b c => Sys2Proof.Machine.execPcidataWrite a b c s
  | .pcidataRead a b c => Sys2Proof.Machine.execPcidataRead a b c s
  | .portLinkDown a => Sys2Proof.Machine.execPortLinkDown a s
  | .linkRetrain a => Sys2Proof.Machine.execLinkRetrain a s
  | .plmapWrite a => Sys2Proof.Machine.execPlmapWrite a s
  | .planeDead a => Sys2Proof.Machine.execPlaneDead a s
  | .registerWrite a b c d => Sys2Proof.Machine.execRegisterWrite a b c d s
  | .unassignedOpcode a => Sys2Proof.Machine.execUnassignedOpcode a s
  | .anchorAdvance a => Sys2Proof.Machine.execAnchorAdvance a s
  | .podPortDown a => Sys2Proof.Machine.execPodPortDown a s
  | .tick => Sys2Proof.Machine.execTick s
  | .podPacketArrive => Sys2Proof.Machine.execPodPacketArrive s
  | .podReply => Sys2Proof.Machine.execPodReply s
  | .gapRequestReceive => Sys2Proof.Machine.execGapRequestReceive s
  | .expiryReceive => Sys2Proof.Machine.execExpiryReceive s
  | .inboundRequest => Sys2Proof.Machine.execInboundRequest s
  | .pciCompletion => Sys2Proof.Machine.execPciCompletion s
  | .retrainRelease => Sys2Proof.Machine.execRetrainRelease s
  | .sidebandResetRequest => Sys2Proof.Machine.execSidebandResetRequest s
  | .resetWindowCount => Sys2Proof.Machine.execResetWindowCount s
  | .resetWindowExpire => Sys2Proof.Machine.execResetWindowExpire s
  | .moduleReset => Sys2Proof.Machine.execModuleReset s
  | .getVersion => Sys2Proof.Machine.execGetVersion s
  | .getCapabilities => Sys2Proof.Machine.execGetCapabilities s
  | .negotiateAlgorithms => Sys2Proof.Machine.execNegotiateAlgorithms s
  | .getDigests => Sys2Proof.Machine.execGetDigests s
  | .getCertificate => Sys2Proof.Machine.execGetCertificate s
  | .challenge => Sys2Proof.Machine.execChallenge s
  | .getMeasurements => Sys2Proof.Machine.execGetMeasurements s
  | .sidebandUnsupported => Sys2Proof.Machine.execSidebandUnsupported s
  | .imageWrite => Sys2Proof.Machine.execImageWrite s
  | .imageCommit => Sys2Proof.Machine.execImageCommit s
  | .claimSend => Sys2Proof.Machine.execClaimSend s
  | .claimReceive => Sys2Proof.Machine.execClaimReceive s
  | .progressBeatSend => Sys2Proof.Machine.execProgressBeatSend s
  | .progressBeatTimeout => Sys2Proof.Machine.execProgressBeatTimeout s
  | .securityAlarm => Sys2Proof.Machine.execSecurityAlarm s
  | .powerCapThrottle => Sys2Proof.Machine.execPowerCapThrottle s
  | .junctionThrottle => Sys2Proof.Machine.execJunctionThrottle s
  | .junctionReset => Sys2Proof.Machine.execJunctionReset s
  | .instructionFetchFault => Sys2Proof.Machine.execInstructionFetchFault s
  | .senderLossNotice => Sys2Proof.Machine.execSenderLossNotice s
  | .progressBeatReceive => Sys2Proof.Machine.execProgressBeatReceive s
  | .podConfigurationLoad => Sys2Proof.Machine.execPodConfigurationLoad s

end Sys2Proof.Machine
end

