-- ==== Sys2Proof/Machine/Policy.lean ====
section
/-!
DEFINITION. Which turn comes next when the agenda is empty (log entry 4), and the turns that are no instruction: time and
inputs. Every order of turns is open to an agenda; the policy is one of them.
-/
namespace Sys2Proof.Machine

open Sys2Proof

/-- Whether an event changes anything. -/
def State.moves (s : State) (i : Instr) : Bool :=
  match exec i s with
  | .next t => t != s
  | .fault _ => false
  | .refused _ => false

/-! ## What might happen -/

/-- Accesses and results of threads that are outstanding, with their place in program order. -/
def State.threadWork (s : State) : List (Nat × Instr) :=
  s.groups.flatMap fun g => g.2.threads.flatMap fun t =>
    (t.2.sb.zipIdx.map fun e => (e.1.seq, Instr.performStore g.1 t.1 e.2)) ++
    t.2.ops.flatMap fun o =>
      [(o.id, Instr.performLoad g.1 t.1 o.id), (o.id, .dataReturn g.1 t.1 o.id), (o.id, .atomicReturn g.1 t.1 o.id),
       (o.id, .launchStatusReturn g.1 t.1 o.id), (o.id, .gnameComplete g.1 t.1 o.id)]

/-- Homes, engines and service rings. -/
def State.engineWork (s : State) : List Instr :=
  ((List.range 34).map fun h => Instr.apply h) ++
  (s.tileOps.map fun o => Instr.tileComplete o.die o.core o.id) ++
  (s.transfers.map fun x => Instr.transferPacket x.die x.core x.handle 512) ++
  (s.batches.map fun b => Instr.svcBatchPlace b.die) ++
  ((List.range s.tableStores.length).map fun i => Instr.tableReplicaWrite i) ++
  (s.tlbis.flatMap fun i => i.left.map fun d => Instr.tlbiAck d i.id) ++
  (s.dies.map fun d => Instr.faultRecordWrite d.1) ++
  (s.dies.flatMap fun d => if d.2.spilling then (d.2.twinned.take 1).map fun k => Instr.send d.1 k else [])

/-- Launches, folios, slots, saves and quanta. -/
def State.schedulerWork (s : State) : List Instr :=
  (s.launches.flatMap fun l =>
    let places := (s.plan l l.batch).getD []
    [Instr.launchStart l.lid places, .streamAdmit l.lid places, .launchComplete l.lid, .replayStop l.lid]) ++
  (s.groups.map fun g => Instr.slotFree g.1) ++
  (s.cores.flatMap fun c => [Instr.quantumEnd (c.1 / 64) (c.1 % 64), .replaySlice (c.1 / 64) (c.1 % 64)]) ++
  (s.groups.flatMap fun g => g.2.bins.map fun b => Instr.binAgeFire g.1 b.key) ++
  ((List.range s.saves.length).flatMap fun i => [Instr.contextSave i, .contextRestore i]) ++
  ((List.range s.steps.length).map fun i => Instr.stepTake i) ++
  (s.folios.flatMap fun f =>
    Instr.folioKickTake f.fid :: (List.range f.nodes.length).map fun i => Instr.folioNodeSubmit f.fid i)

/-- Token messages, requests and deactivations. -/
def State.tokenWork (s : State) : List Instr :=
  ((List.range s.tokens.msgs.length).map fun i => Instr.tokenResponseReceive i) ++
  ((List.range s.tokens.reqMsgs.length).map fun i => Instr.transientRequestReceive i) ++
  (s.tokens.persistent.map fun p => Instr.persistentDeactivate p.1) ++
  (s.tokens.reqs.flatMap fun r => [Instr.persistentEscalate r.die r.line, .transientRetry r.die r.line])

/-- The pod fabric. -/
def State.podWork (s : State) : List Instr :=
  [Instr.podPacketArrive, .podReply, .gapRequestReceive, .expiryReceive, .senderLossNotice] ++
  (s.pod.credits.map fun c => Instr.creditReceive c.1 c.2.1 c.2.2) ++
  (s.pod.channels.flatMap fun c => [Instr.anchorAdvance c.chan, .markerSend c.chan]) ++
  (s.pod.recv.map fun r => Instr.gapRequestSend r.src r.chan) ++
  (s.pod.kept.flatMap fun k =>
    [Instr.retransmitTimer k.packet.chan k.packet.seq, .replayBufferExpire k.packet.chan k.packet.seq]) ++
  ((List.range s.pod.copies.length).map fun i => Instr.packetAgeDiscard i) ++
  (s.pod.requests.flatMap fun q => [Instr.podRequestTimeout q.tag, .podRequestRetry q.tag])

/-- Ports, the sideband and what boots a pod. -/
def State.portWork (s : State) : List Instr :=
  [Instr.resetWindowExpire, .resetWindowCount, .pciCompletion, .inboundRequest, .sidebandResetRequest, .getVersion, .getCapabilities,
   .negotiateAlgorithms, .getDigests, .getCertificate, .challenge, .getMeasurements, .imageWrite, .imageCommit,
   .sidebandUnsupported, .securityAlarm, .junctionReset, .junctionThrottle, .powerCapThrottle, .claimReceive,
   .progressBeatReceive, .podConfigurationLoad] ++
  (s.ports.outstanding.map fun r => Instr.pciTimeout r.gid r.op) ++
  ((List.range 8).map fun p => Instr.planeDead p) ++
  [.claimSend, .progressBeatSend, .progressBeatTimeout]

/-- Stroke starts on the slots of cores that hold groups. -/
def State.strokeWork (s : State) : List Instr :=
  (s.groups.flatMap fun g =>
    [Instr.strokeStart g.2.place.die g.2.place.core 0, .strokeStart g.2.place.die g.2.place.core 1]).eraseDups

/-- Everything but strokes that might happen, in the order of the policy: accesses in program order, then the rest. -/
def State.work (s : State) : List Instr :=
  (sortBy Prod.fst s.threadWork).map Prod.snd ++ s.engineWork ++ s.tokenWork ++ s.podWork ++ s.schedulerWork ++ s.portWork

/-! ## Turns -/

/-- The issue slot whose lane set issues next: the current one, or else another. -/
def State.nextSlot (s : State) : Option (Nat × Nat × Nat) :=
  if s.issue.isSome && s.mayIssue && !s.fetchWaits then some s.cur
  else
    (s.strokes.find? fun k =>
      let s := { s with cur := (k.die, k.core, k.slot) }
      s.mayIssue && !s.fetchWaits).map fun k => (k.die, k.core, k.slot)

/-- The turn of an empty agenda, and the turns after it. The boot check comes first; then lane sets issue until their
strokes end; then every event that changes anything comes; then strokes start on all cores, and 24 cycles pass, so that every
warp that is READY goes on (R54); and where nothing is to be done, the next tick comes. -/
def State.nextTurns (s : State) : Turn × List Turn :=
  if s.ports.boot == .check then (.boot, [])
  else
    match s.nextSlot with
    | some (d, c, k) => (.issue d c k, [])
    | none =>
      match s.work.find? s.moves with
      | some i => (.event i, [])
      | none =>
        match s.strokeWork.dropWhile fun i => !s.moves i with
        | i :: rest => (.event i, rest.map Turn.event ++ [.advance 24])
        | [] => (.event .tick, [])

/-- Something from outside enters its input queue. An alarm from outside is a sensor's; the other causes are the module's own
(R440). -/
def State.accept (s : State) (x : Input) : State :=
  match x with
  | .packet p => { s with pod := { s.pod with arrivals := s.pod.arrivals ++ [p] } }
  | .loss c q => { s with pod := { s.pod with lossNotices := s.pod.lossNotices ++ [(c, q)] } }
  | .sideband m => { s with ports := { s.ports with sideband := s.ports.sideband ++ [m] } }
  | .pci k r => { s with ports := { s.ports with inbound := s.ports.inbound ++ [(k, r)] } }
  | .completion g o e d => { s with ports := { s.ports with pciIn := s.ports.pciIn ++ [(g, o, e, d)] } }
  | .claim k c => { s with ports := { s.ports with claimsIn := s.ports.claimsIn ++ [(k, c)] } }
  | .beat n b => { s with ports := { s.ports with beatsIn := s.ports.beatsIn ++ [(n, b)] } }
  | .config n m => { s with ports := { s.ports with configsIn := s.ports.configsIn ++ [(n, m)] } }
  | .power w => { s with ports := { s.ports with powerIn := s.ports.powerIn ++ [w] } }
  | .junction d c => { s with ports := { s.ports with junctionIn := s.ports.junctionIn ++ [(d, c)] } }
  | .fuse => { s with ports := { s.ports with eraseFuse := true } }
  | .alarm c =>
    if c == .tamper || c == .supply then { s with ports := { s.ports with alarmIn := s.ports.alarmIn ++ [c] } } else s

end Sys2Proof.Machine
end

