-- ==== Sys2Proof/Machine/Settle.lean ====
section
/-!
DEFINITION. What follows a step without a choice: held threads whose conditions hold are freed, barriers and exchanges
complete, bins fire that must (R26, R33, R40), and packets leave that may (R269).
-/
namespace Sys2Proof.Machine

open Sys2Proof

/-! ## Held threads -/

/-- The threads of a thread's warp that are held with it: in the same state at the same program counter. -/
def Group.heldWith (g : Group) (t : Thread) : List Thread :=
  match g.warpOf t.gidx with
  | none => [t]
  | some w => w.lanes.filterMap fun l => (g.thread l.2).filter fun x => x.state == t.state && x.pc == t.pc

/-- Whether a register that a lane set awaits is full, or its thread is no longer held with the set (R26). -/
def Group.needMet (g : Group) (t : Thread) (need : Nat × Nat) : Bool :=
  match g.thread need.1 with
  | none => true
  | some x => x.state != t.state || x.isFull need.2

/-- Whether a fence's phase is over, so that the lane executes it again (R208, R228, R335, R336). -/
def State.fenceMoves (s : State) (t : Thread) (kind : Nat) : Bool :=
  match t.fence with
  | .idle => if kind = 1 then t.loadsPerformed else t.drained
  | .releasing m => if kind = 2 then t.loadsPerformed else !t.sb.any fun e => e.seq = m
  | .ticking n => n < s.ticks

/-- Whether a held thread executes its instruction again: what held it is over (R26, R210, R228, R240, R245, R271, R329,
R334, R408). -/
def State.holdOver (s : State) (g : Group) (t : Thread) (h : Hold) : Bool :=
  let peers := g.heldWith t
  match h with
  | .regs needs => needs.all fun n => g.needMet t n
  | .limit c =>
    peers.all (fun x => (x.classRoom c).isNone) &&
    (c != .transfer || peers.length ≤ (s.freeHandles g.place.die g.place.core).length)
  | .buffer => peers.all fun x => x.sb.length ≤ 60
  | .drain => peers.all fun x => x.sb = [] && !g.heldByOrder x s.next.op
  | .svcRing => !s.svcWaits g.place.die
  | .channel c count =>
    (match s.channel c with
     | none => true
     | some x => s.beforeLimit x (peers.length - 1) && (!count || x.cnt + peers.length ≤ 32767))
  | .flagOrder c => peers.all fun x => !s.flagPending g.gid x.gidx c
  | .tags => s.tagsFree
  | .podOrder => peers.all fun x => x.acquires = [] && (x.ops.all fun o => o.span.isNone) && !g.heldByOrder x s.next.op
  | .fence kind => s.fenceMoves t kind
  | .xwait c n => !(t.awaited c n).any fun o => !o.done
  | .tlbsync => s.tlbSynced g t
  | .bar _ _ => false
  | .sync _ _ _ => false
  | .shfl _ _ _ _ _ _ => false
  | .slwait off _ => g.sluiceBad off
  | .pacq _ _ _ _ _ => false
  | .wfe _ => false
  | .pciWrite _ => false

/-- Threads of a group freed to execute their instruction again. -/
def Group.retryAll (g : Group) (ts : List Thread) : Group :=
  ts.foldl (fun g t => match t.state with
    | .waiting h => g.modThread t.gidx fun x =>
        { x with state := g.freeState t.gidx, resumed := if h.counted then true else x.resumed }
    | _ => g) g

/-- A held thread that completes in place (R241, R287, R335): `slwait` at its target, `wfe` and `halt` at an event, `pacq` at
its condition. -/
def State.completeHeld (s : State) (gid : Nat) (t : Thread) : State :=
  match t.state with
  | .waiting (.slwait off next) =>
    s.modGroup gid fun g => if g.sluiceMet off && !g.sluiceBad off then g.release t.gidx next false else g
  | .waiting (.wfe next) =>
    if t.ev then
      match s.group gid with
      | some g => (s.acquireStep g.place.die).putGroup ((g.modThread t.gidx fun x => { x with ev := false }).release t.gidx next false)
      | none => s
    else s
  | .waiting (.pacq _ _ _ _ _) => s.pollPacq gid t.gidx
  | _ => s

/-! ## Bins -/

/-- Bins that hold 32 threads or more fire (R33). -/
def State.fireFull (s : State) (gid : Nat) : Nat → State
  | 0 => s
  | n + 1 =>
    match (s.group gid).bind fun g => g.bins.find? fun b => 32 ≤ b.entries.length with
    | some b => (s.fireBin gid b.key).fireFull gid n
    | none => s

/-- Bins whose age has reached 128 fire, in firing order (R33, R360). -/
def State.fireAged (s : State) (gid : Nat) : Nat → State
  | 0 => s
  | n + 1 =>
    match s.group gid with
    | none => s
    | some g =>
      match g.firstBin with
      | some b => if b.earliest + 128 ≤ s.clockOf g then (s.fireBin gid b.key).fireAged gid n else s
      | none => s

/-- The first bin in firing order fires while no thread of its group is READY or ISSUING (R33). -/
def State.fireIdle (s : State) (gid : Nat) : State :=
  match s.group gid with
  | none => s
  | some g =>
    if g.live.any fun t => t.state == .ready || t.state == .issuing then s
    else match g.firstBin with
      | some b => s.fireBin gid b.key
      | none => s

/-! ## Everything at once -/

/-- Threads that have run the one instruction of a step request are to be taken (R337). -/
def State.collectStepped (s : State) : State :=
  s.groups.foldl (fun s g => g.2.threads.foldl (fun s t => match t.2.stepping with
    | .ran pc =>
      { s.modThread g.1 t.1 (fun x => { x with stepping := .no }) with steps := s.steps ++ [(⟨g.1, t.1, some pc⟩ : StepRequest)] }
    | _ => s) s) s

/-- One group settled: barriers and exchanges that are complete, held threads whose conditions hold, and bins. -/
def State.settleGroup (s : State) (gid : Nat) : State :=
  match s.group gid with
  | none => s
  | some g =>
    if !g.isResident then s
    else
      let s := s.putGroup ((g.completeBarriers s.next.op).completeExchanges s.next.op)
      let held := g.live.filter fun t => match t.state with
        | .waiting _ => true
        | _ => false
      let s := held.foldl (fun s t => s.completeHeld gid t) s
      match s.group gid with
      | none => s
      | some g =>
        let settled := g.live.filter fun t => match t.state with
          | .waiting h => s.holdOver g t h
          | _ => false
        let s := s.putGroup (g.retryAll settled)
        if g.bins = [] then s else ((s.fireFull gid 32).fireAged gid 64).fireIdle gid

/-- Replay launches whose groups are all restored go on (R421). -/
def State.settleReplay (s : State) : State := (s.launches.filter s.allRestored).foldl (fun s l => s.goOn l) s

/-- Commands that awaited a group's restore take effect where it is resident (R405). -/
def State.settleActions (s : State) : State :=
  s.groups.foldl (fun s p => match s.group p.1 with
    | some g => if g.isResident && g.actions != [] then s.applyActions g else s
    | none => s) s

/-- FSTATE written for folios whose run a halt has ended (R356); a lost die's engine writes nothing (R393). -/
def State.settleFolios (s : State) : State := (s.folios.filter fun f => f.stale && !(s.die f.die).lost).foldl (fun s f => s.writeFstate f) s

/-- Everything that follows a step at once. -/
def State.settle (s : State) : State :=
  let s := s.settleReplay.settleActions.endTrappedStrokes
  let s := s.groups.foldl (fun s g => s.settleGroup g.1) s
  s.collectStepped.settleFolios.settleHeldRst.sendFlags.departAll

end Sys2Proof.Machine
end

