-- ==== Sys2Proof/Machine/Step.lean ====
section
/-!
DEFINITION. One step of the machine: the turn that the agenda names first, or the policy's, and what follows it at once.
-/
namespace Sys2Proof.Machine

open Sys2Proof

/-- An outcome with what follows the step at once. -/
def settled (r : Host.Outcome State Fault Refusal) : Host.Outcome State Fault Refusal :=
  match r with
  | .next s => .next s.settle
  | .fault f => .fault f
  | .refused f => .refused f

/-- An instruction issues from the lane set on the current slot: it is fetched and executed, or its fetch traps. On a replay
core it waits until every earlier effect is complete (R360), and what it reads of token class waits for a token (R385). -/
def State.issueTurn (s : State) : Host.Outcome State Fault Refusal :=
  match s.issue with
  | none => .next s
  | some x =>
    if !s.mayIssue then .next s
    else
      match s.fetchWants x, s.fetchInstr x with
      | some l, _ => .next (s.askFetch x l)
      | none, .error _ => exec .instructionFetchFault s
      | none, .ok (i, ls) => exec i (s.touchFetch x ls)

/-- One turn. -/
def State.turn (s : State) (t : Turn) : Host.Outcome State Fault Refusal :=
  match t with
  | .boot => .next s.bootCheck
  | .event i => exec i s
  | .issue d c k => { s with cur := (d, c, k) }.issueTurn
  | .advance n => .next (s.advance n)
  | .input x => .next (s.accept x)
  | .arrive d h => .next (s.arriveFrom d h)

/-- One step. -/
def step (s : State) : Host.Outcome State Fault Refusal :=
  match s.agenda with
  | t :: rest => settled ({ s with agenda := rest }.turn t)
  | [] => settled ({ s with agenda := s.nextTurns.2 }.turn s.nextTurns.1)

/-- Whether the next step executes what the lane set on the current slot fetches. -/
def State.issuesNext (s : State) : Bool := s.mayIssue && s.issue.any fun x => (s.fetchWants x).isNone

/-- The state with an instruction placed where the next step fetches it: at the program counter of the lane set on the
current slot, or, where none can issue, as a program that is loaded from outside (log entry 3). -/
def State.withFetchWord (s : State) (nbits w : Nat) : State :=
  let ws := tableWords nbits w
  match (s.issue.bind fun x => s.storeAtPc x ws).filter State.issuesNext with
  | some s' => s'
  | none => s.placeProgram (ws.flatMap bytesOfWord)

end Sys2Proof.Machine
end

