-- ==== Sys2Proof/Safety.lean ====
section
/-!
DEFINITION. What counts as a safe run, in the terms that claims use: when an instruction executes in its lane set, and what
its completion changes and leaves alone.
-/
namespace Sys2Proof.Machine

open Sys2Proof

/-- A step stops nothing: it answers a next state. -/
def Completes (r : Host.Outcome State Fault Refusal) : Prop := ∃ t, r = .next t

/-- The lane set x of the current issue slot executes instruction i (checks 2 to 6 of Table 3-12): its context is not halted,
no check traps, the mask register and every active lane's operands are full, and no register that is read is in error
(R415). -/
structure Ready (s : State) (i : Instr) (x : Issue) (v : View) : Prop where
  issue : s.issue = some x
  view : i.view = some v
  running : x.group.control.isSome = true → x.lanes.head?.bind Thread.trapped = none
  checks : x.staticTrap i v = none
  mask : v.tail.modifier.me = true → ∀ t ∈ x.lanes, t.isFull v.tail.modifier.m.toNat = true
  full : ∀ t ∈ x.lanes, laneActive v.tail.modifier t = true → t.emptyOperands (i.sig v) v = []
  errors : ∀ t ∈ x.lanes, x.errorRead i v t = none

/-- The active lanes of a set (R59). -/
def Issue.active (x : Issue) (v : View) : List Thread := x.lanes.filter fun t => laneActive v.tail.modifier t

/-- A lane after an instruction that makes an active lane `f` of itself and transfers it where `tgt` says: an inactive lane
keeps its destination or zeroes it under ZM (R59), and every other program counter is the sequential one. -/
def Issue.laneAfter (x : Issue) (i : Instr) (v : View) (f : Thread → Thread) (tgt : Thread → Option Pc) (t : Thread) :
    Thread :=
  if laneActive v.tail.modifier t then { f t with pc := (tgt t).getD (v.next x.pc), resumed := false, gidx := t.gidx }
  else { x.inactive i v t with pc := v.next x.pc, resumed := false, gidx := t.gidx }

/-- `s1` is `s` with every lane of the set x made `h` of itself, and the group's overrun flag set where `o` says that a lane had a
remote store applied to a full register (R29, R59); nothing else changed. -/
structure LanesWritten (s : State) (x : Issue) (h : Thread → Thread) (o : Bool) (s1 : State) : Prop where
  rest : s1 = { s with groups := s1.groups }
  groups : ∀ gid, gid ≠ x.group.gid → s1.group gid = s.group gid
  group : ∃ ths, s1.group x.group.gid = some { x.group.setOverrun o with threads := ths }
  lanes : ∀ t ∈ x.lanes, s1.thread x.group.gid t.gidx = some (h t)
  others : ∀ k, (∀ t ∈ x.lanes, t.gidx ≠ k) → s1.thread x.group.gid k = s.thread x.group.gid k

/-- The launches with the retired counts of the replay launch `lid` raised by 1 (R361). -/
def countedLaunches (lid : Nat) (ls : List Launch) : List Launch :=
  ls.map fun l => if l.lid = lid ∧ l.header.isReplay = true
    then { l with retired := l.retired + 1, sliceRetired := l.sliceRetired + 1 } else l

/-- A lane's thread `y` at the end of an instruction: the step request that it was to run is done (R337), and its state is
`st`. -/
def Thread.endedLane (y : Thread) (stepped : Bool) (st : TState) : Thread :=
  { y with state := st, stepping := if stepped then .no else y.stepping }

/-- The instructions that end their stroke although they name no other program counter: `yield` (R149), `reform` (R150) and `exit`
(R148). -/
def endsStroke : Instr → Bool
  | .yield _ => true
  | .reform _ => true
  | .exit _ => true
  | _ => false

/-- Whether a lane of a set runs the instruction to its end: it is not one of the active lanes that `held` names. -/
def Issue.ran (_ : Issue) (v : View) (held : Thread → Bool) (t : Thread) : Bool := !(laneActive v.tail.modifier t && held t)

/-- A lane after an instruction at which the active lanes that `held` names are held: such a lane is `f` of itself, at the
instruction; the others have completed it. -/
def Issue.laneEnd (x : Issue) (i : Instr) (v : View) (held : Thread → Bool) (f : Thread → Thread) (tgt : Thread → Option Pc)
    (t : Thread) : Thread :=
  if x.ran v held t then x.laneAfter i v f tgt t else { f t with gidx := t.gidx }

/-- Whether an instruction at which no lane traps ends its stroke (R25, R143): by itself, by its B bit, as the 24th, as the
one instruction of a step request (R337), or as an active lane is held or transfers. -/
def Issue.strokeEnds (x : Issue) (i : Instr) (v : View) (held : Thread → Bool) (tgt : Thread → Option Pc) : Prop :=
  endsStroke i = true ∨ v.stroke = true ∨ 24 ≤ x.stroke.count + 1 ∨
    (∃ t ∈ x.lanes, x.ran v held t = true ∧ (t.stepping == .toRun) = true) ∨
    ∃ t ∈ x.active v, held t = true ∨ (tgt t).isSome = true

/-- `T` is `s1` but for the end of the instruction: a replay launch counts it once, as it issues and not as a lane that was held executes it
again (R361); a lane that ran the instruction of a step request waits to be taken (R337); and the stroke either ends, which frees its
lanes that still issue, or goes on with one instruction more (R25). Nothing else changes: no other field, group or thread, and of the
lanes only what is said. `ran` names the lanes that ran the instruction to its end. -/
structure Ended (x : Issue) (ran : Thread → Bool) (ends : Prop) (s1 T : State) : Prop where
  rest : T = { s1 with groups := T.groups, strokes := T.strokes, steps := T.steps, launches := T.launches }
  counted : (∃ t ∈ x.lanes, t.resumed = false) → T.launches = countedLaunches x.group.lid s1.launches
  uncounted : (∀ t ∈ x.lanes, t.resumed = true) → T.launches = s1.launches
  steps : T.steps = s1.steps ++
    (x.lanes.filter fun t => ran t && t.stepping == .toRun).map fun t => ⟨x.group.gid, t.gidx, some x.pc⟩
  groups : ∀ gid, gid ≠ x.group.gid → T.group gid = s1.group gid
  group : ∀ g, s1.group x.group.gid = some g → ∃ ths, T.group x.group.gid = some { g with threads := ths }
  others : ∀ k, (∀ t ∈ x.lanes, t.gidx ≠ k) → T.thread x.group.gid k = s1.thread x.group.gid k
  stroke : ends →
    T.strokes = s1.strokes.filter (fun k => !x.stroke.sameSlot k) ∧
      ∀ g, s1.group x.group.gid = some g → ∀ t ∈ x.lanes, ∀ y, g.thread t.gidx = some y →
        T.thread x.group.gid t.gidx = some (y.endedLane (ran t && t.stepping == .toRun)
          (if y.state = .issuing then g.freeState t.gidx else y.state))
  goesOn : ¬ends →
    T.strokes = (s1.strokes.map fun k => if x.stroke.sameSlot k
        then { x.stroke with lanes := x.lanes.map Thread.gidx, count := x.stroke.count + 1 } else k) ∧
      ∀ g, s1.group x.group.gid = some g → ∀ t ∈ x.lanes, ∀ y, g.thread t.gidx = some y →
        T.thread x.group.gid t.gidx = some (y.endedLane (ran t && t.stepping == .toRun) y.state)

/-- `exec` answers a next state; every active lane became `f` of itself, held at the instruction where `held` says so, and else at
the program counter that `tgt` names, or the sequential one; beyond the lanes' own threads `after` happened; the stroke ends where R25
says, and goes on elsewhere; and nothing else changed. -/
def RunsWith (s : State) (i : Instr) (x : Issue) (v : View) (held : Thread → Bool) (f : Thread → Thread) (tgt : Thread → Option Pc)
    (after : State → State) : Prop :=
  ∃ s1 T, exec i s = .next T ∧ LanesWritten s x (x.laneEnd i v held f tgt) (x.overrun i v) s1 ∧
    Ended x (x.ran v held) (x.strokeEnds i v held tgt) (after s1) T

/-- THE COMPLETION OF AN INSTRUCTION: the same, with no lane held. -/
def CompletesWith (s : State) (i : Instr) (x : Issue) (v : View) (f : Thread → Thread) (tgt : Thread → Option Pc)
    (after : State → State) : Prop :=
  RunsWith s i x v (fun _ => false) f tgt after

/-- An instruction at which some active lanes are held, WAITING as `hold` says, while the others complete; of the lanes only the state of
those held has changed, and the others' as `f` says. -/
def HoldsLanes (s : State) (i : Instr) (x : Issue) (v : View) (hold : Thread → Option Hold) (f : Thread → Thread)
    (after : State → State) : Prop :=
  RunsWith s i x v (fun t => (hold t).isSome)
    (fun t => match hold t with
      | some h => { t with state := .waiting h }
      | none => f t) (fun _ => none) after

/-- `T` is `s` but for the lanes `ls` of the set x, which are WAITING as `h` says, and the stroke, which has ended: the instruction has
not executed (R26, R210). -/
structure Blocked (s : State) (x : Issue) (ls : List Thread) (h : Hold) (T : State) : Prop where
  rest : T = { s with groups := T.groups, strokes := s.strokes.filter fun k => !x.stroke.sameSlot k }
  groups : ∀ gid, gid ≠ x.group.gid → T.group gid = s.group gid
  group : ∃ ths, T.group x.group.gid = some { x.group with threads := ths }
  lanes : ∀ t ∈ ls, T.thread x.group.gid t.gidx = some { t with state := .waiting h }
  others : ∀ k, (∀ t ∈ x.lanes, t.gidx ≠ k) → T.thread x.group.gid k = s.thread x.group.gid k

/-- A completion that changes nothing but the lanes' own threads, at the sequential program counter. -/
def CompletesLanes (s : State) (i : Instr) (x : Issue) (v : View) (f : Thread → Thread) : Prop :=
  CompletesWith s i x v f (fun _ => none) id

/-- Whenever the instruction is ready, it completes and each active lane writes one word, computed from the modifier and the
operands a, b and c, to register d and fills it (R28); no other register, flag, special register or byte of memory
changes. -/
def WritesWord (i : Instr) (r : Modifier → Word → Word → Word → Word) : Prop :=
  ∀ s x v, Ready s i x v →
    CompletesLanes s i x v fun t => t.setReg v.d.toNat (r v.tail.modifier (t.a32 v) (t.b32 v) (t.c32 v))

/-- The same for a pair, computed from the instruction's fields and the thread's registers (R4). -/
def WritesPair (i : Instr) (r : View → Thread → Dword) : Prop :=
  ∀ s x v, Ready s i x v → CompletesLanes s i x v fun t => t.setPair v.d.toNat (r v t)

/-- The results of a floating-point instruction's elements in a lane (R90, R91): `f` takes the element's place and the
elements of a, b and c. -/
def Thread.elementResults (t : Thread) (v : View) (y : FpType) (f : Nat → Nat → Nat → Nat → Rounded) : List Rounded :=
  let element := fun (x : Dword) (k : Nat) => x.toNat / 2 ^ (y.width * k) % 2 ^ y.width
  (List.range y.count).map fun k => f k (element (t.fpA v y) k) (element (t.fpB v y) k) (element (t.fpC v y) k)

/-- The exceptions of a lane's elements (R94), and the FPEXC that they raise where sr.fpctl enables one (R95, R162). -/
def Thread.fpExceptions (t : Thread) (v : View) (y : FpType) (f : Nat → Nat → Nat → Nat → Rounded) : Nat :=
  flagUnion ((t.elementResults v y f).map Prod.snd)
def Thread.fpTrap (t : Thread) (flags : Nat) : Option TrapInfo :=
  if flagWord flags &&& t.fpEnables = 0 then none else some { cause := .fpExc, detail := flagWord flags }

/-- A lane with its elements' results written to d, of `w` bits each, and their exceptions set in its sr.fpflags (R91, R94). -/
def Thread.withElements (t : Thread) (v : View) (y : FpType) (w : Nat) (f : Nat → Nat → Nat → Nat → Rounded) : Thread :=
  (t.setWidth v.d.toNat (w = 64) (packElems w ((t.elementResults v y f).map Prod.fst))).raise (t.fpExceptions v y f)

/-- Whenever the instruction is ready and no active lane raises an exception that its sr.fpctl enables (R95), it completes:
each active lane writes its elements' results to d, a pair for f64 results, and the exceptions to its sr.fpflags
(R94). `w` is the width of a result's element. -/
def WritesFp (i : Instr) (ty : View → FpType) (w : FpType → Nat) (f : View → Thread → Nat → Nat → Nat → Nat → Rounded) :
    Prop :=
  ∀ s x v, Ready s i x v →
    (∀ t ∈ x.active v, flagWord (t.fpExceptions v (ty v) (f v t)) &&& t.fpEnables = 0) →
    CompletesLanes s i x v fun t => t.withElements v (ty v) (w (ty v)) (f v t)

/-- What P says of each floating-point instruction, by the type and the width of its elements and the function of its elements
(R163 to R171): arithmetic of each type; classes, rounding to integers, division, roots, the transcendental functions, scaling and
exponents for the type that X gives. -/
def EachFloatForm (P : Instr → (View → FpType) → (FpType → Nat) → (View → Thread → Nat → Nat → Nat → Nat → Rounded) → Prop) :
    Prop :=
  (
    (∀ y o, P (.fadd y o) (fun _ => y) FpType.width fun v t _ a b _ =>
      (typeFormat y).add (t.mode v.tail.modifier) ((typeFormat y).unpack a) ((typeFormat y).unpack b)) ∧
    (∀ y o, P (.fsub y o) (fun _ => y) FpType.width fun v t _ a b _ =>
      (typeFormat y).add (t.mode v.tail.modifier) ((typeFormat y).unpack a) ((typeFormat y).unpack b).negate) ∧
    (∀ y o, P (.fmul y o) (fun _ => y) FpType.width fun v t _ a b _ =>
      (typeFormat y).mul (t.mode v.tail.modifier) ((typeFormat y).unpack a) ((typeFormat y).unpack b)) ∧
    (∀ y o, P (.fma y o) (fun _ => y) FpType.width fun v t _ a b c =>
      (typeFormat y).fma (t.mode v.tail.modifier) ((typeFormat y).unpack a) ((typeFormat y).unpack b) ((typeFormat y).unpack c)) ∧
    (∀ y o, P (.fmin y o) (fun _ => y) FpType.width fun _ _ _ a b _ => (typeFormat y).minmax false a b) ∧
    (∀ y o, P (.fmax y o) (fun _ => y) FpType.width fun _ _ _ a b _ => (typeFormat y).minmax true a b) ∧
    (∀ y o, P (.fcmp y o) (fun _ => y) (fun y => 32 / y.count) fun v _ _ a b _ =>
      let r := fcmpHolds v.tail.modifier.x ((typeFormat y).unpack a) ((typeFormat y).unpack b)
      (fcmpBits y r.1, if r.2 then flagNV else 0))
  ) ∧
  (
    (∀ o, P (.fclass o) View.xType (fun y => 32 / y.count) fun v _ _ a _ _ => ((typeFormat v.xType).classify a, 0)) ∧
    (∀ o, P (.frnd o) View.xType FpType.width fun v t _ a _ _ =>
      (typeFormat v.xType).rint (t.mode v.tail.modifier).rm ((typeFormat v.xType).unpack a)) ∧
    (∀ o, P (.fdiv o) View.xType FpType.width fun v t _ a b _ =>
      (typeFormat v.xType).div (t.mode v.tail.modifier) ((typeFormat v.xType).unpack a) ((typeFormat v.xType).unpack b)) ∧
    (∀ o, P (.fsqrt o) View.xType FpType.width fun v t _ a _ _ =>
      (typeFormat v.xType).sqrt (t.mode v.tail.modifier) ((typeFormat v.xType).unpack a)) ∧
    (∀ o, P (.frcp o) View.xType FpType.width fun v t _ a _ _ =>
      (typeFormat v.xType).div (t.mode v.tail.modifier) (.fin false 1 0) ((typeFormat v.xType).unpack a)) ∧
    (∀ o, P (.frsq o) View.xType FpType.width fun v t _ a _ _ =>
      (typeFormat v.xType).rsqrt (t.mode v.tail.modifier) ((typeFormat v.xType).unpack a)) ∧
    (∀ o, P (.fex2 o) View.xType FpType.width fun v t _ a _ _ => (typeFormat v.xType).exp2 (t.mode v.tail.modifier) a) ∧
    (∀ o, P (.flg2 o) View.xType FpType.width fun v t _ a _ _ => (typeFormat v.xType).log2 (t.mode v.tail.modifier) a) ∧
    (∀ o, P (.fsin o) View.xType FpType.width fun v t _ a _ _ =>
      (typeFormat v.xType).sincos (t.mode v.tail.modifier) false a) ∧
    (∀ o, P (.fcos o) View.xType FpType.width fun v t _ a _ _ =>
      (typeFormat v.xType).sincos (t.mode v.tail.modifier) true a) ∧
    (∀ o, P (.ldexp o) View.xType FpType.width fun v t i a _ _ =>
      (typeFormat v.xType).ldexp (t.mode v.tail.modifier) ((typeFormat v.xType).unpack a)
        (if v.xType.count = 2 then ((t.b32 v).extractLsb' (16 * i) 16).toInt else (t.b32 v).toInt)) ∧
    (∀ o, P (.frexp o) View.xType (fun y => 32 / y.count) fun v _ _ a _ _ =>
      match ((typeFormat v.xType).unpack a).frexp with
      | some e => (intBits (32 / v.xType.count) e, 0)
      | none => (2 ^ (32 / v.xType.count - 1), if ((typeFormat v.xType).unpack a).snan then flagNV else 0))
  )

/-- What `cvt` makes of its element of a in a lane, between the formats that its descriptors name (R172 to R174), and the lane with it
written. -/
def Thread.converted (t : Thread) (v : View) (sf df : NumFormat) : Rounded :=
  convert sf df (t.mode v.tail.modifier) (v.b.getLsbD 0)
    (((if sf.width = 64 then t.a64 v else (t.a32 v).zeroExtend 64).toNat / 2 ^ (sf.width * descPos v.tail.modifier.c)) % 2 ^ sf.width)
def Thread.withConverted (t : Thread) (v : View) (sf df : NumFormat) : Thread :=
  let r := t.converted v sf df
  (if df.width < 32 then
    t.setReg v.d.toNat ((t.reg v.d.toNat &&& ~~~BitVec.ofNat 32 ((2 ^ df.width - 1) * 2 ^ (df.width * descPos v.b))) |||
      BitVec.ofNat 32 (r.1 * 2 ^ (df.width * descPos v.b)))
  else if df.width = 64 then t.setPair v.d.toNat (BitVec.ofNat 64 r.1)
  else t.setReg v.d.toNat (BitVec.ofNat 32 r.1)).raise r.2

/-! ## Exchanges and traps -/

/-- The active lanes of a set name one mask `m` that has each lane's own bit, and every member position is in the set or holds no
thread of the warp (R43). -/
def ExchangeWhole (x : Issue) (v : View) (w : Warp) (m : Word) (mask : Thread → Word) : Prop :=
  (∀ t ∈ x.active v, mask t = m ∧ m.getLsbD t.lane = true) ∧
  ∀ i, i < 32 → m.getLsbD i = true → (∃ t ∈ x.lanes, t.lane = i) ∨ ∀ l ∈ w.lanes, l.1 ≠ i

/-- `exec` answers a next state in which the one lane of a control-core set has entered its trap handler (R320, Table 23-4),
with nothing else of the thread, no other group and no memory changed. -/
def EntersHandler (s : State) (i : Instr) (x : Issue) (t : Thread) (cause : Word) (tval : Dword) : Prop :=
  ∃ T y, exec i s = .next T ∧ T.thread x.group.gid t.gidx = some y ∧
    y = { t with epc := t.pc.zeroExtend 64, cause := cause, tval := tval, ppl := t.pl, pl := if t.pl = 2 then 2 else 1,
                 pc := t.vbase.extractLsb' 0 56, state := y.state, stepping := .no, resumed := false, fence := .idle,
                 trapped := none } ∧
    (∀ gid, gid ≠ x.group.gid → T.group gid = s.group gid) ∧
    T = { s with groups := T.groups, strokes := T.strokes, next := T.next }

/-! ## Memory instructions -/

/-- Bytes of the contexts' touched-dies masks in every die's replica of the tables (R391, Table 22-1). -/
def MaskTable (k : Nat) : Prop := ∃ die b, die < 32 ∧ b < 0x8000 ∧ k = storageKey die (0x10000 + b)

/-- Every byte of memory outside the touched-dies masks reads as before. -/
def MemoryKept (s T : State) : Prop := ∀ k, ¬MaskTable k → T.mem.read k = s.mem.read k

/-- Registers that an access of `n` bytes fills or reads (R219, R220). -/
def accessRegisters (n : Nat) : Nat := if n = 8 then 2 else if n = 16 then 4 else 1

/-- A ready load whose active lanes have room in their class and pass every check completes: each active lane's destination
registers are empty with the code LOAD, and one load of its location is outstanding; nothing is read yet (R219), and no byte of memory
changes but in the masks. -/
def LoadIssues (i : Instr) (space : Space) (n : View → Nat) (dev : View → Bool) (acq : View → Option Scope) : Prop :=
  ∀ s x v (l : Thread → Loc), Ready s i x v →
    (∀ t ∈ x.active v, t.outstanding .load < 64 ∧ s.access x.group t v space (n v) .read = .ok (l t)) →
    CompletesWith s i x v
      (fun t =>
        { t with
            fe := (t.markN v.d.toNat (accessRegisters (n v)) .load).fe
            ops := t.ops ++ [{ id := s.next.op, cls := some .load,
                               kind := .load space (l t) (n v) v.d.toNat (dev v) (acq v) none, done := false, cancelled := [] }]
            acquires := t.acquires ++ (acq v).toList.map fun sc => (s.next.op, sc) })
      (fun _ => none)
      (fun s1 => (s1.noteAccess x.group space ((x.active v).map fun t => (t, .ok (l t)))).takePlaces 1) ∧
    ∀ T, exec i s = .next T → MemoryKept s T

/-- A ready store whose active lanes have room in their store buffers and pass every check completes: each active lane's store
buffer gains the entries that `new` gives; nothing is stored yet (R220), so the scratchpad and every byte of memory stay,
but in the masks. -/
def StoreIssues (i : Instr) (space : Space) (n : View → Nat) (room : View → Nat)
    (new : State → View → Thread → Loc → List SbEntry) : Prop :=
  ∀ s x v (l : Thread → Loc), Ready s i x v →
    (∀ t ∈ x.active v, t.sb.length + room v ≤ 64 ∧ s.access x.group t v space (n v) .write = .ok (l t)) →
    CompletesWith s i x v (fun t => { t with sb := t.sb ++ new s v t (l t) }) (fun _ => none)
      (fun s1 => (s1.noteAccess x.group space ((x.active v).map fun t => (t, .ok (l t)))).takePlaces 2) ∧
    ∀ T, exec i s = .next T → MemoryKept s T

/-- The walk of R367 from the table at offset t of level lvl, and how it ends: at a leaf, with its level, or with the level at which it
faults and whether the entry is malformed. `uses` says which entries may translate there, and `bad` which are malformed. -/
inductive Walks (uses : Nat → Nat → Nat → Prop) (bad : Nat → Nat → Prop) : Nat → Nat → Except (Nat × Bool) (Nat × Nat) → Prop
  | absent {lvl t e : Nat} : uses lvl t e → e % 2 = 0 → Walks uses bad lvl t (.error (lvl, false))
  | malformed {lvl t e : Nat} : uses lvl t e → e % 2 = 1 → bad lvl e → Walks uses bad lvl t (.error (lvl, true))
  | leaf {lvl t e : Nat} : uses lvl t e → e % 2 = 1 → ¬bad lvl e → e.testBit 1 = true → Walks uses bad lvl t (.ok (e, lvl))
  | table {lvl t e : Nat} {r : Except (Nat × Bool) (Nat × Nat)} : uses (lvl + 1) t e → e % 2 = 1 → ¬bad (lvl + 1) e →
      e.testBit 1 = false → Walks uses bad lvl (e / 2 ^ 12 % 2 ^ 36 * 2 ^ 12) r → Walks uses bad (lvl + 1) t r

/-- The entries that may translate address va in a table (R366, R372): the address's own, as the walker's die reads it, or, where it is a
leaf of a run whose entries differ, any of them. -/
def State.mayTranslate (s : State) (die va lvl t e : Nat) : Prop :=
  let i := if lvl = 4 then va / 2 ^ 48 % 256 else va / 2 ^ (12 + 9 * lvl) % 512
  let own := s.readEntry die (t + 8 * i)
  let n := if own % 2 = 0 ∨ own.testBit 1 = false then 1 else if own / 2 ^ 10 % 4 = 1 ∧ lvl = 0 then 4
    else if own / 2 ^ 10 % 4 = 2 ∧ lvl ≤ 2 then 16 else 1
  let j := va / 2 ^ (12 + 9 * lvl) % 512
  e = own ∨ (∃ k, k < n ∧ s.readEntry die (t + 8 * (j - j % n + k)) ≠ own) ∧
    ∃ k, k < n ∧ e = s.readEntry die (t + 8 * (j - j % n + k))

/-- A valid entry e is malformed at a level, in a context of polder p (R366). -/
def State.isMalformed (s : State) (p : Polder) (lvl e : Nat) : Prop :=
  let place := e / 2 ^ 8 % 4
  let run := e / 2 ^ 10 % 4
  let frame := e / 2 ^ 12 % 2 ^ 36
  let base := frame * 2 ^ 12
  let home := e / 2 ^ 50 % 32
  let size := 2 ^ ((if lvl = 0 then 12 else if lvl = 1 then 21 else 30) + if run = 1 then 2 else if run = 2 then 4 else 0)
  e.testBit 63 = true ∨ e.testBit 49 = true ∨ e.testBit 48 = true ∨ e.testBit 2 = true ∨
  (e.testBit 1 = false ∧ (lvl = 0 ∨ e / 2 ^ 48 ≠ 0 ∨ e / 4 % 2 ^ 10 ≠ 0 ∨ 2 ^ 25 ≤ frame)) ∨
  (e.testBit 1 = true ∧ (2 < lvl ∨ run = 3 ∨ run = 1 ∧ lvl ≠ 0 ∨ base % size ≠ 0 ∨ e.testBit 4 = true ∧ e.testBit 3 = false ∨
    place ≠ 3 ∧ e / 2 ^ 55 % 256 ≠ 0 ∨ place ≠ 1 ∧ home ≠ 0 ∨ place = 1 ∧ p.dies.testBit home = false ∨
    (place = 0 ∨ place = 2) ∧ p.dieList = [] ∨ place ≠ 3 ∧ 2 ^ 25 ≤ frame ∨
    place = 3 ∧ (e.testBit 7 = true ∨ e.testBit 5 = true) ∨
    place ≠ 3 ∧ ¬(e.testBit 7 = true ∧ place = 1) ∧ (∃ a, base ≤ a ∧ a < base + size ∧ a < 2 ^ 32) ∨
    place ≠ 3 ∧ ∃ a, a % 2 ^ 12 = 0 ∧ base ≤ a ∧ a < base + size ∧ 2 ^ 37 - s.reserve (homeOf p.dieList e a) ≤ a))

/-- An access of a control-core thread whose address check fails traps as the check says, with nothing else changed. -/
def AccessTraps (i : Instr) (space : View → Space) (n : View → Nat) (need : Need) : Prop :=
  ∀ s x v t k e, Ready s i x v → x.group.control = some k → x.lanes = [t] → laneActive v.tail.modifier t = true →
    t.outstanding .load < 64 → t.sb.length + 2 ≤ 64 → s.access x.group t v (space v) (n v) need = .error e → e.cause ≠ .levee →
    EntersHandler s i x t ((e.detail.extractLsb' 0 16) ++ e.aux ++ e.cause.code) e.tval

/-! ## Lanes that trap on a compute core -/

/-- The lanes of `traps` leave their warp as one fragment in entry e, with one record for each, and stand at the instruction with
nothing else of them changed (R36, R397, R400, Table 23-3). -/
structure LeavesAsFragment (s T : State) (g : Group) (e : Nat) (traps : List (Thread × TrapInfo)) : Prop where
  warp : ∃ id hw y w, tfind (T.core g.place.die g.place.core).frags e = some (g.gid, id, hw) ∧
    T.group g.gid = some y ∧ w ∈ y.warps ∧ w.id = id ∧ w.kind = .fragment e ∧
    ∀ l, l ∈ w.lanes ↔ ∃ p ∈ traps, l = (p.1.lane, p.1.gidx)
  records : ∃ rs, (T.die g.place.die).records = (s.die g.place.die).records ++ [rs] ∧
    rs.length = traps.length ∧
    ∀ p ∈ traps, ∃ r ∈ rs, r.lane = BitVec.ofNat 8 p.1.lane ∧ r.cause = p.2.cause.code ∧ r.tval = p.2.tval ∧
      r.detail = p.2.detail ∧ r.aux = p.2.aux ∧ r.pc = p.1.pc.zeroExtend 64 ∧ r.entry = BitVec.ofNat 8 e ∧
      r.name = g.name
  lanes : ∀ p ∈ traps, T.thread g.gid p.1.gidx =
    some { p.1 with state := .parked, trapped := some p.2, stepping := .no, resumed := false, fence := .idle }

/-- `exec` answers a next state in which the active lanes that `trap` names have left as one fragment in entry e and every other
lane has completed: an active one as `f` of itself, where `tgt` says, an inactive one as R59 says. No other group and no byte of
memory but the touched-dies masks has changed. -/
def TrapsPartly (s : State) (i : Instr) (x : Issue) (v : View) (e : Nat) (trap : Thread → Option TrapInfo)
    (f : Thread → Thread) (tgt : Thread → Option Pc) : Prop :=
  ∃ T, exec i s = .next T ∧
    LeavesAsFragment s T x.group e ((x.active v).filterMap fun t => (trap t).map fun i => (t, i)) ∧
    (∀ t ∈ x.lanes, laneActive v.tail.modifier t = false ∨ trap t = none →
      ∃ st sp, T.thread x.group.gid t.gidx = some { x.laneAfter i v f tgt t with state := st, stepping := sp }) ∧
    (∀ gid, gid ≠ x.group.gid → T.group gid = s.group gid) ∧ MemoryKept s T

/-- A ready instruction of a control-core thread for which `bad` names a trap, and no LEVEE, enters the handler with it. -/
def TrapsOnControl (i : Instr) (bad : State → Issue → View → Thread → Option TrapInfo) : Prop :=
  ∀ s x v t k e, Ready s i x v → x.group.control = some k → x.lanes = [t] → laneActive v.tail.modifier t = true →
    bad s x v t = some e → e.cause ≠ .levee → EntersHandler s i x t (e.detail.extractLsb' 0 16 ++ e.aux ++ e.cause.code) e.tval

/-- On a compute core the active lanes of a ready instruction for which `bad` names a trap, and no LEVEE, leave as a fragment, and the
others complete. -/
def TrapsOnCompute (i : Instr) (when' : State → View → Prop) (bad : State → Issue → View → Thread → Option TrapInfo)
    (f : State → Issue → View → Thread → Thread) (tgt : Issue → View → Thread → Option Pc) : Prop :=
  ∀ s x v e, Ready s i x v → when' s v → x.group.control = none → (∃ t ∈ x.active v, (bad s x v t).isSome = true) →
    (∀ t ∈ x.active v, ∀ c, bad s x v t = some c → c.cause ≠ .levee) →
    (s.core x.group.place.die x.group.place.core).freeEntry = some e →
    TrapsPartly s i x v e (bad s x v) (f s x v) (tgt x v)

/-- A lane set whose instruction passes checks 2 to 5, and has yet to pass check 6 (Table 3-12). -/
structure Reached (s : State) (i : Instr) (x : Issue) (v : View) : Prop where
  issue : s.issue = some x
  view : i.view = some v
  running : x.group.control.isSome = true → x.lanes.head?.bind Thread.trapped = none
  checks : x.staticTrap i v = none

/-- An enabled exception of a floating-point instruction traps the thread of a control core (R95). -/
def FpTrapsOnControl (i : Instr) (ty : View → FpType) (_ : FpType → Nat) (f : View → Thread → Nat → Nat → Nat → Nat → Rounded) : Prop :=
  TrapsOnControl i fun _ _ v t => t.fpTrap (t.fpExceptions v (ty v) (f v t))

/-- On a compute core the lanes that raise an enabled exception leave, and the others write their results. -/
def FpTrapsOnCompute (i : Instr) (ty : View → FpType) (w : FpType → Nat) (f : View → Thread → Nat → Nat → Nat → Nat → Rounded) :
    Prop :=
  TrapsOnCompute i (fun _ _ => True) (fun _ _ v t => t.fpTrap (t.fpExceptions v (ty v) (f v t)))
    (fun _ _ v t => t.withElements v (ty v) (w (ty v)) (f v t)) fun _ _ _ => none

/-- Accesses of which some fail their checks: the lanes that fail leave as a fragment, and the others issue their accesses as
`f` says. -/
def AccessTrapsPartly (i : Instr) (space : Space) (n : Nat) (need : Need)
    (f : State → View → Thread → Loc → Thread) : Prop :=
  ∀ s x v e, Ready s i x v → x.group.control = none →
    (∀ t ∈ x.active v, t.outstanding .load < 64 ∧ t.sb.length + 2 ≤ 64) →
    (∃ t ∈ x.active v, ∃ c, s.access x.group t v space n need = .error c) →
    (∀ t ∈ x.active v, ∀ c, s.access x.group t v space n need = .error c → c.cause ≠ .levee) →
    (s.core x.group.place.die x.group.place.core).freeEntry = some e →
    TrapsPartly s i x v e
      (fun t => match s.access x.group t v space n need with
        | .error c => some c
        | .ok _ => none)
      (fun t => match s.access x.group t v space n need with
        | .error _ => t
        | .ok l => f s v t l)
      (fun _ => none)

/-- A thread that has issued a load of n bytes (R219). -/
def Thread.loading (t : Thread) (s : State) (v : View) (space : Space) (n : Nat) (dev : Bool) (l : Loc) : Thread :=
  { t with
      fe := (t.markN v.d.toNat (accessRegisters n) .load).fe
      ops := t.ops ++ [{ id := s.next.op, cls := some .load, kind := .load space l n v.d.toNat dev none none, done := false,
                         cancelled := [] }] }

/-- A thread that has issued a store of n bytes (R220). -/
def Thread.storing (t : Thread) (s : State) (v : View) (space : Space) (n : Nat) (l : Loc) : Thread :=
  { t with sb := t.sb ++ storeEntries s.next.op space l (v.tail.modifier.sc == 2) (t.storeData v.d.toNat n) }

/-! ## Sends -/

/-- A ready pod write whose lanes all have a packet and room on its channels completes: each active lane has one more
operation of the pod class, and the lanes' packets take their sequences and wait to leave in ascending lane position
(R271, R281); no byte of memory changes. -/
def PodWrites (i : Instr) (send : State → Issue → View → Thread → Except TrapInfo PodSend) (when' : View → Prop) : Prop :=
  ∀ s x v (p : Thread → PodSend), Ready s i x v → when' v →
    let before := fun (t : Thread) (c : Nat) =>
      (((x.active v).takeWhile fun y => y.gidx != t.gidx).filter fun y =>
        (p y).packet.chan = c || (p y).more.contains c).length
    (∀ t ∈ x.active v, send s x v t = .ok (p t) ∧ s.sendRoom x.group t (p t) (before t) = none) →
    CompletesWith s i x v
      (fun t => { t with ops := t.ops ++ [{ id := s.next.op + 1, cls := some .pod, kind := .podWrite (p t).packet.chan 0,
                                            done := false, cancelled := [] }] })
      (fun _ => none)
      (fun s1 => ((x.active v).foldl (fun s1 t =>
        let q := s1.makePacket (p t).packet (p t).more
        q.2.queueOut q.1 (some (x.group.gid, t.gidx, s.next.op + 1)) false) s1).takePlaces 2)

/-- A ready flag whose lanes all have a packet and room completes: each active lane has one more operation and a .dev release
mark, and its flag awaits the mark before it takes a sequence (R286, R289). -/
def PodFlags (i : Instr) (send : State → Issue → View → Thread → Except TrapInfo PodSend) (when' : View → Prop) : Prop :=
  ∀ s x v (p : Thread → PodSend), Ready s i x v → when' v →
    let before := fun (t : Thread) (c : Nat) =>
      (((x.active v).takeWhile fun y => y.gidx != t.gidx).filter fun y =>
        (p y).packet.chan = c || (p y).more.contains c).length
    (∀ t ∈ x.active v, t.sb.length + 1 ≤ 64 ∧ send s x v t = .ok (p t) ∧ s.sendRoom x.group t (p t) (before t) = none) →
    CompletesWith s i x v
      (fun t => { t with
        ops := t.ops ++ [{ id := s.next.op + 1, cls := some .pod, kind := .podWrite (p t).packet.chan 0,
                           done := false, cancelled := [] }]
        sb := t.sb ++ [{ seq := s.next.op, kind := .mark .dev .stores, data := 0, size := 0 }] })
      (fun _ => none)
      (fun s1 => ((x.active v).foldl (fun s1 t =>
        { s1 with pod := { s1.pod with
            flags := s1.pod.flags ++ [⟨x.group.gid, t.gidx, s.next.op + 1, s.next.op, (p t).packet⟩] } }) s1).takePlaces 2)

/-! ## Steps -/

/-- Operation `op` of a thread has filled the registers from `d` up with `ws` and is done; no other register, code or program
counter of the thread has changed, and no byte of memory. -/
def Fills (s T : State) (gid gidx op d : Nat) (ws : List Word) : Prop :=
  ∃ t y, s.thread gid gidx = some t ∧ T.thread gid gidx = some y ∧
    (∀ i w, ws[i]? = some w → y.reg (d + i) = w ∧ y.isFull (d + i) = true) ∧
    (∀ r, r < d ∨ d + ws.length ≤ r → y.reg r = t.reg r ∧ y.feOf r = t.feOf r) ∧
    y.pc = t.pc ∧ y.state = t.state ∧ (∀ o ∈ y.ops, o.id = op → o.done = true) ∧ T.mem = s.mem

/-- The operation `op` of a thread that awaits its result and has nothing in its way: no remote store is held for its
thread, and no register of it is cancelled. -/
def Awaiting (s : State) (gid gidx op : Nat) (g : Group) (t : Thread) (o : Op) : Prop :=
  s.operation gid gidx op = some (g, t, o) ∧ o.done = false ∧ o.cancelled = [] ∧ t.state ≠ .exited ∧ t.remote = []

/-- Every token of a line (R384): at home, with its holders and under way. -/
def State.tokenTotal (s : State) (line : Nat) : Nat :=
  let t := s.lineOrHome line
  t.homeTokens + (t.holders.map Holder.tokens).sum +
    ((s.tokens.msgs.filter fun m => m.line = line).map TokenMsg.tokens).sum

/-- A sideband message that asks `kind`, whose signature verifies under a key that the module holds and whose nonce is new
(R429); `s1` is the state that has taken it. -/
def SidebandTaken (s : State) (m : SidebandMsg) (kind : SidebandKind) (s1 : State) : Prop :=
  ∃ rest, s.ports.sideband = m :: rest ∧ m.kind = kind ∧ s.ports.keys = true ∧
    Config.signatureValid m.signed m.signature = true ∧ m.nonce ∉ s.ports.nonces ∧
    s1 = { s with ports := { s.ports with sideband := rest, nonces := s.ports.nonces ++ [m.nonce] } }

/-- Every packet that waits to leave is blocked (R269): it takes a slot, and at some chip that it goes to this chip holds all
64 slots or an earlier packet waits for it. -/
def State.DeparturesBlocked (s : State) : Prop :=
  ∀ i o, s.pod.outWait[i]? = some o → o.packet.kind.takesSlot = true ∧
    ∃ l ∈ o.packet.legs, 64 ≤ s.slotsHeld l.dst ∨
      ∃ w ∈ s.pod.outWait.take i, ∃ m ∈ w.packet.legs, m.dst = l.dst

/-! ## Exact results rounded once (R89 to R104) -/

/-- The magnitude that a format's bits below the sign stand for, in units of its least subnormal; at the bits of an infinity,
the least magnitude that overflows (Table 4-1). -/
def BinFormat.magnitude (f : BinFormat) (c : Nat) : Nat :=
  if c < 2 ^ f.fb then c else (2 ^ f.fb + c % 2 ^ f.fb) * 2 ^ (c / 2 ^ f.fb - 1)

/-- How a rational a / b, in units of the least subnormal, compares with the exact n / d. -/
def BinFormat.ratio (f : BinFormat) (n d a b : Nat) : Ordering := compare (a * d) (n * b * 2 ^ (-f.qmin).toNat)

/-- How a rational a / b, in those units, compares with the exact √(n / d). -/
def BinFormat.root (f : BinFormat) (n d a b : Nat) : Ordering := compare (a * a * d) (n * b * b * 4 ^ (-f.qmin).toNat)

/-- Whether a magnitude between two neighbours is delivered as the greater one: `mid` compares their midpoint with it, and `odd`
says that the lesser one is odd (R93). -/
def deliversUp (rm : Nat) (neg : Bool) (mid : Ordering) (odd : Bool) : Bool :=
  match rm with
  | 0 => mid == .lt || (mid == .eq && odd)
  | 1 => false
  | 2 => neg
  | 3 => !neg
  | _ => mid != .gt

/-- `r` is the exact nonzero magnitude that `cut` compares rationals with, of sign `neg`, rounded once to the format (R93), with the
exceptions of R94: exact; between the neighbours of codes c and c + 1; or beyond the largest finite magnitude. Tininess is judged
after rounding with an unbounded exponent: a magnitude below the least normal one is tiny unless half a unit more of precision rounds it up to that one. -/
structure RoundsExactly (f : BinFormat) (md : Mode) (neg : Bool) (cut : Nat → Nat → Ordering) (r : Rounded) : Prop where
  exact : ∀ c, c < f.infBits → cut (f.magnitude c) 1 = .eq → r = (f.zero neg + c, 0)
  between : ∀ c, c < f.infBits → cut (f.magnitude c) 1 = .lt → cut (f.magnitude (c + 1)) 1 = .gt →
    let k := if deliversUp md.rm neg (cut (f.magnitude c + f.magnitude (c + 1)) 2) (c % 2 = 1) then c + 1 else c
    let tiny := cut (2 ^ f.fb) 1 = .gt ∧ ¬(cut (2 ^ (f.fb + 1) - 1) 2 = .lt ∧
      deliversUp md.rm neg (cut (2 ^ (f.fb + 2) - 1) 4) true = true)
    k < f.infBits → r.1 = f.zero neg + k ∧ (tiny → r.2 = flagUF + flagNX) ∧ (¬tiny → r.2 = flagNX)
  overflow : (cut (f.magnitude f.infBits) 1 ≠ .gt ∨
      (cut (f.magnitude (f.infBits - 1)) 1 = .lt ∧ deliversUp md.rm neg
        (cut (f.magnitude (f.infBits - 1) + f.magnitude f.infBits) 2) ((f.infBits - 1) % 2 = 1) = true)) →
    r.1 = f.zero neg + (if md.sat = false ∧ (md.rm = 0 ∨ 4 ≤ md.rm ∨ md.rm = 2 ∧ neg = true ∨ md.rm = 3 ∧ neg = false)
      then f.infBits else f.infBits - 1) ∧ r.2 = flagOF + flagNX

/-- A finite value in units of 2^-k, where it has no digits below them. -/
def FVal.scaled : FVal → Nat → Int
  | .nan _, _ => 0
  | .inf _, _ => 0
  | .fin n m e, k => if n then -((m * 2 ^ (e + k).toNat : Nat) : Int) else ((m * 2 ^ (e + k).toNat : Nat) : Int)

/-- Whether a value is finite with no digits below 2^-k. -/
def FVal.fits : FVal → Nat → Prop
  | .nan _, _ => False
  | .inf _, _ => False
  | .fin _ _ e, k => 0 ≤ e + k

/-- `k` is the magnitude n / d of sign `neg` rounded to an integer (R93, R167). -/
def IntegerRounds (rm : Nat) (neg : Bool) (n d k : Nat) : Prop :=
  (n % d = 0 → k = n / d) ∧
  (n % d ≠ 0 → k = if deliversUp rm neg (compare ((2 * (n / d) + 1) * d) (2 * n)) (n / d % 2 = 1) then n / d + 1 else n / d)

/-! ## Results in the spec's own terms -/

/-- clamp to the signed range of a word (Table 0-1, R117). -/
def clampSigned (r : Int) : Word := BitVec.ofInt 32 (max (-2147483648) (min r 2147483647))
/-- clamp to the unsigned range of a word (Table 0-1, R117). -/
def clampUnsigned (r : Int) : Word := BitVec.ofInt 32 (max 0 (min r 4294967295))

/-- The result of R117 for a wrapped word and the exact signed and unsigned results. -/
def saturating (m : Modifier) (wrapped : Word) (signed unsigned : Int) : Word :=
  if m.sat = false then wrapped else if m.x.getLsbD 0 then clampUnsigned unsigned else clampSigned signed

/-- The position p and the effective length e of a field descriptor (R126). -/
def fieldPos (b : Word) : Nat := b.toNat % 32
def fieldLen (b : Word) : Nat := min (b.toNat / 256 % 64) (32 - fieldPos b)

/-- An operation on the two halves of a word independently (R132). -/
def packedHalves (f : Half → Half → Half) (a b : Word) : Word :=
  f (a.extractLsb' 16 16) (b.extractLsb' 16 16) ++ f (a.extractLsb' 0 16) (b.extractLsb' 0 16)

/-- Byte i of a word read as i8, or as z8 (R133). -/
def byteValue (unsigned : Bool) (a : Word) (i : Nat) : Int :=
  let n := a.toNat / 2 ^ (8 * i) % 256
  if unsigned ∨ n < 128 then n else (n : Int) - 256
/-- The product of the bytes i of a and b as X[0] and X[1] read them (R133). -/
def byteProduct (m : Modifier) (a b : Word) (i : Nat) : Int :=
  byteValue (m.x.getLsbD 0) a i * byteValue (m.x.getLsbD 1) b i

/-! ## Bytes in memory and in tiles -/

/-- The byte of release class that an access of a die finds: in its working copy, or else in the home copy as the die takes it
(R198). -/
def State.dieByte (s : State) (die key : Nat) : Byte :=
  match (s.die die).block (blockOf key) with
  | some b => b.bytes.read (key - blockOf key)
  | none => (s.homeFor die (blockOf key)).read (key - blockOf key)

/-- The storage key of byte k of a stretch that lies in pieces. -/
def keyAt : List (Loc × Nat) → Nat → Option Nat
  | [], _ => none
  | p :: ps, k => if k < p.2 then some (p.1.key + k) else keyAt ps (k - p.2)

/-- Pieces of release class outside the table region, each within a block. -/
def PlainPieces (ps : List (Loc × Nat)) : Prop :=
  ∀ p ∈ ps, p.1.table = false ∧ p.1.token = false ∧ p.1.key % 512 + p.2 ≤ 512

/-- A die that has nothing of its own under way: no twinned block, nothing that it sent is still to be applied, and no table-region
store of its engine lacks a replica. -/
def State.quietDie (s : State) (die : Nat) : Prop :=
  (s.die die).twinned = [] ∧ (s.die die).sent = [] ∧ (∀ d ∈ s.dies, ∀ e ∈ d.2.queue, e.src ≠ die) ∧
    ∀ x ∈ s.tableStores, x.die = die → x.left = []

/-- No die has a difference, another access to a home or a table-region store under way. -/
def State.allQuiet (s : State) : Prop :=
  (∀ d ∈ s.dies, d.2.twinned = [] ∧ d.2.sent = [] ∧ d.2.queue = []) ∧ ∀ x ∈ s.tableStores, x.left = []

/-- No line's tokens are away from its home, and no persistent request is active. -/
def State.tokensHome (s : State) : Prop := s.tokens.lines = [] ∧ s.tokens.persistent = []

/-- Whether some group of a core holds registers. -/
def State.anyResident (s : State) (die core : Nat) : Bool := (s.onCore die core).any Group.isResident

/-- The order in which time-slicing takes OUT groups: the highest priority, then the longest OUT, then the launch accepted first, then
the lowest ordinal (R349). -/
def State.waitKeys (s : State) (g : Group) : List Nat := [3 - g.prio, g.since, g.moved, s.launchRank g.lid, g.ordinal]
/-- The order in which it takes resident ones: the lowest priority, then the longest resident, and on as before (R349). -/
def State.victimKeys (s : State) (g : Group) : List Nat := [g.prio, g.since, g.moved, s.launchRank g.lid, g.ordinal]

/-- `w` comes first of a list in the order of its keys. -/
def FirstOf (f : Group → List Nat) (w : Group) (gs : List Group) : Prop :=
  w ∈ gs ∧ ∀ u ∈ gs, u ≠ w → lexLess (f w) (f u) = true

/-- The lowest address from `a` on that stretches, by start and length, cover. -/
def LeastFrom (rows : List (Nat × Nat)) (a b : Nat) : Prop :=
  a ≤ b ∧ (∃ q ∈ rows, q.1 ≤ b ∧ b < q.1 + q.2) ∧ ∀ q ∈ rows, ∀ c, a ≤ c → q.1 ≤ c → c < q.1 + q.2 → b ≤ c

/-- `ps` is every byte of the stretches at addresses from `a` up to `e`, once, in ascending order of the stretches: which one, the offset in
it and a length. -/
def BytesFrom (rows : List (Nat × Nat)) (a e : Nat) (ps : List (Nat × Nat × Nat)) : Prop :=
  ps.Pairwise (fun p q => p.1 < q.1) ∧
  (∀ p ∈ ps, 0 < p.2.2 ∧ ∃ q, rows[p.1]? = some q ∧ p.2.1 + p.2.2 ≤ q.2 ∧ a ≤ q.1 + p.2.1 ∧ q.1 + p.2.1 + p.2.2 ≤ e) ∧
  ∀ (r : Nat) q c, rows[r]? = some q → c < q.2 → a ≤ q.1 + c → q.1 + c < e → ∃ p ∈ ps, p.1 = r ∧ p.2.1 ≤ c ∧ c < p.2.1 + p.2.2

/-- Byte k of a part that a step of a transfer moves, by row, byte of the row and length: from memory as its die finds it, with the fill byte
beyond the bounds; from the scratchpad; or from tile memory (R234, R239, R254, R258). -/
def Transfer.partByte (x : Transfer) (s : State) (g : Group) (p : Nat × Nat × Nat) (ps : List (Loc × Nat)) (k : Nat) : Byte :=
  if x.dir = 0 ∨ x.dir = 2 then if k < x.inBounds g p then ((keyAt ps k).map (s.dieByte x.die)).getD 0 else x.fill
  else if x.dir = 1 ∨ x.dir = 4 then g.scratch.read (x.laddr.toNat + p.1 * x.len.toNat + p.2.1 + k)
  else g.tileMem.read (65536 * x.tile + 512 * (x.tileRow + p.1) + p.2.1 + k)

/-- A step of transfer x has moved its parts, with their pieces in memory, and `ask` bytes asked for: their bytes stand where its direction
puts them; every other byte of the scratchpad, of the tiles and of memory stays but for the counter, which counts them, and the
masks; the transfer stands where `advanced` says, or is over. -/
structure PacketMoved (s T : State) (x : Transfer) (g y : Group) (ask : Nat) (parts : List ((Nat × Nat × Nat) × List (Loc × Nat))) :
    Prop where
  group : T.group x.gid = some y
  toScratch : x.dir = 0 ∨ x.dir = 5 → ∀ p ∈ parts, ∀ k, k < p.1.2.2 →
    y.scratch.read (x.scratchAt p.1.1 p.1.2.1 + k) = x.partByte s g p.1 p.2 k
  toTile : x.dir = 2 ∨ x.dir = 4 → ∀ p ∈ parts, ∀ k, k < p.1.2.2 →
    y.tileMem.read (x.tilePlace p.1.1 p.1.2.1 + k) = x.partByte s g p.1 p.2 k
  toMemory : x.dir = 1 ∨ x.dir = 3 → ∀ (j : Nat) p k key, parts[j]? = some p → k < x.inBounds g p.1 → keyAt p.2 k = some key →
    (∀ (j' : Nat) p' k', parts[j']? = some p' → j < j' ∨ j = j' ∧ k < k' → k' < x.inBounds g p'.1 → keyAt p'.2 k' ≠ some key) →
    T.dieByte x.die key = x.partByte s g p.1 p.2 k
  scratchKept : ∀ a, (x.dir = 0 ∨ x.dir = 5 → ∀ p ∈ parts, a < x.scratchAt p.1.1 p.1.2.1 ∨ x.scratchAt p.1.1 p.1.2.1 + p.1.2.2 ≤ a) →
    (x.nosl = false → a < x.sluice.toNat ∨ x.sluice.toNat + 4 ≤ a) → y.scratch.read a = g.scratch.read a
  tileKept : ∀ a, (x.dir = 2 ∨ x.dir = 4 → ∀ p ∈ parts, a < x.tilePlace p.1.1 p.1.2.1 ∨ x.tilePlace p.1.1 p.1.2.1 + p.1.2.2 ≤ a) →
    y.tileMem.read a = g.tileMem.read a
  bits : y.bitmapZero = g.bitmapZero
  count : x.nosl = false →
    let c := natOfBytes (g.scratch.readN x.sluice.toNat 4)
    natOfBytes (y.scratch.readN x.sluice.toNat 4) =
      min 0x7FFFFFFF (c % 2 ^ 31 + (parts.map fun p => p.1.2.2).sum) + c / 2 ^ 31 * 2 ^ 31
  memory : MemoryKept s T
  groups : ∀ gid, gid ≠ x.gid → T.group gid = s.group gid
  threads : ∀ k t, g.thread k = some t → ∃ z, y.thread k = some z ∧ z.regs = t.regs ∧ z.fe = t.fe ∧ z.pc = t.pc ∧ z.sb = t.sb ∧
    z.state = t.state ∧ z.fpflags = t.fpflags
  next : (x.advanced g ask).allMoved g = false → ∀ z ∈ T.transfers, x.same z = true → z = x.advanced g ask
  last : (x.advanced g ask).allMoved g = true → (∀ z ∈ T.transfers, x.same z = false) ∧
    ∀ t, T.thread x.gid x.gidx = some t → ∀ o ∈ t.ops, o.id = x.opId → o.done = true

/-- Every byte of tile memory outside the elements of `w` bytes of a grid of tile t is unchanged. -/
def TileBytesKept (g y : Group) (t rows cols w : Nat) : Prop :=
  ∀ k, (∀ r c, r < rows → c < cols → k < tileAt t r c w ∨ tileAt t r c w + w ≤ k) → y.tileMem.read k = g.tileMem.read k

/-- Every bitmap bit outside a grid of tile t is unchanged. -/
def TileBitsKept (g y : Group) (t rows cols : Nat) : Prop :=
  ∀ u r c, r < 128 → c < 512 → (u = t → r < rows → cols ≤ c) → y.tileBit u r c = g.tileBit u r c

/-- A tile operation of instruction i whose turn has come (R252) is performed as `P` says of the operation, the state and group
before, and the state and group after. -/
def TilePerforms (i : Instr) (P : TileOp → View → State → Group → State → Group → Prop) : Prop :=
  ∀ s die core op o v g, (s.tileOps.find? fun o => o.die = die && o.core = core && o.id = op) = some o → o.instr = i →
    i.view = some v → s.group o.gid = some g → o.gang = none → s.tileReady o = true →
    s.piecesReach die o.pieces = true → (∀ sh ∈ o.shapes, sh ≠ 0 → shapeValid sh = true) →
    ∃ T y, exec (.tileComplete die core op) s = .next T ∧ T.group o.gid = some y ∧ P o v s g T y

/-- The shapes of tiles d, a and b that an operation read at its issue (R249). -/
def TileOp.shapeD (o : TileOp) : Word := (o.shapes[0]?).getD 0
def TileOp.shapeA (o : TileOp) : Word := (o.shapes[1]?).getD 0
def TileOp.shapeB (o : TileOp) : Word := (o.shapes[2]?).getD 0

/-- The exceptions that an operation's elements raised are in sr.fpflags of every lane that issued it (R108). -/
def FlagsRaised (o : TileOp) (g : Group) (T : State) (raised : Nat → Prop) : Prop :=
  ∀ l ∈ o.lanes, ∀ t, g.thread l.1 = some t → ∃ z, T.thread o.gid l.1 = some z ∧
    ∀ b, b < 5 → (z.fpflags.getLsbD b = true ↔ t.fpflags.getLsbD b = true ∨ raised b)

/-- One step of the sum of a product of input type X (R105 to R107): integers wrap; a dm8 element enters as its f32 value, and one
rounding is made in the accumulator's format. -/
def sumStep (x rm acc a b : Nat) : Rounded :=
  let int := fun (k : Nat) => byteValue (x != 1) (BitVec.ofNat 32 k) 0
  if x = 1 ∨ x = 2 then (((acc : Int) + int a * int b).emod (2 ^ 32) |>.toNat, 0)
  else
    let enter := fun (e : Nat) => match x with
      | 0 => fmtF32.unpack (convert .dm8 .f32 ⟨0, false⟩ false e).1
      | 3 => fmtH16.unpack e
      | 4 => fmtBf16.unpack e
      | 5 => fmtF32.unpack e
      | _ => fmtF64.unpack e
    let f := if x = 6 then fmtF64 else fmtF32
    f.fma ⟨rm, false⟩ (enter a) (enter b) (f.unpack acc)

/-- A product's elements are the sums of R105 in ascending k, from the incoming element of D: `ga` holds tile ta as A; where the
product is sparse a step whose bits are not both 1 is skipped (R109). -/
def ProductSums (sparse : Bool) (rm : Nat) (v : View) (sd sa : Word) (ga g y : Group) (ta : Nat) (raised : Nat → Prop) : Prop :=
  let x := v.tail.modifier.x.toNat
  let w := productWidths x
  let d := v.d.toNat
  ∃ acc : Nat → Nat → Nat → Rounded, ∃ flags : Nat → Nat → Nat → Nat,
    (∀ i j, i < shapeRows sd → j < shapeCols sd →
      (acc i j 0).1 = g.operandElem d i j w.2 ∧ y.tileElem d i j w.2 = (acc i j (shapeCols sa)).1 ∧
      ∀ k, k < shapeCols sa →
        if sparse = true ∧ ¬(ga.operandBit ta i k = true ∧ g.operandBit v.b.toNat k j = true)
        then (acc i j (k + 1)).1 = (acc i j k).1 ∧ flags i j k = 0
        else acc i j (k + 1) = sumStep x rm (acc i j k).1 (ga.operandElem ta i k w.1) (g.operandElem v.b.toNat k j w.1) ∧
          flags i j k = (acc i j (k + 1)).2) ∧
    (∀ b, raised b ↔ ∃ i j k, i < shapeRows sd ∧ j < shapeCols sd ∧ k < shapeCols sa ∧ (flags i j k).testBit b = true) ∧
    TileBytesKept g y d (shapeRows sd) (shapeCols sd) w.2 ∧ y.bitmapZero = g.bitmapZero

/-! ## The arbiter -/

/-- A warp that competes for a slot of a core (R352): its group is resident there, and a lane of it is READY. -/
def State.Competes (s : State) (die core : Nat) (g : Group) (w : Warp) : Prop :=
  g ∈ s.groups.map Prod.snd ∧ g.place.die = die ∧ g.place.core = core ∧ g.isResident = true ∧ w ∈ g.warps ∧
  ∃ l ∈ w.lanes, ∃ t, g.thread l.2 = some t ∧ t.state = .ready ∧ ∀ r ∈ s.steps, r.gid = g.gid → r.gidx ≠ t.gidx

/-- A warp goes before another at the arbiter (R352): warps that never won go first, in order of formation, then the one whose last win
lies further back. -/
def Warp.Before (w x : Warp) : Prop :=
  match w.lastWin, x.lastWin with
  | none, none => w.id < x.id
  | none, some _ => True
  | some _, none => False
  | some m, some n => m < n

/-- The warp that wins next on a core (R352). -/
def State.WinsNext (s : State) (die core : Nat) (g : Group) (w : Warp) : Prop :=
  s.Competes die core g w ∧ ∀ h x, s.Competes die core h x → (h, x) ≠ (g, w) → w.Before x

/-- The lowest program counter's lanes (R22). -/
def lowestLanes (ts : List Thread) : List Nat :=
  (ts.filter fun t => ts.all fun y => t.pc.toNat ≤ y.pc.toNat).map Thread.gidx

/-- The lanes that are not at the lowest program counter (R22). -/
def higherLanes (ts : List Thread) : List Thread := ts.filter fun t => !ts.all fun y => t.pc.toNat ≤ y.pc.toNat

end Sys2Proof.Machine
end

