-- ==== Sys2Proof/Certificates/Slice0/Obligations.lean ====
section
/-!
DEFINITION. The statements for the provers.
-/

open Sys2Proof Sys2Proof.Machine

/-! ## Integer instructions -/

/-- R117: add, sub, mul and mad, with the imm7 form of add: wrapped, or clamped to the range that X[0] selects. -/
def Obligations.AddSubMulMadResults : Prop :=
  (∀ o, WritesWord (.add o) fun m a b _ => saturating m (a + b) (a.toInt + b.toInt) (a.toNat + b.toNat)) ∧
  (∀ o, WritesWord (.addImm7 o) fun m a b _ => saturating m (a + b) (a.toInt + b.toInt) (a.toNat + b.toNat)) ∧
  (∀ o, WritesWord (.sub o) fun m a b _ => saturating m (a - b) (a.toInt - b.toInt) ((a.toNat : Int) - b.toNat)) ∧
  (∀ o, WritesWord (.mul o) fun m a b _ => saturating m (a * b) (a.toInt * b.toInt) (a.toNat * b.toNat)) ∧
  (∀ o, WritesWord (.mad o) fun m a b c =>
    saturating m (a * b + c) (a.toInt * b.toInt + c.toInt) (a.toNat * b.toNat + c.toNat))

/-- R118 to R120: addc and subb with their carries, the high words of products, abs and neg. -/
def Obligations.CarryHighAbsNegResults : Prop :=
  (∀ o, WritesWord (.addc o) fun m a b c =>
    let k := if c.getLsbD 0 then 1 else 0
    if m.x = 0 then a + b + BitVec.ofNat 32 k else if 2 ^ 32 ≤ a.toNat + b.toNat + k then 1 else 0) ∧
  (∀ o, WritesWord (.subb o) fun m a b c =>
    let k := if c.getLsbD 0 then 1 else 0
    if m.x = 0 then a - b - BitVec.ofNat 32 k else if a.toNat < b.toNat + k then 1 else 0) ∧
  (∀ o, WritesWord (.mulh o) fun _ a b _ => BitVec.ofInt 32 (a.toInt * b.toInt / 2 ^ 32)) ∧
  (∀ o, WritesWord (.mulhz o) fun _ a b _ => BitVec.ofNat 32 (a.toNat * b.toNat / 2 ^ 32)) ∧
  (∀ o, WritesWord (.abs o) fun m a _ _ =>
    if m.sat ∧ a = 0x80000000 then 0x7FFFFFFF else if a.toInt < 0 then -a else a) ∧
  (∀ o, WritesWord (.neg o) fun m a _ _ => if m.sat ∧ a = 0x80000000 then 0x7FFFFFFF else -a)

/-- R121, R122: the lesser and the greater operand, and division with its borderline operands. -/
def Obligations.MinMaxDivideResults : Prop :=
  (∀ o, WritesWord (.min o) fun _ a b _ => if a.toInt ≤ b.toInt then a else b) ∧
  (∀ o, WritesWord (.max o) fun _ a b _ => if a.toInt ≤ b.toInt then b else a) ∧
  (∀ o, WritesWord (.minz o) fun _ a b _ => if a.toNat ≤ b.toNat then a else b) ∧
  (∀ o, WritesWord (.maxz o) fun _ a b _ => if a.toNat ≤ b.toNat then b else a) ∧
  (∀ o, WritesWord (.div o) fun _ a b _ =>
    if b = 0 then 0xFFFFFFFF else if a = 0x80000000 ∧ b = 0xFFFFFFFF then 0x80000000
    else BitVec.ofInt 32 (a.toInt.tdiv b.toInt)) ∧
  (∀ o, WritesWord (.rem o) fun _ a b _ =>
    if b = 0 then a else if a = 0x80000000 ∧ b = 0xFFFFFFFF then 0
    else BitVec.ofInt 32 (a.toInt - a.toInt.tdiv b.toInt * b.toInt)) ∧
  (∀ o, WritesWord (.divz o) fun _ a b _ => if b = 0 then 0xFFFFFFFF else a / b) ∧
  (∀ o, WritesWord (.remz o) fun _ a b _ => if b = 0 then a else a % b)

/-- R123, R124, R128: the bitwise instructions with their imm7 forms, sel, and shifts and rol by the count b[4:0], with their
imm7 forms. -/
def Obligations.LogicShiftAndSelectResults : Prop :=
  (∀ o, WritesWord (.and o) fun _ a b _ => a &&& b) ∧ (∀ o, WritesWord (.andImm7 o) fun _ a b _ => a &&& b) ∧
  (∀ o, WritesWord (.or o) fun _ a b _ => a ||| b) ∧ (∀ o, WritesWord (.orImm7 o) fun _ a b _ => a ||| b) ∧
  (∀ o, WritesWord (.xor o) fun _ a b _ => a ^^^ b) ∧ (∀ o, WritesWord (.andn o) fun _ a b _ => a &&& ~~~b) ∧
  (∀ o, WritesWord (.not o) fun _ a _ _ => ~~~a) ∧
  (∀ o, WritesWord (.sel o) fun _ a b c => if c.getLsbD 0 then a else b) ∧
  (∀ o, WritesWord (.shl o) fun _ a b _ => a <<< (b.toNat % 32)) ∧
  (∀ o, WritesWord (.shlImm7 o) fun _ a b _ => a <<< (b.toNat % 32)) ∧
  (∀ o, WritesWord (.shr o) fun _ a b _ => a >>> (b.toNat % 32)) ∧
  (∀ o, WritesWord (.shrImm7 o) fun _ a b _ => a >>> (b.toNat % 32)) ∧
  (∀ o, WritesWord (.sar o) fun _ a b _ => a.sshiftRight (b.toNat % 32)) ∧
  (∀ o, WritesWord (.sarImm7 o) fun _ a b _ => a.sshiftRight (b.toNat % 32)) ∧
  (∀ o, WritesWord (.rol o) fun _ a b _ => a <<< (b.toNat % 32) ||| a >>> (32 - b.toNat % 32))

/-- R125, R126: the bit counts by the position of the highest and the lowest 1, the reversal and the bit fields, each by
the bits of its result. -/
def Obligations.BitCountAndFieldResults : Prop :=
  (∃ n : Word → Word, (∀ a, (a = 0 → n a = 32) ∧ ∀ k, k < 32 → a.getLsbD k = true →
      (∀ j, k < j → j < 32 → a.getLsbD j = false) → (n a).toNat = 31 - k) ∧
    ∀ o, WritesWord (.clz o) fun _ a _ _ => n a) ∧
  (∃ n : Word → Word, (∀ a, (a = 0 → n a = 32) ∧ ∀ k, k < 32 → a.getLsbD k = true →
      (∀ j, j < k → a.getLsbD j = false) → (n a).toNat = k) ∧
    ∀ o, WritesWord (.ctz o) fun _ a _ _ => n a) ∧
  (∃ n : Word → Word, (∀ a, (n a).toNat = ((List.range 32).filter fun k => a.getLsbD k).length) ∧
    ∀ o, WritesWord (.popc o) fun _ a _ _ => n a) ∧
  (∃ n : Word → Word, (∀ a i, i < 32 → (n a).getLsbD i = a.getLsbD (31 - i)) ∧
    ∀ o, WritesWord (.brev o) fun _ a _ _ => n a) ∧
  (∃ n : Word → Word → Word, (∀ a b i, i < 32 → (n a b).getLsbD i =
      (decide (0 < fieldLen b) && a.getLsbD (fieldPos b + min i (fieldLen b - 1)))) ∧
    ∀ o, WritesWord (.bfx o) fun _ a b _ => n a b) ∧
  (∃ n : Word → Word → Word, (∀ a b i, i < 32 → (n a b).getLsbD i =
      (decide (i < fieldLen b) && a.getLsbD (fieldPos b + i))) ∧
    ∀ o, WritesWord (.bfxz o) fun _ a b _ => n a b) ∧
  (∃ n : Word → Word → Word → Word, (∀ a b c i, i < 32 → (n a b c).getLsbD i =
      if fieldPos b ≤ i ∧ i < fieldPos b + fieldLen b then a.getLsbD (i - fieldPos b) else c.getLsbD i) ∧
    ∀ o, WritesWord (.bfi o) fun _ a b c => n a b c)

/-- R127, Table 5-3: the signed and unsigned compares and their imm7 forms write 1 where the condition holds and else 0. -/
def Obligations.CompareResults : Prop :=
  ∃ signed unsigned : BitVec 3 → Word → Word → Word,
    (∀ a b, signed 0 a b = (if a = b then 1 else 0) ∧ signed 1 a b = (if a ≠ b then 1 else 0) ∧
      signed 2 a b = (if a.toInt < b.toInt then 1 else 0) ∧ signed 3 a b = (if a.toInt ≤ b.toInt then 1 else 0) ∧
      signed 4 a b = (if b.toInt < a.toInt then 1 else 0) ∧ signed 5 a b = (if b.toInt ≤ a.toInt then 1 else 0)) ∧
    (∀ a b, unsigned 0 a b = (if a = b then 1 else 0) ∧ unsigned 1 a b = (if a ≠ b then 1 else 0) ∧
      unsigned 2 a b = (if a.toNat < b.toNat then 1 else 0) ∧ unsigned 3 a b = (if a.toNat ≤ b.toNat then 1 else 0) ∧
      unsigned 4 a b = (if b.toNat < a.toNat then 1 else 0) ∧ unsigned 5 a b = (if b.toNat ≤ a.toNat then 1 else 0)) ∧
    (∀ o, WritesWord (.cmp o) fun m a b _ => signed m.x a b) ∧
    (∀ o, WritesWord (.cmpImm7 o) fun m a b _ => signed m.x a b) ∧
    (∀ o, WritesWord (.cmpz o) fun m a b _ => unsigned m.x a b) ∧
    (∀ o, WritesWord (.cmpzImm7 o) fun m a b _ => unsigned m.x a b)

/-- R129 to R131, R134, R135, R141: pairs added, subtracted, multiplied and shifted, and lea; mov and mov.d, movi, and arm, which
marks its register empty for a remote store. -/
def Obligations.PairAddressAndMovementResults : Prop :=
  (∀ o, WritesPair (.add64 o) fun v t => t.a64 v + t.b64 v) ∧
  (∀ o, WritesPair (.sub64 o) fun v t => t.a64 v - t.b64 v) ∧
  (∀ o, WritesPair (.mul64 o) fun v t => t.a64 v * t.b64 v) ∧
  (∀ o, WritesPair (.shl64 o) fun v t => t.a64 v <<< ((t.b32 v).toNat % 64)) ∧
  (∀ o, WritesPair (.shr64 o) fun v t => t.a64 v >>> ((t.b32 v).toNat % 64)) ∧
  (∀ o, WritesPair (.lea o) fun v t =>
    t.a64 v + ((if v.tail.hasLit then v.tail.literal else BitVec.ofNat 64 (t.reg v.b.toNat).toNat) <<< v.tail.modifier.x.toNat)) ∧
  (∀ o s x v, Ready s (.mov o) x v → CompletesLanes s (.mov o) x v fun t =>
    if v.tail.modifier.x = 1 then t.setPair v.d.toNat (t.a64 v) else t.setReg v.d.toNat (t.a32 v)) ∧
  (∀ o s x v, Ready s (.movi o) x v → CompletesLanes s (.movi o) x v fun t =>
    t.setReg v.d.toNat (if v.tail.hasLit then BitVec.ofNat 32 v.tail.literal.toNat else BitVec.ofInt 32 v.imm14.toInt)) ∧
  (∀ o s x v, Ready s (.arm o) x v → CompletesLanes s (.arm o) x v fun t => t.mark v.d.toNat .armed)

/-- R132, R133: each half of a packed result from the same halves of a and b, and dot4. That dot4 reads c as signed in every form is the
model's choice (log entry 83). -/
def Obligations.PackedResults : Prop :=
  ∃ add sub min max : Modifier → Half → Half → Half, ∃ cmp : BitVec 3 → Half → Half → Half,
    (∀ m a b, m.sat = false → add m a b = a + b ∧ sub m a b = a - b) ∧
    (∀ m a b, m.sat = true → m.x.getLsbD 0 = false →
      (add m a b).toInt = Max.max (-32768) (Min.min (a.toInt + b.toInt) 32767) ∧
      (sub m a b).toInt = Max.max (-32768) (Min.min (a.toInt - b.toInt) 32767)) ∧
    (∀ m a b, m.sat = true → m.x.getLsbD 0 = true →
      (add m a b).toNat = Min.min (a.toNat + b.toNat) 65535 ∧ (sub m a b).toNat = a.toNat - b.toNat) ∧
    (∀ m a b, m.x.getLsbD 0 = false → (min m a b).toInt = Min.min a.toInt b.toInt ∧
      (max m a b).toInt = Max.max a.toInt b.toInt) ∧
    (∀ m a b, m.x.getLsbD 0 = true → (min m a b).toNat = Min.min a.toNat b.toNat ∧
      (max m a b).toNat = Max.max a.toNat b.toNat) ∧
    (∀ a b, cmp 0 a b = (if a = b then 0xFFFF else 0) ∧ cmp 1 a b = (if a ≠ b then 0xFFFF else 0) ∧
      cmp 2 a b = (if a.toInt < b.toInt then 0xFFFF else 0) ∧ cmp 3 a b = (if a.toInt ≤ b.toInt then 0xFFFF else 0) ∧
      cmp 4 a b = (if a.toNat < b.toNat then 0xFFFF else 0) ∧ cmp 5 a b = (if a.toNat ≤ b.toNat then 0xFFFF else 0)) ∧
    (∀ o, WritesWord (.add2 o) fun m a b _ => packedHalves (add m) a b) ∧
    (∀ o, WritesWord (.sub2 o) fun m a b _ => packedHalves (sub m) a b) ∧
    (∀ o, WritesWord (.min2 o) fun m a b _ => packedHalves (min m) a b) ∧
    (∀ o, WritesWord (.max2 o) fun m a b _ => packedHalves (max m) a b) ∧
    (∀ o, WritesWord (.cmp2 o) fun m a b _ => packedHalves (cmp m.x) a b) ∧
    (∀ o, WritesWord (.dot4 o) fun m a b c =>
      let sum := c.toInt + byteProduct m a b 0 + byteProduct m a b 1 + byteProduct m a b 2 + byteProduct m a b 3
      if m.sat then clampSigned sum else BitVec.ofInt 32 sum)

/-! ## Special registers and vote -/

/-- R60 to R65, R136, R137, Tables 3-1 to 3-5 and 12-1: getsr writes the register's value, whole for a 64-bit one; setsr writes each lane's own
register and, of a group register, the lowest lane's value. Of every register what it reads, on compute and control cores;
of the written ones which bits are kept, and that reserved bits stay 0. -/
def Obligations.SpecialRegisterMoves : Prop :=
  (∀ o s x v, Ready s (.getsr o) x v → CompletesLanes s (.getsr o) x v fun t =>
    if v.number = 0x002 ∨ v.number = 0x00C ∨ v.number = 0x00E then t.setPair v.d.toNat (s.specialRead x.group t v.number)
    else t.setReg v.d.toNat ((s.specialRead x.group t v.number).extractLsb' 0 32)) ∧
  (∀ o s x v, Ready s (.setsr o) x v →
    CompletesWith s (.setsr o) x v (fun t => t.specialWrite v.number (t.d32 v)) (fun _ => none) fun s1 =>
      match x.active v with
      | [] => s1
      | t :: _ => s1.modGroup x.group.gid fun g => g.specialWrite v.number (t.d32 v)) ∧
  (∀ (s : State) g t, g.control = none →
    s.specialRead g t 0x000 = BitVec.ofNat 64 t.lane ∧ s.specialRead g t 0x001 = BitVec.ofNat 64 (t.lane / 4) ∧
    s.specialRead g t 0x00A = BitVec.ofNat 64 g.place.die ∧ s.specialRead g t 0x00B = BitVec.ofNat 64 g.place.core ∧
    s.specialRead g t 0x00C = g.name) ∧
  (∀ (s : State) g t k, g.control = some k → s.specialRead g t 0x000 = 0 ∧ s.specialRead g t 0x001 = 0 ∧
    s.specialRead g t 0x00A = 0xFFFFFFFF ∧ s.specialRead g t 0x00B = 0xFFFFFFFF ∧ s.specialRead g t 0x00C = 0) ∧
  (∀ (s : State) g t, s.specialRead g t 0x002 = t.wid ∧
    s.specialRead g t 0x010 = t.fpctl.zeroExtend 64 ∧ s.specialRead g t 0x011 = t.fpflags.zeroExtend 64 ∧
    s.specialRead g t 0x012 = g.terr.zeroExtend 64 ∧ s.specialRead g t 0x013 = g.ovr.zeroExtend 64 ∧
    (∀ k w, g.tshape[k]? = some w → k < 8 → s.specialRead g t (0x018 + k) = w.zeroExtend 64) ∧
    ((∀ l ∈ s.launches, l.lid = g.lid → l.header.ctl.getLsbD 8 = false) → s.specialRead g t 0x00E = BitVec.ofNat 64 s.clock) ∧
    (∀ l, (s.launches.find? fun l => l.lid = g.lid && l.header.ctl.getLsbD 8) = some l →
      s.specialRead g t 0x00E = BitVec.ofNat 64 l.retired) ∧
    ∀ k, k < 6 →
      let width := fun i => g.widWord.toNat / 2 ^ (8 * i) % 128
      let below := ((List.range k).map width).sum
      s.specialRead g t (0x004 + k) = if k < g.widWord.toNat / 2 ^ 48 % 8
        then BitVec.ofNat 64 (t.wid.toNat / 2 ^ below % 2 ^ width k % 2 ^ 32) else 0) ∧
  (∀ (t : Thread) (w : Word),
    let y := t.specialWrite 0x010 w
    y.fpctl.extractLsb' 8 5 = w.extractLsb' 8 5 ∧ y.fpctl.extractLsb' 3 5 = 0 ∧ y.fpctl.extractLsb' 13 19 = 0 ∧
    y.fpctl.extractLsb' 0 3 = (if (w.extractLsb' 0 3).toNat < 5 then w.extractLsb' 0 3 else t.fpctl.extractLsb' 0 3) ∧
    y = { t with fpctl := y.fpctl } ∧ t.specialWrite 0x011 w = { t with fpflags := w &&& 0x1F } ∧
    ∀ n, n ≠ 0x010 → n ≠ 0x011 → t.specialWrite n w = t) ∧
  (∀ (g : Group) (w : Word), g.specialWrite 0x013 w = { g with ovr := g.ovr &&& ~~~(w &&& 1) } ∧
    g.specialWrite 0x012 w = { g with terr := g.terr &&& ~~~(w &&& 0xC0000000) } ∧
    (∀ k, k < 8 → g.specialWrite (0x018 + k) w = { g with tshape := g.tshape.set k (w &&& 0x03FFFF03) }) ∧
    ∀ n, n < 0x012 → g.specialWrite n w = g)

/-- R140, Table 5-6: vote gives every active lane one result, computed from the positions and the operands a of the active
lanes of its set. -/
def Obligations.VoteResults : Prop :=
  (∀ o s x v, Ready s (.vote o) x v → CompletesLanes s (.vote o) x v fun t =>
    t.setReg v.d.toNat (voteResult v.tail.modifier.x ((x.active v).map fun t => (t.lane, t.a32 v)))) ∧
  (∀ ls, voteResult 0 ls = if ∃ l ∈ ls, l.2.getLsbD 0 = true then 1 else 0) ∧
  (∀ ls, voteResult 1 ls = if ∀ l ∈ ls, l.2.getLsbD 0 = true then 1 else 0) ∧
  (∀ ls p, p < 32 → ((voteResult 2 ls).getLsbD p = true ↔ ∃ l ∈ ls, l.1 = p ∧ l.2.getLsbD 0 = true)) ∧
  (∀ ls, voteResult 3 ls = BitVec.ofNat 32 (ls.filter fun l => l.2.getLsbD 0).length) ∧
  (∀ ls, voteResult 4 ls = if ∀ l ∈ ls, ∀ k ∈ ls, l.2 = k.2 then 1 else 0) ∧
  (∀ ls, voteResult 5 ls = match ls.find? fun l => l.2.getLsbD 0 with
    | some l => BitVec.ofNat 32 l.1
    | none => 0xFFFFFFFF) ∧
  (∀ ls, voteResult 6 ls = match ls.reverse.find? fun l => l.2.getLsbD 0 with
    | some l => BitVec.ofNat 32 l.1
    | none => 0xFFFFFFFF)

/-! ## Floating point -/

/-- R163 to R171: the floating-point instructions element by element, each by the function of its element that
ArithmeticRoundsExactly and ConversionsRoundExactly pin, in the lane's rounding mode, with their exceptions set in
sr.fpflags, where no enabled exception is raised: arithmetic of each type; classes, rounding to integers, division, roots, the
transcendental functions, scaling and exponents for the type that X gives (`EachFloatForm` lists the forms). A dynamic RM under a code that
only an edited save area puts into sr.fpctl is the model's choice (log entry 81). And what minimumNumber and maximumNumber, the compares
(Table 7-3), the classes (Table 7-4) and the exponents give, NaNs, infinities and signed zeros included. -/
def Obligations.FloatResults : Prop :=
  EachFloatForm WritesFp ∧
  (∀ (y : FpType) greater a b,
    let f := typeFormat y
    let u := f.unpack a
    let w := f.unpack b
    let r := f.minmax greater a b
    r.2 = (if u.snan = true ∨ w.snan = true then flagNV else 0) ∧
    (u.isNan = true → w.isNan = true → r.1 = f.nan) ∧ (u.isNan = true → w.isNan = false → r.1 = b) ∧
    (u.isNan = false → w.isNan = true → r.1 = a) ∧
    (u.isNan = false → w.isNan = false →
      (u.order w < 0 ∨ u.order w = 0 ∧ u.negative = true ∧ w.negative = false → r.1 = if greater then b else a) ∧
      (0 < u.order w ∨ u.order w = 0 ∧ u.negative = false ∧ w.negative = true → r.1 = if greater then a else b) ∧
      (u.order w = 0 → u.negative = w.negative → r.1 = a ∨ r.1 = b))) ∧
  (∀ a b : FVal,
    (a.isNan = false → b.isNan = false → ∀ x : BitVec 3, (fcmpHolds x a b).1 = match x.toNat with
      | 0 => decide (a.order b = 0)
      | 1 => decide (a.order b ≠ 0)
      | 2 => decide (a.order b < 0)
      | 3 => decide (a.order b ≤ 0)
      | 4 => decide (0 < a.order b)
      | 5 => decide (0 ≤ a.order b)
      | 6 => false
      | _ => true) ∧
    (a.isNan = true ∨ b.isNan = true → ∀ x : BitVec 3, (fcmpHolds x a b).1 = decide (x = 1 ∨ x = 6)) ∧
    ∀ x : BitVec 3, (fcmpHolds x a b).2 = true ↔
      a.snan = true ∨ b.snan = true ∨ (a.isNan = true ∨ b.isNan = true) ∧ 2 ≤ x.toNat ∧ x.toNat ≤ 5) ∧
  (∀ (y : FpType) h, fcmpBits y h = if h = false then 0 else if y = .f32 ∨ y = .f64 then 1 else 0xFFFF) ∧
  (∀ (y : FpType) x, x < 2 ^ y.width →
    let f := typeFormat y
    let c := x % f.signBit
    let pick := fun (neg pos : Nat) => if f.signBit ≤ x then 2 ^ neg else 2 ^ pos
    f.classify x = if f.infBits < c then (if c.testBit (f.fb - 1) then 2 ^ 9 else 2 ^ 8) else if c = f.infBits then pick 0 7
      else if 2 ^ f.fb ≤ c then pick 1 6 else if c = 0 then pick 3 4 else pick 2 5) ∧
  (∀ n m e, (m = 0 → (FVal.fin n m e).frexp = some 0) ∧
    (m ≠ 0 → ∃ j, (FVal.fin n m e).frexp = some j ∧ ∀ k : Nat, 0 ≤ e + k → 0 < j + k ∧
      2 ^ (j + k - 1).toNat ≤ m * 2 ^ (e + k).toNat ∧ m * 2 ^ (e + k).toNat < 2 ^ (j + k).toNat)) ∧
  (∀ b, (FVal.inf b).frexp = none ∧ (FVal.nan b).frexp = none) ∧
  (∀ w v, intBits w v < 2 ^ w ∧ ((intBits w v : Int) - v) % 2 ^ w = 0)

/-- R172 to R175, with the rounding that ConversionsRoundExactly pins: cvt reads its element of a at the source descriptor's position,
converts it, and writes it at the destination descriptor's position of d, whose other bits it keeps. -/
def Obligations.ConversionResults : Prop :=
  ∀ o s x v sf df, Ready s (.cvt o) x v → numFormat (descCode v.tail.modifier.c) = some sf →
    numFormat (descCode v.b) = some df →
    (∀ t ∈ x.active v, flagWord (t.converted v sf df).2 &&& t.fpEnables = 0) →
    CompletesLanes s (.cvt o) x v fun t => t.withConverted v sf df

/-- R90 to R96, R163, R168, R169, Tables 4-2 and 7-5: sums, products, fused products, quotients, square roots and reciprocal square
roots of finite values are the exact result rounded once, with the exceptions of Table 4-2, in every format and rounding mode;
and what NaNs, infinities and zeros give. -/
def Obligations.ArithmeticRoundsExactly : Prop :=
  ∀ (y : FpType) (md : Mode),
    let f := typeFormat y
    (∀ a b k, FVal.fits a k → FVal.fits b k →
      let sum := a.scaled k + b.scaled k
      let neg := a.negative != b.negative
      (sum ≠ 0 → RoundsExactly f md (sum < 0) (f.ratio sum.natAbs (2 ^ k)) (f.add md a b)) ∧
      (sum = 0 → f.add md a b = (f.zero (if a.negative = b.negative then a.negative else md.rm = 2), 0)) ∧
      (a.scaled k * b.scaled k ≠ 0 →
        RoundsExactly f md neg (f.ratio (a.scaled k * b.scaled k).natAbs (4 ^ k)) (f.mul md a b) ∧
        RoundsExactly f md neg (f.ratio (a.scaled k).natAbs (b.scaled k).natAbs) (f.div md a b)) ∧
      (a.scaled k * b.scaled k = 0 → f.mul md a b = (f.zero neg, 0)) ∧
      (a.scaled k = 0 → b.scaled k ≠ 0 → f.div md a b = (f.zero neg, 0)) ∧
      (a.scaled k ≠ 0 → b.scaled k = 0 → f.div md a b = (f.inf neg, flagDZ)) ∧
      (a.scaled k = 0 → b.scaled k = 0 → f.div md a b = (f.nan, flagNV)) ∧
      ∀ c, FVal.fits c (2 * k) →
        let sum := a.scaled k * b.scaled k + c.scaled (2 * k)
        (sum ≠ 0 → RoundsExactly f md (sum < 0) (f.ratio sum.natAbs (4 ^ k)) (f.fma md a b c)) ∧
        (sum = 0 → f.fma md a b c = (f.zero (if neg = c.negative then c.negative else md.rm = 2), 0))) ∧
    (∀ a k, FVal.fits a k →
      (0 < a.scaled k → RoundsExactly f md false (f.root (a.scaled k).natAbs (2 ^ k)) (f.sqrt md a) ∧
        RoundsExactly f md false (f.root (2 ^ k) (a.scaled k).natAbs) (f.rsqrt md a)) ∧
      (a.scaled k = 0 → f.sqrt md a = (f.zero a.negative, 0) ∧ f.rsqrt md a = (f.inf a.negative, flagDZ)) ∧
      (a.scaled k < 0 → f.sqrt md a = (f.nan, flagNV) ∧ f.rsqrt md a = (f.nan, flagNV))) ∧
    (∀ a b, a.isNan = true ∨ b.isNan = true →
      let nan := (f.nan, if a.snan || b.snan then flagNV else 0)
      f.add md a b = nan ∧ f.mul md a b = nan ∧ f.div md a b = nan) ∧
    (∀ a b c, a.isNan = true ∨ b.isNan = true ∨ c.isNan = true ∧ a.product b ≠ none →
      f.fma md a b c = (f.nan, if a.snan || b.snan || c.snan then flagNV else 0)) ∧
    (∀ n m a, a.isNan = false →
      f.add md (.inf n) (.inf m) = (if n = m then (f.inf n, 0) else (f.nan, flagNV)) ∧
      f.div md (.inf n) (.inf m) = (f.nan, flagNV) ∧ f.mul md (.inf n) (.inf m) = (f.inf (n != m), 0) ∧
      ∀ k, FVal.fits a k →
        f.add md (.inf n) a = (f.inf n, 0) ∧ f.add md a (.inf n) = (f.inf n, 0) ∧
        f.div md (.inf n) a = (f.inf (n != a.negative), 0) ∧ f.div md a (.inf n) = (f.zero (a.negative != n), 0) ∧
        (a.scaled k = 0 → ∀ c, f.mul md (.inf n) a = (f.nan, flagNV) ∧ f.mul md a (.inf n) = (f.nan, flagNV) ∧
          f.fma md (.inf n) a c = (f.nan, flagNV) ∧ f.fma md a (.inf n) c = (f.nan, flagNV)) ∧
        (a.scaled k ≠ 0 → f.mul md (.inf n) a = (f.inf (n != a.negative), 0) ∧
          f.mul md a (.inf n) = (f.inf (a.negative != n), 0))) ∧
    (∀ n m a b c k, FVal.fits a k → FVal.fits b k → FVal.isNan c = false →
      let plus := fun (p : Bool) => match c with
        | .inf r => if r = p then (f.inf p, 0) else (f.nan, flagNV)
        | _ => (f.inf p, 0)
      f.fma md a b (.inf n) = (f.inf n, 0) ∧ f.fma md (.inf n) (.inf m) c = plus (n != m) ∧
      (a.scaled k ≠ 0 → f.fma md (.inf n) a c = plus (n != a.negative) ∧ f.fma md a (.inf n) c = plus (a.negative != n))) ∧
    f.sqrt md (.inf false) = (f.inf false, 0) ∧ f.rsqrt md (.inf false) = (f.zero false, 0) ∧
    f.sqrt md (.inf true) = (f.nan, flagNV) ∧ f.rsqrt md (.inf true) = (f.nan, flagNV) ∧
    ∀ s, f.sqrt md (.nan s) = (f.nan, if s then flagNV else 0) ∧ f.rsqrt md (.nan s) = (f.nan, if s then flagNV else 0)

/-- R89, R91, R98 to R104, R163, R167, R169 to R172, Tables 4-1, 4-3, 4-5, 7-3 and 7-5: what a format's bits stand for; conversions
to binary formats, to integers and to dm8 round the exact value of the source's element, and what they make of NaNs, infinities and
zeros; rounding to an integer, scaling, and the order of compares; and the function instructions on operands whose results are exact,
on infinities and on NaNs. Their other results are the model's own computation (log entry 8). -/
def Obligations.ConversionsRoundExactly : Prop :=
  (∀ (y : FpType) x, x < 2 ^ y.width →
    let f := typeFormat y
    let c := x % f.signBit
    let neg := decide (f.signBit ≤ x)
    (c < f.infBits → ∃ m e, f.unpack x = .fin neg m e ∧ f.qmin ≤ e ∧ m * 2 ^ (e - f.qmin).toNat = f.magnitude c) ∧
    (c = f.infBits → f.unpack x = .inf neg) ∧
    (f.infBits < c → f.unpack x = .nan (!c.testBit (f.fb - 1)))) ∧
  (∀ (y : FpType) md neg n d, 0 < n → 0 < d →
    RoundsExactly (typeFormat y) md neg ((typeFormat y).ratio n d) ((typeFormat y).fromExact md (.num neg n d))) ∧
  (∀ rm signed w neg n d, 0 < w → 0 < d → ∃ k, IntegerRounds rm neg n d k ∧
    let v : Int := if neg then -(k : Int) else k
    let lo : Int := if signed then -(2 ^ (w - 1)) else 0
    let hi : Int := if signed then 2 ^ (w - 1) - 1 else 2 ^ w - 1
    (v < lo → toInteger rm signed w (.num neg n d) = ((lo.emod (2 ^ w)).toNat, flagNV)) ∧
    (hi < v → toInteger rm signed w (.num neg n d) = ((hi.emod (2 ^ w)).toNat, flagNV)) ∧
    (lo ≤ v → v ≤ hi → toInteger rm signed w (.num neg n d) = ((v.emod (2 ^ w)).toNat, if n % d = 0 then 0 else flagNX))) ∧
  (∀ n d, 0 < d →
    let value := fun (c : Nat) => if c = 0 then (0, 1) else dm8Magnitude c
    let dist := fun (c : Nat) => (((n * (value c).2 : Nat) : Int) - ((value c).1 * d : Nat)).natAbs
    let best := dm8Nearest n d
    best < 127 ∧ ∀ c, c < 127 → dist best * (value c).2 ≤ dist c * (value best).2 ∧
      (dist best * (value c).2 = dist c * (value best).2 → c ≠ best → best % 2 = 0)) ∧
  (∀ row ∈ ([(1, 0x00, 0x1F, 0, 5), (1, 0x20, 0x2F, 1, 4), (1, 0x30, 0x33, 2, 2), (1, 0x34, 0x37, 3, 2), (1, 0x38, 0x39, 4, 1),
      (1, 0x3A, 0x3B, 5, 1), (1, 0x3C, 0x3C, 6, 0), (1, 0x3D, 0x3D, 7, 0), (1, 0x3E, 0x3E, 8, 0), (0, 0x20, 0x3F, -1, 5),
      (0, 0x10, 0x1F, -2, 4), (0, 0x0C, 0x0F, -3, 2), (0, 0x08, 0x0B, -4, 2), (0, 0x06, 0x07, -5, 1), (0, 0x04, 0x05, -6, 1),
      (0, 0x03, 0x03, -7, 0), (0, 0x02, 0x02, -8, 0), (0, 0x01, 0x01, -9, 0)] : List (Nat × Nat × Nat × Int × Nat)),
    ∀ q, row.2.1 ≤ q → q ≤ row.2.2.1 →
      let p := dm8Magnitude (64 * row.1 + q)
      let D := row.2.2.2.1
      let n := row.2.2.2.2
      0 < p.2 ∧ p.1 * 2 ^ n * 10 ^ (-D).toNat = (2 ^ n + 9 * (q % 2 ^ n)) * p.2 * 10 ^ D.toNat) ∧
  (∀ inf neg n d, 0 < n → 0 < d →
    let sign := if neg then 0x80 else 0
    let best := dm8Nearest n d
    let value := if best = 0 then (0, 1) else dm8Magnitude best
    (10 ^ 8 * d < n → dm8Encode inf (.num neg n d) = (sign + (if inf then 0x7F else 0x7E), flagOF + flagNX)) ∧
    (n ≤ 10 ^ 8 * d → dm8Encode inf (.num neg n d) = (if best = 0 then 0 else sign + best,
      if n * 10 ^ 9 < d then flagUF + flagNX else if n * value.2 = value.1 * d then 0 else flagNX))) ∧
  (∀ inf neg d s, dm8Encode inf (.num neg 0 d) = (0, 0) ∧ dm8Encode inf (.inf neg) = (if neg then 0xFF else 0x7F, 0) ∧
    dm8Encode inf (.nan s) = (0x80, if s then flagNV else 0)) ∧
  (∀ (y : FpType) md neg d s, let f := typeFormat y
    f.fromExact md (.num neg 0 d) = (f.zero neg, 0) ∧ f.fromExact md (.inf neg) = (f.inf neg, 0) ∧
    f.fromExact md (.nan s) = (f.nan, if s then flagNV else 0)) ∧
  (∀ rm signed w neg s,
    let lo : Int := if signed then -(2 ^ (w - 1)) else 0
    let hi : Int := if signed then 2 ^ (w - 1) - 1 else 2 ^ w - 1
    toInteger rm signed w (.nan s) = (0, flagNV) ∧
    toInteger rm signed w (.inf neg) = (((if neg then lo else hi).emod (2 ^ w)).toNat, flagNV)) ∧
  (binaryOf .f64 = some (typeFormat .f64) ∧ binaryOf .f32 = some (typeFormat .f32) ∧ binaryOf .h16 = some (typeFormat .h2) ∧
    binaryOf .bf16 = some (typeFormat .bh2)) ∧
  (∀ sf f x, binaryOf sf = some f → match f.unpack x with
    | .nan s => exactOf sf x = .nan s
    | .inf neg => exactOf sf x = .inf neg
    | .fin neg m e => ∃ n d, exactOf sf x = .num neg n d ∧ 0 < d ∧ n * 2 ^ (-e).toNat = m * 2 ^ e.toNat * d) ∧
  (∀ s w (x : Nat), 0 < w → x < 2 ^ w →
    let v : Int := if s = true ∧ 2 ^ (w - 1) ≤ x then (x : Int) - 2 ^ w else x
    readInt s w x = v ∧ exactOf (.int s w) x = .num (v < 0) v.natAbs 1) ∧
  (∀ x, x < 256 →
    let neg := decide (128 ≤ x)
    let c := x % 128
    exactOf .dm8 x = if c = 0 then (if neg then .nan false else .num false 0 1) else if c = 127 then .inf neg
      else .num neg (dm8Magnitude c).1 (dm8Magnitude c).2) ∧
  (dm8Encode false (.num false 73 64) = (0x40, flagNX) ∧ dm8Encode false (.num false 631 64) = (0x60, flagNX) ∧
    dm8Encode false (.num true 41 320) = (0xA1, 0) ∧ dm8Encode false (.num false (3 * 10 ^ 8) 1) = (0x7E, flagOF + flagNX) ∧
    dm8Encode true (.num false (3 * 10 ^ 8) 1) = (0x7F, flagOF + flagNX) ∧
    dm8Encode false (.num false 6 (10 ^ 10)) = (0x01, flagUF + flagNX)) ∧
  (∀ sf df md inf x,
    (sf = .dm8 → df = .dm8 → convert sf df md inf x = (x, 0)) ∧
    (sf ≠ .dm8 → df = .dm8 → convert sf df md inf x = dm8Encode inf (exactOf sf x)) ∧
    (∀ f, binaryOf df = some f → convert sf df md inf x = f.fromExact md (exactOf sf x)) ∧
    (∀ s w, df = .int s w → (∀ s' w', sf ≠ .int s' w') → convert sf df md inf x = toInteger md.rm s w (exactOf sf x)) ∧
    (∀ s w s' w', sf = .int s w → df = .int s' w' → convert sf df md inf x =
      (intBits w' (if md.sat then limitInt (readInt s w x) (intRange s' w').1 (intRange s' w').2 else readInt s w x), 0))) ∧
  (∀ (y : FpType) rm x neg m e (k : Nat), x < 2 ^ y.width → (typeFormat y).unpack x = .fin neg m e → m ≠ 0 → 0 ≤ e + k →
    let f := typeFormat y
    (∃ j, IntegerRounds rm neg (m * 2 ^ (e + k).toNat) (2 ^ k) j ∧
      (j = 0 → f.rint rm (f.unpack x) = (f.zero neg, 0)) ∧
      (j ≠ 0 → ∃ c, c < f.infBits ∧ f.ratio j 1 (f.magnitude c) 1 = .eq ∧ f.rint rm (f.unpack x) = (f.zero neg + c, 0))) ∧
    ∀ n : Int, RoundsExactly f ⟨rm, false⟩ neg
      (f.ratio (m * 2 ^ (e + k).toNat * 2 ^ n.toNat) (2 ^ k * 2 ^ (-n).toNat)) (f.ldexp ⟨rm, false⟩ (f.unpack x) n)) ∧
  (∀ (y : FpType) md s neg e n, let f := typeFormat y
    f.rint md.rm (.nan s) = (f.nan, if s then flagNV else 0) ∧ f.rint md.rm (.inf neg) = (f.inf neg, 0) ∧
    f.rint md.rm (.fin neg 0 e) = (f.zero neg, 0) ∧ f.ldexp md (.nan s) n = (f.nan, if s then flagNV else 0) ∧
    f.ldexp md (.inf neg) n = (f.inf neg, 0) ∧ f.ldexp md (.fin neg 0 e) n = (f.zero neg, 0)) ∧
  (∀ a b k, FVal.fits a k → FVal.fits b k →
    a.order b = if a.scaled k < b.scaled k then -1 else if a.scaled k = b.scaled k then 0 else 1) ∧
  (∀ n m a k, FVal.fits a k → (FVal.inf n).order (.inf m) = (if n = m then 0 else if n then -1 else 1) ∧
    (FVal.inf n).order a = (if n then -1 else 1) ∧ a.order (.inf n) = if n then 1 else -1) ∧
  (∀ (y : FpType) md x neg, let f := typeFormat y
    (f.unpack x = .inf neg → f.exp2 md x = (if neg then f.zero false else f.inf false, 0) ∧
      f.log2 md x = (if neg then (f.nan, flagNV) else (f.inf false, 0)) ∧
      f.sincos md false x = (f.nan, flagNV) ∧ f.sincos md true x = (f.nan, flagNV)) ∧
    ∀ s, f.unpack x = .nan s → let nan := (f.nan, if s then flagNV else 0)
      f.exp2 md x = nan ∧ f.log2 md x = nan ∧ f.sincos md false x = nan ∧ f.sincos md true x = nan) ∧
  (∀ (y : FpType) md x neg m e, x < 2 ^ y.width → (typeFormat y).unpack x = .fin neg m e →
    let f := typeFormat y
    (∀ j : Nat, m = j * 2 ^ (-e).toNat → e ≤ 0 → RoundsExactly f md false
      (f.ratio (if neg then 1 else 2 ^ j) (if neg then 2 ^ j else 1)) (f.exp2 md x)) ∧
    (∀ j : Nat, m = 2 ^ j → neg = false →
      ((j : Int) + e = 0 → f.log2 md x = (0, 0)) ∧
      ((j : Int) + e ≠ 0 → RoundsExactly f md ((j : Int) + e < 0) (f.ratio ((j : Int) + e).natAbs 1) (f.log2 md x))) ∧
    (m = 0 → f.log2 md x = (f.inf true, flagDZ) ∧ f.sincos md false x = (f.zero neg, 0) ∧
      RoundsExactly f md false (f.ratio 1 1) (f.sincos md true x)) ∧
    (m ≠ 0 → neg = true → f.log2 md x = (f.nan, flagNV)))

/-! ## Control flow -/

/-- R25, R83, R143 to R146, R149, Table 6-2: br, brc, jmp and ret transfer each active lane to its target: the literal, or the word offset
from the program counter, or the pair a; nop and an entry word executed in sequence only advance the program counter; yield also ends
the stroke; a call whose entry check passes in every active lane writes the sequentially next program counter to v0:v1 and
transfers, and the read of the entry word is recorded in the context's mask (R391) and served (R387). A lane traps where the pair that it
jumps, calls or returns to is no instruction's address, and where its entry check fails; what the entry check says of each
word. That a stroke ends here exactly where a lane transfers, besides the ends that every instruction has, is said by `Ended`. -/
def Obligations.BranchesAndCalls : Prop :=
  (
    (∀ o s x v, Ready s (.br o) x v → CompletesWith s (.br o) x v id (fun _ => some
      (if v.tail.hasLit then BitVec.ofNat 56 v.tail.literal.toNat else x.pc + BitVec.ofInt 56 (4 * v.hi21.toInt))) id) ∧
    (∀ o s x v, Ready s (.brc o) x v → CompletesWith s (.brc o) x v id
      (fun t => if (t.d32 v).getLsbD 0 then some (match v.tail with
        | .lit l => BitVec.ofNat 56 l.toNat
        | .modLit _ l => x.pc + BitVec.ofInt 56 (4 * l.toInt)
        | .mod _ => x.pc + BitVec.ofInt 56 (4 * v.imm14.toInt)
        | .none => x.pc + BitVec.ofInt 56 (4 * v.imm14.toInt)) else none) id) ∧
    (∀ o s x v, Ready s (.jmp o) x v → (∀ t ∈ x.active v, (t.a64 v).toNat % 4 = 0 ∧ (t.a64 v).toNat < 2 ^ 56) →
      CompletesWith s (.jmp o) x v id (fun t => some (BitVec.ofNat 56 (t.a64 v).toNat)) id) ∧
    (∀ o s x v, Ready s (.ret o) x v → (∀ t ∈ x.active v, (t.a64 v).toNat % 4 = 0 ∧ (t.a64 v).toNat < 2 ^ 56) →
      CompletesWith s (.ret o) x v id (fun t => some (BitVec.ofNat 56 (t.a64 v).toNat)) id)
  ) ∧
  (
    (∀ o s x v, Ready s (.nop o) x v → CompletesLanes s (.nop o) x v id) ∧
    (∀ o s x v, Ready s (.entryWord o) x v → CompletesLanes s (.entryWord o) x v id) ∧
    (∀ o s x v, Ready s (.yield o) x v → CompletesLanes s (.yield o) x v id ∧
      ∀ T, exec (.yield o) s = .next T → ∀ k ∈ T.strokes, x.stroke.sameSlot k = false)
  ) ∧
  (
    (∀ o s x v,
      let target : Pc := if v.tail.hasLit then BitVec.ofNat 56 v.tail.literal.toNat else x.pc + BitVec.ofInt 56 (4 * v.hi21.toInt)
      Ready s (.call o) x v → (∀ t ∈ x.active v, s.checkEntry x.group t v.base target = .ok ()) →
      CompletesWith s (.call o) x v (fun t => t.setPair 0 ((v.next x.pc).zeroExtend 64)) (fun _ => some target)
        fun s1 => (x.active v).foldl (fun s1 t => s1.touchEntry x.group t target) s1) ∧
    (∀ o s x v,
      let target := fun (t : Thread) => BitVec.ofNat 56 (t.a64 v).toNat
      Ready s (.callr o) x v →
      (∀ t ∈ x.active v, (t.a64 v).toNat % 4 = 0 ∧ (t.a64 v).toNat < 2 ^ 56 ∧ s.checkEntry x.group t v.base (target t) = .ok ()) →
      CompletesWith s (.callr o) x v (fun t => t.setPair 0 ((v.next x.pc).zeroExtend 64)) (fun t => some (target t))
        fun s1 => (x.active v).foldl (fun s1 t => s1.touchEntry x.group t (target t)) s1)
  ) ∧
  (
    let aligned := fun (v : View) (t : Thread) => (t.a64 v).toNat % 4 = 0 ∧ (t.a64 v).toNat < 2 ^ 56
    let badPair := fun (v : View) (t : Thread) =>
      if (t.a64 v).toNat % 4 = 0 ∧ (t.a64 v).toNat < 2 ^ 56 then none else some { cause := .align, tval := t.a64 v }
    let near := fun (x : Issue) (v : View) => if v.tail.hasLit then BitVec.ofNat 56 v.tail.literal.toNat
      else x.pc + BitVec.ofInt 56 (4 * v.hi21.toInt)
    let far := fun (v : View) (t : Thread) => BitVec.ofNat 56 (t.a64 v).toNat
    let entry := fun (s : State) (x : Issue) (v : View) (t : Thread) (target : Pc) =>
      match s.checkEntry x.group t v.base target with
      | .error e => some e
      | .ok _ => none
    let badFar := fun s x v t => if aligned v t then entry s x v t (far v t) else badPair v t
    let link := fun (_ : State) (x : Issue) (v : View) (t : Thread) => t.setPair 0 ((v.next x.pc).zeroExtend 64)
    (∀ o, TrapsOnControl (.jmp o) (fun _ _ v t => badPair v t) ∧
      TrapsOnCompute (.jmp o) (fun _ _ => True) (fun _ _ v t => badPair v t) (fun _ _ _ t => t) fun _ v t => some (far v t)) ∧
    (∀ o, TrapsOnControl (.ret o) (fun _ _ v t => badPair v t) ∧
      TrapsOnCompute (.ret o) (fun _ _ => True) (fun _ _ v t => badPair v t) (fun _ _ _ t => t) fun _ v t => some (far v t)) ∧
    (∀ o, TrapsOnControl (.call o) (fun s x v t => entry s x v t (near x v)) ∧
      TrapsOnCompute (.call o) (fun s _ => s.tokensHome) (fun s x v t => entry s x v t (near x v)) link fun x v _ => some (near x v)) ∧
    (∀ o, TrapsOnControl (.callr o) badFar ∧
      TrapsOnCompute (.callr o) (fun s _ => s.tokensHome) badFar link fun _ v t => some (far v t))
  ) ∧
  (
    ∀ (s : State) (g : Group) (t : Thread) (base : Word) (target : Pc),
      let va := (target - 4).zeroExtend 64
      (∀ e, s.locate (whoOf g t) .fetch false va = .error e → s.checkEntry g t base target = .error e) ∧
      ∀ l, s.locate (whoOf g t) .fetch false va = .ok l →
        (s.poisoned .fetch false l 4 = true → s.checkEntry g t base target = .error (leveeTrap .fetch va l.home)) ∧
        (s.poisoned .fetch false l 4 = false →
          let w := natOfBytes (s.readLoc g.place.die l 4)
          let budget := w / 2 ^ 11 % 128 + 1
          let isEntry := w % 4 = 0 ∧ w / 8 % 256 = 0x81 ∧ w / 2 ^ 18 % 2 ^ 14 = 0
          (¬isEntry → s.checkEntry g t base target = .error { cause := .illop, tval := base.zeroExtend 64 }) ∧
          (isEntry → g.budget < budget → s.checkEntry g t base target =
            .error { cause := .regBudget, tval := target.zeroExtend 64, detail := BitVec.ofNat 32 budget }) ∧
          (isEntry → budget ≤ g.budget → s.checkEntry g t base target = .ok ()))
  )

/-- R32, R40, R41, R55, R147, R148, R150: reform files every active lane's thread into the bin of its next program counter on a compute
core and only advances on a control core; exit ends the threads, which then hold the state EXITED; bar only advances on a control
core, and on a compute core holds its lanes at the barrier, which ends their stroke (R25); where every live thread of the group is then
held at it, it completes: each goes on at the instruction after its bar, and each member's later accesses come after every
member's earlier ones that are not performed yet. -/
def Obligations.ReformExitAndBarrierComplete : Prop :=
  (
    (∀ o s x v, Ready s (.reform o) x v → x.group.control = none → CompletesWith s (.reform o) x v id (fun _ => none)
      fun s1 => (x.active v).foldl (fun s1 t => s1.fileThread x.group.gid t.gidx (v.next x.pc)) s1) ∧
    (∀ o s x v k, Ready s (.reform o) x v → x.group.control = some k → CompletesLanes s (.reform o) x v id) ∧
    (∀ o s x v, Ready s (.exit o) x v →
      CompletesWith s (.exit o) x v id (fun _ => none) (fun s1 => s1.exitThreads x.group.gid ((x.active v).map Thread.gidx)) ∧
      ∀ T, exec (.exit o) s = .next T → ∀ t ∈ x.active v, ∃ y, T.thread x.group.gid t.gidx = some y ∧ y.state = .exited)
  ) ∧
  (∀ o s x v k, Ready s (.bar o) x v → x.group.control = some k → CompletesLanes s (.bar o) x v id) ∧
  (∀ o s x v, Ready s (.bar o) x v → x.group.control = none →
    HoldsLanes s (.bar o) x v (fun _ => some (.bar v.b.toNat (v.next x.pc))) id
      (fun s1 => s1.modGroup x.group.gid fun g => g.completeBarriers s1.next.op) ∧
    ((x.group.heldAt v.b.toNat).length + x.lanes.length = x.group.live.length → x.active v = x.lanes →
      (∀ t ∈ x.lanes, t.state = .issuing) → (x.group.threads.map Prod.fst).Nodup → (∀ p ∈ x.group.threads, p.2.gidx = p.1) →
      (x.lanes.map Thread.gidx).Nodup →
      ∃ T, exec (.bar o) s = .next T ∧
        (∀ t ∈ x.lanes, ∃ y, T.thread x.group.gid t.gidx = some y ∧ y.state = x.group.freeState t.gidx ∧ y.pc = v.next x.pc) ∧
        ∀ p ∈ x.group.heldAt v.b.toNat, ∃ y, T.thread x.group.gid p.1 = some y ∧ y.state = x.group.freeState p.1 ∧ y.pc = p.2)) ∧
  (∀ (g : Group) n, ((∀ k, k < 16 → g.heldAt k = [] ∨ (g.heldAt k).length ≠ g.live.length) → g.completeBarriers n = g) ∧
    ∀ k, k < 16 → g.heldAt k ≠ [] → (g.heldAt k).length = g.live.length →
      g.completeBarriers n = ((g.heldAt k).foldl (fun g p => g.release p.1 p.2 false) g).orderMembers ((g.heldAt k).map Prod.fst) n) ∧
  (∀ (g : Group) k p, p ∈ g.heldAt k ↔ ∃ t ∈ g.live, t.state = .waiting (.bar k p.2) ∧ t.gidx = p.1) ∧
  (∀ (g : Group) k pc again t, g.thread k = some t → (g.release k pc again).thread k = some { t with
    state := g.freeState k, pc := pc, resumed := again
    stepping := if (t.stepping == .toRun) = true ∧ again = false then .ran t.pc else t.stepping }) ∧
  (∀ (g : Group) k, (∀ w, g.warpOf k = some w → w.kind = .normal ∨ ∃ e, w.kind = .fragment e) → g.freeState k = .ready) ∧
  (∀ g ms n k t, Group.thread g k = some t → ∃ after, (g.orderMembers ms n).thread k = some { t with order := after } ∧
    (k ∉ ms → after = t.order) ∧
    (k ∈ ms → ∀ b ∈ ms, ∀ y, g.thread b = some y → y.busyBelow n = true → (b, n) ∈ after) ∧
    ∀ p ∈ t.order, ∀ y, g.thread p.1 = some y → y.busyBelow p.2 = true → p ∈ after) ∧
  (∀ s g t older e b n y, (b, n) ∈ Thread.order t → Group.thread g b = some y → y.busyBelow n = true → n ≤ e.seq →
    State.entryReady s g t older e = false) ∧
  (∀ s g t o b n y, (b, n) ∈ Thread.order t → Group.thread g b = some y → y.busyBelow n = true → n ≤ Op.id o →
    o.unperformed = true → State.opReady s g t o = false)

/-- R43, R44, R138, R139, R151: where the active lanes name one mask m that has their own bits, no thread of the warp is held at
such an instruction, and every member position is in the lane set or holds no thread of the warp, sync completes at once and
orders the lanes' accesses as a barrier does, and shfl gives each lane the operand a of the active lane at its source
position, if that is a member, and else its own; and the source position of each mode (Table 5-5). Where a member position holds a thread of
the warp that is not in the set, the lanes are held there, with the lanes that the mask register made inactive counted as arrived; and
lanes whose own bit is not in their mask, or whose mask meets another's and differs, trap MASKMIS. How an execution that
makes several fragments orders them is the model's choice (log entry 74). -/
def Obligations.ExchangesComplete : Prop :=
  (
    (∀ o s x v w m, Ready s (.sync o) x v → (x.lanes.head?.bind fun t => x.group.warpOf t.gidx) = some w →
      x.group.parties w false = [] → ExchangeWhole x v w m (fun t => t.b32 v) →
      CompletesWith s (.sync o) x v id (fun _ => none) fun s1 => s1.modGroup x.group.gid fun g =>
        g.orderMembers ((x.active v).map Thread.gidx) s.next.op) ∧
    (∀ o s x v w m, Ready s (.shfl o) x v → (x.lanes.head?.bind fun t => x.group.warpOf t.gidx) = some w →
      x.group.parties w true = [] →
      ExchangeWhole x v w m (fun t => if v.tail.hasMod then t.c32 v else 0xFFFFFFFF) →
      CompletesLanes s (.shfl o) x v fun t => t.setReg v.d.toNat
        (match shuffleSource v.tail.modifier.x t.lane (t.b32 v) with
         | some i => if m.getLsbD i then (((x.active v).find? fun y => y.lane = i).map fun y => y.a32 v).getD (t.a32 v) else t.a32 v
         | none => t.a32 v))
  ) ∧
  (
    ∀ (lane : Nat) (b : Word), lane < 32 →
      let w := 2 ^ min (b.toNat / 256 % 8) 5
      let amount := b.toNat % 32
      let base := lane - lane % w
      shuffleSource 0 lane b = some (base + amount % w) ∧
      shuffleSource 1 lane b = (if (base : Int) ≤ lane + (b.extractLsb' 0 5).toInt ∧ (lane : Int) + (b.extractLsb' 0 5).toInt < base + w
        then some ((lane : Int) + (b.extractLsb' 0 5).toInt).toNat else none) ∧
      shuffleSource 2 lane b = some (base + (lane - base + amount) % w) ∧
      shuffleSource 3 lane b = some (lane ^^^ (amount % w))
  ) ∧
  (
    let maskS := fun (v : View) (t : Thread) => t.b32 v
    let maskF := fun (v : View) (t : Thread) => if v.tail.hasMod then t.c32 v else 0xFFFFFFFF
    let out := fun (x : Issue) (v : View) => laneMask ((x.lanes.filter fun t => !laneActive v.tail.modifier t).map Thread.lane)
    let short := fun (x : Issue) (v : View) (w : Warp) (m : Word) (mask : Thread → Word) =>
      (∀ t ∈ x.active v, mask t = m ∧ m.getLsbD t.lane = true) ∧
      ∃ i, i < 32 ∧ m.getLsbD i = true ∧ (∀ t ∈ x.lanes, t.lane ≠ i) ∧ ∃ l ∈ w.lanes, l.1 = i
    let wrong := fun (x : Issue) (v : View) (mask : Thread → Word) =>
      ∀ t ∈ x.active v, (mask t).getLsbD t.lane = false ∨
        ∃ y ∈ x.active v, y.gidx ≠ t.gidx ∧ mask y &&& mask t ≠ 0 ∧ mask y ≠ mask t
    let info := fun (w : Word) => ({ cause := .maskMis, tval := w.zeroExtend 64 } : TrapInfo)
    (∀ o s x v w m, Ready s (.sync o) x v → (x.lanes.head?.bind fun t => x.group.warpOf t.gidx) = some w →
      x.group.parties w false = [] → short x v w m (maskS v) →
      HoldsLanes s (.sync o) x v (fun _ => some (.sync m (out x v) (v.next x.pc))) id id) ∧
    (∀ o s x v w m, Ready s (.shfl o) x v → (x.lanes.head?.bind fun t => x.group.warpOf t.gidx) = some w →
      x.group.parties w true = [] → short x v w m (maskF v) →
      HoldsLanes s (.shfl o) x v (fun t => some (.shfl m (out x v) (t.a32 v)
        (shuffleSource v.tail.modifier.x t.lane (t.b32 v)) v.d.toNat (v.next x.pc))) id id) ∧
    (∀ o s x v w e, Ready s (.sync o) x v → x.group.control = none → (x.lanes.head?.bind fun t => x.group.warpOf t.gidx) = some w →
      x.group.parties w false = [] → x.active v ≠ [] → wrong x v (maskS v) →
      (s.core x.group.place.die x.group.place.core).freeEntry = some e →
      TrapsPartly s (.sync o) x v e (fun t => some (info (maskS v t))) id fun _ => none) ∧
    (∀ o s x v w e, Ready s (.shfl o) x v → x.group.control = none → (x.lanes.head?.bind fun t => x.group.warpOf t.gidx) = some w →
      x.group.parties w true = [] → x.active v ≠ [] → wrong x v (maskF v) →
      (s.core x.group.place.die x.group.place.core).freeEntry = some e →
      TrapsPartly s (.shfl o) x v e (fun t => some (info (maskF v t))) id fun _ => none) ∧
    (∀ i s x v t k mask, (∃ o, i = .sync o ∧ mask = t.b32 v ∨ i = .shfl o ∧ mask = maskF v t) → Ready s i x v →
      x.group.control = some k → (∀ w ∈ x.group.warps, ∀ b, x.group.parties w b = []) → x.lanes = [t] → laneActive v.tail.modifier t = true → mask.getLsbD t.lane = false →
      EntersHandler s i x t 0x07 (mask.zeroExtend 64))
  )

/-! ## Traps -/

/-- R79, R95, R153, R154, R162, R320, R415, Table 23-4: on a control core trap, svc and an unassigned opcode; every floating-point
instruction and cvt that raises an exception enabled in sr.fpctl (fclass raises none); every instruction of which a TE bit sends an
empty operand to REGEMPTY; and every instruction that reads a register in error, where it has not to wait for room first (the context
then halts), enter the handler: epc holds the instruction's address, cause and tval say why, PPL holds the level, the level is
supervisor or stays monitor, and the program counter is sys.vbase; no register and no byte of memory changes. -/
def Obligations.ControlCoreTakesTraps : Prop :=
  (
    ∀ s x v t k, x.group.control = some k → x.lanes = [t] →
      (∀ o, Ready s (.trap o) x v → laneActive v.tail.modifier t = true →
        EntersHandler s (.trap o) x t ((BitVec.ofNat 16 v.b.toNat) ++ (0 : Byte) ++ (0x0C : Byte)) 0) ∧
      (∀ o, Ready s (.svc o) x v → laneActive v.tail.modifier t = true →
        EntersHandler s (.svc o) x t (((t.b32 v).extractLsb' 0 16) ++ (0 : Byte) ++ (0x0B : Byte)) (t.a64 v)) ∧
      (∀ o, s.issue = some x → (Instr.unassignedOpcode o).view = some v → t.trapped = none →
        EntersHandler s (.unassignedOpcode o) x t 0x01 (v.base.zeroExtend 64))
  ) ∧
  (
    EachFloatForm FpTrapsOnControl ∧
    ∀ o sf df, TrapsOnControl (.cvt o) fun _ _ v t =>
      if numFormat (descCode v.tail.modifier.c) = some sf ∧ numFormat (descCode v.b) = some df
      then t.fpTrap (t.converted v sf df).2 else none
  ) ∧
  (
    ∀ i s x v t k r, Reached s i x v → x.group.control = some k → x.lanes = [t] → t.state = .issuing →
      (v.tail.modifier.me = true → t.isFull v.tail.modifier.m.toNat = true) →
      (t.sentEmpty i v = some r → EntersHandler s i x t 0x06 (BitVec.ofNat 64 r)) ∧
      (t.emptyOperands (i.sig v) v = [] → x.errorRead i v t = some r →
        (∀ T h, exec i s = .next T → ¬Blocked s x x.lanes h T) →
        ∃ (s1 : State) (y : Thread), exec i s = .next (s1.haltContext t.ctxid.toNat
            { cause := .levee, tval := BitVec.ofNat 64 r, detail := BitVec.ofNat 32 x.group.place.die, access := 0 }) ∧
          s1.thread x.group.gid t.gidx = some y ∧
          y = { t with epc := t.pc.zeroExtend 64, cause := BitVec.ofNat 16 x.group.place.die ++ (0 : Byte) ++ (0x0F : Byte)
                       tval := BitVec.ofNat 64 r, ppl := t.pl, pl := if t.pl = 2 then 2 else 1
                       pc := t.vbase.extractLsb' 0 56, state := y.state, stepping := .no, resumed := false
                       fence := .idle, trapped := none } ∧
          s1.mem = s.mem)
  ) ∧
  (
    ∀ (i : Instr) (v : View) (t : Thread),
      let asked := fun (r : Nat) => ∃ f ∈ (i.sig v).fields v,
        f.2.1.reads = true ∧ (i.sig v).trapsEmpty v.tail.modifier f.1 = true ∧ r ∈ f.2.1.registers f.2.2 ∧ t.isFull r = false
      (∀ r, t.sentEmpty i v = some r → laneActive v.tail.modifier t = true ∧ asked r) ∧
      (laneActive v.tail.modifier t = true → (∃ r, asked r) → (t.sentEmpty i v).isSome = true)
  ) ∧
  (
    ∀ (x : Issue) (i : Instr) (v : View) (t : Thread) r, x.errorRead i v t = some r →
      r ∈ t.regErrors ∧ (v.tail.modifier.me = true ∧ r = v.tail.modifier.m.toNat ∨
        laneActive v.tail.modifier t = true ∧ (r ∈ alsoReads i v x.group ∨
          ∃ f ∈ (i.sig v).fields v, f.2.1.reads = true ∧ r ∈ f.2.1.registers f.2.2))
  )

/-- R26, R36, R37, R59, R79, R84, R85, R95, R153, R154, R397, R400, Tables 3-12, 19-7, 23-1 and 23-3. On a compute core with a free
entry in the fragment table: the active lanes of `trap`, the lanes of a load or a store that fail their checks (ALIGN, PROT or PAGE), and
the lanes of a floating-point instruction that raise an enabled exception, leave as one
fragment, and the other lanes of the set complete; at checks 2 to 5 an unassigned opcode, an operand register or tile beyond the
allocation, an illegal encoding and an instruction above its lanes' level take the whole set. On every core the set waits where its mask
register is empty in a lane, and where an active lane's operand is empty; a lane whose empty operand a TE bit sends to
REGEMPTY leaves alone while another waits. With none free the warp parks whole under FRAGFULL, its set and its READY threads at once, with
one record, and no lane has executed. Which of several registers TVAL names is a free value (log entry 13). -/
def Obligations.TrappingLanesLeave : Prop :=
  (∀ o s x v e, Ready s (.trap o) x v → x.group.control = none → x.active v ≠ [] →
    (s.core x.group.place.die x.group.place.core).freeEntry = some e →
    TrapsPartly s (.trap o) x v e (fun _ => some { cause := .brk, detail := v.b.zeroExtend 32 }) id fun _ => none) ∧
  (
    let g := fun (n : Nat) s (v : View) t l => Thread.loading t s v .g n (v.tail.modifier.sc == 2) l
    let other := fun space (n : Nat) s (v : View) t l => Thread.loading t s v space n false l
    let store := fun space (n : Nat) s v t l => Thread.storing t s v space n l
    (∀ o, AccessTrapsPartly (.ldGB o) .g 1 .read (g 1) ∧ AccessTrapsPartly (.ldGH o) .g 2 .read (g 2) ∧
      AccessTrapsPartly (.ldGW o) .g 4 .read (g 4) ∧ AccessTrapsPartly (.ldGD o) .g 8 .read (g 8) ∧
      AccessTrapsPartly (.ldGQ o) .g 16 .read (g 16) ∧ AccessTrapsPartly (.ldLB o) .l 1 .read (other .l 1) ∧
      AccessTrapsPartly (.ldLH o) .l 2 .read (other .l 2) ∧ AccessTrapsPartly (.ldLW o) .l 4 .read (other .l 4) ∧
      AccessTrapsPartly (.ldLD o) .l 8 .read (other .l 8) ∧ AccessTrapsPartly (.ldLQ o) .l 16 .read (other .l 16) ∧
      AccessTrapsPartly (.ldKB o) .k 1 .read (other .k 1) ∧ AccessTrapsPartly (.ldKH o) .k 2 .read (other .k 2) ∧
      AccessTrapsPartly (.ldKW o) .k 4 .read (other .k 4) ∧ AccessTrapsPartly (.ldKD o) .k 8 .read (other .k 8) ∧
      AccessTrapsPartly (.ldKQ o) .k 16 .read (other .k 16)) ∧
    (∀ o, AccessTrapsPartly (.stGB o) .g 1 .write (store .g 1) ∧ AccessTrapsPartly (.stGH o) .g 2 .write (store .g 2) ∧
      AccessTrapsPartly (.stGW o) .g 4 .write (store .g 4) ∧ AccessTrapsPartly (.stGD o) .g 8 .write (store .g 8) ∧
      AccessTrapsPartly (.stGQ o) .g 16 .write (store .g 16) ∧ AccessTrapsPartly (.stLB o) .l 1 .write (store .l 1) ∧
      AccessTrapsPartly (.stLH o) .l 2 .write (store .l 2) ∧ AccessTrapsPartly (.stLW o) .l 4 .write (store .l 4) ∧
      AccessTrapsPartly (.stLD o) .l 8 .write (store .l 8) ∧ AccessTrapsPartly (.stLQ o) .l 16 .write (store .l 16))
  ) ∧
  (∀ i s x v e, s.issue = some x → i.view = some v → x.group.control = none →
    (s.core x.group.place.die x.group.place.core).freeEntry = some e →
    let whole := fun (info : TrapInfo) => ∃ T, exec i s = .next T ∧
      LeavesAsFragment s T x.group e (x.lanes.map fun t => (t, info)) ∧
      (∀ gid, gid ≠ x.group.gid → T.group gid = s.group gid) ∧ T.mem = s.mem
    let beyond := fun r => r ∈ (i.sig v).registers v ∧ x.group.budget ≤ r ∨ r ∈ (i.sig v).tiles v ∧ x.group.tiles ≤ r
    (∀ o, i = .unassignedOpcode o → whole { cause := .illop, tval := v.base.zeroExtend 64 }) ∧
    (v.fmt ≠ .raw → (∃ r, beyond r) → ∃ r, beyond r ∧ whole { cause := .regBudget, tval := BitVec.ofNat 64 r }) ∧
    (v.fmt ≠ .raw → (¬∃ r, beyond r) → i.legal v = false → whole { cause := .illop, tval := v.base.zeroExtend 64 }) ∧
    (v.fmt ≠ .raw → (¬∃ r, beyond r) → i.legal v = true → (∃ t ∈ x.lanes, t.pl.toNat < i.leastPrivilege) →
      whole { cause := .priv, tval := v.base.zeroExtend 64 })) ∧
  (∀ i s x v, Reached s i x v →
    let m := v.tail.modifier
    let needs := (x.active v).flatMap fun t => (t.emptyOperands (i.sig v) v).map fun r => (t.gidx, r)
    (m.me = true → (∃ t ∈ x.lanes, t.isFull m.m.toNat = false) → ∃ T, exec i s = .next T ∧
      Blocked s x x.lanes (.regs ((x.lanes.filter fun t => !t.isFull m.m.toNat).map fun t => (t.gidx, m.m.toNat))) T) ∧
    ((m.me = true → ∀ t ∈ x.lanes, t.isFull m.m.toNat = true) → (∀ t ∈ x.lanes, t.sentEmpty i v = none) → needs ≠ [] →
      ∃ T, exec i s = .next T ∧ Blocked s x x.lanes (.regs needs) T)) ∧
  (∀ i s x v e, Reached s i x v → x.group.control = none →
    (s.core x.group.place.die x.group.place.core).freeEntry = some e → (∀ t ∈ x.lanes, t.state = .issuing) →
    (v.tail.modifier.me = true → ∀ t ∈ x.lanes, t.isFull v.tail.modifier.m.toNat = true) →
    let sent := x.lanes.filterMap fun t => (t.sentEmpty i v).map fun r => (t, emptyTrap r)
    let needs := ((x.active v).filter fun t => (t.sentEmpty i v).isNone).flatMap fun t =>
      (t.emptyOperands (i.sig v) v).map fun r => (t.gidx, r)
    (sent ≠ [] → needs ≠ [] → ∃ T, exec i s = .next T ∧ LeavesAsFragment s T x.group e sent ∧
      (∀ t ∈ x.lanes, t.sentEmpty i v = none → T.thread x.group.gid t.gidx = some { t with state := .waiting (.regs needs) }) ∧
      (∀ gid, gid ≠ x.group.gid → T.group gid = s.group gid) ∧ T.mem = s.mem) ∧
    ((∀ t ∈ x.lanes, (t.sentEmpty i v).isSome = true) → ∃ T, exec i s = .next T ∧ LeavesAsFragment s T x.group e sent ∧
      (∀ gid, gid ≠ x.group.gid → T.group gid = s.group gid) ∧ T.mem = s.mem)) ∧
  (
    EachFloatForm FpTrapsOnCompute ∧
    ∀ o sf df, TrapsOnCompute (.cvt o)
      (fun _ v => numFormat (descCode v.tail.modifier.c) = some sf ∧ numFormat (descCode v.b) = some df)
      (fun _ _ v t => t.fpTrap (t.converted v sf df).2) (fun _ _ v t => t.withConverted v sf df) fun _ _ _ => none
  ) ∧
  (∀ o s x v w, Ready s (.trap o) x v → x.group.control = none → x.active v ≠ [] →
    (s.core x.group.place.die x.group.place.core).freeEntry = none →
    (x.lanes.head?.bind fun t => x.group.warpOf t.gidx) = some w → (∀ l ∈ w.lanes, (x.group.thread l.2).isSome = true) →
    ∃ T y, exec (.trap o) s = .next T ∧ T.group x.group.gid = some y ∧
      (∀ z ∈ y.warps, z.id = w.id → ∃ hw, z.kind = .parked hw) ∧
      (∀ l ∈ w.lanes, ∀ t, x.group.thread l.2 = some t → ∃ z, T.thread x.group.gid l.2 = some z ∧
        z = { t with trapped := z.trapped
                     state := if t.gidx ∈ x.lanes.map Thread.gidx ∨ t.state = .ready then .parked else t.state }) ∧
      (∃ r, (T.die x.group.place.die).records = (s.die x.group.place.die).records ++ [[r]] ∧ r.cause = 0x09 ∧
        r.detail = 0x0C ∧ r.entry = 0xFF ∧ r.lanes = laneMask (w.lanes.map Prod.fst) ∧ r.name = x.group.name) ∧
      (∀ gid, gid ≠ x.group.gid → T.group gid = s.group gid) ∧ T.mem = s.mem)

/-! ## Memory accesses -/

/-- R219, R221, R223: every load, and `ld.acq` with its acquire, issues as `LoadIssues` says. `ld.g` reads at .dev where SC says
so. -/
def Obligations.LoadsIssue : Prop :=
  let none' := fun (_ : View) => (none : Option Scope)
  let g := fun (v : View) => v.tail.modifier.sc == 2
  let no := fun (_ : View) => false
  (∀ o, LoadIssues (.ldGB o) .g (fun _ => 1) g none' ∧ LoadIssues (.ldGH o) .g (fun _ => 2) g none' ∧
    LoadIssues (.ldGW o) .g (fun _ => 4) g none' ∧ LoadIssues (.ldGD o) .g (fun _ => 8) g none' ∧
    LoadIssues (.ldGQ o) .g (fun _ => 16) g none') ∧
  (∀ o, LoadIssues (.ldLB o) .l (fun _ => 1) no none' ∧ LoadIssues (.ldLH o) .l (fun _ => 2) no none' ∧
    LoadIssues (.ldLW o) .l (fun _ => 4) no none' ∧ LoadIssues (.ldLD o) .l (fun _ => 8) no none' ∧
    LoadIssues (.ldLQ o) .l (fun _ => 16) no none') ∧
  (∀ o, LoadIssues (.ldKB o) .k (fun _ => 1) no none' ∧ LoadIssues (.ldKH o) .k (fun _ => 2) no none' ∧
    LoadIssues (.ldKW o) .k (fun _ => 4) no none' ∧ LoadIssues (.ldKD o) .k (fun _ => 8) no none' ∧
    LoadIssues (.ldKQ o) .k (fun _ => 16) no none') ∧
  (∀ o, LoadIssues (.ldAcq o) .g (fun v => 2 ^ (v.tail.modifier.x.toNat % 4))
    (fun v => (scopeOf v.tail.modifier.sc).wide) (fun v => some (scopeOf v.tail.modifier.sc)))

/-- R194, R203, R220, R221, R223: every store, and `st.rel` behind its release mark, places its entries as `StoreIssues` says: one
entry of the stored bytes, or two halves of 8; their data are the low bytes of register d, of the pair, or of the two
pairs. -/
def Obligations.StoresIssue : Prop :=
  let plain := fun (space : Space) (n : Nat) (s : State) (v : View) (t : Thread) (l : Loc) =>
    storeEntries s.next.op space l (v.tail.modifier.sc == 2) (t.storeData v.d.toNat n)
  let one := fun (_ : View) => 1
  (∀ o, StoreIssues (.stGB o) .g (fun _ => 1) one (plain .g 1) ∧ StoreIssues (.stGH o) .g (fun _ => 2) one (plain .g 2) ∧
    StoreIssues (.stGW o) .g (fun _ => 4) one (plain .g 4) ∧ StoreIssues (.stGD o) .g (fun _ => 8) one (plain .g 8) ∧
    StoreIssues (.stGQ o) .g (fun _ => 16) (fun _ => 2) (plain .g 16)) ∧
  (∀ o, StoreIssues (.stLB o) .l (fun _ => 1) one (plain .l 1) ∧ StoreIssues (.stLH o) .l (fun _ => 2) one (plain .l 2) ∧
    StoreIssues (.stLW o) .l (fun _ => 4) one (plain .l 4) ∧ StoreIssues (.stLD o) .l (fun _ => 8) one (plain .l 8) ∧
    StoreIssues (.stLQ o) .l (fun _ => 16) (fun _ => 2) (plain .l 16)) ∧
  (∀ o, StoreIssues (.stRel o) .g (fun v => 2 ^ (v.tail.modifier.x.toNat % 4)) (fun _ => 2) fun s v t l =>
    { seq := s.next.op, kind := .mark (scopeOf v.tail.modifier.sc) .stores, data := 0, size := 0 } ::
      (storeEntries (s.next.op + 1) .g l (scopeOf v.tail.modifier.sc).wide
        (t.storeData v.d.toNat (2 ^ (v.tail.modifier.x.toNat % 4)))).map fun e => { e with release := true }) ∧
  (∀ t d n, n = 1 ∨ n = 2 ∨ n = 4 → natOfBytes (Thread.storeData t d n) = (t.reg d).toNat % 2 ^ (8 * n)) ∧
  (∀ t d, natOfBytes (Thread.storeData t d 8) = (t.pair d).toNat) ∧
  (∀ t d, natOfBytes (Thread.storeData t d 16) = (t.pair d).toNat + 2 ^ 64 * (t.pair (d + 2)).toNat)

/-- R85, R176 to R178, R217, R218, R363 to R370, R379, R394, R395, Tables 21-1 to 21-3 and 23-4: an access of space g is at a plus the offset
and the scaled index; it passes its checks where that is below 2^56, aligned, translates to memory, and meets no poison, and else it
traps; one of the scratchpad passes where it lies within it, aligned, and its bytes are not in error. A walk reads the tables from the
context's root down (R367); which entries are malformed (R366), what a leaf grants, the home that it gives (R369), a window's PROT
(R367), the bounds of the polder's frames (R379) and a lost home's LEVEE (R395). And on a control core every load, store, `ld.acq`,
`st.rel`, `atom` and `red` whose address check fails enters the handler with the check's cause, detail and value. -/
def Obligations.AccessChecks : Prop :=
  (
    ∀ s g t v n need, 0 < n →
      let offset : Int := if v.tail.hasLit then v.tail.literal.toInt else if v.fmt = .rri then v.b.toInt else 0
      let index : Nat :=
        if v.fmt = .rri then
          if v.tail.modifier.x.getLsbD 0 then (t.c32 v).toNat * 2 ^ (v.tail.modifier.x.toNat / 2) else 0
        else if v.tail.modifier.x.getLsbD 2 then (t.reg v.b.toNat).toNat else 0
      let ea := t.a64 v + BitVec.ofInt 64 (offset + index)
      (∀ l, State.access s g t v .g n need = .ok l → ea.toNat < 2 ^ 56 ∧ ea.toNat % n = 0 ∧
        s.locate (whoOf g t) need (t.pl == 2) ea = .ok l) ∧
      (2 ^ 56 ≤ ea.toNat → State.access s g t v .g n need = .error (protTrap need ea)) ∧
      (ea.toNat < 2 ^ 56 → ea.toNat % n ≠ 0 → State.access s g t v .g n need = .error
        { cause := .align, tval := ea, access := need.code }) ∧
      (∀ l, State.access s g t v .l n need = .ok l →
        (l.key : Int) = (t.a32 v).toNat + (BitVec.ofInt 32 (offset + index)).toInt ∧ l.key + n ≤ g.scratchSize ∧ l.key % n = 0) ∧
      (ea.toNat < 2 ^ 56 → ea.toNat % n = 0 →
        (∀ e, s.locate (whoOf g t) need (t.pl == 2) ea = .error e → State.access s g t v .g n need = .error e) ∧
        ∀ l, s.locate (whoOf g t) need (t.pl == 2) ea = .ok l → State.access s g t v .g n need =
          if s.poisoned need (t.pl != 0) l n then .error (leveeTrap need ea l.home) else .ok l) ∧
      State.access s g t v .k n need = State.access s g t v .g n need ∧
      let at' : Int := (t.a32 v).toNat + (BitVec.ofInt 32 (offset + index)).toInt
      (at' < 0 ∨ (g.scratchSize : Int) < at' + n → State.access s g t v .l n need = .error (protTrap need (BitVec.ofInt 64 at'))) ∧
      (0 ≤ at' → at' + n ≤ g.scratchSize →
        (at'.toNat % n ≠ 0 → State.access s g t v .l n need =
          .error { cause := .align, tval := BitVec.ofInt 64 at', access := need.code }) ∧
        (at'.toNat % n = 0 → need ≠ .write → (g.scratchError at'.toNat n).isSome = true →
          State.access s g t v .l n need = .error (scratchLevee g at'.toNat n)) ∧
        (at'.toNat % n = 0 → need = .write ∨ g.scratchError at'.toNat n = none →
          State.access s g t v .l n need = .ok (scratchLoc at'.toNat)))
  ) ∧
  (
    ∀ (s : State) (w : Who) (need : Need) (va : Dword),
      let c := s.contextEntry w.die w.ctx
      let p := s.polder (s.replicaOf w.die) w.polder
      let usable := w.ctx < 4096 ∧ c % 2 = 1 ∧ c / 2 ^ 6 % 32 = w.polder
      let root := c / 2 ^ 11 % 2 ^ 37 * 2 ^ 11
      (¬usable → s.walk w need va = .error (protTrap need va)) ∧
      Walks (s.mayTranslate w.die va.toNat) (fun lvl e => s.malformed p lvl e = true) 4 root (s.walkFrom w p va.toNat 4 root) ∧
      (usable → s.walk w need va = match s.walkFrom w p va.toNat 4 root with
        | .error q => .error { cause := .page, tval := va, aux := BitVec.ofNat 8 q.1, malformed := q.2, access := need.code }
        | .ok q => .ok q) ∧
      (∀ e, s.walk w need va = .error e → s.translateAny w need va = .error e) ∧
      (∀ e lvl, s.walk w need va = .ok (e, lvl) →
        let run := e / 2 ^ 10 % 4
        let size := 2 ^ ((if lvl = 0 then 12 else if lvl = 1 then 21 else 30) + if run = 1 then 2 else if run = 2 then 4 else 0)
        let base := e / 2 ^ 12 % 2 ^ 36 * 2 ^ 12
        let pa := base + va.toNat % size
        let granted := (match need with
          | .read => e.testBit 3 = true
          | .write => e.testBit 4 = true
          | .both => e.testBit 3 = true ∧ e.testBit 4 = true
          | .fetch => e.testBit 5 = true) ∧ (w.user = true → e.testBit 6 = true)
        let inFrames := w.polder = 0 ∨ p.lo ≤ base / 2 ^ 12 ∧ (base + size - 1) / 2 ^ 12 ≤ p.hi
        let home := homeOf p.dieList e pa
        (¬granted → s.translateAny w need va = .error (protTrap need va)) ∧
        (granted → e / 2 ^ 8 % 4 = 3 → s.translateAny w need va = .ok (.window (e / 2 ^ 55 % 256) pa)) ∧
        (granted → e / 2 ^ 8 % 4 ≠ 3 → ¬inFrames → s.translateAny w need va = .error (protTrap need va)) ∧
        (granted → e / 2 ^ 8 % 4 ≠ 3 → inFrames → s.translateAny w need va = .ok (.here
          { va := va, key := storageKey home pa, home := home, token := e.testBit 7, table := pa < 2 ^ 32, ctx := w.ctx
            polder := w.polder }))) ∧
      (∀ e, s.translateAny w need va = .error e → s.translate w need va = .error e ∧ ∀ m, s.locate w need m va = .error e) ∧
      (∀ chip a, s.translateAny w need va = .ok (.window chip a) → ∀ m, s.locate w need m va = .error (protTrap need va)) ∧
      (∀ l, s.translateAny w need va = .ok (.here l) → ∀ m,
        ((s.die l.home).lost = true → s.locate w need m va = .error (leveeTrap need va l.home)) ∧
        ((s.die l.home).lost = false →
          let refused := l.table = true ∧ (need = .both ∨ need = .write ∧ m = false ∧
            0x8000 ≤ l.key % 2 ^ 37 ∧ l.key % 2 ^ 37 < 0xB000)
          (refused → s.locate w need m va = .error (protTrap need va)) ∧ (¬refused → s.locate w need m va = .ok l)))
  ) ∧
  (∀ (s : State) p lvl e, s.malformed p lvl e = true ↔ s.isMalformed p lvl e) ∧
  (
    ∀ (dies : List Nat) e pa, dies ≠ [] →
      (e / 2 ^ 8 % 4 = 1 → homeOf dies e pa = e / 2 ^ 50 % 32) ∧
      (e / 2 ^ 8 % 4 = 0 → dies[fold5 8 (pa / 2 ^ 12) % dies.length]? = some (homeOf dies e pa)) ∧
      (e / 2 ^ 8 % 4 = 2 → dies[fold5 6 (pa / 2 ^ 21) % dies.length]? = some (homeOf dies e pa))
  ) ∧
  (∀ n x, fold5 n x < 32 ∧ ∀ j, j < 5 → ((fold5 n x).testBit j = true ↔
    ((List.range n).filter fun i => x.testBit (5 * i + j)).length % 2 = 1)) ∧
  (∀ (s : State) die off, (∀ t, (s.die die).tlb.find? (fun t => t.offset = off) = some t → s.readEntry die off = t.value.toNat) ∧
    ((∀ t ∈ (s.die die).tlb, t.offset ≠ off) → s.readEntry die off = natOfBytes (s.mem.readN (storageKey (s.replicaOf die) off) 8)) ∧
    (die < 32 → s.replicaOf die = die) ∧ ((s.die 0).lost = false → s.replicaOf 32 = 0) ∧
    ((s.die 31).lost = false → s.replicaOf 33 = 31)) ∧
  (
    (∀ o, AccessTraps (.ldGB o) (fun _ => .g) (fun _ => 1) .read ∧ AccessTraps (.ldGH o) (fun _ => .g) (fun _ => 2) .read ∧
      AccessTraps (.ldGW o) (fun _ => .g) (fun _ => 4) .read ∧ AccessTraps (.ldGD o) (fun _ => .g) (fun _ => 8) .read ∧
      AccessTraps (.ldGQ o) (fun _ => .g) (fun _ => 16) .read ∧ AccessTraps (.ldLB o) (fun _ => .l) (fun _ => 1) .read ∧
      AccessTraps (.ldLH o) (fun _ => .l) (fun _ => 2) .read ∧ AccessTraps (.ldLW o) (fun _ => .l) (fun _ => 4) .read ∧
      AccessTraps (.ldLD o) (fun _ => .l) (fun _ => 8) .read ∧ AccessTraps (.ldLQ o) (fun _ => .l) (fun _ => 16) .read ∧
      AccessTraps (.ldKB o) (fun _ => .k) (fun _ => 1) .read ∧ AccessTraps (.ldKH o) (fun _ => .k) (fun _ => 2) .read ∧
      AccessTraps (.ldKW o) (fun _ => .k) (fun _ => 4) .read ∧ AccessTraps (.ldKD o) (fun _ => .k) (fun _ => 8) .read ∧
      AccessTraps (.ldKQ o) (fun _ => .k) (fun _ => 16) .read) ∧
    (∀ o, AccessTraps (.stGB o) (fun _ => .g) (fun _ => 1) .write ∧ AccessTraps (.stGH o) (fun _ => .g) (fun _ => 2) .write ∧
      AccessTraps (.stGW o) (fun _ => .g) (fun _ => 4) .write ∧ AccessTraps (.stGD o) (fun _ => .g) (fun _ => 8) .write ∧
      AccessTraps (.stGQ o) (fun _ => .g) (fun _ => 16) .write ∧ AccessTraps (.stLB o) (fun _ => .l) (fun _ => 1) .write ∧
      AccessTraps (.stLH o) (fun _ => .l) (fun _ => 2) .write ∧ AccessTraps (.stLW o) (fun _ => .l) (fun _ => 4) .write ∧
      AccessTraps (.stLD o) (fun _ => .l) (fun _ => 8) .write ∧ AccessTraps (.stLQ o) (fun _ => .l) (fun _ => 16) .write) ∧
    (∀ o, AccessTraps (.ldAcq o) (fun _ => .g) (fun v => 2 ^ (v.tail.modifier.x.toNat % 4)) .read ∧
      AccessTraps (.stRel o) (fun _ => .g) (fun v => 2 ^ (v.tail.modifier.x.toNat % 4)) .write) ∧
    (∀ o, let space := fun (v : View) => if v.tail.modifier.x.getLsbD 0 then Space.l else .g
      AccessTraps (.atom o) space (fun v => if v.b.getLsbD 2 then 8 else 4) .both ∧
      AccessTraps (.red o) space (fun v => if v.b.getLsbD 2 then 8 else 4) .both)
  )

/-- R225, R226: `atom` and `red` issue one outstanding atomic on the location that X[0]'s space names, behind a release mark
where the descriptor asks; `atom` empties its destination. -/
def Obligations.AtomicsIssue : Prop :=
  ∀ ret s x v (l : Thread → Loc) i, (∃ o, i = if ret then Instr.atom o else .red o) → Ready s i x v →
    let space : Space := if v.tail.modifier.x.getLsbD 0 then .l else .g
    let wide := v.b.getLsbD 2
    let sc := scopeOf v.tail.modifier.sc
    (∀ t ∈ x.active v, (ret = true → t.outstanding .load < 64) ∧ (v.b.getLsbD 1 = true → t.sb.length + 1 ≤ 64) ∧
      s.access x.group t v space (if wide then 8 else 4) .both = .ok (l t)) →
    CompletesWith s i x v
      (fun t =>
        let word := fun r => if wide then t.pair r else (t.reg r).zeroExtend 64
        let acq := if v.b.getLsbD 0 && ret then some sc else none
        let y := if ret then t.markN v.d.toNat (if wide then 2 else 1) .load else t
        { y with
            ops := t.ops ++ [{ id := s.next.op + 1, cls := if ret then some OpClass.load else none
                               kind := .atom space (l t) v.b (word v.tail.modifier.c.toNat) (if ret then word v.d.toNat else 0) v.d.toNat ret
                                 acq false none
                               done := false, cancelled := [] }]
            sb := if v.b.getLsbD 1 then t.sb ++ [{ seq := s.next.op, kind := .mark sc .stores, data := 0, size := 0 }] else t.sb
            acquires := t.acquires ++ acq.toList.map fun c => (s.next.op + 1, c) })
      (fun _ => none)
      (fun s1 => (s1.noteAccess x.group space ((x.active v).map fun t => (t, .ok (l t)))).takePlaces 2) ∧
    ∀ T, exec i s = .next T → MemoryKept s T

/-- R224, Table 10-3: what each atomic operation writes over an old word, or that it writes nothing; fadd rounds to nearest
even. -/
def Obligations.AtomicResults : Prop :=
  ∀ desc old operand expected,
    let n := if BitVec.getLsbD (w := 7) desc 2 then 64 else 32
    let o := old.toNat % 2 ^ n
    let r := operand.toNat % 2 ^ n
    let signed := fun (k : Nat) => if 2 ^ (n - 1) ≤ k then (k : Int) - (2 ^ n : Nat) else (k : Int)
    let writes := fun k => atomResult desc old operand expected = some (BitVec.ofNat 64 k)
    (atomOpr desc = 0 → writes ((o + r) % 2 ^ n)) ∧
    (atomOpr desc = 1 → writes (if signed o < signed r then o else r)) ∧
    (atomOpr desc = 2 → writes (if signed o < signed r then r else o)) ∧
    (atomOpr desc = 3 → writes (if o < r then o else r)) ∧
    (atomOpr desc = 4 → writes (if o < r then r else o)) ∧
    (atomOpr desc = 5 → writes (o &&& r)) ∧ (atomOpr desc = 6 → writes (o ||| r)) ∧
    (atomOpr desc = 7 → writes (o ^^^ r)) ∧ (atomOpr desc = 8 → writes r) ∧
    (atomOpr desc = 9 → if o = expected.toNat % 2 ^ n then writes r else atomResult desc old operand expected = none) ∧
    (atomOpr desc = 10 → writes ((typeFormat (if n = 64 then .f64 else .f32)).add ⟨0, false⟩
      ((typeFormat (if n = 64 then .f64 else .f32)).unpack o) ((typeFormat (if n = 64 then .f64 else .f32)).unpack r)).1)

/-- R206, R208, R228, Table 9-3 (the acquire part of a failed transfer is log entry 42's): `fence` completes: .rel at once with its mark
placed, .acq once older loads are performed, .acqrel when both hold, .sc once a tick has passed after its release; an acquire part at
.dev takes the acquire step. While what it awaits is not over, a lane is held at the fence, and the others complete: .acq and .acqrel,
which places its mark first, until the lane's older loads are performed; .sc until its accesses are done, then behind its mark, then
until the tick. -/
def Obligations.FencesComplete : Prop :=
  ∀ o s x v, Ready s (.fence o) x v →
    let k := v.tail.modifier.x
    let sc : Scope := if k = 3 then .dev else scopeOf v.tail.modifier.sc
    let mark : SbEntry := { seq := s.next.op, kind := .mark sc .stores, data := 0, size := 0 }
    let room := fun (t : Thread) => t.fence = .idle → t.sb.length + 1 ≤ 64
    let after := fun (s1 : State) =>
      if x.active v ≠ [] ∧ (k = 3 ∨ (k = 1 ∨ k = 2) ∧ sc.wide) then (s1.takePlaces 1).acquireStep x.group.place.die else s1.takePlaces 1
    (k = 0 → (∀ t ∈ x.active v, room t) →
      CompletesWith s (.fence o) x v (fun t => { t with sb := t.sb ++ [mark], fence := .idle }) (fun _ => none) after) ∧
    (k = 1 → (∀ t ∈ x.active v, t.loadsPerformed = true) → CompletesWith s (.fence o) x v id (fun _ => none) after) ∧
    (k = 2 → (∀ t ∈ x.active v, room t ∧ t.loadsPerformed = true) →
      CompletesWith s (.fence o) x v
        (fun t => { t with sb := if t.fence = .idle then t.sb ++ [mark] else t.sb, fence := .idle }) (fun _ => none) after) ∧
    (k = 3 → (∀ t ∈ x.active v, ∃ n, t.fence = .ticking n ∧ n < s.ticks) →
      CompletesWith s (.fence o) x v (fun t => { t with fence := .idle }) (fun _ => none) after) ∧
    let mixed := fun (held : Thread → Bool) (s1 : State) =>
      if (∃ t ∈ x.active v, held t = false) ∧ (k = 3 ∨ (k = 1 ∨ k = 2) ∧ sc.wide) then (s1.takePlaces 1).acquireStep x.group.place.die
      else s1.takePlaces 1
    let marked := fun (t : Thread) => { t with sb := t.sb ++ [mark], fence := .releasing s.next.op }
    let wait := fun (t : Thread) n => { t with state := .waiting (.fence n) }
    let older := fun (t : Thread) => !t.loadsPerformed
    let early := fun (t : Thread) => match t.fence with
      | .ticking n => decide (s.ticks ≤ n)
      | _ => true
    (k = 1 → RunsWith s (.fence o) x v older (fun t => if older t then wait t 1 else t) (fun _ => none) (mixed older)) ∧
    (k = 2 → (∀ t ∈ x.active v, room t) → RunsWith s (.fence o) x v older (fun t =>
      let y := if t.fence = .idle then marked t else t
      if older t then wait y 2 else { y with fence := .idle }) (fun _ => none) (mixed older)) ∧
    (k = 3 → (∀ t ∈ x.active v, room t ∧ (t.fence = .idle → t.drained = true → ∀ o ∈ t.ops, o.failure = none)) →
      RunsWith s (.fence o) x v early (fun t => match t.fence with
        | .idle => if t.drained then wait (marked t) 3 else wait t 3
        | .releasing m => if ∃ e ∈ t.sb, e.seq = m then wait t 3 else wait { t with fence := .ticking s.ticks } 3
        | .ticking n => if s.ticks ≤ n then wait t 3 else { t with fence := .idle }) (fun _ => none) (mixed early)) ∧
    (∀ t : Thread, (t.loadsPerformed = true ↔ ∀ o ∈ t.ops, o.unperformed = false) ∧
      (t.drained = true ↔ t.sb = [] ∧ ∀ o ∈ t.ops, o.done = true ∨
        ((∀ a b c d e f g, o.kind ≠ .load a b c d e f g) ∧ (∀ a b c d e f g h i j, o.kind ≠ .atom a b c d e f g h i j) ∧
          (∀ a b, o.kind ≠ .transfer a b) ∧ ∀ a, o.kind ≠ .tile a)))

/-- R218, R229 to R231, R391: `pref`, `twflush` and `cctl` never trap on their addresses: they complete with Fetch, Send and Drop
steps of the release-class blocks that pass the checks of R217 and R218, poisoned ones among them, or of every block, and
change no lane; `cctl` with X = 2 drops the copies of space k, and later reads of space k take the home copies of the blocks that the
die holds then. A `pref` of a lost or filtered home fetches nothing. -/
def Obligations.CacheInstructionsComplete : Prop :=
  (∀ o s x v, Ready s (.pref o) x v → CompletesWith s (.pref o) x v id (fun _ => none) fun s1 =>
    s1.eachBlock x v (x.active v) fun s l =>
      if (s.die l.home).lost = true ∨ s.passes l.polder x.group.place.die l.home = false then s
      else s.fetchBlock x.group.place.die (blockOf l.key)) ∧
  (∀ o s x v, Ready s (.twflush o) x v → CompletesWith s (.twflush o) x v id (fun _ => none) fun s1 =>
    if x.active v = [] then s1
    else if v.tail.modifier.x = 0 then s1.eachBlock x v (x.active v) fun s l => s.sendBlock x.group.place.die (blockOf l.key)
    else s1.sendAll x.group.place.die) ∧
  (∀ o s x v, Ready s (.cctl o) x v → CompletesWith s (.cctl o) x v id (fun _ => none) fun s1 =>
    if x.active v = [] then s1
    else if v.tail.modifier.x = 0 then s1.eachBlock x v (x.active v) fun s l => s.dropBlock x.group.place.die (blockOf l.key)
    else if v.tail.modifier.x = 1 then
      s1.modDie x.group.place.die fun d => { d with work := d.work.filter fun b => b.twin.isSome }
    else s1.modDie x.group.place.die fun d => { d with kcopies := [], kinvHeld := d.work.map Block.key })

/-! ## Transfers and tiles -/

/-- R233, R235, R236, R240, R241, R245: `xfer` and `xgat` whose active lanes have no older store and good descriptors complete: each lane's
transfer enters the core's engine at its first byte under a handle of 0 to 63 (log entry 47) that no other transfer of the core
has, and is counted in the lane's class; `slset` writes 0 to COUNT and a TARGET to each lane's counter, which where several
lanes name one counter is any of theirs (log entry 77); `slwait` completes where ERR is clear and
COUNT has reached TARGET, and holds its lane until then; `xwait` completes where all but the n youngest operations of its class are done
without a failure (log entry 42), and holds its lane until they are done. -/
def Obligations.TransferInstructionsComplete : Prop :=
  (
    ∀ gather s x v i, (∃ o, i = if gather then Instr.xgat o else .xfer o) → Ready s i x v →
      let die := x.group.place.die
      let core := x.group.place.core
      (x.active v).length ≤ (s.freeHandles die core).length →
      (∀ t ∈ x.active v, t.sb = [] ∧ t.outstanding .transfer < 16 ∧ (t.descriptor x.group v gather 0 0).bad x.group = false) →
      ∃ h : Thread → Nat,
        (∀ t ∈ x.active v, h t < 64 ∧ (∀ y ∈ s.transfers, y.die = die → y.core = core → y.handle ≠ h t) ∧
          ∀ y ∈ x.active v, y.gidx ≠ t.gidx → h y ≠ h t) ∧
        CompletesWith s i x v
          (fun t => { t with ops := t.ops ++ [{ id := s.next.op, cls := some .transfer, kind := .transfer (h t) none,
                                                done := false, cancelled := [] }] })
          (fun _ => none)
          (fun s1 => { s1 with
            transfers := s1.transfers ++ (x.active v).map fun t => t.descriptor x.group v gather (h t) s.next.op
            next := { s1.next with op := s1.next.op + 1 } })
  ) ∧
  (
    let counter := fun (s : State) (x : Issue) (v : View) (t : Thread) =>
      (t.a32 v).toNat % 8 = 0 ∧ (t.a32 v).toNat + 8 ≤ x.group.scratchSize ∧ x.group.heldByOrder t s.next.op = false ∧
        ∀ e ∈ t.sb, ∀ sp, e.span = some sp → spansMeet sp (true, (t.a32 v).toNat, 8) = false
    (∀ o s x v, Ready s (.slset o) x v → (∀ t ∈ x.active v, counter s x v t) →
      ∃ target : Nat → Word,
        (∀ t ∈ x.active v, ∃ y ∈ x.active v, y.a32 v = t.a32 v ∧ target (t.a32 v).toNat = y.b32 v) ∧
        CompletesWith s (.slset o) x v id (fun _ => none) fun s1 => (s1.modGroup x.group.gid fun g =>
          (x.active v).foldl (fun (g : Group) t =>
            let off := (t.a32 v).toNat
            { g with scratch := g.scratch.writeN off (bytesOfNat 0 4 ++ bytesOfNat (target off).toNat 4)
                     scratchErrors := g.scratchErrors.filter fun e => !(off ≤ e && e < off + 8)
                     sluiceFails := g.sluiceFails.filter fun f => f.1 != off }) g).takePlaces 1) ∧
    (∀ o s x v, Ready s (.slwait o) x v →
      (∀ t ∈ x.active v, counter s x v t ∧ x.group.scratchError (t.a32 v).toNat 8 = none ∧
        let word := natOfBytes (x.group.scratch.readN (t.a32 v).toNat 4)
        word < 2 ^ 31 ∧ natOfBytes (x.group.scratch.readN ((t.a32 v).toNat + 4) 4) ≤ word) →
      CompletesLanes s (.slwait o) x v id) ∧
    (∀ o s x v, Ready s (.slwait o) x v →
      let word := fun (t : Thread) => natOfBytes (x.group.scratch.readN (t.a32 v).toNat 4)
      (∀ t ∈ x.active v, counter s x v t ∧ x.group.scratchError (t.a32 v).toNat 8 = none ∧ word t < 2 ^ 31) →
      HoldsLanes s (.slwait o) x v (fun t =>
        if natOfBytes (x.group.scratch.readN ((t.a32 v).toNat + 4) 4) ≤ word t then none
        else some (.slwait (t.a32 v).toNat (v.next x.pc))) id id) ∧
    (∀ o s x v, Ready s (.xwait o) x v →
      (∀ t ∈ x.active v,
        let ops := t.ops.filter fun o => o.cls = some (classOfX v.tail.modifier.x)
        ∀ o ∈ ops.take (ops.length - v.b.toNat), o.done = true ∧ o.failure = none) →
      CompletesLanes s (.xwait o) x v id) ∧
    (∀ o s x v, Ready s (.xwait o) x v →
      let awaited := fun (t : Thread) =>
        let ops := t.ops.filter fun o => o.cls = some (classOfX v.tail.modifier.x)
        ops.take (ops.length - v.b.toNat)
      (∀ t ∈ x.active v, (∀ o ∈ awaited t, o.done = true) → ∀ o ∈ awaited t, o.failure = none) →
      HoldsLanes s (.xwait o) x v (fun t => if ∀ o ∈ awaited t, o.done = true then none
        else some (.xwait (classOfX v.tail.modifier.x) v.b.toNat)) id id) ∧
    (classOfX 0 = .load ∧ classOfX 1 = .transfer ∧ classOfX 2 = .tile ∧ classOfX 3 = .pod)
  )

/-- R246, R249 to R254, R256, R263: a tile instruction whose shapes and rows pass their checks completes: its operation, with
the shapes and the rounding mode of that moment, joins the group's; `tld`, `tst`, `trd` and `twr` are counted in each active lane's
class, and `trd` empties its destination. Nothing of the tiles has changed yet. -/
def Obligations.TileInstructionsIssue : Prop :=
  ∀ i s x v rows,
    (∃ o, i = .tld o ∨ i = .tst o ∨ i = .tzero o ∨ i = .tmma o ∨ i = .tmmas o ∨ i = .tscal o ∨ i = .trd o ∨ i = .twr o ∨
      i = .tcvt o ∨ i = .ttr o) →
    Ready s i x v → x.active v ≠ [] → tileTrap i v x.group = none →
    (∀ r, tilePair i v x.group = some r → ∀ t ∈ x.active v, t.isFull (r + 1) = true) →
    (i.tileCounted = true → ∀ t ∈ x.active v, t.outstanding .tile < 16 ∧ (i.tileNeed ≠ none → t.sb = [])) →
    (i.tileNeed = none → rows = []) →
    (∀ need t, i.tileNeed = some need → (x.active v).head? = some t → s.tileRows x.group t i v need = .ok rows) →
    CompletesWith s i x v
      (fun t => { t with
        fe := match i with
          | .trd _ => (t.markN v.d.toNat (if (tilePair i v x.group).isSome then 2 else 1) .trd).fe
          | _ => t.fe
        ops := t.ops ++ (if i.tileCounted then [{ id := s.next.op, cls := some .tile, kind := .tile s.next.op, done := false,
                                                  cancelled := [] }] else []) })
      (fun _ => none)
      (fun s1 =>
        let op := makeTileOp x i v (x.active v) s.next.op rows
        let s1 := rows.flatten.foldl (fun s1 p => s1.touch p.1.ctx p.1.home) s1
        let s1 := if op.gang.isSome then s1.modGroup x.group.gid fun g => { g with gangIssued := g.gangIssued + 1 } else s1
        { s1 with tileOps := s1.tileOps ++ [op], next := { s1.next with op := s1.next.op + 1 } })

/-- R105 to R111, R252 to R266, Table 12-3: what each tile operation leaves when its turn has come: the sums of the products in
ascending order, element for element, of one core and of a gang with rank 0's A; `tscal` with its two roundings; conversions,
transposes, writes and reads of elements and bits; rows loaded and stored; the exceptions raised; and no other byte or bit of a tile. An
element in error enters as +0, a bit in error as 0. `tld` and `tst` move every row's bytes of one sector a step, of token class `tst` of one
8-byte part, in ascending order of addresses (R195, R253). That every other operation is carried out in one step is the model's choice
(log entry 53), and so is it that the higher row's bytes stand where rows of one `tst` overlap (log entry 94). -/
def Obligations.TileOperationsPerform : Prop :=
  (∀ o, TilePerforms (.tmma o) fun p v _ g T y => shapeWidth p.shapeD = (productWidths v.tail.modifier.x.toNat).2 →
    shapeValid p.shapeD = true →
    ∃ raised, ProductSums false p.rm v p.shapeD p.shapeA g g y v.a.toNat raised ∧ FlagsRaised p g T raised) ∧
  (∀ o, TilePerforms (.tmmas o) fun p v _ g T y => shapeWidth p.shapeD = (productWidths v.tail.modifier.x.toNat).2 →
    shapeValid p.shapeD = true →
    ∃ raised, ProductSums true p.rm v p.shapeD p.shapeA g g y v.a.toNat raised ∧ FlagsRaised p g T raised) ∧
  (∀ s die core op o n first ga v0, (s.tileOps.find? fun o => o.die = die && o.core = core && o.id = op) = some o →
    o.gang = some n → (s.gangOps o).head? = some first → s.group first.gid = some ga → first.instr.view = some v0 →
    (s.gangOps o).length = 4 → (∀ q ∈ s.gangOps o, s.tileReady q = true) → ((s.gangOps o).map TileOp.gid).Nodup →
    ∃ T, exec (.tileComplete die core op) s = .next T ∧ ∀ q ∈ s.gangOps o, ∀ v g, q.instr.view = some v →
      s.group q.gid = some g → shapeValid q.shapeD = true → shapeWidth q.shapeD = (productWidths v.tail.modifier.x.toNat).2 →
      ∃ y, T.group q.gid = some y ∧ ∃ raised, FlagsRaised q g T raised ∧
        ((∃ f, q.instr = .tmma f) → ProductSums false q.rm v q.shapeD q.shapeA ga g y v0.a.toNat raised) ∧
        ((∃ f, q.instr = .tmmas f) → ProductSums true q.rm v q.shapeD q.shapeA ga g y v0.a.toNat raised)) ∧
  (∀ o, TilePerforms (.tscal o) fun p v _ g T y => shapeValid p.shapeD = true → shapeWidth p.shapeD = 4 →
    let e := fun t r c => fmtF32.unpack (g.operandElem t r c 4)
    let scale := fun i j => fmtF32.mul ⟨p.rm, false⟩ (e v.b.toNat 0 i) (e v.b.toNat 1 j)
    let sum := fun i j => fmtF32.fma ⟨p.rm, false⟩ (e v.a.toNat i j) (fmtF32.unpack (scale i j).1) (e v.d.toNat i j)
    (∀ i j, i < shapeRows p.shapeD → j < shapeCols p.shapeD → y.tileElem v.d.toNat i j 4 = (sum i j).1) ∧
    FlagsRaised p g T (fun b => ∃ i j, i < shapeRows p.shapeD ∧ j < shapeCols p.shapeD ∧
      ((scale i j).2.testBit b = true ∨ (sum i j).2.testBit b = true)) ∧
    TileBytesKept g y v.d.toNat (shapeRows p.shapeD) (shapeCols p.shapeD) 4 ∧ y.bitmapZero = g.bitmapZero) ∧
  (∀ o, TilePerforms (.tcvt o) fun p v _ g T y => ∀ sf df, numFormat (descCode v.tail.modifier.c) = some sf →
    numFormat (descCode v.b) = some df → shapeValid p.shapeD = true → 8 * shapeWidth p.shapeD = df.width →
    let result := fun i j => convert sf df ⟨p.rm, v.tail.modifier.sat⟩ (v.b.getLsbD 0)
      (g.operandElem v.a.toNat i j (shapeWidth p.shapeA))
    (∀ i j, i < shapeRows p.shapeD → j < shapeCols p.shapeD →
      y.tileElem v.d.toNat i j (shapeWidth p.shapeD) = (result i j).1 % 2 ^ df.width ∧
      y.tileBit v.d.toNat i j = g.operandBit v.a.toNat i j) ∧
    FlagsRaised p g T (fun b => ∃ i j, i < shapeRows p.shapeD ∧ j < shapeCols p.shapeD ∧ (result i j).2.testBit b = true) ∧
    TileBytesKept g y v.d.toNat (shapeRows p.shapeD) (shapeCols p.shapeD) (shapeWidth p.shapeD) ∧
    TileBitsKept g y v.d.toNat (shapeRows p.shapeD) (shapeCols p.shapeD)) ∧
  (∀ o, TilePerforms (.ttr o) fun p v _ g _ y => shapeValid p.shapeD = true →
    (∀ i j, i < shapeRows p.shapeD → j < shapeCols p.shapeD →
      y.tileElem v.d.toNat i j (shapeWidth p.shapeD) = g.operandElem v.a.toNat j i (shapeWidth p.shapeD) ∧
      y.tileBit v.d.toNat i j = g.operandBit v.a.toNat j i) ∧
    TileBytesKept g y v.d.toNat (shapeRows p.shapeD) (shapeCols p.shapeD) (shapeWidth p.shapeD) ∧
    TileBitsKept g y v.d.toNat (shapeRows p.shapeD) (shapeCols p.shapeD)) ∧
  (∀ o, TilePerforms (.tzero o) fun _ v _ g _ y =>
    (∀ r c, r < 128 → c < 512 → y.tileElem v.d.toNat r c 1 = 0 ∧ y.tileBit v.d.toNat r c = true) ∧
    TileBytesKept g y v.d.toNat 128 512 1 ∧ TileBitsKept g y v.d.toNat 128 512) ∧
  (∀ o, TilePerforms (.twr o) fun p v _ g _ y => shapeValid p.shapeD = true →
    let names := fun (q : Nat × Word × Dword × Nat) (r c : Nat) => q.2.1.toNat = 65536 * r + c
    TileBytesKept g y v.d.toNat (shapeRows p.shapeD) (shapeCols p.shapeD) (shapeWidth p.shapeD) ∧
    TileBitsKept g y v.d.toNat (shapeRows p.shapeD) (shapeCols p.shapeD) ∧
    ∀ r c, r < shapeRows p.shapeD → c < shapeCols p.shapeD →
      let w := shapeWidth p.shapeD
      ((∀ q ∈ p.args, ¬names q r c) → y.tileElem v.d.toNat r c w = g.tileElem v.d.toNat r c w ∧
        y.tileBit v.d.toNat r c = g.tileBit v.d.toNat r c) ∧
      ∀ (i : Nat) q, p.args[i]? = some q → names q r c → (∀ (j : Nat) q', i < j → p.args[j]? = some q' → ¬names q' r c) →
        if v.tail.modifier.x = 1
        then y.tileBit v.d.toNat r c = q.2.2.1.getLsbD 0 ∧ y.tileElem v.d.toNat r c w = g.tileElem v.d.toNat r c w
        else y.tileElem v.d.toNat r c w = q.2.2.1.toNat % 2 ^ (8 * w) ∧ y.tileBit v.d.toNat r c = g.tileBit v.d.toNat r c) ∧
  (∀ o, TilePerforms (.trd o) fun p v _ g _ y => y.tileMem = g.tileMem ∧ y.bitmapZero = g.bitmapZero ∧
    ∀ q ∈ p.args, (∀ q' ∈ p.args, q'.1 = q.1 → q' = q) → ∀ t op, g.thread q.1 = some t → t.state ≠ .exited → t.remote = [] →
      (t.ops.find? fun o => o.id = p.id) = some op → op.cancelled = [] →
      let r := q.2.1.toNat / 65536
      let c := q.2.1.toNat % 65536
      let w := shapeWidth p.shapeB
      let value := if shapeRows p.shapeB ≤ r ∨ shapeCols p.shapeB ≤ c then 0
        else if v.tail.modifier.x = 1 then (if g.operandBit v.b.toNat r c then 1 else 0) else g.operandElem v.b.toNat r c w
      ∃ z, y.thread q.1 = some z ∧ z.reg q.2.2.2 = BitVec.ofNat 32 value ∧ z.isFull q.2.2.2 = true ∧
        (v.tail.modifier.x = 0 → w = 8 →
          z.reg (q.2.2.2 + 1) = BitVec.ofNat 32 (value / 2 ^ 32) ∧ z.isFull (q.2.2.2 + 1) = true)) ∧
  (∀ o, TilePerforms (.tld o) fun p v s g T y => s.poison = [] → PlainPieces p.pieces → shapeValid p.shapeD = true →
    p.rows.length = shapeRows p.shapeD →
    let mode := v.tail.modifier.x.toNat % 4
    let w := shapeWidth p.shapeD
    let n := tileRowBytes p.shapeD (mode = 2)
    (∀ ps ∈ p.rows, (ps.map Prod.snd).sum = n) → MemoryKept s T ∧
    (∀ e, p.stepEnd = some e → y.tileMem = g.tileMem ∧ y.bitmapZero = g.bitmapZero ∧
      ∃ z, (T.tileOps.find? fun o => o.die = p.die && o.core = p.core && o.id = p.id) = some z ∧
        z = { p with upTo := e, buffer := z.buffer } ∧
        (∀ q ∈ p.parts, ∀ k, k < q.2.2.1 → z.buffer.read (q.1 * n + q.2.1 + k) = s.dieByte p.die (q.2.2.2.key + k)) ∧
        ∀ a, (∀ q ∈ p.parts, a < q.1 * n + q.2.1 ∨ q.1 * n + q.2.1 + q.2.2.1 ≤ a) → z.buffer.read a = p.buffer.read a) ∧
    (p.stepEnd = none → (∀ z ∈ T.tileOps, z.id = p.id → z.gid ≠ p.gid) ∧
      (∀ r c, r < shapeRows p.shapeD → c < shapeCols p.shapeD →
        let byte := fun k => p.buffer.read (r * n + k)
        if mode = 2 then y.tileBit v.d.toNat r c = (byte (c / 8)).getLsbD (c % 8) ∧
          y.tileElem v.d.toNat r c w = g.tileElem v.d.toNat r c w
        else y.tileElem v.d.toNat r c w = natOfBytes ((List.range w).map fun i => byte (c * w + i)) ∧
          y.tileBit v.d.toNat r c = (mode = 0 || y.tileElem v.d.toNat r c w != 0)) ∧
      TileBytesKept g y v.d.toNat (shapeRows p.shapeD) (shapeCols p.shapeD) w ∧
      TileBitsKept g y v.d.toNat (shapeRows p.shapeD) (shapeCols p.shapeD))) ∧
  (∀ o, TilePerforms (.tst o) fun p v s g T y => s.poison = [] → PlainPieces p.pieces →
    (∀ ps ∈ p.rows, (ps.map Prod.snd).sum = tileRowBytes p.shapeD (v.tail.modifier.x.toNat % 4 = 1)) →
    y.tileMem = g.tileMem ∧ y.bitmapZero = g.bitmapZero ∧ MemoryKept s T ∧
    (∀ e, p.stepEnd = some e →
      (∃ z, (T.tileOps.find? fun o => o.die = p.die && o.core = p.core && o.id = p.id) = some z ∧ z = { p with upTo := e }) ∧
      ∀ (j : Nat) q k, p.parts[j]? = some q → k < q.2.2.1 →
        (∀ (j' : Nat) q' k', p.parts[j']? = some q' → j < j' → k' < q'.2.2.1 → q'.2.2.2.key + k' ≠ q.2.2.2.key + k) →
        let w := shapeWidth p.shapeD
        let c := q.2.1 + k
        (v.tail.modifier.x.toNat % 4 ≠ 1 →
          T.dieByte p.die (q.2.2.2.key + k) = byteAt (g.operandElem v.d.toNat q.1 (c / w) w) (c % w)) ∧
        (v.tail.modifier.x.toNat % 4 = 1 → ∀ i, i < 8 → (T.dieByte p.die (q.2.2.2.key + k)).getLsbD i =
          (decide (8 * c + i < shapeCols p.shapeD) && g.operandBit v.d.toNat q.1 (8 * c + i)))) ∧
    (p.stepEnd = none → (∀ l ∈ p.lanes, s.tablePending p.gid l.1 (l.2 + 1) = false) →
      ∀ z ∈ T.tileOps, z.id = p.id → z.gid ≠ p.gid)) ∧
  (∀ (p : TileOp) b, LeastFrom p.stretches p.upTo b →
    ∃ l, (∃ r : Nat, ∃ ps q, p.rows[r]? = some ps ∧ p.stretches[r]? = some q ∧ q.1 ≤ b ∧ pieceFrom ps (b - q.1) = some l) ∧
      let unit := if p.instr.tileNeed = some .write ∧ l.token = true ∧ l.table = false then 8 else 32
      p.stepEnd = some (unit * (b / unit + 1)) ∧
      BytesFrom p.stretches p.upTo (unit * (b / unit + 1)) (p.parts.map fun q => (q.1, q.2.1, q.2.2.1)) ∧
      ∀ q ∈ p.parts, ∃ ps, p.rows[q.1]? = some ps ∧ keyAt ps q.2.1 = some q.2.2.2.key) ∧
  (∀ (p : TileOp), (∀ b, ¬LeastFrom p.stretches p.upTo b) → p.stepEnd = none ∧ p.parts = []) ∧
  (∀ g t r c w, Group.operandElem g t r c w =
      (if ∃ e ∈ g.tileErrors, e.2 = false ∧ tileAt t r c w ≤ e.1 ∧ e.1 < tileAt t r c w + w then 0 else g.tileElem t r c w) ∧
    g.operandBit t r c = (!g.tileErrors.contains (tileAt t r c 1, true) && g.tileBit t r c))

/-! ## The pod -/

/-- R281, R282, R286, R288, R289, R291: `pst`, `prel`, `rst` and `pmc` complete as `PodWrites` and `PodFlags` say; `rst` with X[1] is a
flag. -/
def Obligations.PodSendsComplete : Prop :=
  (∀ o, PodWrites (.pst o) (fun s x v t => s.addrSend x.group t v .pst (4 * 2 ^ (v.tail.modifier.x.extractLsb' 0 2).toNat))
    fun _ => True) ∧
  (∀ o, PodWrites (.pmc o) (fun s x v t => s.pmcSend x.group t v (if v.tail.modifier.x.getLsbD 0 then 8 else 4)) fun _ => True) ∧
  (∀ o, PodWrites (.rst o) (fun s x v t => s.rstSend x.group t v .rst (if v.tail.modifier.x.getLsbD 0 then 8 else 4))
    fun v => v.tail.modifier.x.getLsbD 1 = false) ∧
  (∀ o, PodFlags (.rst o) (fun s x v t => s.rstSend x.group t v .rstFlag (if v.tail.modifier.x.getLsbD 0 then 8 else 4))
    fun v => v.tail.modifier.x.getLsbD 1 = true) ∧
  (∀ o, PodFlags (.prel o) (fun s x v t => s.addrSend x.group t v .flag 4) fun _ => True)

/-- R281, R283 to R285, R287: `pld` and `patom` whose lanes reach a window and have room complete: each active lane's destination is empty
with the code POD and its request waits to leave under a free tag; `pacq` completes where every active lane reads a word
that meets its condition: the word is written to d, and the acquire step is taken. -/
def Obligations.PodReadsComplete : Prop :=
  (
    (∀ o s x v (w : Thread → Nat × Nat), Ready s (.pld o) x v →
      let n := 4 * 2 ^ (v.tail.modifier.x.extractLsb' 0 2).toNat
      (∀ t ∈ x.active v, s.podWindow x.group t (t.a64 v) n .read = .ok (w t) ∧ s.requestRoom t = none) →
      CompletesWith s (.pld o) x v
        (fun t => { t with
          fe := (t.markN v.d.toNat (n / 4) .pod).fe
          ops := t.ops ++ [{ id := s.next.op, cls := some .pod, kind := .podRead v.d.toNat n, done := false, cancelled := [] }] })
        (fun _ => none)
        (fun s1 => ((x.active v).foldl (fun s1 t =>
          s1.sendRequest x.group t (t.a64 v) s.next.op (w t).1 { addrPacket .pld t (w t).2 0 [] with len := n }) s1).takePlaces 1)) ∧
    (∀ o s x v (w : Thread → Nat × Nat), Ready s (.patom o) x v →
      let n := if v.b.getLsbD 2 then 8 else 4
      let word := fun (t : Thread) (r : Nat) => if n = 8 then t.pair r else (t.reg r).zeroExtend 64
      (∀ t ∈ x.active v, s.podWindow x.group t (t.a64 v) n .both = .ok (w t) ∧ s.requestRoom t = none) →
      CompletesWith s (.patom o) x v
        (fun t => { t with
          fe := (t.markN v.d.toNat (n / 4) .pod).fe
          ops := t.ops ++ [{ id := s.next.op, cls := some .pod, kind := .podAtom v.d.toNat n, done := false, cancelled := [] }] })
        (fun _ => none)
        (fun s1 => ((x.active v).foldl (fun s1 t =>
          s1.sendRequest x.group t (t.a64 v) s.next.op (w t).1
            { addrPacket .patom t (w t).2 0 [] with
              desc := v.b, operand := word t v.tail.modifier.c.toNat, expected := word t v.d.toNat }) s1).takePlaces 1))
  ) ∧
  (
    ∀ o s x v (l : Thread → Loc) (w : Thread → Word), Ready s (.pacq o) x v →
      (∀ t ∈ x.active v, s.globalAccess x.group t (t.a64 v) 0 4 .read = .ok (l t) ∧ t.acquires = [] ∧ x.group.heldByOrder t s.next.op = false ∧
        (∀ o ∈ t.ops, ∀ sp, o.span = some sp → spansMeet sp (false, (l t).key, 4) = false) ∧
        (s.pacqRead x.group t (l t)).1 = some (w t) ∧
        (v.tail.modifier.x = 0 ∧ w t ≠ t.b32 v ∨ v.tail.modifier.x = 1 ∧ w t = t.b32 v ∨
          2 ≤ v.tail.modifier.x.toNat ∧ (w t - t.b32 v).toNat < 2 ^ 31)) →
      CompletesWith s (.pacq o) x v (fun t => t.setReg v.d.toNat (w t)) (fun _ => none) fun s1 =>
        let s1 := (x.active v).foldl (fun s1 t =>
          let s1 := s1.touch t.ctxid.toNat (l t).home
          if (s1.pacqRead x.group t (l t)).1.isSome then s1.readServed x.group.place.die (l t) 4
          else if s1.readReaches x.group.place.die .g (l t) true then s1 else s1.countFiltered) s1
        if x.active v = [] then s1 else s1.acquireStep x.group.place.die
  )

/-! ## Launches, names and service calls -/

/-- R155, R156, R387, R391: `launch` and `launch.w` whose headers can be read complete: each active lane's d is empty with the code of its
instruction behind a .dev release mark, the read is served, and the store decides the lanes in ascending position. That a launch is
decided first only where no `launch.w` waits before it, in issue and in lane order, is the model's choice (log entry 65), and so is that
the header read waits for no acquire (log entry 95). -/
def Obligations.LaunchesIssue : Prop :=
  ∀ wait s x v (l : Thread → Loc) i, (∃ o, i = if wait then Instr.launchW o else .launch o) → Ready s i x v →
    let bytes := fun (t : Thread) => s.headerBytes x.group.place.die t s.next.op (l t)
    let store := fun (t : Thread) => storeOf x.group (headerOf (bytes t))
    (∀ t ∈ x.active v, t.sb.length + 1 ≤ 64 ∧ x.group.heldByOrder t s.next.op = false ∧ s.launchLoc x.group t v = .ok (l t)) →
    CompletesWith s i x v
      (fun t => { t with
        fe := (t.mark v.d.toNat (if wait then .launchW else .launch)).fe
        sb := t.sb ++ [{ seq := s.next.op, kind := .mark .dev .stores, data := 0, size := 0 }]
        ops := t.ops ++ [{ id := s.next.op + 1, cls := none, kind := .launch wait (l t) (store t) none v.d.toNat, done := false,
                           cancelled := [] }] })
      (fun _ => none)
      (fun s1 => ((x.active v).foldl (fun s1 t =>
        let s1 := (s1.touch t.ctxid.toNat (l t).home).readServed x.group.place.die (l t) 128
        let ahead := (s1.storeWaiters (store t)).any fun w => w.1 < s.next.op + 1 || w.2.1 < t.lane
        let r := s1.decideLaunch x.group t (bytes t) wait (!ahead) s.next.op
        r.2.modThread x.group.gid t.gidx fun y => y.setStatus (s.next.op + 1) r.1) s1).takePlaces 2)

/-- R156, R341, R342, R391, R393, Table 6-4: the statuses of a launch: 2 for a bad header; 0 where the store takes the launch, which then
waits in it with its issuer's context and polder, held where a halt has stopped its issuer since; 1 for `launch` at a full store, and
none yet for `launch.w`; what a good header of a launch always has; and no byte of memory but the masks changes where every token
is at its home. That a later launch takes an entry only where no `launch.w` waits for the same store is the model's choice (log entry 65). -/
def Obligations.LaunchStatuses : Prop :=
  (
    ∀ s g t bs wait first mark,
      let w := whoOf g t
      let s1 := s.touchCode w false bs
      ¬((headerOf bs).isFolio = true ∧ t.pl ≠ 0) → s1 = { s with mem := s1.mem, tokens := s1.tokens } ∧
      (s.tokens.lines = [] → MemoryKept s s1) ∧
      (s1.goodHeader w false bs = none → State.decideLaunch s g t bs wait first mark = (some 2, s1)) ∧
      ∀ h b, s1.goodHeader w false bs = some (h, b) →
        (s.storeUsed (storeOf g h) < 4096 → (first = true ∨ s.storeWaiters (storeOf g h) = []) →
          ∃ T, State.decideLaunch s g t bs wait first mark = (some 0, T) ∧ T = { s1 with launches := T.launches, next := T.next } ∧
            ∃ y, T.launches = s.launches ++ [y] ∧ y.header = h ∧ y.ctx = w.ctx ∧ y.polder = w.polder ∧ y.store = storeOf g h ∧
              y.phase = .queued ∧ y.mark = some (g.gid, t.gidx, mark) ∧ y.lid = s.next.lid ∧ y.budget = b ∧
              y.held = (t.ops.find? fun o => o.id = mark + 1).any Op.held) ∧
        (4096 ≤ s.storeUsed (storeOf g h) →
          State.decideLaunch s g t bs wait first mark = (if wait then none else some 1, s1))
  ) ∧
  (
    ∀ s w bs h b, State.goodHeader s w false bs = some (h, b) →
      bs.length = 128 ∧ 1 ≤ h.groups ∧ h.groups ≤ 2 ^ 32 ∧ h.scratch ≤ 524288 ∧ h.tiles ≤ 8 ∧
      (h.quantum = 0 ∨ 10 ≤ h.quantum.toNat ∧ h.quantum.toNat ≤ 10000) ∧ h.rquant.toNat ≤ 2 ^ 24 ∧ h.done.toNat % 4 = 0 ∧
      h.entry.toNat % 4 = 0 ∧ h.entry.toNat < 2 ^ 56 ∧ h.preds = 0 ∧ h.succn = 0 ∧ (h.isGang = true → h.groups % 4 = 0) ∧
      (h.isReplay = true → h.isGang = false ∧ h.isStream = false ∧ h.groups ≤ 31) ∧ 1 ≤ b ∧ b ≤ 128
  )

/-- R152, R157, R329: on a compute core outside the service group `svc` whose ring has room completes: d, or its pair, is empty with the
code SVC behind a .die release mark, and the lanes' records form one batch; `gname` completes with its pair empty. -/
def Obligations.ServiceAndNamesIssue : Prop :=
  (∀ o s x v, Ready s (.svc o) x v → x.group.servesItself = false → s.svcWaits x.group.place.die = false →
    (∀ t ∈ x.active v, t.sb.length + 1 ≤ 64) →
    CompletesWith s (.svc o) x v
      (fun t => { t with
        fe := (t.markN v.d.toNat (if v.tail.modifier.x = 1 then 2 else 1) .svc).fe
        sb := t.sb ++ [{ seq := s.next.op, kind := .mark .die .stores, data := 0, size := 0 }] })
      (fun _ => none)
      (fun s1 => if x.active v = [] then s1 else { s1 with
        batches := s1.batches ++ [{ die := x.group.place.die, records := (x.active v).map fun t => (t.gidx, svcRecord x.group t v)
                                    marks := (x.active v).map fun t => (x.group.gid, t.gidx, s.next.op) }]
        next := { s1.next with op := s1.next.op + 1 } })) ∧
  (∀ o s x v, Ready s (.gname o) x v →
    CompletesWith s (.gname o) x v
      (fun t => { t with
        fe := (t.markN v.d.toNat 2 .gname).fe
        ops := t.ops ++ [{ id := s.next.op, cls := none, kind := .gname (t.a64 v) v.d.toNat, done := false, cancelled := [] }] })
      (fun _ => none) (fun s1 => s1.takePlaces 1))

/-! ## System instructions -/

/-- R331, R335, R336: on a control core `eret` restores the level and goes to epc, and traps ALIGN where epc is no instruction's address;
`wfe` and, after its release, `halt` consume an event and take the acquire step, and without one they hold their lane, `halt` after its
accesses are done and its release is complete; `sev` after its release, which holds its lane, sends its event, and traps PROT
where its target is none that the thread may reach. -/
def Obligations.EventAndReturnComplete : Prop :=
  (∀ o s x v k, Ready s (.eret o) x v → x.group.control = some k →
    (∀ t ∈ x.active v, t.epc.toNat % 4 = 0 ∧ t.epc.toNat < 2 ^ 56) →
    CompletesWith s (.eret o) x v (fun t => { t with pl := t.ppl, ppl := 0 })
      (fun t => some (BitVec.ofNat 56 t.epc.toNat)) id) ∧
  (∀ o s x v, Ready s (.wfe o) x v → (∀ t ∈ x.active v, t.ev = true) →
    CompletesWith s (.wfe o) x v (fun t => { t with ev := false, fence := .idle }) (fun _ => none)
      fun s1 => if x.active v = [] then s1 else s1.acquireStep x.group.place.die) ∧
  (∀ o s x v k, Ready s (.halt o) x v → x.group.control = some k →
    (∀ t ∈ x.active v, t.ev = true ∧ ∃ m, t.fence = .releasing m ∧ ∀ e ∈ t.sb, e.seq ≠ m) →
    CompletesWith s (.halt o) x v (fun t => { t with ev := false, fence := .idle }) (fun _ => none)
      fun s1 => (if x.active v = [] then s1 else s1.acquireStep x.group.place.die).takePlaces 1) ∧
  (∀ o s x v, Ready s (.sev o) x v →
    (∀ t ∈ x.active v, s.sevOk x.group t (t.b32 v) = true ∧ ∃ m, t.fence = .releasing m ∧ ∀ e ∈ t.sb, e.seq ≠ m) →
    CompletesWith s (.sev o) x v (fun t => { t with fence := .idle }) (fun _ => none)
      fun s1 => ((x.active v).foldl (fun s1 t => s1.sevTarget (t.b32 v)) s1).takePlaces 1) ∧
  (∀ o, TrapsOnControl (.eret o) fun _ _ _ t =>
    if t.epc.toNat % 4 = 0 ∧ t.epc.toNat < 2 ^ 56 then none else some { cause := .align, tval := t.epc }) ∧
  (
    let mark := fun (s : State) (t : Thread) => { t with
      sb := t.sb ++ [{ seq := s.next.op, kind := .mark .dev .stores, data := 0, size := 0 }], fence := .releasing s.next.op }
    let hold := fun (t : Thread) h => { t with state := .waiting h }
    let event := fun (t : Thread) (next : Pc) =>
      if t.ev then { t with ev := false, fence := .idle } else hold { t with fence := .idle } (.wfe next)
    let ready := fun (t : Thread) => match t.fence with
      | .idle => false
      | .releasing m => decide (∀ e ∈ t.sb, e.seq ≠ m)
      | .ticking _ => true
    (∀ o s x v, Ready s (.wfe o) x v →
      RunsWith s (.wfe o) x v (fun t => !t.ev) (fun t => event t (v.next x.pc)) (fun _ => none)
        fun s1 => if ∃ t ∈ x.active v, t.ev = true then s1.acquireStep x.group.place.die else s1) ∧
    (∀ o s x v k, Ready s (.halt o) x v → x.group.control = some k → (∀ t ∈ x.active v, t.fence = .idle → t.sb.length + 1 ≤ 64) →
      RunsWith s (.halt o) x v (fun t => !(ready t && t.ev)) (fun t =>
        if ready t then event t (v.next x.pc)
        else if t.fence = .idle ∧ t.drained = true then hold (mark s t) (.fence 4) else hold t (.fence 4)) (fun _ => none)
        fun s1 => (if ∃ t ∈ x.active v, ready t = true ∧ t.ev = true then s1.acquireStep x.group.place.die else s1).takePlaces 1) ∧
    (∀ o s x v, Ready s (.sev o) x v →
      (∀ t ∈ x.active v, s.sevOk x.group t (t.b32 v) = true ∧ (t.fence = .idle → t.sb.length + 1 ≤ 64)) →
      RunsWith s (.sev o) x v (fun t => !ready t) (fun t =>
        if ready t then { t with fence := .idle } else if t.fence = .idle then hold (mark s t) (.fence 5) else hold t (.fence 5))
        (fun _ => none)
        fun s1 => (((x.active v).filter ready).foldl (fun s1 t => s1.sevTarget (t.b32 v)) s1).takePlaces 1) ∧
    (∀ o, TrapsOnControl (.sev o) (fun s x v t => if s.sevOk x.group t (t.b32 v) then none else some { cause := .prot })) ∧
    (∀ (s : State) g t w, s.sevOk g t w = true ↔
      let die := BitVec.toNat w / 256 % 64
      let unit := BitVec.toNat w % 128
      w &&& 0xFFFFC080 = 0 ∧ die < 34 ∧ (if die < 32 then unit = 0 else unit < 96) ∧
        (t.polder = 0 ∨
          let p := s.polder (s.replicaOf g.place.die) t.polder.toNat
          (if die < 32 then p.dies.testBit die = true
           else if die = 32 then p.cc0.testBit (unit / 2) = true else p.cc1.testBit (unit / 2) = true)))
  )

/-- R321 to R323, R332, R426: `rdsys` that passes its checks writes the register's value, a pair for a 64-bit register, or
sends its downstream read; `wrsys` writes each active lane's own Thread register and, for a Die or Module register, the value of the lowest
active lane, or posts its downstream write. -/
def Obligations.SystemRegisterInstructions : Prop :=
  (∀ o s x v, Ready s (.rdsys o) x v → (∀ t ∈ x.active v, sysCheck x.group t v false = none) →
    (sysNumber v ≠ 0x02A → CompletesLanes s (.rdsys o) x v fun t =>
      if systemWidth (sysNumber v) = 2 then t.setPair v.d.toNat (s.sysRead x.group t (sysNumber v))
      else t.setReg v.d.toNat ((s.sysRead x.group t (sysNumber v)).extractLsb' 0 32)) ∧
    (sysNumber v = 0x02A → (∀ t ∈ x.active v, t.sb = [] ∧ t.outstanding .load < 64) →
      CompletesWith s (.rdsys o) x v (fun t => t.pciRead s.next.op v.d.toNat) (fun _ => none) fun s1 =>
        ((x.active v).foldl (fun s1 t => s1.pciReadSend x.group.gid s.next.op t) s1).takePlaces 1)) ∧
  (∀ o s x v, Ready s (.wrsys o) x v → (∀ t ∈ x.active v, sysCheck x.group t v true = none) →
    (sysNumber v ≠ 0x02A → CompletesWith s (.wrsys o) x v (fun t => t.sysWrite (sysNumber v) (t.sysSource v)) (fun _ => none)
      fun s1 => match x.active v with
        | [] => s1
        | t :: _ => s1.sysWrite x.group t (sysNumber v) (t.sysSource v)) ∧
    (sysNumber v = 0x02A → (∀ t ∈ x.active v, t.sb = [] ∧ (t.pciAligned = true → t.pciConfig = false)) →
      CompletesWith s (.wrsys o) x v (fun t => if t.pciAligned then t else t.pciFail) (fun _ => none) fun s1 =>
        ((x.active v).foldl (fun s1 t => s1.pciWriteSend x.group.gid t.gidx s.next.op t (t.sysSource v)) s1).takePlaces 1))

/-- R7, R8, R321 to R323, R416, Tables 19-1, 19-2, 23-2, 24-1 and 26-1 to 26-4: what each written system register reads, by its writable
bits: sys.status, which holds PPL and PL on every core, the trap registers, ctxid, polder, the die's and the module's registers, the
counters, the plane map, the notices and sys.pciaddr, whose ERR and whose notices a 1 clears; sys.fctl reads 0. What sys.polder keeps
of a written word is log entry 32's. -/
def Obligations.SystemRegistersReadBack : Prop :=
  ∀ s g t x,
    let thread := fun n => s.sysRead g (Thread.sysWrite t n x) n
    let module := fun n => (State.sysWrite s g t n x).sysRead g t n
    let w : Word := x.extractLsb' 0 32
    s.sysRead g t 0x000 = (0 : BitVec 60) ++ t.ppl ++ t.pl ∧
    thread 0x001 = x ∧ thread 0x003 = w.zeroExtend 64 ∧ thread 0x004 = x ∧ thread 0x006 = x &&& 0x00FFFFFFFFFFFFFC ∧
    thread 0x008 = w.zeroExtend 64 ∧ thread 0x00F = x &&& 1 ∧
    (t.pl.toNat < (x.extractLsb' 2 2).toNat → Thread.sysWrite t 0x000 x = t) ∧
    ((x.extractLsb' 2 2).toNat ≤ t.pl.toNat → Thread.sysWrite t 0x000 x = { t with ppl := x.extractLsb' 2 2 }) ∧
    module 0x00A = (w &&& 0xF).zeroExtend 64 ∧ module 0x00C = w.zeroExtend 64 ∧ module 0x00D = w.zeroExtend 64 ∧
    module 0x00E = (w &&& 0x3F7F).zeroExtend 64 ∧ module 0x010 = x &&& 0xFFFFFFFFFFFFF000 ∧ module 0x014 = x ∧
    module 0x016 = x ∧ module 0x01C = (w &&& 0x1FF).zeroExtend 64 ∧
    (w &&& 0x3F ≠ 0 → module 0x00B = (w &&& 0x3F).zeroExtend 64) ∧ (w &&& 0x3F = 0 → State.sysWrite s g t 0x00B x = s) ∧
    s.sysRead g t 0x012 = 0 ∧ thread 0x009 = (w &&& 0x1F).zeroExtend 64 ∧
    ((∀ i, i < 8 → s.regs.plmap.getLsbD (24 + field w (3 * i) 3) = false) →
      module 0x018 = (s.regs.plmap &&& 0xFF000000 ||| w &&& 0x00FFFFFF).zeroExtend 64) ∧
    ((∃ i, i < 8 ∧ s.regs.plmap.getLsbD (24 + field w (3 * i) 3) = true) → State.sysWrite s g t 0x018 x = s) ∧
    module 0x01A = (s.regs.notice &&& ~~~(w &&& 0x1DFF0000)).zeroExtend 64 ∧
    (∀ k, k < 8 → s.regs.dmactx.length = 8 → module (0x020 + k) = (w &&& 0x80000FFF).zeroExtend 64) ∧
    thread 0x028 = (x &&& 0xFCFFFFFFFFFFFFFF) ||| (t.pciaddr &&& ~~~x &&& 0x0200000000000000)

/-- R333, R334, R337 to R339, R373: `tlbi`, `tlbsync`, `dstep`, `ctxsv`, `ctxld` and `kerase` that pass their checks complete, with
the requests that they make. That `tlbsync` takes in the tables' measurement and that `ctxsv` of no live name still asks are the
model's readings (log entries 7 and 89). -/
def Obligations.MonitorInstructionsComplete : Prop :=
  (∀ o s x v, Ready s (.tlbi o) x v → (∀ t ∈ x.active v, s.tlbiTrap x.group t v = none) →
    CompletesWith s (.tlbi o) x v id (fun _ => none) fun s1 => (x.active v).foldl (fun s1 t => { s1 with
      tlbis := s1.tlbis ++ [{ id := s1.next.tlbi, kind := v.tail.modifier.x.toNat, va := t.a64 v, ctx := (t.b32 v).toNat
                              polder := t.polder.toNat, gid := x.group.gid, gidx := t.gidx, seq := s1.next.op
                              left := (List.range 34).filter fun d => !(s1.die d).lost || (s1.die d).leftReset }]
      next := { s1.next with tlbi := s1.next.tlbi + 1 } }) s1) ∧
  (∀ o s x v, Ready s (.tlbsync o) x v → (∀ t ∈ x.active v, s.tlbSynced x.group t = true) →
    CompletesWith s (.tlbsync o) x v id (fun _ => none) fun s1 =>
      let s1 := if x.active v = [] then s1 else s1.acquireStep x.group.place.die
      if ∃ t ∈ x.active v, t.pl = 2 then s1.measureTables else s1) ∧
  (∀ o s x v, Ready s (.dstep o) x v → (∀ t ∈ x.active v, s.dstepOk t (t.a64 v) = true) →
    CompletesWith s (.dstep o) x v id (fun _ => none) fun s1 => (x.active v).foldl (fun s1 t => s1.requestStep x.group t (t.a64 v)) s1) ∧
  (∀ o s x v, Ready s (.ctxsv o) x v → CompletesWith s (.ctxsv o) x v id (fun _ => none) fun s1 =>
    (x.active v).foldl (fun s1 t => s1.requestSave x.group t (t.a64 v) (t.b64 v)) s1) ∧
  (∀ (s : State) (g : Group) (t : Thread) (name area : Dword),
    (s.nameReached t.polder.toNat g.place.die name = false → s.requestSave g t name area = s.countFiltered) ∧
    (s.nameReached t.polder.toNat g.place.die name = true → s.findName name = none → s.requestSave g t name area = { s with
      saves := s.saves ++ [⟨false, 0, area, 0, t.ctxid.toNat, t.polder.toNat, t.pl, g.place.die, name, false⟩] }) ∧
    (∀ h, s.nameReached t.polder.toNat g.place.die name = true → s.findName name = some h → s.requestSave g t name area = ({ s with saves := s.saves ++
      [⟨false, h.gid, area, 0, t.ctxid.toNat, t.polder.toNat, t.pl, h.place.die, name, false⟩] } : State).takeOut h)) ∧
  (∀ o s x v, Ready s (.ctxld o) x v → (∀ t ∈ x.active v, placementOk (t.b32 v) = true) →
    CompletesWith s (.ctxld o) x v id (fun _ => none) fun s1 => (x.active v).foldl (fun s1 t =>
      s1.requestRestore x.group t (t.a64 v) (t.b32 v)) s1) ∧
  (∀ (s : State) (g : Group) (t : Thread) (area : Dword) (placement : Word),
    let die := field placement 6 5
    (g.place.die = die ∨ s.delivers t.polder.toNat die = true → s.requestRestore g t area placement = { s with
      saves := s.saves ++ [⟨true, 0, area, placement, t.ctxid.toNat, t.polder.toNat, t.pl, die, 0, false⟩] }) ∧
    (g.place.die ≠ die → s.delivers t.polder.toNat die = false → s.requestRestore g t area placement = s.countFiltered)) ∧
  (∀ o s x v k, Ready s (.kerase o) x v → x.group.control = some k → x.group.place.die = 32 →
    CompletesWith s (.kerase o) x v id (fun _ => none) fun s1 =>
      if x.active v = [] then s1 else { s1 with ports := { s1.ports with keys := false } })

/-- R80, R84, R85, R320, R321, R326, R330, R424, Tables 3-12, 19-1 and 19-7. On a control core an instruction above the thread's level, legal and
within the register budget, enters the handler with PRIV and its first word; an unassigned opcode, an instruction that control
cores lack, an illegal encoding and a Die register enter it with ILLOP. At check 7, on every core, a register's own least
privilege traps PRIV, and an instruction on a core that its row of Table 19-7 excludes traps ILLOP. So does a number of
Table 26-1 that is named on a compute core (R424). -/
def Obligations.PrivilegedInstructionsTrap : Prop :=
  (∀ i s x v t k, s.issue = some x → i.view = some v → x.group.control = some k → x.lanes = [t] → t.trapped = none →
    (t.pl.toNat < i.leastPrivilege → v.fmt ≠ .raw → i.excludedOnControl = false → i.legal v = true →
      i.dieRegisterOnControl v = false → EntersHandler s i x t 0x02 (v.base.zeroExtend 64)) ∧
    (v.fmt = .raw ∨ i.excludedOnControl = true ∨ i.legal v = false ∨ i.dieRegisterOnControl v = true →
      EntersHandler s i x t 0x01 (v.base.zeroExtend 64))) ∧
  (∀ i : Instr, (i.leastPrivilege = 2 ↔ ∃ o, i = .kerase o) ∧
    (i.leastPrivilege = 1 ↔ (∃ o, i = .eret o ∨ i = .rdsys o ∨ i = .wrsys o ∨ i = .tlbi o ∨ i = .tlbsync o ∨ i = .halt o ∨
      i = .wfe o ∨ i = .sev o ∨ i = .dstep o ∨ i = .ctxsv o ∨ i = .ctxld o)) ∧
    (i.excludedOnControl = true ↔ (∃ o, i = .xfer o ∨ i = .xgat o ∨ i = .slset o ∨ i = .slwait o ∨ i = .tld o ∨ i = .tst o ∨
      i = .tzero o ∨ i = .tmma o ∨ i = .tmmas o ∨ i = .tscal o ∨ i = .trd o ∨ i = .twr o ∨ i = .tcvt o ∨ i = .ttr o))) ∧
  (
    let check := fun (v : View) (t : Thread) (write : Bool) =>
      if t.pl.toNat < (if sysNumber v = 0x01C ∨ sysNumber v = 0x009 ∧ write = true then 2 else 1)
      then some { cause := .priv, tval := v.base.zeroExtend 64 : TrapInfo } else none
    (∀ (x : Issue) (v : View) (t : Thread) write, (systemReg (sysNumber v)).isSome = true →
      (x.group.control.isSome = true ∨ sysNumber v ≠ 0x028 ∧ sysNumber v ≠ 0x02A) →
      sysCheck x.group t v write = check v t write) ∧
    (∀ (x : Issue) (v : View) (t : Thread) write, systemReg (sysNumber v) = none ∨
      x.group.control = none ∧ (sysNumber v = 0x028 ∨ sysNumber v = 0x02A) →
      sysCheck x.group t v write = some { cause := .illop, tval := v.base.zeroExtend 64 }) ∧
    (∀ (i : Instr) v n, (∃ o, i = .rdsys o ∨ i = .wrsys o) → n = sysNumber v →
      (i.dieRegisterOnControl v = true ↔ n = 0x00B ∨ n = 0x00C ∨ n = 0x010 ∨ n = 0x012 ∨ n = 0x014 ∨ n = 0x016)) ∧
    (∀ o, TrapsOnControl (.rdsys o) (fun _ x v t => sysCheck x.group t v false) ∧
      TrapsOnControl (.wrsys o) (fun _ x v t => sysCheck x.group t v true) ∧
      TrapsOnCompute (.rdsys o) (fun _ _ => True) (fun _ x v t => sysCheck x.group t v false)
        (fun s x v t => if systemWidth (sysNumber v) = 2 then t.setPair v.d.toNat (s.sysRead x.group t (sysNumber v))
          else t.setReg v.d.toNat ((s.sysRead x.group t (sysNumber v)).extractLsb' 0 32)) fun _ _ _ => none)
  ) ∧
  (
    let illop := fun (v : View) => some ({ cause := .illop, tval := v.base.zeroExtend 64 } : TrapInfo)
    (∀ i, (∃ o, i = .eret o ∨ i = .halt o ∨ i = .kerase o) →
      TrapsOnCompute i (fun _ _ => True) (fun _ _ v _ => illop v) (fun _ _ _ t => t) fun _ _ _ => none) ∧
    ∀ o, TrapsOnControl (.kerase o) fun _ x v _ => if x.group.place.die = 32 then none else illop v
  )

/-! ## The abstract machine's steps -/

/-- R189 to R191: the runs of a block against its twin carry exactly the changed bytes, at most 128 in a run, and applied to a
home copy they replace those bytes and no others. -/
def Obligations.DifferencesCarryChanges : Prop :=
  ∀ (bytes twin : Memory),
    let runs := runsOf bytes (changedOffsets bytes twin)
    (∀ r ∈ runs, 1 ≤ r.data.length ∧ r.data.length ≤ 128 ∧ r.offset + r.data.length ≤ 512) ∧
    (∀ r ∈ runs, ∀ k, k < r.data.length → r.data[k]? = some (bytes.read (r.offset + k)) ∧
      bytes.read (r.offset + k) ≠ twin.read (r.offset + k)) ∧
    (∀ i, i < 512 → bytes.read i ≠ twin.read i → ∃ r ∈ runs, r.offset ≤ i ∧ i < r.offset + r.data.length) ∧
    ∀ (m : Memory) (key i : Nat), i < 512 →
      (runs.foldl (fun m r => m.writeN (key + r.offset) r.data) m).read (key + i) =
        if bytes.read i ≠ twin.read i then bytes.read i else m.read (key + i)

/-- R179, R196 to R198, R203, R231, R393 to R395, R415: TICK, FETCH of a block that a load needs, DROP and SEND; a store buffer entry that
is ready is performed into the scratchpad or the die's working copy, and a narrow release mark is gone; a load that is ready takes each
byte from its thread's youngest older store, else from the scratchpad or the die's working copy, or in space k the whole location as
the die keeps it or, after `cctl` with X = 2, as it stands at home. A load that meets an uncorrectable error or a poisoned line fills
nothing: its context halts with LEVEE (log entry 52), and so does that of a store whose home is lost and whose block the die does not
hold (R395). Whether what the die keeps stands is a free value (log entry 9); a die's own difference under way lies over what it
fetches (log entry 76). -/
def Obligations.AccessStepsPerform : Prop :=
  (∀ s, ∃ T, exec .tick s = .next T ∧ T = { s with clock := T.clock, ticks := T.ticks } ∧ T.clock % 512 = 0 ∧
    s.clock < T.clock ∧ T.clock ≤ s.clock + 512 ∧ T.ticks = T.clock / 512) ∧
  (∀ s die k, isBlockKey k = true → (s.die die).lost = false → (s.die (keyHome k)).lost = false → (s.die die).block k = none →
    let needed := ∃ p ∈ s.groups, p.2.place.die = die ∧ ∃ t ∈ p.2.threads, ∃ o ∈ t.2.ops, ∃ space l n d dev acq,
      o.kind = .load space l n d dev acq none ∧ space ≠ .l ∧ l.table = false ∧ l.token = false ∧ o.dropped = false ∧
      blockOf l.key = k ∧ s.passes l.polder die l.home = true
    (needed → exec (.fetch die k) s = .next (s.modDie die fun d => { d with
      work := insertBy Block.key { key := k, bytes := s.homeFor die k, twin := none, twinAge := 0, twinCtx := 0,
                                   twinPolder := 0, twinSupervisor := false } d.work })) ∧
    (¬needed → exec (.fetch die k) s = .next s)) ∧
  (∀ s die k, (∀ e ∈ (s.die die).sent ++ (s.die (keyHome k)).queue, ∀ runs sup, e.kind ≠ .diff k runs sup) →
    State.homeFor s die k = s.mem.slice k 512) ∧
  (∀ s die k, exec (.drop die k) s =
    .next (s.modDie die fun d => { d with work := d.work.filter fun b => !(b.key = k && b.twin.isNone) })) ∧
  (∀ s die k b w, (s.die die).block k = some b → b.twin = some w →
    let runs := runsOf b.bytes (changedOffsets b.bytes w)
    ∃ T, exec (.send die k) s = .next T ∧ T.mem = s.mem ∧ (T.die die).block k = some { b with twin := none } ∧
      (T.die die).sent = (s.die die).sent ++
        if runs = [] then [] else [{ id := s.next.send, src := die, home := keyHome k, polder := b.twinPolder,
                                     kind := .diff k runs b.twinSupervisor }]) ∧
  (∀ s gid gidx i g t e, s.group gid = some g → g.thread gidx = some t → t.sb[i]? = some e →
    s.entryReady g t (t.sb.take i) e = true →
    (∀ off, e.kind = .scratch off → exec (.performStore gid gidx i) s =
      .next ((s.modGroup gid fun g => { g with
        scratch := g.scratch.writeN off (bytesOfNat e.data.toNat e.size)
        scratchErrors := g.scratchErrors.filter fun k => !(off ≤ k && k < off + (bytesOfNat e.data.toNat e.size).length) }).modThread
        gid gidx fun t => { t with sb := t.sb.eraseIdx i })) ∧
    (∀ l sa, e.kind = .global l sa → l.table = false → l.token = false → s.reaches g.place.die l = true →
      ((s.die l.home).lost = false ∨ (s.die g.place.die).block (blockOf l.key) ≠ none) →
      ∃ T b, exec (.performStore gid gidx i) s = .next T ∧ T.mem = s.mem ∧
        T.thread gid gidx = some { t with sb := t.sb.eraseIdx i } ∧
        (T.die g.place.die).block (blockOf l.key) = some b ∧
        ∀ k, k < e.size → b.bytes.read (l.key - blockOf l.key + k) = byteAt e.data.toNat k) ∧
    (∀ l sa, e.kind = .global l sa → l.table = false → l.token = false → (s.die l.home).lost = true →
      (s.die g.place.die).block (blockOf l.key) = none → g.kindOf gidx ≠ .halted → t.trapped = none → ∃ j : TrapInfo, j.cause = .levee ∧
      j.tval = l.va ∧ exec (.performStore gid gidx i) s =
        .next ((s.haltContext l.ctx j).modThread gid gidx fun t => { t with sb := t.sb.eraseIdx i })) ∧
    (∀ sc, e.kind = .mark sc .stores → sc.wide = false → exec (.performStore gid gidx i) s =
      .next (s.modThread gid gidx fun t => { t with sb := t.sb.eraseIdx i }))) ∧
  (∀ s gid gidx op g t o l n d dev acq, s.operation gid gidx op = some (g, t, o) → s.opReady g t o = true →
    let performed := fun (s : State) (space : Space) (value : List Byte) => s.modThread gid gidx fun t =>
      (t.modOp op fun o => { o with kind := .load space l n d dev acq (some value) }).endNarrowAcquire op acq
    let sound := ∀ a ∈ s.poison, a + 32 ≤ l.key ∨ l.key + n ≤ a
    (o.kind = .load .l l n d dev acq none → g.scratchError l.key n = none →
      exec (.performLoad gid gidx op) s = .next (performed s .l
        ((List.range n).map fun i => (t.bufferByte op true (l.key + i)).getD (g.scratch.read (l.key + i))))) ∧
    (o.kind = .load .l l n d dev acq none → g.scratchError l.key n ≠ none → ∃ i : TrapInfo, i.cause = .levee ∧
      exec (.performLoad gid gidx op) s = .next ((s.haltContext t.ctxid.toNat i).failOp gid gidx o)) ∧
    (∀ space, o.kind = .load space l n d dev acq none → space ≠ .l →
      (¬sound ∨ l.token = true ∧ ∃ x ∈ s.tokens.lines, x.poisoned = true ∧ x.key ≤ l.key ∧ l.key < x.key + 128) →
      ∃ i : TrapInfo, i.cause = .levee ∧ i.tval = l.va ∧
        exec (.performLoad gid gidx op) s = .next ((s.haltContext l.ctx i).failOp gid gidx o)) ∧
    (o.kind = .load .g l n d dev acq none → dev = false → l.table = false → l.token = false → sound →
      s.reaches g.place.die l = true → l.key % 512 + n ≤ 512 →
      (∃ i, i < n ∧ t.bufferByte op false (l.key + i) = none) →
      exec (.performLoad gid gidx op) s = .next (performed (s.fetchBlock g.place.die (blockOf l.key)) .g
        ((List.range n).map fun i => (t.bufferByte op false (l.key + i)).getD (s.dieByte g.place.die (l.key + i))))) ∧
    (o.kind = .load .k l n d dev acq none → dev = false → l.table = false → l.token = false → sound →
      s.readReaches g.place.die .k l false = true → l.key % 512 + n ≤ 512 →
      let now := if (s.die g.place.die).kinvHeld.contains (blockOf l.key) then s.homeWithDiff g.place.die l.key n
        else (List.range n).map fun i => s.dieByte g.place.die (l.key + i)
      ∃ T y o' bs, exec (.performLoad gid gidx op) s = .next T ∧ T.thread gid gidx = some y ∧
        (y.ops.find? fun o => o.id = op) = some o' ∧
        o'.kind = .load .k l n d dev acq (some ((List.range n).map fun i =>
          (t.bufferByte op false (l.key + i)).getD ((bs[i]?).getD 0))) ∧
        (bs = now ∨ (s.die g.place.die).keptBytes l.key n = some bs)))

/-- R157, R191, R193, R219, R225: a difference is applied to its home copy, an atomic in one step, and what a load, an atomic, `gname`
and a decided launch return fills the destination. -/
def Obligations.ResultsReturn : Prop :=
  (∀ s home e rest blk runs sup, (s.die home).queue = e :: rest → e.kind = .diff blk runs sup →
    ∃ T, exec (.apply home) s = .next T ∧ T.mem = runs.foldl (fun m r => m.writeN (blk + r.offset) r.data) s.mem ∧
      (T.die home).queue = rest ∧ T.groups = s.groups) ∧
  (∀ s home e rest gid gidx op l desc operand expected ret, (s.die home).queue = e :: rest →
    e.kind = .atomic gid gidx op l desc operand expected ret → l.table = false → l.token = false →
    s.poison = [] → (∀ g, s.group gid = some g → s.passes l.polder l.home g.place.die = true) →
    let old := dwordOfBytes (s.mem.readN l.key (if desc.getLsbD 2 then 8 else 4))
    ∃ T, exec (.apply home) s = .next T ∧ (T.die home).queue = rest ∧
      (∀ w, atomResult desc old operand expected = some w →
        T.mem = s.mem.writeN l.key (bytesOfNat w.toNat (if desc.getLsbD 2 then 8 else 4))) ∧
      (atomResult desc old operand expected = none → T.mem = s.mem) ∧
      (ret = true → ∀ t o sp l' de opd ex d acq sent r, s.thread gid gidx = some t → t.ops.find? (fun o => o.id = op) = some o →
        o.kind = .atom sp l' de opd ex d true acq sent r →
        ∃ y o', T.thread gid gidx = some y ∧ y.regs = t.regs ∧ y.ops.find? (fun o => o.id = op) = some o' ∧
          o'.kind = .atom sp l' de opd ex d true acq sent (some old))) ∧
  (∀ s gid gidx op g t o space l n d dev bs, Awaiting s gid gidx op g t o → o.kind = .load space l n d dev none (some bs) →
    ∃ T, exec (.dataReturn gid gidx op) s = .next T ∧ Fills s T gid gidx op d
      ((List.range (accessRegisters n)).map fun i => BitVec.ofNat 32 (natOfBytes bs / 2 ^ (32 * i)))) ∧
  (∀ s gid gidx op g t o space l desc operand expected d old, Awaiting s gid gidx op g t o →
    o.kind = .atom space l desc operand expected d true none true (some old) →
    ∃ T, exec (.atomicReturn gid gidx op) s = .next T ∧ Fills s T gid gidx op d
      (if desc.getLsbD 2 then [old.extractLsb' 0 32, old.extractLsb' 32 32] else [old.extractLsb' 0 32])) ∧
  (∀ s gid gidx op g t o wid d since, Awaiting s gid gidx op g t o → o.kind = .gname wid d → g.residency = .resident since →
    let name := ((s.groupOfWid g wid).map Group.name).getD 0
    ∃ T, exec (.gnameComplete gid gidx op) s = .next T ∧
      Fills s T gid gidx op d [name.extractLsb' 0 32, name.extractLsb' 32 32]) ∧
  (∀ s gid gidx op g t o wait l store n d since, Awaiting s gid gidx op g t o → o.dropped = false →
    o.kind = .launch wait l store (some n) d → g.residency = .resident since →
    ∃ T, exec (.launchStatusReturn gid gidx op) s = .next T ∧ Fills s T gid gidx op d [BitVec.ofNat 32 n])

/-- R234 to R237, R239, R242, R254, R258, R329, R380, R400, R402, Table 23-3: a packet of a transfer moves its bytes in each of the six
directions and is counted; its size; one that faults stops the transfer and reports it, and one that the polder filter drops is
counted; a stopped transfer is retried or failed; a batch is placed in its ring and its service group woken; fault records are
written, and PROD after them. From a tile, a step moves every row's bytes of one sector
(R195). That packets move in ascending order is log entry 53's, and that the higher row's bytes stand where rows overlap log entry
94's; that a sluice names the first transfer that failed is log
entry 77's; what an engine does at an element in error is log entry 78's; and that writing the records looks at parked fragments and
stopped transfers again is log entry 14's. That a die gathers the ring's tokens and makes its release within one step is the model's
choice (log entry 12). -/
def Obligations.EnginesProceed : Prop :=
  (∀ s die core h bytes x g t ps,
    (s.transfers.find? fun x => x.die = die && x.core = core && x.handle = h) = some x → x.fault = none → x.dropped = false →
    s.group x.gid = some g → g.thread x.gidx = some t → s.engineReady g t x.opId = true →
    x.moved = 0 → x.scratchFault g bytes = none → s.packetPieces x g t (x.parts g bytes) = .ok ps →
    (s.piecesReach x.die ps.flatten = true → (x.dir = 0 ∨ x.dir = 2 ∨ s.piecesAwaitTwin x.die ps.flatten = false) →
      PlainPieces ps.flatten → x.dir < 6 → x.allMoved g = false →
      (x.nosl = false → x.dir = 0 ∨ x.dir = 5 → ∀ p ∈ x.parts g bytes,
        x.sluice.toNat + 4 ≤ x.scratchAt p.1 p.2.1 ∨ x.scratchAt p.1 p.2.1 + p.2.2 ≤ x.sluice.toNat) →
      ∃ T y, exec (.transferPacket die core h bytes) s = .next T ∧
        PacketMoved s T x g y bytes ((x.parts g bytes).zip ps)) ∧
    (s.piecesReach x.die ps.flatten = false → ∃ T, exec (.transferPacket die core h bytes) s = .next T ∧
      T.regs.filter = satInc s.regs.filter ∧ (∀ z ∈ T.transfers, x.same z = true → z.dropped = true) ∧ T.groups = s.groups ∧
      T.mem = s.mem)) ∧
  (∀ (x : Transfer) g bytes, x.dir ≠ 3 → x.dir ≠ 5 → x.col < x.len.toNat →
    let n := x.packetSize bytes
    x.parts g bytes = [(x.row, x.col, n)] ∧ 0 < n ∧ n ≤ 512 ∧ x.col + n ≤ x.len.toNat ∧
    (2 ≤ x.dir → x.col + n < x.len.toNat → (x.col + n) % 32 = 0) ∧
    x.advanced g bytes = (if x.col + n < x.len.toNat then { x with col := x.col + n } else { x with col := 0, row := x.row + 1 }) ∧
    (x.allMoved g = true ↔ x.rows ≤ x.row)) ∧
  (∀ (x : Transfer) g bytes, x.dir = 3 ∨ x.dir = 5 →
    let rows := (List.range x.rows).map fun r =>
      (if x.dir = 3 then (x.addr g r 0).toNat else x.laddr.toNat + r * x.len.toNat, x.len.toNat)
    (x.allMoved g = true ↔ ∀ b, ¬LeastFrom rows x.upTo b) ∧
    ∀ b, LeastFrom rows x.upTo b → BytesFrom rows x.upTo (32 * (b / 32 + 1)) (x.parts g bytes) ∧
      x.advanced g bytes = { x with upTo := 32 * (b / 32 + 1) }) ∧
  (∀ (x : Transfer) g r c, x.addr g r c = x.gaddr + BitVec.ofInt 64
    (((if x.gather then natOfBytes (g.scratch.readN (x.index.toNat + 4 * r) 4) else r : Nat) : Int) * x.stride.toInt) + BitVec.ofNat 64 c) ∧
  (∀ s die core h bytes x g t p i,
    (s.transfers.find? fun x => x.die = die && x.core = core && x.handle = h) = some x → x.fault = none → x.dropped = false →
    s.group x.gid = some g → g.thread x.gidx = some t → s.engineReady g t x.opId = true →
    x.moved = 0 → x.scratchFault g bytes = none → s.packetPieces x g t (x.parts g bytes) = .error (p, i, false) →
    ∃ T r, exec (.transferPacket die core h bytes) s = .next T ∧
      (∀ z ∈ T.transfers, x.same z = true →
        z = { x with row := p.1, fault := some (i, !s.regs.assist.getLsbD 2), asked := bytes }) ∧
      (T.die x.die).records = (s.die x.die).records ++ [[r]] ∧ r.cause = i.cause.code ∧ r.tval = i.tval ∧ r.detail = i.detail ∧
      r.aux = BitVec.ofNat 8 x.base ∧ r.handle = BitVec.ofNat 8 x.handle ∧ r.name = g.name ∧ r.entry = 0xFF ∧
      r.pc = x.pc.zeroExtend 64 ∧ T.groups = s.groups ∧ T.mem = s.mem) ∧
  (∀ s die core slot h x g t, s.stoppedTransfer die core slot h = some x → s.group x.gid = some g → g.thread x.gidx = some t →
    (∀ ps, s.packetPieces x g t (x.parts g x.asked) = .ok ps → exec (.xretry die core slot h) s =
      .next { s with transfers := s.transfers.map fun y => if x.same y then { y with fault := none } else y }) ∧
    (∀ i hw, x.fault = some (i, hw) → ∃ T y, exec (.xfail die core slot h) s = .next T ∧
      T.group x.gid = some y ∧ (∀ z ∈ T.transfers, x.same z = false) ∧
      (∀ z, y.thread x.gidx = some z → ∀ o ∈ z.ops, o.id = x.opId → o.done = true ∧
        o.kind = .transfer x.handle (some { cause := .xferErr, tval := i.tval, detail := BitVec.ofNat 32 x.row,
                                            aux := BitVec.ofNat 8 x.base })) ∧
      y.scratch = if x.nosl then g.scratch else g.scratch.writeN x.sluice.toNat
        (bytesOfNat (wordOfBytes (g.scratch.readN x.sluice.toNat 4) ||| 0x80000000).toNat 4))) ∧
  (∀ s die b g, (s.batches.find? fun b => b.die = die && b.marks.all s.markDone) = some b → s.serviceGroup die = some g →
    s.group g.gid = some g → s.ringRoom die 0 = true → (s.die die).lost = false →
    ∃ T y, exec (.svcBatchPlace die) s = .next T ∧ T = { s with groups := T.groups, batches := s.batches.erase b } ∧
      (∀ gid, gid ≠ g.gid → T.group gid = s.group gid) ∧ T.group g.gid = some y ∧
      y.scratch = (g.scratch.writeN (2048 + 2048 * (g.ringProd % s.ringEntries die)) b.entry).writeN 0
        (bytesOfNat (g.ringProd + 1) 4) ∧
      ∀ k t, g.thread k = some t → t.state ≠ .exited → t.gidx = k → ∃ z, y.thread k = some z ∧ z = { t with ev := z.ev } ∧
        (t ∈ g.live → z.ev = true)) ∧
  (∀ s die rs rest l, (s.die die).records = rs :: rest → s.ringLoc die = some l → (s.die die).lost = false →
    let s0 := s.touch (s.die die).fringCtx l.home
    let s1 := s0.gather l.key
    let prod := natOfBytes (s1.readLoc die l 4)
    let cons := natOfBytes (s1.readLoc die (l.at 4) 4)
    let room := (prod + 2 ^ 32 - cons) % 2 ^ 32 + rs.length ≤ 63
    (¬room → exec (.faultRecordWrite die) s = .next s0) ∧
    (room →
      let s2 := (s1.modDie die fun d => { d with records := rest }).writeRecords die l prod rs
      let s3 := (s2.repairFragments die).repairTransfers die
      exec (.faultRecordWrite die) s = .next (if s3.regs.assist.getLsbD 1 then s3.sevTarget s3.regs.ntarget else s3.wakeService die))) ∧
  (∀ s die l prod rs, Loc.token l = true → l.table = false → s.tokensHome → s.quietDie die →
    (State.writeRecords s die l prod rs).mem =
      (rs.zipIdx.foldl (fun m r => m.writeN (l.key + (64 + 64 * ((prod + r.2) % 2 ^ 32 % 63))) r.1.bytes) s.mem).writeN l.key
        (bytesOfNat (prod + rs.length) 4))

/-- R14, R22, R33, R64, R148, R155, R343 to R350, R352, R358, R360, R420: a stroke takes the voting lanes of the winner's lowest program
counter, and with both slots free the other takes its next lane set or the next warp; a bin of age fires; a spent slot is freed; a
quantum or a slice ends, and what one step of its pass does: which OUT group it takes, which resident ones give way, how a group joins
and leaves a core; launches are admitted, begin at their entry with their parameters, and are completed. A warp with READY lanes
competes even while another lane set of it issues (log entry 82). The quantum is the interval that has just ended, a gang counts as one
unit and a group whose threads have exited still counts (log entry 67); a launch releases on every die where a group of it was placed
or restored (log entry 73), each release in one step (log entry 12); places are the model's choice (log entry 4). -/
def Obligations.SchedulerSteps : Prop :=
  (
    (∀ s die core slot, slot < 2 → State.slotFree s die core slot = true → (s.die die).lost = false → s.ports.boot = .running →
      s.replayOn die core = none →
      ((∀ g w, ¬s.Competes die core g w) → exec (.strokeStart die core slot) s = .next s) ∧
      ∀ g w, s.WinsNext die core g w →
        let votes := s.voters g w
        let s1 := s.giveSlot die core slot g.gid w.id (lowestLanes votes)
        (s.slotFree die core (1 - slot) = false → exec (.strokeStart die core slot) s = .next s1) ∧
        (s.slotFree die core (1 - slot) = true → higherLanes votes ≠ [] → exec (.strokeStart die core slot) s =
          .next (s1.giveSlot die core (1 - slot) g.gid w.id (lowestLanes (higherLanes votes)))) ∧
        (s.slotFree die core (1 - slot) = true → higherLanes votes = [] →
          ((∀ h x, ¬s1.Competes die core h x) → exec (.strokeStart die core slot) s = .next s1) ∧
          ∀ h x, s1.WinsNext die core h x → exec (.strokeStart die core slot) s =
            .next (s1.giveSlot die core (1 - slot) h.gid x.id (lowestLanes (s1.voters h x))))) ∧
    (∀ s g w t, t ∈ State.voters s g w ↔ ∃ l ∈ w.lanes, g.thread l.2 = some t ∧ t.state = .ready ∧
      ∀ r ∈ s.steps, r.gid = g.gid → r.gidx ≠ t.gidx) ∧
    (∀ s die core slot gid wid lanes g, State.group s gid = some g →
      let T := s.giveSlot die core slot gid wid lanes
      ∃ y, T.group gid = some y ∧ (∀ h, h ≠ gid → T.group h = s.group h) ∧
        T.strokes = s.strokes ++ [⟨die, core, slot, gid, wid, lanes, 0, false⟩] ∧ T.next = { s.next with win := s.next.win + 1 } ∧
        y.warps = g.warps.map (fun w => if w.id = wid then { w with lastWin := some s.next.win } else w) ∧
        (∀ i t, g.thread i = some t → y.thread i = some (if i ∈ lanes then { t with state := .issuing } else t)) ∧
        T = { s with groups := T.groups, strokes := T.strokes, next := T.next }) ∧
    (∀ s die core l g w ts b, s.slotFree die core 0 = true → (s.die die).lost = false → s.ports.boot = .running →
      s.replayOn die core = some l → l.stopped = false → s.replayBusy l.lid = false → s.sliceDue l die core = false →
      s.stopDue l die core = false → s.replayNext l die core = some (g, w, ts, b) → ts ≠ [] →
      ∃ T k, exec (.strokeStart die core 0) s = .next T ∧ k ∈ T.strokes ∧ k.die = die ∧ k.core = core ∧ k.slot = 0 ∧
        k.gid = g.gid ∧ k.warp = w.id ∧ (∀ i, i ∈ k.lanes ↔ ∃ t ∈ ts, t.gidx = i ∧ ∀ y ∈ ts, t.pc.toNat ≤ y.pc.toNat) ∧
        ∀ x ∈ T.launches, x.lid = l.lid → x.lastKey = replayKey g w) ∧
    (∀ s gid key g b, s.group gid = some g → (g.bins.find? fun b => b.key == key) = some b → g.isResident = true →
      b.earliest + 128 ≤ s.clockOf g →
      ∃ T y w, exec (.binAgeFire gid key) s = .next T ∧ T.group gid = some y ∧ y.warps = g.warps ++ [w] ∧ w.kind = .normal ∧
        w.lanes = (((sortBy id (b.entries.map Prod.fst)).take 32).zipIdx.map fun p => (p.2, p.1)) ∧
        (b.entries.length ≤ 32 → ∀ x ∈ y.bins, x.key ≠ key) ∧ T.mem = s.mem) ∧
    (∀ s gid g, s.group gid = some g → s.spent g = true →
      ∃ T, exec (.slotFree gid) s = .next T ∧ tfind T.groups gid = none ∧ (∀ k, k ≠ gid → T.group k = s.group k) ∧
        (∀ e ∈ (T.die (nameDie g.name)).names, e.gid ≠ gid) ∧
        tfind (T.core g.place.die g.place.core).freed g.place.slot = some s.clock ∧ T.mem = s.mem)
  ) ∧
  (
    (∀ s die core, s.quantumDue die core = true →
      let q := (((s.core die core).quantum).map Prod.snd).getD (microseconds 100)
      let s1 := (s.rotate die core q 256 1).modCore die core fun c => { c with quantum := none }
      exec (.quantumEnd die core) s = .next ((s1.coresWith die core).foldl (fun s c => s.settleTimer c.1 c.2) s1)) ∧
    (∀ s die core l, s.replayOn die core = some l →
      let q := if l.header.rquant = 0 then 65536 else l.header.rquant.toNat
      (s.sliceDue l die core = true ↔ l.stopped = false ∧
        (q ≤ l.sliceRetired ∨ s.anyResident die core = false ∧ s.waitingUnits die core ≠ [])) ∧
      (s.sliceDue l die core = true → exec (.replaySlice die core) s = .next
        ({ s with launches := s.launches.map fun (x : Launch) =>
            if x.lid = l.lid then { x with sliceRetired := 0 } else x }.rotate die core q 256 1)) ∧
      (s.sliceDue l die core = false → exec (.replaySlice die core) s = .next s)) ∧
    (∀ s die core q fuel k, State.waitingUnits s die core = [] → s.rotate die core q fuel k = s) ∧
    (∀ s die core q fuel k w, FirstOf (State.waitKeys s) w (s.waitingUnits die core) →
      (s.unitFits (s.gangOf w) = true →
        s.rotate die core q (fuel + 1) k =
          ((s.gangOf w).foldl (fun s p => s.joinCore p.gid k) s).rotate die core q fuel (k + 1)) ∧
      (s.unitFits (s.gangOf w) = false →
        let gives := fun (v : Group) => v.isResident = true ∧ (∀ p ∈ s.gangOf w, p.gid ≠ v.gid) ∧ v.prio ≤ w.prio ∧
          v.since + q ≤ s.clockOf v ∧ ∃ p ∈ s.gangOf w, v ∈ s.onCore p.place.die p.place.core ∧
            (s.core p.place.die p.place.core).freeBlocks.length < p.blocksNeeded
        ((∀ v, ¬gives v) → s.rotate die core q (fuel + 1) k = s) ∧
        ∀ v, gives v → (∀ u, gives u → u ≠ v → lexLess (s.victimKeys v) (s.victimKeys u) = true) →
          s.rotate die core q (fuel + 1) k =
            ((s.gangOf v).foldl (fun s p => s.leaveCore p.gid k false) s).rotate die core q fuel (k + 1))) ∧
    (∀ s gid k g, State.group s gid = some g →
      let n := (g.nthr * g.budget + 8191) / 8192
      let free := (s.core g.place.die g.place.core).freeBlocks
      ∃ y, (s.joinCore gid k).group gid = some y ∧ y.residency = .resident (s.clockOf g) ∧ y.blocks = free.take n ∧
        ((s.joinCore gid k).core g.place.die g.place.core).freeBlocks = free.drop n ∧
        y.threads = g.threads ∧ y.warps = g.warps ∧ y.scratch = g.scratch ∧ y.tileMem = g.tileMem ∧
        (∀ b ∈ y.bins, ∃ a ∈ g.bins, b.key = a.key ∧ b.entries = a.entries.map fun e =>
          (e.1, e.2 + (s.clockOf g - max g.since e.2))) ∧
        (∀ h, h ≠ gid → (s.joinCore gid k).group h = s.group h) ∧ MemoryKept s (s.joinCore gid k)) ∧
    (∀ s gid k held g since, State.group s gid = some g → g.residency = .resident since →
      let T := s.leaveCore gid k held
      T.group gid = some { g with residency := .out (s.clockOf g) held, moved := k, blocks := [] } ∧
      (T.core g.place.die g.place.core).freeBlocks = sortBy id ((s.core g.place.die g.place.core).freeBlocks ++ g.blocks) ∧
      (∀ h, h ≠ gid → T.group h = s.group h) ∧ T.mem = s.mem) ∧
    (∀ s die core, ((State.settleTimer s die core).core die core).quantum =
        (if s.anyResident die core = false ∨ (s.replayOn die core).isSome = true then none
         else (s.core die core).quantum.or (some (s.clock, s.quantumLength die core))) ∧
      s.settleTimer die core = { s with cores := (s.settleTimer die core).cores }) ∧
    (∀ s die core g, FirstOf (fun g => [g.since, g.moved, State.launchRank s g.lid, g.ordinal]) g
        ((s.onCore die core).filter Group.isResident) →
      s.quantumLength die core = microseconds (if g.quantum = 0 then 100 else g.quantum.toNat)) ∧
    (∀ s lid l die core, (s.launches.find? fun l => l.lid = lid) = some l → l.onCore = some (die, core) →
      s.stopDue l die core = true →
      ∃ T, exec (.replayStop lid) s = .next T ∧ T.mem = s.mem ∧ ∀ x ∈ T.launches, x.lid = lid →
        x.stopped = true ∧ x.lastKey = 0 ∧ x.restored = [] ∧ x.target = none)
  ) ∧
  (
    (∀ s lid l places, (s.launches.find? fun l => l.lid = lid) = some l → s.mayAdmit l = true → places ≠ [] →
      let admitted := fun (T : State) =>
        (∀ (i : Nat) p, places[i]? = some p → ∃ y, T.group (s.next.gid + i) = some y ∧ y.place = p ∧ y.lid = lid ∧
          y.ordinal = l.admitted + i) ∧
        (∀ gid, (gid < s.next.gid ∨ s.next.gid + places.length ≤ gid) → T.group gid = s.group gid) ∧
        (∀ x ∈ T.launches, x.lid = lid → x.admitted = l.admitted + places.length ∧ x.phase = .started) ∧
        ∀ p, places = [p] → l.header.isGang = false → ∃ y n, T.group s.next.gid = some y ∧
          let need := (l.header.threads * l.budget + 8191) / 8192
          let free := (s.core p.die p.core).freeBlocks
          if need ≤ free.length then y.residency = .resident n ∧ y.blocks = free.take need else y.residency = .out n false
      (l.header.isStream = false → s.placesOk l l.header.groups places = true →
        ∃ T, exec (.launchStart lid places) s = .next T ∧ admitted T) ∧
      (l.header.isStream = true → s.placesOk l l.batch places = true →
        ∃ T, exec (.streamAdmit lid places) s = .next T ∧ admitted T)) ∧
    (∀ s l p, ∃ y, (State.admitGroup s l p).group s.next.gid = some y ∧ y.place = p ∧ y.lid = l.lid ∧ y.ordinal = l.admitted ∧
      y.nthr = l.header.threads ∧ y.budget = l.budget ∧ y.scratch = [] ∧ y.scratchSize = l.header.scratch ∧
      ∀ t, t < l.header.threads → ∃ x, y.thread t = some x ∧ x.state = .ready ∧ x.pc = l.header.entry.extractLsb' 0 56 + 4 ∧
        x.wid = l.header.base + BitVec.ofNat 64 (l.admitted * l.header.threads + t) ∧ x.pl = 0 ∧ x.sb = [] ∧ x.ops = [] ∧
        (∀ r, x.isFull r = true ∧ (4 ≤ r → x.reg r = 0)) ∧
        (4 ≤ l.budget → x.pair 0 = l.header.param ∧ x.pair 2 = x.wid)) ∧
    (∀ s lid l, (s.launches.find? fun l => l.lid = lid) = some l → s.launchDone l = true → l.node = none →
      (s.die l.store).lost = false → (∀ d ∈ l.dies, (s.die d).lost = true ∨ s.quietDie d) →
      (l.header.done = 0 → exec (.launchComplete lid) s = .next { s with launches := s.launches.filter fun x => x.lid != lid }) ∧
      ∀ x, l.header.done ≠ 0 → s.locate ⟨l.store, l.ctx, l.polder, true⟩ .write false l.header.done = .ok x →
        x.token = false → x.table = false → x.key % 4 = 0 → s.reaches l.store x = true →
        ∃ T, exec (.launchComplete lid) s = .next T ∧ T.launches = s.launches.filter (fun x => x.lid != lid) ∧
          T.groups = s.groups ∧ MemoryKept s T ∧
          (∀ k, k < 4 → T.dieByte l.store (x.key + k) = byteAt l.header.doneVal.toNat k) ∧
          ∀ b, (T.die l.store).block (blockOf x.key) = some b → b.twin = none)
  )

/-- R46, R47, R337, R338, R351, R354 to R356, R380, R400, R407 to R412, R421, Tables 19-8, 20-4, 23-1: a folio's KICK is exchanged with 0
and obeyed; a run starts, with its status written and its patches applied as 8-byte stores in ascending order, or ends in an error;
a ready node is accepted; a save takes its group OUT, writes the area's sections and then completes, a restore checks its area first
and gives the group what the area holds, without the reserved bits of a register; a step request takes its thread. The model's
choices: that an access of an engine gathers its tokens in one step, and releases in one (log entry 12); where a restored group's pending
commands stood (84) and what counts as run already (85); that a restore needs free register blocks and waits for a slot that was just
freed (68); that COMPLETE and its release are one step (70); and that a request or a folio whose access the polder filter drops stands
still (100). -/
def Obligations.FolioSaveAndStepSteps : Prop :=
  (
    (∀ s fid f l, (s.folios.find? fun f => f.fid = fid) = some f → f.run = false → f.dropped = false →
      (s.die f.die).lost = false → s.locate f.who .both false f.base = .ok l → l.token = true → s.poisoned .both true l 8 = false →
      s.passes f.polder f.die l.home = true → s.tokensHome →
      let s0 := s.touch f.ctx l.home
      let kick := dwordOfBytes (s0.mem.readN l.key 8)
      let s1 := { s0 with mem := s0.mem.writeN l.key (bytesOfNat 0 8) }
      (kick = 0 → exec (.folioKickTake fid) s = .next s1) ∧
      (kick = 1 → exec (.folioKickTake fid) s = .next { s1 with folios := s1.folios.filter fun x => x.fid != fid }) ∧
      (kick ≠ 1 → kick.toNat % 8 ≠ 0 → exec (.folioKickTake fid) s = .next (s1.failRun f)) ∧
      (kick ≠ 0 → kick.toNat % 8 = 0 → exec (.folioKickTake fid) s = .next (s1.startRun f kick))) ∧
    (∀ s f l, s.tokensHome → State.stretch s ⟨f.die, f.ctx, f.polder, false⟩ .write false (f.base + 8) 8 = some [(l, 8)] →
      l.token = true → l.table = false → l.key % 8 = 0 → s.passes f.polder f.die l.home = true →
      (s.writeFstate f).mem = (s.touch f.ctx l.home).mem.writeN l.key
        (bytesOfNat (f.runs.toNat + (if f.run then 2 ^ 32 else 0) + (if f.err then 2 ^ 33 else 0)) 8)) ∧
    (∀ s f, let T := State.failRun s f
      (∀ x ∈ T.folios, x.fid = f.fid → x.run = false ∧ x.err = true ∧ x.nodes = [] ∧ x.runs = f.runs) ∧
      (∀ l ∈ T.launches, ∀ i, l.node ≠ some (f.fid, i)) ∧ T.groups = s.groups) ∧
    (∀ s f p,
      let g := { f with run := true, err := false }
      let s1 := State.writeFstate s g
      let lost := s1.patchLost g p = true ∨ s1.nodesLost f.who f.base false = true
      (lost → s.startRun f p = s1.dropFolio g) ∧
      (¬lost → s1.deviceRead f.who p 8 = none → s.startRun f p = s1.failRun g) ∧
      (∀ s2 x s3 ns s4, ¬lost → s1.deviceRead f.who p 8 = some (List.replicate 8 0, s2) →
        (s2.engineRelease f.die).deviceRead f.who (f.base + 16) 2 = some (x, s3) →
        s3.nodeCounts f.who f.base (natOfBytes x) = some (ns, s4) →
        ∀ y ∈ (s.startRun f p).folios, y.fid = f.fid → y.run = true ∧ y.err = false ∧ y.runs = f.runs ∧
          y.nodes = ns.map fun k => (k, false, false))) ∧
    (∀ s f p n j bs s1, State.deviceRead s f.who (p + BitVec.ofNat 64 (8 + 16 * j)) 16 = some (bs, s1) →
      let dst := dwordOfBytes (bs.take 8)
      (dst.toNat % 8 ≠ 0 → (s.patchEntries f p (n + 1) j).1 = false) ∧
      ∀ s2, dst.toNat % 8 = 0 → s1.deviceWrite f.who dst (bs.drop 8) = some s2 →
        s.patchEntries f p (n + 1) j = s2.patchEntries f p n (j + 1)) ∧
    (∀ s fid node f bs s1 h b, (s.folios.find? fun f => f.fid = fid && f.run) = some f → (s.die f.die).lost = false →
      f.nodes[node]? = some (0, false, false) → f.dropped = false → s.nodeLost f.who f.base node true = false →
      s.deviceRead f.who (nodeAddress f.base node) 128 = some (bs, s1) →
      let s2 := s1.touchCode f.who true bs
      s2.goodHeader f.who true bs = some (h, b) → s2.storeUsed (f.storeOf (headerOf bs)) < 4096 →
      ∃ T y, exec (.folioNodeSubmit fid node) s = .next T ∧ T.launches = s2.launches ++ [y] ∧ y.header = h ∧ y.ctx = f.ctx ∧
        y.polder = f.polder ∧ y.node = some (fid, node) ∧ y.phase = .queued ∧ y.mark = none ∧ y.held = false ∧ T.mem = s2.mem)
  ) ∧
  (
    (∀ s index r, s.saves[index]? = some r → r.load = false → r.dropped = false →
      (s.nameLost r.name = true → exec (.contextSave index) s = .next (s.completeSave r r.die 0x80000003)) ∧
      (s.nameLost r.name = false → (s.findName r.name = none → exec (.contextSave index) s = .next (s.completeSave r r.die 0x80000001)) ∧
      ∀ g, s.findName r.name = some g →
        (∀ a c p, g.residency = .saved a c p → exec (.contextSave index) s = .next (s.completeSave r r.die 0x80000001)) ∧
        ((∀ a c p, g.residency ≠ .saved a c p) → (∀ n, g.residency ≠ .out n true) →
          exec (.contextSave index) s = .next (s.takeOut g)) ∧
        ∀ n, g.residency = .out n true →
          (s.readyToSave g = false → exec (.contextSave index) s = .next s) ∧
          (s.readyToSave g = true → r.area.toNat % 4096 = 0 →
            let die := g.place.die
            let image := g.areaImage n (((s.replayOf g).map Launch.retired).getD 0)
            (s.deviceLost (r.who die) .write r.area image.length = true → exec (.contextSave index) s = .next (s.dropSave r)) ∧
            ∀ s1, s.deviceLost (r.who die) .write r.area image.length = false →
              s.deviceWrite (r.who die) (r.area + 4) (image.drop 4) = some s1 →
              exec (.contextSave index) s = .next (State.completeSave
                ((((s1.dropFragments g).engineRelease die).modGroup g.gid fun g =>
                  { g with residency := .saved r.area r.ctx r.polder, actions := [] }).forgetRestored g) r die 1)))) ∧
    (∀ (s : State) (g : Group), s.group g.gid = some g → s.replayOf g = none → g.ganged = false → (∀ a c p, g.residency ≠ .saved a c p) →
      ∃ y n, (s.takeOut g).group g.gid = some y ∧ y.residency = .out n true ∧ y.threads = g.threads ∧ y.scratch = g.scratch ∧
        (∀ k, k ≠ g.gid → (s.takeOut g).group k = s.group k) ∧ (s.takeOut g).mem = s.mem) ∧
    (∀ s r die code, (State.completeSave s r die code).saves = s.saves.erase r ∧
      ∀ l, s.quietDie die → s.stretch (r.who die) .write false r.area 4 = some [(l, 4)] → l.token = false → l.table = false →
        s.reaches die l = true → l.key % 4 = 0 → ∀ k, k < 4 → (s.completeSave r die code).dieByte die (l.key + k) = byteAt code k) ∧
    (∀ s index r, s.saves[index]? = some r → r.load = true → r.dropped = false →
      let die := field r.placement 6 5
      let core := field r.placement 0 6
      ((s.die die).lost = true → exec (.contextRestore index) s = .next (s.completeSave r r.die 0x80000002)) ∧
      ((s.die die).lost = false → s.areaLost r die = false →
      (s.readArea r die = none → exec (.contextRestore index) s = .next (s.completeSave r die 0x80000003)) ∧
      (∀ bs s1 code, s.readArea r die = some (bs, s1) → s1.areaGroup r bs = .error code →
        exec (.contextRestore index) s = .next (s1.completeSave r die code)) ∧
      (∀ bs s1 old, s.readArea r die = some (bs, s1) → s1.areaGroup r bs = .ok old → areaStores bs = [] →
        (old.bind fun g => s1.replayOf g) = none →
        let room := s1.restoreRoom (areaShapeOf bs) old die core false ((BitVec.ofNat 32 (areaField bs 0x028 4)).getLsbD 6) = true ∧
          s1.replayOn die core = none
        (¬room → exec (.contextRestore index) s = .next (s1.completeSave r die 0x80000002)) ∧
        (room → ∀ code, s1.restoreSlot r old die core false = .error code →
          exec (.contextRestore index) s = .next (s1.completeSave r die code)) ∧
        (room → s1.restoreSlot r old die core false = .ok none → exec (.contextRestore index) s = .next s) ∧
        (room → ∀ k, s1.restoreSlot r old die core false = .ok (some k) →
          exec (.contextRestore index) s = .next (s1.restoreGroup r bs old ⟨die, core, k⟩))))) ∧
    (∀ s r bs old p, areaStores bs = [] → killedThreads bs = [] → bs.length = (areaShapeOf bs).size → s.allQuiet →
      (∀ o, old = some o → ∀ t ∈ o.threads, t.2.remote = []) →
      let T := State.restoreGroup s r bs old p
      let a := areaShapeOf bs
      ∃ y, T.group ((old.map Group.gid).getD s.next.gid) = some y ∧ y.place = p ∧ y.nthr = a.nthr ∧ y.budget = a.budget ∧
        y.scratchSize = a.scratch ∧ (∀ i, i < a.scratch → y.scratch.read i = (bs[a.scr + i]?).getD 0) ∧
        (∀ t reg, t < a.nthr → reg < a.budget → ∃ z, y.thread t = some z ∧
          z.reg reg = BitVec.ofNat 32 (areaField bs (a.regAt t reg) 4) ∧
          z.fpctl = BitVec.ofNat 32 (areaThreadField bs t 24 4) &&& 0x1F07 ∧
          z.fpflags = BitVec.ofNat 32 (areaThreadField bs t 28 4) &&& 0x1F) ∧
        T.saves = s.saves.erase r)
  ) ∧
  (∀ s index r g t, s.steps[index]? = some r → s.group r.gid = some g → g.thread r.gidx = some t →
    let s1 := { s with steps := s.steps.eraseIdx index }
    (t.state = .exited → exec (.stepTake index) s = .next (if r.ran = none then s1.modDie (nameDie g.name) (fun d =>
      { d with stale := satInc d.stale }) else s1)) ∧
    (∀ e, g.isResident = true → t.state = .ready → (s.core g.place.die g.place.core).freeEntry = some e →
      ∃ T, exec (.stepTake index) s = .next T ∧ T.steps = s.steps.eraseIdx index ∧ T.mem = s.mem ∧
        LeavesAsFragment s T g e [(t, { cause := .step, tval := (r.ran.getD t.pc).zeroExtend 64 })]) ∧
    (∀ e, g.isResident = true → t.state = .parked → r.ran = none → g.kindOf t.gidx = .fragment e →
      s.recordsWait g e = false → ∃ T y w z, exec (.stepTake index) s = .next T ∧ T.group g.gid = some y ∧ w ∈ y.warps ∧
        w.kind = .normal ∧ w.lanes = [(t.lane, t.gidx)] ∧ y.thread t.gidx = some z ∧ z.state = .ready ∧ z.trapped = none ∧
        z.stepping = .toRun ∧ z.pc = t.pc ∧ z.regs = t.regs ∧ T.steps = s.steps.eraseIdx index ∧ T.mem = s.mem))

/-- R37, R38, R293, R400, R402, R403, R405, R406: the commands of sys.fctl. RESUME and SKIP let a fragment run as a warp of its own and free
its entry; KILL and GKILL end threads; UNPARK and GRESUME free parked and halted warps; QDROP discards queued packets that still
fault. A fragment whose records wait stays; for a group that is OUT a command waits for its restore, the first of each fragment
standing, and GKILL ends the threads that are in no fragment at once (log entry 84); and that RESUME and SKIP are ignored, not kept,
while the records wait is the model's reading too (log entry 59). -/
def Obligations.RepairCommands : Prop :=
  (
    (∀ s die core slot entry g w, s.fragmentAt die core slot entry = some (g, w) → s.group g.gid = some g →
      (s.recordsWait g entry = true → exec (.resume die core slot entry) s = .next s ∧
        exec (.skip die core slot entry) s = .next s) ∧
      (g.isResident = false → ∀ i code, (i = .resume die core slot entry ∧ code = 1 ∨ i = .skip die core slot entry ∧ code = 2) →
        s.recordsWait g entry = false →
        ((∀ a ∈ g.actions, a.1 ≠ w.id) → ∃ T, exec i s = .next T ∧ T = { s with groups := T.groups } ∧
          T.group g.gid = some { g with actions := g.actions ++ [(w.id, code)] } ∧ ∀ k, k ≠ g.gid → T.group k = s.group k) ∧
        ((∃ a ∈ g.actions, a.1 = w.id) → exec i s = .next s)) ∧
      (g.isResident = true → s.recordsWait g entry = false → (w.lanes.map Prod.snd).Nodup → ∀ (skip : Bool),
        ∃ T y, exec (if skip then .skip die core slot entry else .resume die core slot entry) s = .next T ∧
          T.group g.gid = some y ∧ (∀ x ∈ y.warps, x.id = w.id → x.kind = .normal) ∧ tfind (T.core die core).frags entry = none ∧
          (∀ l ∈ w.lanes, ∀ t, g.thread l.2 = some t → y.thread l.2 = some { t with
            trapped := none, state := if t.state = .parked then .ready else t.state
            pc := if skip then t.pc + BitVec.ofNat 56 ((s.acquireStep g.place.die).lengthAt g t) else t.pc }) ∧ T.mem = s.mem)) ∧
    (∀ s die core slot entry g w, s.fragmentAt die core slot entry = some (g, w) → s.group g.gid = some g → g.isResident = true →
      ∃ T, exec (.kill die core slot entry) s = .next T ∧ tfind (T.core die core).frags entry = none ∧
        ∀ l ∈ w.lanes, ∀ t, s.thread g.gid l.2 = some t → ∃ y, T.thread g.gid l.2 = some y ∧ y.state = .exited) ∧
    (∀ s die core slot entry g w, s.fragmentAt die core slot entry = some (g, w) → s.group g.gid = some g → g.isResident = false →
      (∀ a ∈ g.actions, a.1 ≠ w.id) → ∃ T, exec (.kill die core slot entry) s = .next T ∧
        T.group g.gid = some { g with actions := g.actions ++ [(w.id, 3)] } ∧ T.mem = s.mem)
  ) ∧
  (∀ s die core slot g, s.groupAt die core slot = some g →
    (∃ T, exec (.unpark die core slot) s = .next T ∧ T = { s with groups := T.groups } ∧
      ∀ k h, s.group k = some h → h.control = none → h.place.die = die → h.place.core = core →
        ∃ y, T.group k = some y ∧ (∀ x ∈ y.warps, ∀ hw, x.kind ≠ .parked hw) ∧
          ((h.warps.map Warp.id).Nodup → ∀ x ∈ h.warps, ∀ hw, x.kind = .parked hw → ∀ l ∈ x.lanes, ∀ t, h.thread l.2 = some t →
            y.thread l.2 = some { t with trapped := none, state := if t.state = .parked then .ready else t.state })) ∧
    (s.group g.gid = some g → (∀ p ∈ g.threads, p.2.gidx = p.1) → g.isResident = true →
      ∃ T, exec (.gkill die core slot) s = .next T ∧ (∀ e wid hw, tfind (T.core die core).frags e ≠ some (g.gid, wid, hw)) ∧
        (∀ k ∈ T.strokes, k.gid ≠ g.gid) ∧
        ∀ k t, s.thread g.gid k = some t → ∃ y, T.thread g.gid k = some y ∧ y.state = .exited) ∧
    (s.group g.gid = some g → g.isResident = false → ∃ T, exec (.gkill die core slot) s = .next T ∧
      (T.core die core).frags = (s.core die core).frags) ∧
    (s.group g.gid = some g → ∃ T y, exec (.gresume die core slot) s = .next T ∧ T.group g.gid = some y ∧
      (∀ w ∈ y.warps, w.kind ≠ .halted) ∧ T = { s with groups := T.groups })) ∧
  (∀ s die p i, (s.die die).podQueue = [p] → s.land p .write = .error i → i.cause ≠ .levee → p.kind.isFlag = false →
    (s.recvOf p.src p.chan).heldWrites = [] → (s.recvOf p.src p.chan).withheld = [] →
    ∃ T, exec (.qdrop die) s = .next T ∧ (T.die die).podQueue = [] ∧ (T.recvOf p.src p.chan).notice = true ∧
      p.seq ∈ (T.recvOf p.src p.chan).arrived ∧ (T.recvOf p.src p.chan).dead ≠ none ∧
      T.pod.credits = s.pod.credits ++ [(p.src, p.creditChan, p.seq)] ∧
      (if p.src = s.pod.chip then T.pod.lossNotices = s.pod.lossNotices ++ [(p.creditChan, p.seq)]
       else T.pod.noticesOut = s.pod.noticesOut ++ [(p.src, p.creditChan, p.seq)]) ∧ T.mem = s.mem ∧ T.groups = s.groups)

/-- R111, R371 to R374, R376 to R378, R382, R383, R389, R392, R393, R415, Tables 21-2, 22-1 to 22-4 and 23-8: a table store reaches a
replica, where it sets the writable bits of its word: of a context entry, a mask, a die's configuration word, whose INKSZ the die takes
as it leaves reset, a connection entry, and a polder entry, which changes nothing where it would share a die or a control core with
another, and marks live the dies that it names which have left reset; a cache takes an entry, and a die acknowledges an invalidation; a
die is lost, which leaves nothing of it under way, halts what touched it and lets the other contexts go on, and leaves reset; a
wavelength that fails takes a spare or degrades its circuit; an error is noted where it stands. The model's choices: a connection's
spares (log entry 1), what an acknowledgement drops (11), that a die's release before it is one step (12), what becomes of what was
under way at a lost die (17), what a lost die's groups do (37), that page-table entries keep their reserved bits and monitor tables do
not (72), and where an error stands in a tile (79). -/
def Obligations.TableAndLossSteps : Prop :=
  (
    (∀ s index x d, s.tableStores[index]? = some x → s.nextReplica index = some d →
      d ∈ x.left ∧ (∀ y ∈ s.tableStores.take index, d ∉ y.left) ∧
      let left := x.left.filter fun k => k != d
      let stores := if left = [] then s.tableStores.eraseIdx index else s.tableStores.set index { x with left := left }
      exec (.tableReplicaWrite index) s = .next ((List.range 34).foldl
        (fun s k => if s.replicaOf k = d then s.replicaReached k else s)
        ({ s with tableStores := stores }.writeReplica d x.offset x.data))) ∧
    (∀ s index x, s.tableStores[index]? = some x → x.left = [] → exec (.tableReplicaWrite index) s = .next
      ((List.range 34).foldl (fun s k => s.replicaReached k) { s with tableStores := s.tableStores.eraseIdx index })) ∧
    (∀ s d off bs, off % 8 = 0 → bs.length = 8 →
      let T := State.writeReplica s d off bs
      (0x18000 ≤ off → T = { s with mem := s.mem.writeN (storageKey d off) bs }) ∧
      (off < 0x8000 → T.readNat d off 8 = (natOfBytes bs &&& 0x0000FFFFFFFFFFC1) ||| (s.readNat d off 8 &&& 0xFFFF00000000003E)) ∧
      (0x10000 ≤ off → off < 0x18000 →
        T.readNat d off 8 = (natOfBytes bs &&& 0x3FFFFFFFF) ||| (s.readNat d off 8 &&& 0xFFFFFFFC00000000)) ∧
      (0x8800 ≤ off → off < 0x8910 → T.readNat d off 8 = (natOfBytes bs &&& 7) ||| (s.readNat d off 8 &&& 0xFFFFFFFFFFFFFFF8)) ∧
      (∀ k, k < storageKey d off ∨ storageKey d off + 8 ≤ k → T.mem.read k = s.mem.read k) ∧
      (0x8000 ≤ off → off < 0x8800 →
        let mask := ([0xFFFFFFFF, 0xFFFFFFFFFFFF, 0xFFFFFFFFFFFF, 0x01FFFFFF01FFFFFF, 0x1FFF, 1, 0, 0] : List Nat)
        let m := (mask[off / 8 % 8]?).getD 0
        let new := (natOfBytes bs &&& m) ||| (s.readNat d off 8 &&& (2 ^ 64 - 1 - m))
        let s1 := { s with mem := s.mem.writeN (storageKey d off) (bytesOfNat new 8) }
        let p := s1.polder d ((off - 0x8000) / 64)
        let clash := ∃ k, k < 32 ∧ k ≠ (off - 0x8000) / 64 ∧ p.valid = true ∧ (s1.polder d k).valid = true ∧
          (p.dies &&& (s1.polder d k).dies ≠ 0 ∨ p.cc0 &&& (s1.polder d k).cc0 ≠ 0 ∨ p.cc1 &&& (s1.polder d k).cc1 ≠ 0)
        (clash → T = s) ∧
        (¬clash → T = { s1 with dies := T.dies } ∧ T.readNat d off 8 = new ∧
          ∀ k, (T.die k).lost = ((s.die k).lost &&
            !(decide (k < 34) && (s.die k).leftReset && p.valid && if k < 32 then p.dies.testBit k
              else if k = 32 then p.cc0 != 0 else p.cc1 != 0))))) ∧
    (∀ (s : State) r p, let w := fun i => s.readNat r (0x8000 + 64 * p + 8 * i) 8
      s.polder r p = { valid := w 5 % 2 = 1, admits := w 4 % 2 = 1, landCtx := w 4 / 2 % 4096, lo := w 3 % 2 ^ 25,
                       hi := w 3 / 2 ^ 32 % 2 ^ 25, cc0 := w 1 % 2 ^ 48, cc1 := w 2 % 2 ^ 48, dies := w 0 % 2 ^ 32 }) ∧
    (∀ (s : State) d, s.reserve d = 2 ^ (26 + (s.die d).inkSize.toNat) +
      if d = 0 ∨ d = 31 then 2 ^ (26 + (s.die d).ioInkSize.toNat) else 0) ∧
    (∀ s d i bs, i < 1024 → List.length bs = 8 →
      let v := natOfBytes bs
      let e := (State.writeReplica s d (0x9000 + 8 * i) bs).connection d i
      ceValid e = ceValid v ∧ ceA e = ceA v ∧ ceB e = ceB v ∧ ceWaves e = ceWaves v ∧
      (ceValid v = true → ceWaves v ≠ 0 → ceA v < ceB v → ceB v ≤ 33 →
        (s.liveWaves d (ceA v) i + ceWaves v ≤ 256 ∧ s.liveWaves d (ceB v) i + ceWaves v ≤ 256 →
          ceState e = 1 ∧ ceLive e = ceWaves v ∧ ceSpares e = 0) ∧
        (256 < s.liveWaves d (ceA v) i + ceWaves v ∨ 256 < s.liveWaves d (ceB v) i + ceWaves v →
          ceState e = 3 ∧ ceLive e = 0 ∧ ceSpares e = 0))) ∧
    (∀ s die ctx level (va : Dword) table, die < 34 → ((s.die die).lost = false ∨ (s.die die).leftReset = true) → ctx < 4096 →
      (s.contextEntry die ctx).testBit 0 = true → level ≤ 4 →
      s.tableAt die (s.contextEntry die ctx / 2 ^ 11 % 2 ^ 37 * 2048) va.toNat level 5 4 = some table →
      let off := table + 8 * tableIndex va.toNat level
      let e := s.readNat (s.replicaOf die) off 8
      peValid e = true → s.malformed (s.polder (s.replicaOf die) (s.contextEntry die ctx / 2 ^ 6 % 32)) level e = false →
      ∃ T, exec (.tlbFill die ctx level va) s = .next T ∧ ⟨off, BitVec.ofNat 64 e⟩ ∈ (T.die die).tlb ∧
        T = { s with dies := T.dies }) ∧
    (∀ s die ctx level va, (s.die die).lost = true → (s.die die).leftReset = false →
      exec (.tlbFill die ctx level va) s = .next s) ∧
    (∀ s die id i, (s.tlbis.find? fun i => i.id = id && i.left.contains die && !s.tlbiBehind i) = some i →
      let s1 := s.modDie die fun d => { d with tlb := [] }
      (s1.tlbiWaits i die = true → exec (.tlbiAck die id) s = .next s1) ∧
      (s1.tlbiWaits i die = false → ∃ T, exec (.tlbiAck die id) s = .next T ∧
        T = (((s1.wakePacqs i die).engineRelease die).acknowledge id die) ∧ (∀ j ∈ T.tlbis, j.id = id → die ∉ j.left) ∧
        (s.quietDie die → T.mem = s.mem ∧ (T.die die).tlb = [])))
  ) ∧
  (
    (∀ (s : State) (die : Nat) (why : LossCause), s.lossDue die why = true ↔ die < 34 ∧ (s.die die).lost = false ∧ (why = .circuits →
      ∀ i e, i < 1024 → e = s.connection routingCopy i → ceValid e = true → ceState e = 1 ∨ ceState e = 2 →
        ceA e ≠ die ∧ ceB e ≠ die)) ∧
    (∀ s die why, s.lossDue die why = true → ∃ T, exec (.dieLoss die why) s = .next T ∧
      (∀ d, d = T.die die →
        d.lost = true ∧ d.leftReset = false ∧ d.work = [] ∧ d.kcopies = [] ∧ d.kinvHeld = [] ∧ d.tlb = [] ∧ d.sent = [] ∧
          d.queue = []) ∧
      (∀ gid g gidx t o, s.group gid = some g → g.thread gidx = some t → o ∈ t.ops → o.refused die g.place.die = true →
        ∃ y, T.thread gid gidx = some y ∧ ∀ z ∈ y.ops, z.id = o.id → z.done = true) ∧
      (∀ s1, s1 = s.modDie die (fun d => { d with lost := true, leftReset := false }) →
        (∀ l ∈ T.launches, l.phase = .queued → (s1.touchedDies l.ctx).testBit die = true → l.held = true) ∧
        ∀ gid g w l t, s.group gid = some g → g.control = none → (∀ a c p, g.residency ≠ .saved a c p) → w ∈ g.warps →
          w.kind ≠ .halted → l ∈ w.lanes → g.thread l.2 = some t → t.state ≠ .exited → (s1.touchedDies t.ctxid.toNat).testBit die = true →
          ∃ y, T.thread gid l.2 = some y ∧ y.state = .parked) ∧
      (∀ x ∈ T.transfers, x.die ≠ die) ∧ (∀ o ∈ T.tileOps, o.die ≠ die) ∧ (∀ k ∈ T.strokes, k.die ≠ die) ∧
      (∀ i ∈ T.tlbis, die ∉ i.left) ∧ (∀ x ∈ T.tableStores, die ∉ x.left) ∧
      (∀ r ∈ T.tokens.reqs, r.die ≠ die ∧ keyHome r.line ≠ die) ∧
      (s.tokens.persistent = [] → ∀ t ∈ T.tokens.lines, keyHome t.key = die → t.poisoned = true)) ∧
    (∀ s die why, s.lossDue die why = true → s.refusedOps die = [] → s.refusedStores die = [] →
      ∃ T, exec (.dieLoss die why) s = .next T ∧
      ∀ s1, s1 = s.modDie die (fun d => { d with lost := true, leftReset := false }) →
        (∀ gid g, s.group gid = some g → g.place.die ≠ die → (∀ k ∈ s.strokes, k.gid = gid → k.die ≠ die) →
          (∀ w ∈ g.warps, ∀ hw, w.kind ≠ .parked hw) →
          (∀ t ∈ g.threads, (s1.touchedDies t.2.ctxid.toNat).testBit die = false) →
          ∀ k t, g.thread k = some t → ∃ y, T.thread gid k = some y ∧ y.regs = t.regs ∧ y.fe = t.fe ∧ y.pc = t.pc ∧
            y.state = t.state ∧ y.trapped = t.trapped) ∧
        ∀ l ∈ s.launches, (s1.touchedDies l.ctx).testBit die = false → ∃ m ∈ T.launches, m.lid = l.lid ∧ m.held = l.held) ∧
    (∀ s die why, s.lossDue die why = false →
      (¬(why = .reset ∧ (s.die die).lost = true ∧ (s.die die).leftReset = true) → exec (.dieLoss die why) s = .next s) ∧
      (why = .reset → (s.die die).lost = true → (s.die die).leftReset = true → ∃ T, exec (.dieLoss die why) s = .next T ∧
        (∀ d, d = T.die die → d.lost = true ∧ d.leftReset = false ∧ d.work = [] ∧ d.kcopies = [] ∧ d.tlb = [] ∧ d.sent = [] ∧
          d.queue = []) ∧
        (∀ i ∈ T.tlbis, die ∉ i.left) ∧ ∀ x ∈ T.tableStores, die ∉ x.left)) ∧
    (∀ s die, die < 34 → (s.die die).lost = true → ∃ T, exec (.dieResetExit die) s = .next T ∧ (T.die die).lost = true ∧
      (T.die die).leftReset = true ∧ (T.die die).work = [] ∧ (T.die die).kcopies = [] ∧ (T.die die).tlb = [] ∧
      (T.die die).queue = [] ∧ (T.die die).sent = [] ∧ (T.die die).svcring = 63 ∧ (T.die die).fring = 0 ∧
      (T.die die).inkSize = BitVec.ofNat 3 (s.readNat (s.replicaOf 32) (0x8800 + 8 * die) 8) ∧
      (T.die die).ioInkSize = BitVec.ofNat 3 (s.readNat (s.replicaOf 32) (0x8800 + 8 * (if die = 0 then 32 else 33)) 8) ∧
      (∀ d, (∀ k, k < d → k = die ∨ (s.die k).lost = true) → d ≠ die → d < 32 → (s.die d).lost = false → die < 32 →
        ∀ x ∈ T.tableStores, d ∈ x.left → die ∈ x.left) ∧ T.groups = s.groups) ∧
    (∀ s entry, entry < 1024 →
      let e := s.connection routingCopy entry
      ceValid e = true → ceState e = 1 ∨ ceState e = 2 →
      (s.regs.assist.getLsbD 3 = false ∨ 0 < ceSpares e) →
      let s1 := s.putConnection entry (ceFail e)
      (∀ d, s1.lossDue d .circuits = false) → exec (.wavelengthFail entry) s = .next s1) ∧
    (∀ e, (0 < ceSpares e → ceLive (ceFail e) = ceLive e ∧ ceSpares (ceFail e) = ceSpares e - 1 ∧ ceState (ceFail e) = ceState e) ∧
      (ceSpares e = 0 → 1 < ceLive e → ceLive (ceFail e) = ceLive e - 1 ∧ ceState (ceFail e) = 2) ∧
      (ceSpares e = 0 → ceLive e = 1 → ceLive (ceFail e) = 0 ∧ ceState (ceFail e) = 0))
  ) ∧
  (
    (∀ s home off, home < 32 → ∃ T, exec (.uncorrectableError (.memory home off)) s = .next T ∧
      sectorOf (storageKey home off) ∈ T.poison ∧ T = { s with poison := T.poison }) ∧
    (∀ s gid g gidx t r core off, s.group gid = some g → g.thread gidx = some t →
      (t.state ≠ .exited → ∃ T y, exec (.uncorrectableError (.register gid gidx r)) s = .next T ∧
        T.thread gid gidx = some y ∧ y = { t with regErrors := t.regErrors ++ [r] } ∧ T = { s with groups := T.groups }) ∧
      (off < g.scratchSize → ∃ T, exec (.uncorrectableError (.scratch gid core off)) s = .next T ∧
        T.group gid = some { g with scratchErrors := g.scratchErrors ++ [off] } ∧ T = { s with groups := T.groups })) ∧
    (∀ s gid g tile row col, s.group gid = some g → tile < g.tiles →
      (∃ T y, exec (.uncorrectableError (.tileElem gid tile row col)) s = .next T ∧ T.group gid = some y ∧
        y = { g with tileErrors := y.tileErrors } ∧ y.tileErrors = g.tileErrors ++
          (List.range (shapeWidth (g.shape tile))).map fun i => (tileAt tile row col (shapeWidth (g.shape tile)) + i, false)) ∧
      ∃ T y, exec (.uncorrectableError (.tileBit gid tile row col)) s = .next T ∧ T.group gid = some y ∧
        y = { g with tileErrors := g.tileErrors ++ [(tileAt tile row col 1, true)] }) ∧
    (∀ s die block b w, (s.die die).block block = some b → b.twin = some w →
      let runs := runsOf b.bytes (changedOffsets b.bytes (s.homeBlock block))
      ∃ T, exec (.uncorrectableError (.twin die block)) s = .next T ∧ T.mem = s.mem ∧
        (T.die die).block block = some { b with twin := none } ∧ (T.die die).sent = (s.die die).sent ++
          if runs = [] then [] else [{ id := s.next.send, src := die, home := keyHome block, polder := b.twinPolder,
                                       kind := .diff block runs b.twinSupervisor }])
  )

/-- R380, R384, R386, R387: what a holder answers to a transient request, to an agent of the line's polder and to no other; tokens
arrive, requests are repeated to every agent and escalated, and persistent requests take every holder's tokens for their requester
and end. A line's 64 tokens are neither made nor lost. A request goes to home and to every agent of the polder in one step (log entry
12); which dies are a line's agents is log entry 88's. -/
def Obligations.TokenSteps : Prop :=
  (
    (∀ s index m, s.tokens.reqMsgs[index]? = some m → (s.lineOrHome m.line).poisoned = false → m.dest ≠ some m.src →
      s.activeRequester m.line = none →
      let s1 := { s with tokens := { s.tokens with reqMsgs := s.tokens.reqMsgs.eraseIdx index } }
      let a := (s.lineOrHome m.line).answer m.dest m.write
      (m.src ∈ s.lineAgents m.line → exec (.transientRequestReceive index) s =
        .next (s1.sendTokens m.line m.dest (some m.src) a.1 a.2)) ∧
      (m.src ∉ s.lineAgents m.line → exec (.transientRequestReceive index) s = .next s1)) ∧
    (∀ s line who dest n owner, 0 < n → ∃ m, (State.sendTokens s line who dest n owner).tokens.msgs = s.tokens.msgs ++ [m] ∧
      m.line = line ∧ m.dest = dest ∧ m.tokens = n ∧ m.owner = owner) ∧
    (∀ (t : TokenLine) who,
      t.answer who true = t.held who ∧
      ((t.held who).2 = false → t.answer who false = (0, false)) ∧
      ((t.held who).2 = true → (t.held who).1 = 1 → t.answer who false = (1, true)) ∧
      (t.held none = (64, true) → t.answer none false = (64, true)) ∧
      ((t.held who).2 = true → (t.held who).1 ≠ 1 → (who.isSome = true ∨ (t.held who).1 ≠ 64) →
        t.answer who false = (1, false))) ∧
    (∀ s index m, s.tokens.msgs[index]? = some m →
      let s1 := { s with tokens := { s.tokens with msgs := s.tokens.msgs.eraseIdx index } }
      let s2 := (s1.receiveTokens m).feedPersistent m.line
      exec (.tokenResponseReceive index) s = .next (match m.dest with
        | some d => s2.closeRequests d m.line
        | none => s2) ∧
      (s.tokenTotal m.line = 64 → ((s.lineOrHome m.line).holders.map Holder.die).Nodup →
        (s1.receiveTokens m).tokenTotal m.line = 64)) ∧
    (∀ (s : State) line who dest n owner, s.tokenTotal line = 64 → ((s.lineOrHome line).holders.map Holder.die).Nodup →
      (s.lineOrHome line).poisoned = false → n ≤ ((s.lineOrHome line).held who).1 →
      (s.sendTokens line who dest n owner).tokenTotal line = 64)
  ) ∧
  (
    (∀ s line, State.activeRequester s line = none → s.feedPersistent line = s) ∧
    (∀ s line d, State.activeRequester s line = some d → (s.lineOrHome line).poisoned = false →
      ((s.lineOrHome line).holders.map Holder.die).Nodup →
      let T := s.feedPersistent line
      (∀ w, w ≠ some d → ((T.lineOrHome line).held w).1 = 0) ∧
      (∃ ms, T.tokens.msgs = s.tokens.msgs ++ ms ∧ ∀ m ∈ ms, m.line = line ∧ m.dest = some d) ∧
      (s.tokenTotal line = 64 → T.tokenTotal line = 64)) ∧
    (∀ s die line r, (s.tokens.reqs.find? fun r => r.die = die && r.line = line) = some r →
      (s.clock < r.last + nanoseconds 500 → exec (.transientRetry die line) s = .next s) ∧
      (s.lacksTokens die line r.write = false → exec (.transientRetry die line) s = .next s) ∧
      (r.last + nanoseconds 500 ≤ s.clock → s.lacksTokens die line r.write = true →
        let asked := none :: ((s.lineAgents line).filter fun d => d != die).map some
        ∃ T, exec (.transientRetry die line) s = .next T ∧
          T.tokens.reqMsgs = s.tokens.reqMsgs ++
            (asked.filter fun d => s.delivers r.polder (d.getD (keyHome line))).map (fun d => (⟨die, line, r.write, d⟩ : ReqMsg)) ∧
          T = { s with tokens := { s.tokens with reqs := T.tokens.reqs, reqMsgs := T.tokens.reqMsgs }
                       regs := { s.regs with filter := T.regs.filter } } ∧
          ((∀ d ∈ asked, s.delivers r.polder (d.getD (keyHome line)) = true) → T.regs.filter = s.regs.filter)) ∧
      (r.first + microseconds 2 ≤ s.clock → s.lacksTokens die line r.write = true → (∀ p ∈ s.tokens.persistent, p.1 ≠ die) →
        (∀ w ∈ s.tokens.waiting, w.1 = die → w.2 = []) → die ∈ s.lineAgents line →
        exec (.persistentEscalate die line) s = .next
          ({ s with tokens := { s.tokens with persistent := s.tokens.persistent ++ [(die, line, false)] } }.feedPersistent line))) ∧
    (∀ s die line served, (s.tokens.persistent.find? fun p => p.1 = die) = some (die, line, served) →
      (served = true ∨ s.needsLine die line = false → ∃ T, exec (.persistentDeactivate die) s = .next T ∧
        T.tokens.persistent = s.tokens.persistent.filter (fun p => p.1 != die)) ∧
      (served = false → s.needsLine die line = true → exec (.persistentDeactivate die) s = .next s)) ∧
    (∀ s die line t, (s.tokens.lines.find? fun t => t.key = line && !t.poisoned) = some t →
      exec (.tokenGiveUp die line) s = .next
        ((s.sendTokens line (some die) none (t.held (some die)).1 (t.held (some die)).2).feedPersistent line))
  )

/-! ## The pod fabric's steps -/

/-- R268 to R272, R276, R277, R293, Tables 13-1 and 13-2: the packet header; a packet leaves on the plane that the map gives then; a
credit returns a slot; a marker carries the count; packets are retransmitted, lost and expired; a channel is allocated and its anchor
moves; a notice of loss halts the sender's context. The model's choices: the plane of a packet without an address (log 61), NSEQ and
what a receiver holds before anything (log 24), a channel that waits as a whole lane set (log 28), the gap request's list (log 29). -/
def Obligations.PodSenderSteps : Prop :=
  ((∀ p : Packet, p.header.extractLsb' 60 4 = p.kind.code ∧ p.header.extractLsb' 52 8 = BitVec.ofNat 8 p.src ∧
      p.header.extractLsb' 44 8 = BitVec.ofNat 8 p.polder ∧ p.header.extractLsb' 32 12 = BitVec.ofNat 12 p.chan ∧
      p.header.extractLsb' 16 16 = p.seq ∧ p.header.extractLsb' 0 16 = p.aux) ∧
    PacketKind.code .pst = 0 ∧ PacketKind.code .flag = 1 ∧ PacketKind.code .rst = 2 ∧ PacketKind.code .rstFlag = 3 ∧
    PacketKind.code .pmc = 4 ∧ PacketKind.code .pld = 5 ∧ PacketKind.code .patom = 6 ∧ PacketKind.code .reply = 7 ∧
    PacketKind.code .gap = 8 ∧ PacketKind.code .expiry = 9) ∧
  (∀ p : Packet, packetSelector p = if p.kind = .rst ∨ p.kind = .rstFlag then p.target.toNat / 2 ^ 8 % 8
    else (p.addr / 2 ^ 7 % 8) ^^^ (p.addr / 2 ^ 15 % 8)) ∧
  (∀ s sel, State.planeOf s sel = s.regs.plmap.toNat / 2 ^ (3 * sel) % 8) ∧
  (∀ s chip chan seq, chip = s.pod.chip → (chip, chan, seq) ∉ s.pod.credits → exec (.creditReceive chip chan seq) s = .next s) ∧
  (∀ s chip chan seq, (chip = s.pod.chip → (chip, chan, seq) ∈ s.pod.credits) →
    (∃ c ∈ s.pod.copies, c.named chip chan seq = true) →
    ∃ T, exec (.creditReceive chip chan seq) s = .next T ∧ T.slotsHeld chip < s.slotsHeld chip ∧
      T.pod.credits = (if chip = s.pod.chip then s.pod.credits.erase (chip, chan, seq) else s.pod.credits) ∧
      (∀ c ∈ s.pod.copies, c.named chip chan seq = false → c ∈ T.pod.copies) ∧
      (∀ k ∈ T.pod.kept, k.packet.chan = chan → k.packet.seq = seq → k.packet.dst = chip → k.credited = true) ∧
      T = { s with pod := { s.pod with
        copies := T.pod.copies, kept := T.pod.kept, paidTags := T.pod.paidTags, credits := T.pod.credits } }) ∧
  (∀ (s : State) (o : Outgoing) c, o.again = false → o.packet.kind ≠ .reply → c ∈ (s.leave o).pod.copies →
    c ∈ s.pod.copies ∨ (c.packet.plane = s.planeOf (packetSelector o.packet) ∧ c.left = s.clock ∧
      c.lost = s.planeLost c.packet.plane ∧ c.slot = o.packet.kind.takesSlot)) ∧
  (∀ (s : State) (o : Outgoing) c, (o.again = true ∧ o.packet.kind.isChannel = true) ∨ o.packet.kind = .reply →
    c ∈ (s.leave o).pod.copies → c ∈ s.pod.copies ∨ c.packet.plane = o.packet.plane) ∧
  (∀ s chan c, s.channel chan = some c → s.waitsOn chan true = true → 32736 ≤ c.cnt → (c.nseq - c.anc).toNat < 16384 →
    (∀ o ∈ s.pod.outWait, ∀ l ∈ o.packet.legs, l.kind.isChannel = true → l.chan ≠ chan) →
    (∀ f ∈ s.pod.flags, f.packet.chan ≠ chan) →
    ∃ T y o, exec (.markerSend chan) s = .next T ∧ T.channel chan = some y ∧ y.cnt = 0 ∧ y.nseq = c.nseq + 1 ∧
      T.pod.outWait = s.pod.outWait ++ [o] ∧ o.packet.kind = .flag ∧ o.packet.seq = c.nseq ∧
      o.packet.aux = BitVec.ofNat 16 c.cnt ∧ o.packet.data = [] ∧ o.packet.dst = c.dest) ∧
  (∀ s k asked, ((∀ o ∈ s.pod.outWait, o.again = true → o.packet ≠ k.packet) →
      State.retransmit s k asked =
        { s with pod := { s.pod with outWait := s.pod.outWait ++ [⟨k.packet, none, true, asked⟩] } }) ∧
    ((∃ o ∈ s.pod.outWait, o.again = true ∧ o.packet = k.packet) →
      (State.retransmit s k asked).pod.outWait.map Outgoing.packet = s.pod.outWait.map Outgoing.packet)) ∧
  (∀ s chan seq c, State.channel s chan = some c →
    ∃ (s1 : State) (p : Packet), s.expire chan seq = (if seq ∈ c.expired then s1 else
        s1.haltContext c.ctx { cause := .podLoss, tval := seq.zeroExtend 64, detail := BitVec.ofNat 32 chan }) ∧
      s1 = { s with pod := { s.pod with channels := s1.pod.channels, copies := s1.pod.copies
                                        outWait := s.pod.outWait ++ [⟨p, none, false, false⟩] } } ∧
      p.kind = .expiry ∧ p.src = s.pod.chip ∧ p.dst = c.dest ∧ p.chan = chan ∧ p.seq = seq ∧
      p.polder = s.contextEntry 32 c.ctx / 2 ^ 6 % 32 ∧
      s1.channel chan = some { c with expired := if seq ∈ c.expired then c.expired else c.expired ++ [seq] } ∧
      (∀ k ∈ s1.pod.copies, k.named c.dest chan seq = true → k.lost = false) ∧
      ∀ k ∈ s.pod.copies, k.named c.dest chan seq = false → k ∈ s1.pod.copies) ∧
  (∀ s chan seq k, ((s.pod.kept.filter fun k => k.packet.chan = chan && k.packet.seq == seq).find? fun k => !k.credited) = some k →
    exec (.retransmitTimer chan seq) s = .next (if k.lastLeft + microseconds 20 ≤ s.clock ∧
      s.clock < k.firstLeft + microseconds 2000 then s.retransmit k false else s)) ∧
  (∀ s chan seq, (∀ k ∈ s.pod.kept, k.packet.chan = chan → k.packet.seq = seq → k.credited = true) →
    exec (.retransmitTimer chan seq) s = .next s) ∧
  (∀ s chan seq k, (s.pod.kept.find? fun k => k.packet.chan = chan && k.packet.seq == seq) = some k →
    (s.clock < k.firstLeft + microseconds 2000 → exec (.replayBufferExpire chan seq) s = .next s) ∧
    (k.firstLeft + microseconds 2000 ≤ s.clock →
      let s1 := ({ s with pod := { s.pod with kept := s.pod.kept.filter fun x => x != k } } : State).modChannel chan fun c =>
        { c with recent := (c.recent.filter fun q => s.clock < q.2 + microseconds 20) ++ [(seq, k.lastLeft)] }
      exec (.replayBufferExpire chan seq) s = .next (if k.credited then s1 else s1.expire chan seq))) ∧
  (∀ s index c, s.pod.copies[index]? = some c → c.here = false → c.lost = false → c.left + microseconds 20 < s.clock →
    exec (.packetAgeDiscard index) s = .next { s with pod := { s.pod with
      copies := if c.slot = true ∧ c.paid = false then s.pod.copies.set index { c with lost := true }
        else s.pod.copies.eraseIdx index } }) ∧
  (∀ s chan ctx dest nseq, chan < 4096 → ctx < 4096 →
    (∃ T c, exec (.channelAllocate s.pod.chip chan ctx dest nseq) s = .next T ∧ T.channel chan = some c ∧ c.ctx = ctx ∧
      c.dest = dest ∧ c.cnt = 0 ∧ c.nseq = ((s.channel chan).map Channel.nseq).getD 0 ∧ c.anc = c.nseq) ∧
    ∀ src, src ≠ s.pod.chip → ∃ T, exec (.channelAllocate src chan ctx s.pod.chip nseq) s = .next T ∧
      (T.recvOf src chan).lastf = nseq - 1 ∧ (T.recvOf src chan).hseq = nseq - 1 ∧ (T.recvOf src chan).miss = [] ∧
      (T.recvOf src chan).dead = none ∧ T.pod.channels = s.pod.channels) ∧
  (∀ s chan c, s.channel chan = some c → ∃ T, exec (.anchorAdvance chan) s = .next T ∧
    T.channel chan = some { c with anc := s.anchorOf c } ∧ T = { s with pod := { s.pod with channels := T.pod.channels } }) ∧
  (∀ s p s1 q, (s.nextArrival fun k => k == .gap) = some (p, s1) →
    (s1.admits p = false → exec .gapRequestReceive s = .next (s1.filterDrop p)) ∧
    (s1.admits p = true → gapSeqs p.data = [q] →
      (∀ k, s1.keptOf p.chan q p.src = some k →
        exec .gapRequestReceive s = .next (s1.retransmit k true)) ∧
      (∀ c, s1.keptOf p.chan q p.src = none →
        s1.channel p.chan = some c → c.dest = p.src → exec .gapRequestReceive s = .next (s1.expire p.chan q)) ∧
      (s1.keptOf p.chan q p.src = none → (∀ c, s1.channel p.chan = some c → c.dest ≠ p.src) →
        exec .gapRequestReceive s = .next (s1.queueOut { Packet.blank .expiry with
          src := s1.pod.chip, dst := p.src, chan := p.chan, seq := q, polder := p.polder } none false)))) ∧
  (∀ s chan seq rest, s.pod.lossNotices = (chan, seq) :: rest →
    let s1 := { s with pod := { s.pod with lossNotices := rest } }
    (∀ c, chan ≠ 4096 → s.channel chan = some c → seq ∉ c.expired →
      exec .senderLossNotice s = .next
        ((s1.modChannel chan fun c => { c with expired := c.expired ++ [seq] }).haltContext c.ctx
          { cause := .podLoss, tval := seq.zeroExtend 64, detail := BitVec.ofNat 32 chan })) ∧
    (∀ q, chan = 4096 → (s.pod.requests.find? fun q => q.tag == seq && q.waits) = some q →
      exec .senderLossNotice s = .next (s1.endRequest q)))

/-- R269, R273, R274, R276 to R278, R283 to R285, R287, R290, R293, R395: an arriving packet is filtered or placed, one that came
before is only credited; writes, flags and requests go to their homes; a reply fills its destination; gaps are asked for; an
expired sequence is lost; requests are repeated and time out; a held `pacq` reads again. The model's choices: a receiver's state
before anything arrived (log 24), the landing die (log 25), delivery of `rst` (log 26), a reply without data (log 27), the gap
request's list (log 29) and its plane, which is the one of selector 0 (log 61), and the slots of a request that timed out (log 62). -/
def Obligations.PodReceiverSteps : Prop :=
  (∀ s p s1, (s.nextArrival fun k => k.isChannel || k == .pld || k == .patom) = some (p, s1) →
    let s2 := s1.forwardPmc p
    let q := { p with stops := [] }
    exec .podPacketArrive s = .next (if s2.admits q = false then s2.filterDrop q
      else if q.kind.isChannel then s2.placePacket q else s2.requestArrives q)) ∧
  (∀ (s : State) (p : Packet), s.filterDrop p = { s with
    regs := { s.regs with filter := satInc s.regs.filter }
    pod := { s.pod with credits := if p.kind = .gap ∨ p.kind = .expiry then s.pod.credits
      else s.pod.credits ++ [(p.src, p.creditChan, p.seq)] } }) ∧
  (∀ (s : State) (p : Packet), s.credit p = { s with pod := { s.pod with
    credits := s.pod.credits ++ [(p.src, p.creditChan, p.seq)] } }) ∧
  (∀ s p, 0 ≤ seqDist (State.recvOf s p.src p.chan).hseq p.seq → p.seq ∉ (s.recvOf p.src p.chan).miss →
    State.placePacket s p = s.credit p) ∧
  (∀ s p l, p.kind = .pst → p.seq = (State.recvOf s p.src p.chan).hseq + 1 → p.aux = p.seq →
    (s.recvOf p.src p.chan).heldWrites = [] → (s.recvOf p.src p.chan).withheld = [] →
    s.land p .write = .ok l →
    ∃ e, (s.placePacket p).pod.recv = ((s.modRecv p.src p.chan fun r => { r with
          hseq := p.seq, polder := p.polder, dead := r.lostAt 1 p.seq, lastGap := if r.miss = [] then none else r.lastGap
          arrived := r.arrived.filter fun q => q != p.seq, filtered := r.filtered.filter fun q => q != p.seq }).pod.recv) ∧
      ((s.placePacket p).die l.home).queue = (s.die l.home).queue ++ [e] ∧ e.kind = .podWrite p l ∧ e.polder = p.polder ∧
      (s.placePacket p).pod.credits = s.pod.credits) ∧
  (∀ (s : State) (p : Packet) (w : Nat), p.kind.isFlag = true → 0 < seqDist p.seq (s.recvOf p.src p.chan).hseq →
    (s.recvOf p.src p.chan).heldWrites = [] → (s.recvOf p.src p.chan).withheld = [] →
    p.aux.toNat = w + 1 → p.seq = (s.recvOf p.src p.chan).hseq + BitVec.ofNat 16 (w + 2) →
    (s.recvOf p.src p.chan).miss = [] → (s.recvOf p.src p.chan).dead = none →
    let r := (s.placePacket p).recvOf p.src p.chan
    r.withheld = [(p, s.clock)] ∧ r.hseq = p.seq ∧ (∀ q, q ∈ r.miss ↔ ∃ i, i ≤ w ∧
      q = (s.recvOf p.src p.chan).hseq + BitVec.ofNat 16 (i + 1)) ∧ s.credit p = { s with pod := { s.pod with
        credits := (s.placePacket p).pod.credits } }) ∧
  (∀ (s : State) (p : Packet), (p.kind = .pld ∨ p.kind = .patom) →
    (∀ k ∈ s.pod.replies, p.kind = .patom → k.src = p.src → k.tag ≠ p.seq) →
    (∀ l, s.land p p.need = .ok l → ∃ e, ((s.requestArrives p).die l.home).queue = ((s.touch l.ctx l.home).die l.home).queue ++ [e] ∧
      e.kind = (if p.kind = .pld then .podRead p l else .podAtom p l) ∧ e.polder = p.polder ∧
      (s.requestArrives p).pod.credits = s.pod.credits) ∧
    (∀ i, s.land p p.need = .error i → s.requestArrives p = (if i.cause = .levee then s.tellSender p else
      s.addRecords (s.landingDie p) [landRecord p i]).credit p)) ∧
  (∀ (s : State) (p : Packet) (r : Packet) k, p.kind = .patom →
    (s.pod.replies.find? fun k => p.kind == .patom && k.src = p.src && k.tag == p.seq &&
      (k.reply.isNone || s.clock ≤ k.since + microseconds 2000)) = some k → k.reply = some r →
    s.requestArrives p = { s with pod := { s.pod with credits := s.pod.credits ++ [(p.src, p.creditChan, p.seq)]
                                                      outWait := s.pod.outWait ++ [⟨r, none, false, false⟩] } }) ∧
  (∀ s p i, State.land s p .write = .error i → p.kind.isChannel = true → s.enterHome p =
    (if i.cause = .levee then s.dropPacket p else
      (s.addRecords (s.landingDie p) [landRecord p i]).modDie (s.landingDie p) fun d => { d with podQueue := d.podQueue ++ [p] })) ∧
  (∀ (s : State) (p : Packet), p.kind.isWrite = true → s.dropPacket p = (((s.modRecv p.src p.chan fun r =>
      r.lose p.seq).modRecv p.src p.chan fun r => { r with arrived := r.arrived ++ [p.seq] }).credit p).tellSender p) ∧
  (∀ (r : RecvChannel) q, (r.lose q).notice = true ∧ (r.lose q).dead ≠ none ∧
    (r.dead = none → r.lose q = { r with notice := true, dead := some q })) ∧
  (∀ s p s1 q t o d n, (s.nextArrival fun k => k == .reply) = some (p, s1) → s1.admits p = true → p.data ≠ [] →
    ((s1.credit p).pod.requests.find? fun q => q.tag == p.seq && q.waits) = some q → s.thread q.gid q.gidx = some t →
    (t.ops.find? fun o => o.id = q.op) = some o → o.kind = .podRead d n → o.cancelled = [] → t.state ≠ .exited →
    t.remote = [] →
    ∃ T, exec .podReply s = .next T ∧ Fills s T q.gid q.gidx q.op d
        ((List.range (p.data.length / 4)).map fun i => wordOfBytes (p.data.drop (4 * i))) ∧
      ∀ z ∈ T.pod.requests, z.tag = q.tag → z.waits = false) ∧
  (∀ s p s1 q, (s.nextArrival fun k => k == .reply) = some (p, s1) → s1.admits p = true → p.data = [] →
    (s1.pod.requests.find? fun q => q.tag == p.seq && q.waits) = some q →
    ∃ s2 : State, exec .podReply s = .next (s2.haltContext q.ctx
        { cause := .levee, tval := q.va, detail := BitVec.ofNat 32 p.aux.toNat, access := q.packet.need.code }) ∧
      s2 = { s1 with pod := { s1.pod with
        credits := s1.pod.credits ++ [(p.src, p.creditChan, p.seq)], requests := s2.pod.requests } } ∧
      ∀ z ∈ s2.pod.requests, z.tag = q.tag → z.waits = false) ∧
  (∀ s src chan x xs t, (((s.recvOf src chan).withheld ++ (s.recvOf src chan).heldWrites).map Prod.snd) = x :: xs →
    t = xs.foldl min x → (s.recvOf src chan).miss ≠ [] →
    (s.recvOf src chan).lastGap.getD t + microseconds 20 ≤ s.clock →
    let r := s.recvOf src chan
    exec (.gapRequestSend src chan) s = .next ((s.putRecv { r with lastGap := some s.clock }).queueOut
      { Packet.blank .gap with
        src := s.pod.chip, dst := src, chan := chan, polder := r.polder, len := (gapData r.miss).length, data := gapData r.miss }
      none false)) ∧
  (∀ (s : State) (p : Packet), p.kind = .gap → p.addr = 0 → (s.onPlane ⟨p, none, false, false⟩).plane = s.planeOf 0) ∧
  (∀ s src chan t, (s.recvOf src chan).lastGap = some t → (s.recvOf src chan).miss ≠ [] → t + microseconds 20 ≤ s.clock →
    ∃ T o, exec (.gapRequestSend src chan) s = .next T ∧ T.pod.outWait = s.pod.outWait ++ [o] ∧ o.packet.kind = .gap ∧
      o.packet.data = gapData (s.recvOf src chan).miss) ∧
  (∀ qs, gapSeqs (gapData qs) = qs) ∧
  (∀ s p s1, (s.nextArrival fun k => k == .expiry) = some (p, s1) → s1.admits p = true →
    exec .expiryReceive s = .next ((s1.modRecv p.src p.chan fun r =>
      let miss := r.miss.filter fun q => q != p.seq
      { r.lose p.seq with
        miss := miss, arrived := r.arrived ++ [p.seq], lastGap := if miss = [] then none else r.lastGap }).recheck
        p.src p.chan)) ∧
  (∀ s q, ∃ s1 : State, State.endRequest s q = s1.haltContext q.ctx { cause := .podLoss, tval := q.tag.zeroExtend 64 } ∧
    s1 = { s with pod := { s.pod with requests := s1.pod.requests, copies := s1.pod.copies } } ∧
    (∀ z ∈ s1.pod.requests, z.tag = q.tag → z.waits = false) ∧
    (∀ c ∈ s1.pod.copies, c.named q.packet.dst 4096 q.tag = true → c.lost = false) ∧
    ∀ c ∈ s.pod.copies, c.named q.packet.dst 4096 q.tag = false → c ∈ s1.pod.copies) ∧
  (∀ s tag q f, (s.pod.requests.find? fun q => q.tag == tag) = some q → q.first = some f → q.waits = true →
    (q.last + microseconds 20 ≤ s.clock → s.clock < f + microseconds 2000 →
      (∀ o ∈ s.pod.outWait, o.again = true → o.packet ≠ q.packet) →
      exec (.podRequestRetry tag) s = .next { s with pod := { s.pod with
        outWait := s.pod.outWait ++ [⟨q.packet, none, true, false⟩] } }) ∧
    (f + microseconds 2000 ≤ s.clock → exec (.podRequestTimeout tag) s = .next (s.endRequest q))) ∧
  (∀ s gid gidx g t since l c kind d next r, s.group gid = some g → g.residency = .resident since → g.thread gidx = some t →
    t.state = .waiting (.pacq l c kind d next) → s.poisoned .read false l 4 = false → s.pacqRead g t l = r →
    (∀ w, r.1 = some w → pacqMeets kind w c = true →
      exec (.pacqPoll gid gidx) s = .next ((r.2.acquireStep g.place.die).modGroup gid fun g =>
        (g.modThread gidx fun t => t.setReg d w).release gidx next false)) ∧
    (∀ w, r.1 = some w → pacqMeets kind w c = false → exec (.pacqPoll gid gidx) s = .next r.2))

/-! ## Ports -/

/-- R323, R428, R432, R433, R435: pod and root ports go down and are retrained, a plane is dead once both its ports are, MAP is
not written to name a dead plane, and a register is written by a thread that may write it. What retraining gives back is the
model's reading (log entry 18), and so is that the copies on their way on the plane of a port that goes down are lost (log 60). -/
def Obligations.PortAndPlaneSteps : Prop :=
  (∀ s port, port < 16 → (∀ x ∈ s.ports.podDown, x.1 ≠ port) → ∃ T, exec (.podPortDown port) s = .next T ∧
    T.ports.podDown = s.ports.podDown ++ [(port, s.clock)] ∧
    (∀ c ∈ T.pod.copies, c.packet.plane = port / 2 → c.here = false → c.lost = true) ∧
    T.groups = s.groups ∧ T.mem = s.mem ∧
    (s.regs.assist.getLsbD 3 = true → .podPort port ∈ T.ports.retrain ∧ T.regs.notice.getLsbD 26 = true)) ∧
  (∀ s plane, plane < 8 → s.regs.plmap.getLsbD (24 + plane) = false →
    (∃ x ∈ s.ports.podDown, x.1 = 2 * plane ∧ x.2 + microseconds 100 ≤ s.clock) →
    (∃ x ∈ s.ports.podDown, x.1 = 2 * plane + 1 ∧ x.2 + microseconds 100 ≤ s.clock) →
    ∃ T, exec (.planeDead plane) s = .next T ∧ T.regs.plmap.getLsbD (24 + plane) = true ∧
      (∀ i, i < 24 → T.regs.plmap.getLsbD i = s.regs.plmap.getLsbD i) ∧ T.regs.notice.getLsbD 24 = true ∧
      T = { s with regs := { s.regs with plmap := T.regs.plmap, notice := T.regs.notice } }) ∧
  (∀ s value, ((∀ i, i < 8 → s.regs.plmap.getLsbD (24 + field value (3 * i) 3) = false) →
      exec (.plmapWrite value) s = .next { s with regs := { s.regs with
        plmap := s.regs.plmap.extractLsb' 24 8 ++ value.extractLsb' 0 24 } }) ∧
    ((∃ i, i < 8 ∧ s.regs.plmap.getLsbD (24 + field value (3 * i) 3) = true) → exec (.plmapWrite value) s = .next s)) ∧
  (∀ s port, port < 8 → port ∉ s.ports.rootDown → ∃ T, exec (.portLinkDown port) s = .next T ∧
    T.ports.rootDown = s.ports.rootDown ++ [port] ∧ (∀ r ∈ T.ports.inbound, r.1 ≠ port) ∧
    T.regs.notice.getLsbD (16 + port) = true ∧
    (∀ r ∈ s.ports.outstanding, r.port = port → (r.gid, r.op, true, 0) ∈ T.ports.pciIn) ∧ T.groups = s.groups) ∧
  (∀ s link, link ∉ s.ports.retrain → ∃ T, exec (.linkRetrain link) s = .next T ∧
    (∀ k, link = .rootPort k → k ∉ T.ports.rootDown) ∧
    (∀ k, link = .podPort k → (∃ x ∈ s.ports.podDown, x.1 = k) → (∀ x ∈ T.ports.podDown, x.1 ≠ k) ∧
      (k < 16 → T.regs.plmap.getLsbD (24 + k / 2) = false)) ∧
    (∀ i, let e := s.connection routingCopy i
      link = .wavelength i → i < 1024 → ceValid e = true → ceState e ≠ 3 → ceLive e < ceWaves e →
      T = s.putConnection i (ceRetrain e))) ∧
  (∀ s, exec .retrainRelease s = .next { s with
    ports := { s.ports with retrain := [] }, regs := { s.regs with notice := s.regs.notice &&& ~~~0x04000000 } }) ∧
  (∀ s gid gidx number value g t sc rd wr w, s.group gid = some g → g.thread gidx = some t →
    systemReg (BitVec.toNat (w := 14) number) = some (w, sc, rd, wr) → plainSysReg number.toNat = true → wr ≤ t.pl.toNat →
    (g.control.isSome = true → sc ≠ .die) → (g.control = none → number.toNat ≠ 0x028) →
    exec (.registerWrite gid gidx number value) s = .next
      ((s.modThread gid gidx fun t => t.sysWrite number.toNat value).sysWrite g t number.toNat value))

/-- R85, R380, R425 to R428: a downstream read's completion fills its pair and a request without one times out; inbound requests
of a port are performed, filtered, refused and logged; a fetch that faults traps its control-core thread. That the port's die
releases first, within the step (log 12), and the list that stands for the AER registers (log 19) are the model's choices. -/
def Obligations.PciAndFetchSteps : Prop :=
  (∀ s gid op data rest r g t o d, s.ports.pciIn = (gid, op, false, data) :: rest → s.pciRequest gid op = some r →
    r.write = false → Awaiting s gid 0 op g t o → o.kind = .pciRead d →
    ∃ T, exec .pciCompletion s = .next T ∧ T.ports.pciIn = rest ∧ T.pciRequest gid op = none ∧
      Fills s T gid 0 op d [BitVec.ofNat 32 (data.toNat % 2 ^ (8 * r.size)),
        BitVec.ofNat 32 (data.toNat % 2 ^ (8 * r.size) / 2 ^ 32)]) ∧
  (∀ s gid op r, s.pciRequest gid op = some r → r.sent + microseconds 50000 ≤ s.clock →
    exec (.pciTimeout gid op) s = .next (s.pciComplete r true 0)) ∧
  (∀ s gid gidx value g t k, s.group gid = some g → g.control = some k → g.thread gidx = some t → t.sb = [] →
    t.state = .ready → t.pciAligned = true →
    (t.pciConfig = false → exec (.pcidataWrite gid gidx value) s = .next (((s.modThread gid gidx id).pciPost gid gidx s.next.op t
      value).takePlaces 1)) ∧
    (t.pciConfig = true → exec (.pcidataWrite gid gidx value) s = .next (((s.modThread gid gidx fun t =>
      { t with state := .waiting (.pciWrite t.pc) }).pciSend gid s.next.op t true
        (BitVec.ofNat 64 (value.toNat % 2 ^ (8 * t.pciSize)))).takePlaces 1))) ∧
  (∀ s gid gidx (d : RegNum) g t k, s.group gid = some g → g.control = some k → g.thread gidx = some t → t.sb = [] →
    t.state = .ready → t.outstanding .load < 64 → d.toNat % 2 = 0 → t.isFull d.toNat = true →
    t.isFull (d.toNat + 1) = true →
    exec (.pcidataRead gid gidx d) s = .next
      (((s.modThread gid gidx fun t => t.pciRead s.next.op d.toNat).pciReadSend gid s.next.op t).takePlaces 1)) ∧
  (∀ s port r rest, s.ports.inbound = (port, r) :: rest → port < 8 → port ∉ s.ports.rootDown →
    let s1 := { s with ports := { s.ports with inbound := rest } }
    (∀ n, r = .intx n → exec .inboundRequest s = .next s1) ∧
    (∀ a tag, r = .peer a tag → exec .inboundRequest s = .next (s1.pciAnswer port tag .unsupported [])) ∧
    (∀ b addr data, r = .write b addr data → s.portEnabled port = false → exec .inboundRequest s = .next s1) ∧
    (∀ b addr n tag, r = .read b addr n tag → s.portEnabled port = false →
      exec .inboundRequest s = .next (s1.pciAnswer port tag .unsupported [])) ∧
    (∀ b addr data ps, r = .write b addr data → s.portEnabled port = true →
      s1.stretch (s1.portWho port) .write false ((addr.extractLsb' 0 56).zeroExtend 64) data.length = some ps →
      s1.piecesDelivered (s1.portWho port) ps = true →
      exec .inboundRequest s = .next (((ps.foldl (fun s p => s.touch (s1.portWho port).ctx p.1.home) s1).engineRelease
        (portDie port)).engineWrite (portDie port) true ps data)) ∧
    (∀ b addr n tag ps, r = .read b addr n tag → s.portEnabled port = true →
      s1.stretch (s1.portWho port) .read false ((addr.extractLsb' 0 56).zeroExtend 64) n = some ps →
      s1.piecesDelivered (s1.portWho port) ps = true →
      let d := ((ps.foldl (fun s p => s.touch (s1.portWho port).ctx p.1.home) s1).engineRelease (portDie port)).engineRead
        (portDie port) ps
      exec .inboundRequest s = .next (d.2.pciAnswer port tag .success d.1)) ∧
    (∀ b addr n tag, r = .read b addr n tag → s.portEnabled port = true →
      s1.stretch (s1.portWho port) .read false ((addr.extractLsb' 0 56).zeroExtend 64) n = none →
      exec .inboundRequest s = .next { s1 with ports := { s1.ports with
        aer := s1.ports.aer ++ [(port, addr)], completions := s1.ports.completions ++ [(port, tag, .abort, [])] } }) ∧
    (∀ b addr data ps, r = .write b addr data → s.portEnabled port = true →
      s1.stretch (s1.portWho port) .write false ((addr.extractLsb' 0 56).zeroExtend 64) data.length = some ps →
      s1.piecesDelivered (s1.portWho port) ps = false → exec .inboundRequest s = .next { s1 with
        regs := { s1.regs with filter := satInc s1.regs.filter }
        ports := { s1.ports with aer := s1.ports.aer ++ [(port, addr)] } }) ∧
    (∀ b addr data, r = .write b addr data → s.portEnabled port = true →
      s1.stretch (s1.portWho port) .write false ((addr.extractLsb' 0 56).zeroExtend 64) data.length = none →
      ∃ T, exec .inboundRequest s = .next T ∧ T.ports.aer = s.ports.aer ++ [(port, addr)] ∧ T.mem = s.mem ∧
        T.groups = s.groups)) ∧
  (∀ s x t k e, s.issue = some x → x.group.control = some k → x.lanes = [t] → s.fetchInstr x = .error e →
    (t.trapped = none → e.cause ≠ .levee →
      EntersHandler s .instructionFetchFault x t ((e.detail.extractLsb' 0 16) ++ e.aux ++ e.cause.code) e.tval) ∧
    ∀ h, t.trapped = some h →
      EntersHandler s .instructionFetchFault x t ((h.detail.extractLsb' 0 16) ++ h.aux ++ h.cause.code) h.tval)

/-! ## The sideband, the election, power and cooling -/

/-- R429 to R431, R436, R440, R441: a signed request with a new nonce is answered; one without is discarded; a reset request
resets at once or opens a window, which counts down and resets; a second one changes nothing; a module without keys answers
with errors; images are written and committed in recovery. The answers' bytes, and what a request's body offers or asks, are free
values (log entries 7 and 87). The model's choices: image writes append (log 20), the answer goes before the reset (log 21), and the
sixteenth failure within a second raises the alarm and starts the count anew (log 41). -/
def Obligations.SidebandSteps : Prop :=
  (∀ s m s1,
    let spdm := fun k measured => State.answer s1 (.spdm k measured (Config.spdmAnswer m.body))
    (SidebandTaken s m .getVersion s1 → exec .getVersion s = .next (spdm .getVersion [])) ∧
    (SidebandTaken s m .getCapabilities s1 → exec .getCapabilities s = .next (spdm .getCapabilities [])) ∧
    (SidebandTaken s m .negotiateAlgorithms s1 → exec .negotiateAlgorithms s = .next (s1.answer
      (if Config.spdmOffers m.body then .algorithms 4096 512 (Config.spdmAnswer m.body) else .unsupported .negotiateAlgorithms))) ∧
    (SidebandTaken s m .getDigests s1 → exec .getDigests s = .next (spdm .getDigests [])) ∧
    (SidebandTaken s m .getCertificate s1 → exec .getCertificate s = .next (spdm .getCertificate [])) ∧
    (SidebandTaken s m .challenge s1 → exec .challenge s = .next (spdm .challenge [])) ∧
    (SidebandTaken s m .getMeasurements s1 →
      (Config.spdmBlocks m.body = [1, 2] → exec .getMeasurements s = .next (spdm .getMeasurements
        (Config.sha512 ((s.ports.image.map Image.bytes).getD []) ++ s.ports.measurement2))) ∧
      ((∃ b ∈ Config.spdmBlocks m.body, b ≠ 1 ∧ b ≠ 2) →
        exec .getMeasurements s = .next (s1.answer (.unsupported .getMeasurements)))) ∧
    (SidebandTaken s m .other s1 → exec .sidebandUnsupported s = .next (s1.answer (.unsupported .other))) ∧
    (∀ k, (k = .imageWrite ∨ k = .imageCommit) → s.ports.boot ≠ .recovery → SidebandTaken s m k s1 →
      exec .sidebandUnsupported s = .next (s1.answer (.error k)))) ∧
  (∀ s m rest, s.ports.sideband = m :: rest → s.ports.keys = false →
    let s1 := State.answer { s with ports := { s.ports with sideband := rest } } (.error m.kind)
    (m.kind = .reset → exec .sidebandResetRequest s = .next s1) ∧ (m.kind = .getVersion → exec .getVersion s = .next s1) ∧
    (m.kind = .getCapabilities → exec .getCapabilities s = .next s1) ∧
    (m.kind = .negotiateAlgorithms → exec .negotiateAlgorithms s = .next s1) ∧
    (m.kind = .getDigests → exec .getDigests s = .next s1) ∧ (m.kind = .getCertificate → exec .getCertificate s = .next s1) ∧
    (m.kind = .challenge → exec .challenge s = .next s1) ∧ (m.kind = .getMeasurements → exec .getMeasurements s = .next s1)) ∧
  (∀ s m s1, SidebandTaken s m .reset s1 → s.ports.resetWindow ≠ none →
    exec .sidebandResetRequest s = .next (s1.answer (.accepted .reset))) ∧
  (∀ (s : State) a, s.answer a = { s with ports := { s.ports with sidebandOut := s.ports.sidebandOut ++ [a] } }) ∧
  (∀ s m s1, SidebandTaken s m .reset s1 → s.ports.resetWindow = none →
    let s2 := s1.answer (.accepted .reset)
    (s.ports.boot = .check ∨ s2.tenants = false → exec .sidebandResetRequest s = .next s2.moduleReset) ∧
    (s.ports.boot ≠ .check → s2.tenants = true → ∃ T, exec .sidebandResetRequest s = .next T ∧
      T.ports.resetWindow = some s.clock ∧ T.msLeft = 200 ∧ T.regs.notice.getLsbD 25 = true)) ∧
  (∀ s m rest, s.ports.sideband = m :: rest → m.kind = .reset → s.ports.keys = true →
    (Config.signatureValid m.signed m.signature = false ∨ m.nonce ∈ s.ports.nonces) →
    ∃ T, exec .sidebandResetRequest s = .next T ∧
      T = { s with ports := { s.ports with sideband := rest, failures := T.ports.failures, alarmIn := T.ports.alarmIn } } ∧
      (Config.signatureValid m.signed m.signature = false →
        let fs := (s.ports.failures.filter fun t => s.clock < t + seconds 1) ++ [s.clock]
        (fs.length < 16 → T.ports.failures = fs ∧ T.ports.alarmIn = s.ports.alarmIn) ∧
        (16 ≤ fs.length → T.ports.failures = [] ∧ T.ports.alarmIn = s.ports.alarmIn ++ [.signatures])) ∧
      (Config.signatureValid m.signed m.signature = true →
        T.ports.failures = s.ports.failures ∧ T.ports.alarmIn = s.ports.alarmIn)) ∧
  (∀ s n, s.ports.resetWindow = some n → n + microseconds 1000 ≤ s.clock → 0 < s.msLeft →
    ∃ T, exec .resetWindowCount s = .next T ∧ T.msLeft + 1 = s.msLeft ∧
      T.ports.resetWindow = some (n + microseconds 1000)) ∧
  (∀ s, s.ports.resetWindow.isSome = true → s.msLeft = 0 → exec .resetWindowExpire s = .next s.moduleReset) ∧
  (∀ s, ∃ T, exec .moduleReset s = .next T ∧
    T = { State.resetWith s.ports.image s.ports.keys s.ports.eraseFuse with agenda := s.agenda }) ∧
  (∀ s m s1, s.ports.boot = .recovery →
    (SidebandTaken s m .imageWrite s1 → exec .imageWrite s = .next
      ({ s1 with ports := { s1.ports with staged := s.ports.staged ++ m.body } }.answer (.accepted .imageWrite))) ∧
    (SidebandTaken s m .imageCommit s1 →
      let image := stagedImage s.ports.staged
      (Config.signatureValid image.bytes image.signature = true → ∃ T, exec .imageCommit s = .next T ∧
        T.ports.image = some image ∧ T.ports.boot = .check ∧ T.mem = [] ∧ T.groups = []) ∧
      (Config.signatureValid image.bytes image.signature = false → ∃ T, exec .imageCommit s = .next T ∧
        T.ports.image = s.ports.image ∧ T.ports.staged = [])))

/-- R437 to R440, R442, R443: claims are sent and taken, beats keep a follower waiting, a leader loads its followers; an alarm sets
its notice and erases the keys under the fuse; power and heat lower the arithmetic clock, and 115 °C resets. Serials and
signatures are free values (log entry 7). The model's choices: the messages by which a leader loads, verifies and tells its marks (log
80), what a follower of a new leader discards and keeps (log 22), that a leader loads one follower at a time (log 23), one step of the
clock for each sample (log 39), and the fuse as an input (log 93). -/
def Obligations.ElectionAndCoolingSteps : Prop :=
  (∀ s, s.claimDue = true → ∃ T, exec .claimSend s = .next T ∧
    (∀ k, k < 16 → (∀ x ∈ s.ports.podDown, x.1 ≠ k) → (k, s.ownClaim) ∈ T.ports.claimsOut) ∧
    T.ports.election.lastClaim = some s.clock) ∧
  (∀ s port c rest, s.ports.claimsIn = (port, c) :: rest →
    (s.ports.keys = false ∨ Config.signatureValid c.signed c.signature = false) →
    exec .claimReceive s = .next { s with ports := { s.ports with claimsIn := rest }
                                          regs := { s.regs with filter := satInc s.regs.filter } }) ∧
  (∀ s port c rest, s.ports.claimsIn = (port, c) :: rest → s.ports.keys = true →
    (Config.signatureValid c.signed c.signature = true → c.serial = Config.serial →
      ∃ T, exec .claimReceive s = .next T ∧ T.ports.alarmIn = s.ports.alarmIn ++ [.serials]) ∧
    (Config.signatureValid c.signed c.signature = true → c.serial.toNat < Config.serial.toNat →
      c.serial ∉ s.ports.election.without → (∀ l, s.ports.election.lowest = some l → c.serial.toNat < l.toNat) →
      ∃ T, exec .claimReceive s = .next T ∧ T.ports.election.state = .follower ∧
        T.ports.election.lowest = some c.serial ∧ T.ports.election.loading = false ∧ T.ports.configsOut = [] ∧
        ((∀ f ∈ s.ports.election.followers, f.1 ≠ c.serial) → T.ports.election.followers = [] ∧
          T.ports.election.configured = false ∧
          (s.ports.election.configured = true → T.pod.chip = 0 ∧ T.pod.channels = []))) ∧
    (Config.signatureValid c.signed c.signature = true → Config.serial.toNat < c.serial.toNat →
      c.serial ∉ s.ports.election.without → s.ports.election.state ≠ .follower →
      ∃ T, exec .claimReceive s = .next T ∧ T.ports.election.state = .leader ∧
        (∃ f ∈ T.ports.election.followers, f.1 = c.serial) ∧
        (s.ports.election.kept = false → s.ports.election.followers = [] →
          T.ports.election.followers = [(c.serial, 1, false)] ∧ T.ports.election.loading = true) ∧
        (∀ a, s.ports.election.followers = [(a, 1, false)] → a ≠ Config.serial → a ≠ c.serial →
          T.ports.election.followers = (if s.ports.election.kept = false ∧ c.serial.toNat < a.toNat
            then [(c.serial, 1, false), (a, 2, false)] else [(a, 1, false), (c.serial, 2, false)]) ∧
          ∀ f ∈ T.ports.election.followers,
            (f.1, .marks ((Config.serial, s.pod.chip, true) :: T.ports.election.followers)) ∈ T.ports.configsOut))) ∧
  (∀ s, s.ports.election.state = .leader → s.ports.election.loading = true →
    s.ports.election.lastBeat + microseconds 100000 ≤ s.clock → ∃ T, exec .progressBeatSend s = .next T ∧
      T.ports.beatsOut = s.ports.beatsOut ++ [Config.sign (beatBytes Config.serial)] ∧
      T.ports.election.lastBeat = s.clock) ∧
  (∀ s serial sig rest, s.ports.beatsIn = (serial, sig) :: rest → s.ports.election.state = .follower →
    s.ports.election.lowest = some serial → s.ports.keys = true → Config.signatureValid (beatBytes serial) sig = true →
    ∃ T, exec .progressBeatReceive s = .next T ∧ T.ports.beatsIn = rest ∧ T.ports.election.lastBeat = s.clock) ∧
  (∀ s l, s.ports.election.state = .follower → s.ports.election.lowest = some l →
    s.ports.election.lastBeat + seconds 5 ≤ s.clock → ∃ T, exec .progressBeatTimeout s = .next T ∧
      T.ports.election.state = .claiming ∧ T.ports.election.without = s.ports.election.without ++ [l] ∧
      T.ports.election.lowest = none) ∧
  (∀ s leader m rest, s.ports.configsIn = (leader, m) :: rest → s.ports.election.state = .follower →
    s.ports.election.lowest = some leader →
    (∀ c, m = .config c → ∃ T, exec .podConfigurationLoad s = .next T ∧ T.pod.chip = c.chip ∧
      T.ports.election.configured = true ∧ T.ports.election.followers = c.assigned ∧
      T.ports.configsOut = s.ports.configsOut ++ [(leader, .verified c.chip)] ∧
      (∀ i, i < 8 → s.regs.plmap.getLsbD (24 + field ((0 : Byte) ++ c.plmap : Word) (3 * i) 3) = false) →
        T.regs.plmap = s.regs.plmap.extractLsb' 24 8 ++ c.plmap) ∧
    (∀ fs, m = .marks fs → ∃ T, exec .podConfigurationLoad s = .next T ∧
      T.ports.election.followers = fs ∧ T.ports.configsIn = rest ∧ T.pod = s.pod)) ∧
  (∀ s serial chip at' rest, s.ports.configsIn = (serial, .verified chip) :: rest → s.ports.election.state = .leader →
    s.ports.election.sentTo = some (serial, at') →
    (∃ f ∈ s.ports.election.followers, f.1 = serial ∧ f.2.1 = chip ∧ f.2.2 = false) → ∃ T, exec .podConfigurationLoad s = .next T ∧
      T.ports.election.followers = s.ports.election.followers.map (fun x => if x.1 = serial then (x.1, x.2.1, true) else x) ∧
      ∀ x ∈ T.ports.election.followers,
        (x.1, .marks ((Config.serial, s.pod.chip, true) :: T.ports.election.followers)) ∈ T.ports.configsOut) ∧
  (∀ s f, s.ports.configsIn = [] → s.ports.election.state = .leader →
    (s.ports.election.followers.find? fun f => !f.2.2) = some f →
    (∀ t, s.ports.election.sentTo = some (f.1, t) → t + microseconds 100000 ≤ s.clock) →
    ∃ T, exec .podConfigurationLoad s = .next T ∧
      T.ports.configsOut = s.ports.configsOut ++ [(f.1, .config (s.configFor f.1 f.2.1))] ∧
      (s.configFor f.1 f.2.1).chip = f.2.1 ∧ T.ports.election.followers = s.ports.election.followers) ∧
  (∀ s a rest, s.ports.alarmIn = a :: rest → ∃ T, exec .securityAlarm s = .next T ∧
    (s.ports.eraseFuse = false → T.regs.notice.getLsbD 27 = true ∧ T.ports.alarmIn = rest ∧ T.ports.keys = s.ports.keys) ∧
    (s.ports.eraseFuse = true → T.ports.keys = false ∧ T.ports.boot = .check ∧ T.groups = [])) ∧
  (∀ s w rest, s.ports.powerIn = w :: rest → ∃ T, exec .powerCapThrottle s = .next T ∧ T.ports.powerIn = rest ∧
    T.ports.throttle = if 100 * min 260 (max 60 (field s.regs.pwrcap 0 9)) < w then min 8 (s.ports.throttle + 1)
      else s.ports.throttle - 1) ∧
  (∀ s die c rest, s.ports.junctionIn = (die, c) :: rest →
    (105 ≤ c → c < 115 → ∃ T, exec .junctionThrottle s = .next T ∧ T.ports.junctionIn = rest ∧
      T.ports.throttle = min 8 (s.ports.throttle + 1) ∧ T.regs.notice.getLsbD 28 = true) ∧
    (115 ≤ c → exec .junctionReset s = .next s.moduleReset))

/-! ## Reset, decoding and the step -/

/-- R324, R326, R339, R384, R430, R436, Tables 19-1 and 26-1: the module after reset: 192 control-core threads at monitor level, held
as by `halt`, no compute group, the module registers' values, no difference or token away from home; and, once an image verifies,
thread 0 at its entry and every other thread at its secondary entry, with its trap entry in sys.vbase. The memory and the
general registers that the spec gives no value read 0 (log entries 1 and 2). -/
def Obligations.ResetAndBoot : Prop :=
  (∀ k, k < 192 → ∃ g t n, State.reset.group k = some g ∧ g.control = some k ∧ g.budget = 128 ∧ g.nthr = 1 ∧
    g.place.die = 32 + k / 96 ∧ g.place.core = k % 96 / 2 ∧ g.thread 0 = some t ∧ t.pl = 2 ∧ t.ppl = 0 ∧ t.ctxid = 0 ∧
    t.polder = 0 ∧ t.state = .waiting (.wfe n) ∧ t.ev = false ∧ ∀ r, t.isFull r = true) ∧
  (∀ k, 192 ≤ k → State.reset.group k = none) ∧
  (State.reset.regs.assist = 0 ∧ State.reset.regs.ntarget = 0x00002000 ∧ State.reset.regs.filter = 0 ∧
    State.reset.regs.plmap = 0x00FAC688 ∧ State.reset.regs.notice = 0 ∧ State.reset.regs.pwrcap = 0) ∧
  (∀ d, (State.reset.die d).svcring = 63 ∧ (State.reset.die d).lost = false ∧ (State.reset.die d).work = [] ∧
    (State.reset.die d).queue = [] ∧ (State.reset.die d).fring = 0) ∧
  (∀ line, (State.reset.lineOrHome line).homeTokens = 64 ∧ (State.reset.lineOrHome line).homeOwner = true) ∧
  (∀ image fuse, Config.signatureValid image.bytes image.signature = true →
    let T := (State.resetWith (some image) true fuse).bootCheck
    T.ports.boot = .running ∧
    (∃ t, T.thread 0 0 = some t ∧ t.pc = image.entry ∧ t.state = .ready ∧ t.vbase = image.trap &&& 0x00FFFFFFFFFFFFFC ∧
      t.pl = 2) ∧
    ∀ k, 0 < k → k < 192 → ∃ t, T.thread k 0 = some t ∧ t.pc = image.secondary ∧
      t.vbase = image.trap &&& 0x00FFFFFFFFFFFFFC ∧ t.pl = 2 ∧ t.state = .waiting (.wfe image.secondary))

/-- R85, R87, R88: where the words at the program counter of the lane set that issues decode to i, the fetch gives i; and
a step is then `exec` of i on that slot, with what its fetch notes before it and what the step settles after it; a fetch that
wants a token asks for it, and one that faults traps. The agenda and the order of turns are the model's (log entry 4). -/
def Obligations.StepRunsTheDecodedInstruction : Prop :=
  (∀ s x t ts ws i, Issue.lanes x = t :: ts → decodeWords ws = .ok (i, []) →
    (∀ j w, ws[j]? = some w → ∃ l, State.fetchLoc s x t j = .ok l ∧ s.readLoc x.group.place.die l 4 = bytesOfWord w) →
    ∃ homes, s.fetchInstr x = .ok (i, homes) ∧ homes.length = ws.length) ∧
  (∀ s rest d c k x i homes, State.agenda s = .issue d c k :: rest →
    let s1 := { s with agenda := rest, cur := (d, c, k) }
    s1.issue = some x → s1.mayIssue = true →
    (∀ l, s1.fetchWants x = some l → step s = settled (.next (s1.askFetch x l))) ∧
    (s1.fetchWants x = none → s1.fetchInstr x = .ok (i, homes) → step s = settled (exec i (s1.touchFetch x homes))) ∧
    (∀ e, s1.fetchWants x = none → s1.fetchInstr x = .error e → step s = settled (exec .instructionFetchFault s1))) ∧
  (∀ s rest i, State.agenda s = .event i :: rest → step s = settled (exec i { s with agenda := rest })) ∧
  (∀ s, State.agenda s = [] → step s = settled ({ s with agenda := s.nextTurns.2 }.turn s.nextTurns.1))

/-- R66 to R83, R143, Tables 3-8 and 3-9: words that the spec's worked encodings write out decode to the lines beside them. -/
def Obligations.WorkedEncodingsDecode : Prop :=
  decodeWords [0x0A101A01, 0x00004480] =
    .ok (.fadd .f32 ⟨5, 4, 3, false, .mod { Modifier.absent with me := true, m := 9 }⟩, []) ∧
  decodeWords [0x020811E0] = .ok (.shrImm7 ⟨1, 2, 2, false, .none⟩, []) ∧
  decodeWords [0x040839F9, 0x02800000] = .ok (.cmpzImm7 ⟨2, 2, 7, false, .mod { Modifier.absent with x := 0b101 }⟩, []) ∧
  decodeWords [0x00002193, 0x3F800000, 0] = .ok (.movi ⟨0, 4, false, .lit 0x3F800000⟩, []) ∧
  decodeWords [0xFFFFE380] = .ok (.br ⟨0x1FFFFC, false, .none⟩, []) ∧
  decodeWords [0xFFF03B88] = .ok (.brc ⟨0x3FFC, 7, false, .none⟩, []) ∧
  decodeWords [0x0010454A, 0x09000000, 0x00000200] =
    .ok (.ldAcq ⟨0, 4, 8, false, .modLit { Modifier.absent with sc := 0b10, x := 0b010 } 0x200⟩, []) ∧
  decodeWords [0x18200E81, 0x03000000] = .ok (.tld ⟨12, 8, 1, false, .mod { Modifier.absent with x := 0b110 }⟩, []) ∧
  decodeWords [0x28103729, 0x01000009] = .ok (.rst ⟨20, 4, 6, false, .mod { Modifier.absent with x := 0b010, c := 9 }⟩, []) ∧
  decodeWords [0x00283788] = .ok (.rdsys ⟨0, 10, 6, false, .none⟩, []) ∧
  decodeWords [0x0A101B49, 0] = .ok (.unassignedOpcode ⟨0x14203, 0x69, false, .mod Modifier.absent⟩, [])

/-- R66 to R83, Tables 3-6 to 3-10: every well-formed encoded instruction is decoded from its own words, whatever follows them, and
every decoded instruction has the words it was decoded from: no bit of an encoding is dropped. -/
def Obligations.DecodeAndEncodeAgree : Prop :=
  (∀ i ws rest, Instr.WellFormed i → encode i = some ws → decodeWords (ws ++ rest) = .ok (i, rest)) ∧
  (∀ ws i rest, decodeWords ws = .ok (i, rest) → ∃ ms, encode i = some ms ∧ ws = ms ++ rest)

/-- R269: after every step every packet that waits to leave is blocked: it takes a slot, and some chip that it goes to has all 64
slots of this chip taken or an earlier packet waiting. -/
def Obligations.EveryStepKeepsDeparturesBlocked : Prop :=
  ∀ s T, step s = .next T → T.DeparturesBlocked

/-- R269: no packet waits after reset. -/
def Obligations.ResetHasDeparturesBlocked : Prop := State.reset.DeparturesBlocked
end

