-- ==== Sys2Proof/Laws/Tables.lean ====
section
/-!
SUPPORT. Laws of tables and memory: what a lookup answers after a change, for tables in any order, and the canonical form.
-/
namespace Sys2Proof.Machine

open Sys2Proof

/-! ## Lookups after a change -/

theorem tget_tput_same {β : Type} (d : β) (t : Table β) (i : Nat) (v : β) : tget d (tput t i v) i = v := by
  induction t with
  | nil => simp [tput, tget]
  | cons e t ih =>
    obtain ⟨k, w⟩ := e
    by_cases h1 : i < k
    · simp [tput, tget, h1]
    · by_cases h2 : i = k
      · subst h2; simp [tput, tget]
      · simp [tput, tget, h1, h2, ih]

theorem tget_tput_other {β : Type} (d : β) (t : Table β) (i j : Nat) (v : β) (h : j ≠ i) :
    tget d (tput t i v) j = tget d t j := by
  induction t with
  | nil => simp [tput, tget]; omega
  | cons e t ih =>
    obtain ⟨k, w⟩ := e
    by_cases h1 : i < k
    · simp only [tput, h1, if_true, tget]
      by_cases h3 : j < i
      · simp [h3, show j < k by omega]
      · simp [h3, h]
    · by_cases h2 : i = k
      · subst h2; simp [tput, tget, h]
      · simp [tput, tget, h1, h2, ih]

theorem tfind_tput_same {β : Type} (t : Table β) (i : Nat) (v : β) : tfind (tput t i v) i = some v := by
  induction t with
  | nil => simp [tput, tfind]
  | cons e t ih =>
    obtain ⟨k, w⟩ := e
    by_cases h1 : i < k
    · simp [tput, tfind, h1]
    · by_cases h2 : i = k
      · subst h2; simp [tput, tfind]
      · simp [tput, tfind, h1, h2, ih]

theorem tfind_tput_other {β : Type} (t : Table β) (i j : Nat) (v : β) (h : j ≠ i) :
    tfind (tput t i v) j = tfind t j := by
  induction t with
  | nil => simp [tput, tfind]; omega
  | cons e t ih =>
    obtain ⟨k, w⟩ := e
    by_cases h1 : i < k
    · simp only [tput, h1, if_true, tfind]
      by_cases h3 : j < i
      · simp [h3, show j < k by omega]
      · simp [h3, h]
    · by_cases h2 : i = k
      · subst h2; simp [tput, tfind, h]
      · simp [tput, tfind, h1, h2, ih]

theorem tget_dropWhile_same {β : Type} (d : β) (t : Table β) (i : Nat) :
    tget d (t.dropWhile fun e => e.1 ≤ i) i = d := by
  induction t with
  | nil => rfl
  | cons e t ih =>
    obtain ⟨k, w⟩ := e
    by_cases h : k ≤ i
    · simp [List.dropWhile, h, ih]
    · simp [List.dropWhile, h, tget, show i < k by omega]

theorem tget_dropWhile_other {β : Type} (d : β) (t : Table β) (i j : Nat) (h : i < j) :
    tget d (t.dropWhile fun e => e.1 ≤ i) j = tget d t j := by
  induction t with
  | nil => rfl
  | cons e t ih =>
    obtain ⟨k, w⟩ := e
    by_cases h1 : k ≤ i
    · simp [List.dropWhile, h1, ih, tget, show ¬ j < k by omega, show j ≠ k by omega]
    · simp [List.dropWhile, h1]

theorem tget_dropWhile_below {β : Type} (d : β) (t : Table β) (i j : Nat) (h : j < i) :
    tget d (t.dropWhile fun e => e.1 ≤ i) j = d := by
  induction t with
  | nil => rfl
  | cons e t ih =>
    obtain ⟨k, w⟩ := e
    by_cases h1 : k ≤ i
    · simp [List.dropWhile, h1, ih]
    · simp [List.dropWhile, h1, tget, show j < k by omega]

theorem tget_tdel_same {β : Type} (d : β) (t : Table β) (i : Nat) : tget d (tdel t i) i = d := by
  induction t with
  | nil => rfl
  | cons e t ih =>
    obtain ⟨k, w⟩ := e
    by_cases h1 : i < k
    · simp [tdel, tget, h1]
    · by_cases h2 : i = k
      · subst h2; simp [tdel, tget_dropWhile_same]
      · simp [tdel, tget, h1, h2, ih]

theorem tget_tdel_other {β : Type} (d : β) (t : Table β) (i j : Nat) (h : j ≠ i) :
    tget d (tdel t i) j = tget d t j := by
  induction t with
  | nil => rfl
  | cons e t ih =>
    obtain ⟨k, w⟩ := e
    by_cases h1 : i < k
    · simp [tdel, h1]
    · by_cases h2 : i = k
      · subst h2
        simp only [tdel, Nat.lt_irrefl, if_false, if_true, tget]
        rcases Nat.lt_or_gt_of_ne h with h3 | h3
        · simp [h3, tget_dropWhile_below]
        · simp [tget_dropWhile_other, h3, show ¬ j < i by omega, h]
      · simp [tdel, tget, h1, h2, ih]

theorem tfind_dropWhile_same {β : Type} (t : Table β) (i : Nat) :
    tfind (t.dropWhile fun e => e.1 ≤ i) i = none := by
  induction t with
  | nil => rfl
  | cons e t ih =>
    obtain ⟨k, w⟩ := e
    by_cases h : k ≤ i
    · simp [List.dropWhile, h, ih]
    · simp [List.dropWhile, h, tfind, show i < k by omega]

theorem tfind_dropWhile_other {β : Type} (t : Table β) (i j : Nat) (h : i < j) :
    tfind (t.dropWhile fun e => e.1 ≤ i) j = tfind t j := by
  induction t with
  | nil => rfl
  | cons e t ih =>
    obtain ⟨k, w⟩ := e
    by_cases h1 : k ≤ i
    · simp [List.dropWhile, h1, ih, tfind, show ¬ j < k by omega, show j ≠ k by omega]
    · simp [List.dropWhile, h1]

theorem tfind_dropWhile_below {β : Type} (t : Table β) (i j : Nat) (h : j < i) :
    tfind (t.dropWhile fun e => e.1 ≤ i) j = none := by
  induction t with
  | nil => rfl
  | cons e t ih =>
    obtain ⟨k, w⟩ := e
    by_cases h1 : k ≤ i
    · simp [List.dropWhile, h1, ih]
    · simp [List.dropWhile, h1, tfind, show j < k by omega]

theorem tfind_tdel_same {β : Type} (t : Table β) (i : Nat) : tfind (tdel t i) i = none := by
  induction t with
  | nil => rfl
  | cons e t ih =>
    obtain ⟨k, w⟩ := e
    by_cases h1 : i < k
    · simp [tdel, tfind, h1]
    · by_cases h2 : i = k
      · subst h2; simp [tdel, tfind_dropWhile_same]
      · simp [tdel, tfind, h1, h2, ih]

theorem tfind_tdel_other {β : Type} (t : Table β) (i j : Nat) (h : j ≠ i) : tfind (tdel t i) j = tfind t j := by
  induction t with
  | nil => rfl
  | cons e t ih =>
    obtain ⟨k, w⟩ := e
    by_cases h1 : i < k
    · simp [tdel, h1]
    · by_cases h2 : i = k
      · subst h2
        simp only [tdel, Nat.lt_irrefl, if_false, if_true, tfind]
        rcases Nat.lt_or_gt_of_ne h with h3 | h3
        · simp [h3, tfind_dropWhile_below]
        · simp [tfind_dropWhile_other, h3, show ¬ j < i by omega, h]
      · simp [tdel, tfind, h1, h2, ih]

/-- A table answers the value last set at a key. -/
@[simp] theorem tget_tset_same {β : Type} [DecidableEq β] (d : β) (t : Table β) (i : Nat) (v : β) :
    tget d (tset d t i v) i = v := by
  unfold tset; split
  · next h => rw [tget_tdel_same, h]
  · exact tget_tput_same d t i v

/-- Every other key answers as before. -/
theorem tget_tset_other {β : Type} [DecidableEq β] (d e : β) (t : Table β) (i j : Nat) (v : β) (h : j ≠ i) :
    tget e (tset d t i v) j = tget e t j := by
  unfold tset; split
  · exact tget_tdel_other e t i j h
  · exact tget_tput_other e t i j v h

/-! ## The canonical form -/

/-- Keys of a table rise strictly. -/
def Sorted {β : Type} (t : Table β) : Prop := t.Pairwise fun a b => a.1 < b.1

theorem Sorted.tput {β : Type} {t : Table β} (h : Sorted t) (i : Nat) (v : β) : Sorted (tput t i v) := by
  unfold Sorted at *
  induction t with
  | nil => simp [Machine.tput]
  | cons e t ih =>
    obtain ⟨k, w⟩ := e
    rw [List.pairwise_cons] at h
    by_cases h1 : i < k
    · simp only [Machine.tput, h1, if_true, List.pairwise_cons]
      exact ⟨fun a ha => by
        rcases List.mem_cons.mp ha with rfl | ha
        · exact h1
        · exact Nat.lt_trans h1 (h.1 a ha), h.1, h.2⟩
    · by_cases h2 : i = k
      · subst h2; simp only [Machine.tput, Nat.lt_irrefl, if_false, if_true, List.pairwise_cons]; exact ⟨h.1, h.2⟩
      · simp only [Machine.tput, h1, h2, if_false, List.pairwise_cons]
        refine ⟨fun a ha => ?_, ih h.2⟩
        have : ∀ (t : Table β) (a : Nat × β), a ∈ Machine.tput t i v → a.1 = i ∨ a ∈ t := by
          intro t
          induction t with
          | nil => intro a ha; simp [Machine.tput] at ha; simp [ha]
          | cons e t ih =>
            intro a ha
            obtain ⟨k, w⟩ := e
            simp only [Machine.tput] at ha
            split at ha
            · rcases List.mem_cons.mp ha with rfl | ha
              · simp
              · exact .inr ha
            · split at ha
              · rcases List.mem_cons.mp ha with rfl | ha
                · simp
                · exact .inr (List.mem_cons_of_mem _ ha)
              · rcases List.mem_cons.mp ha with rfl | ha
                · simp
                · exact (ih a ha).imp id (List.mem_cons_of_mem _)
        rcases this t a ha with h3 | h3
        · simp only [h3]; omega
        · exact h.1 a h3

theorem tdel_sublist {β : Type} (t : Table β) (i : Nat) : (tdel t i).Sublist t := by
  induction t with
  | nil => simp [tdel]
  | cons e t ih =>
    obtain ⟨k, w⟩ := e
    unfold tdel
    split
    · exact List.Sublist.refl _
    · split
      · exact (List.dropWhile_sublist _).trans (List.sublist_cons_self _ _)
      · exact ih.cons_cons _

theorem Sorted.tdel {β : Type} {t : Table β} (h : Sorted t) (i : Nat) : Sorted (tdel t i) :=
  List.Pairwise.sublist (tdel_sublist t i) h

theorem mem_tput {β : Type} (t : Table β) (i : Nat) (v : β) (a : Nat × β) (ha : a ∈ tput t i v) : a = (i, v) ∨ a ∈ t := by
  induction t with
  | nil => simpa [tput] using ha
  | cons e t ih =>
    obtain ⟨k, w⟩ := e
    simp only [tput] at ha
    split at ha
    · exact (List.mem_cons.mp ha).imp id id
    · split at ha
      · exact (List.mem_cons.mp ha).imp id (List.mem_cons_of_mem _)
      · rcases List.mem_cons.mp ha with rfl | ha
        · simp
        · exact (ih ha).imp id (List.mem_cons_of_mem _)

/-- The canonical form in two parts: addresses rise, and no byte is listed at its unlisted value. -/
theorem Memory.wf_iff (m : Memory) : m.wf = true ↔ Sorted m ∧ ∀ c ∈ m, c.2 ≠ Memory.unlisted c.1 := by
  induction m with
  | nil => simp [Memory.wf, Sorted]
  | cons e m ih =>
    obtain ⟨a, b⟩ := e
    cases m with
    | nil => simp [Memory.wf, Sorted]
    | cons e' m =>
      obtain ⟨a', b'⟩ := e'
      simp only [Memory.wf, Bool.and_eq_true, decide_eq_true_eq, ih]
      unfold Sorted
      constructor
      · rintro ⟨⟨h1, h2⟩, h3, h4⟩
        refine ⟨List.pairwise_cons.mpr ⟨fun c hc => ?_, h3⟩, fun c hc => ?_⟩
        · rcases List.mem_cons.mp hc with rfl | hc
          · exact h2
          · exact Nat.lt_trans h2 ((List.pairwise_cons.mp h3).1 c hc)
        · rcases List.mem_cons.mp hc with rfl | hc
          · exact h1
          · exact h4 c hc
      · rintro ⟨h1, h2⟩
        rw [List.pairwise_cons] at h1
        exact ⟨⟨h2 (a, b) (by simp), h1.1 (a', b') (by simp)⟩, h1.2, fun c hc => h2 c (List.mem_cons_of_mem _ hc)⟩

/-- A write keeps the canonical form. -/
theorem Memory.wf_write {m : Memory} (h : m.wf = true) (a : Nat) (b : Byte) : (m.write a b).wf = true := by
  rw [Memory.wf_iff] at *
  unfold Memory.write tset
  split
  · exact ⟨h.1.tdel a, fun c hc => h.2 c ((tdel_sublist m a).subset hc)⟩
  · next hb =>
    refine ⟨h.1.tput a b, fun c hc => ?_⟩
    rcases mem_tput m a b c hc with rfl | hc
    · exact hb
    · exact h.2 c hc

theorem Memory.wf_writeN {m : Memory} (h : m.wf = true) (a : Nat) (bs : List Byte) : (m.writeN a bs).wf = true := by
  induction bs generalizing m a with
  | nil => exact h
  | cons b bs ih => exact ih (Memory.wf_write h a b) (a + 1)

/-! ## Bytes -/

/-- A byte reads as it was last written. -/
@[simp] theorem Memory.read_write_same (m : Memory) (a : Nat) (b : Byte) : (m.write a b).read a = b :=
  tget_tset_same _ m a b

/-- A write leaves every other byte as it was. -/
theorem Memory.read_write_other (m : Memory) (a x : Nat) (b : Byte) (h : x ≠ a) : (m.write a b).read x = m.read x :=
  tget_tset_other _ _ m a x b h

/-- Bytes outside a written range keep their values. -/
theorem Memory.read_writeN_outside (m : Memory) (a x : Nat) (bs : List Byte) (h : x < a ∨ a + bs.length ≤ x) :
    (m.writeN a bs).read x = m.read x := by
  induction bs generalizing m a with
  | nil => rfl
  | cons b bs ih =>
    simp only [List.length_cons] at h
    rw [Memory.writeN, ih _ _ (by omega), Memory.read_write_other _ _ _ _ (by omega)]

/-- Bytes inside a written range are those written. -/
theorem Memory.read_writeN_inside (m : Memory) (a i : Nat) (bs : List Byte) (h : i < bs.length) :
    (m.writeN a bs).read (a + i) = bs[i] := by
  induction bs generalizing m a i with
  | nil => simp at h
  | cons b bs ih =>
    cases i with
    | zero =>
      rw [Memory.writeN, Memory.read_writeN_outside _ _ _ _ (by omega)]
      simp
    | succ i =>
      have := ih (m.write a b) (a + 1) i (by simpa using h)
      simpa [Memory.writeN, Nat.add_comm, Nat.add_left_comm] using this

/-- What is written is read back. -/
theorem Memory.readN_writeN (m : Memory) (a : Nat) (bs : List Byte) : (m.writeN a bs).readN a bs.length = bs := by
  induction bs generalizing m a with
  | nil => rfl
  | cons b bs ih =>
    simp only [List.length_cons, Memory.readN, Memory.writeN]
    rw [Memory.read_writeN_outside _ _ _ _ (by omega), Memory.read_write_same, ih]

theorem Memory.readN_writeN_outside (m : Memory) (a x n : Nat) (bs : List Byte) (h : x + n ≤ a ∨ a + bs.length ≤ x) :
    (m.writeN a bs).readN x n = m.readN x n := by
  induction n generalizing x with
  | zero => rfl
  | succ n ih =>
    rw [Memory.readN, Memory.readN, ih _ (by omega), Memory.read_writeN_outside _ _ _ _ (by omega)]

theorem bytesOfNat_length (v n : Nat) : (bytesOfNat v n).length = n := by
  induction n generalizing v with
  | zero => rfl
  | succ n ih => simp [bytesOfNat, ih]

/-- A number of `n` bytes is read back from its bytes. -/
theorem natOfBytes_bytesOfNat (v n : Nat) : natOfBytes (bytesOfNat v n) = v % 256 ^ n := by
  induction n generalizing v with
  | zero => simp [bytesOfNat, natOfBytes, Nat.mod_one]
  | succ n ih =>
    have e : v % 256 ^ (n + 1) = v % 256 + 256 * (v / 256 % 256 ^ n) := by rw [Nat.pow_succ', Nat.mod_mul]
    rw [e, ← ih, bytesOfNat, natOfBytes, BitVec.toNat_ofNat]

end Sys2Proof.Machine
end

