-- ==== Sys2Proof/Laws/State.lean ====
section
/-!
SUPPORT. One lemma per field per update of the state, of a group, of a thread and of a die: what an update does not touch reads
as before. With them no proof unfolds a record update.
-/
namespace Sys2Proof.Machine

open Sys2Proof

/-! An operation of the tile engine put into the state -/

@[simp] theorem State.putTileOp_agenda (s : State) (o : TileOp) :
    (s.putTileOp o).agenda = s.agenda := rfl
@[simp] theorem State.putTileOp_cur (s : State) (o : TileOp) :
    (s.putTileOp o).cur = s.cur := rfl
@[simp] theorem State.putTileOp_clock (s : State) (o : TileOp) :
    (s.putTileOp o).clock = s.clock := rfl
@[simp] theorem State.putTileOp_ticks (s : State) (o : TileOp) :
    (s.putTileOp o).ticks = s.ticks := rfl
@[simp] theorem State.putTileOp_regs (s : State) (o : TileOp) :
    (s.putTileOp o).regs = s.regs := rfl
@[simp] theorem State.putTileOp_mem (s : State) (o : TileOp) :
    (s.putTileOp o).mem = s.mem := rfl
@[simp] theorem State.putTileOp_poison (s : State) (o : TileOp) :
    (s.putTileOp o).poison = s.poison := rfl
@[simp] theorem State.putTileOp_dies (s : State) (o : TileOp) :
    (s.putTileOp o).dies = s.dies := rfl
@[simp] theorem State.putTileOp_cores (s : State) (o : TileOp) :
    (s.putTileOp o).cores = s.cores := rfl
@[simp] theorem State.putTileOp_groups (s : State) (o : TileOp) :
    (s.putTileOp o).groups = s.groups := rfl
@[simp] theorem State.putTileOp_strokes (s : State) (o : TileOp) :
    (s.putTileOp o).strokes = s.strokes := rfl
@[simp] theorem State.putTileOp_transfers (s : State) (o : TileOp) :
    (s.putTileOp o).transfers = s.transfers := rfl
@[simp] theorem State.putTileOp_launches (s : State) (o : TileOp) :
    (s.putTileOp o).launches = s.launches := rfl
@[simp] theorem State.putTileOp_folios (s : State) (o : TileOp) :
    (s.putTileOp o).folios = s.folios := rfl
@[simp] theorem State.putTileOp_saves (s : State) (o : TileOp) :
    (s.putTileOp o).saves = s.saves := rfl
@[simp] theorem State.putTileOp_steps (s : State) (o : TileOp) :
    (s.putTileOp o).steps = s.steps := rfl
@[simp] theorem State.putTileOp_batches (s : State) (o : TileOp) :
    (s.putTileOp o).batches = s.batches := rfl
@[simp] theorem State.putTileOp_tableStores (s : State) (o : TileOp) :
    (s.putTileOp o).tableStores = s.tableStores := rfl
@[simp] theorem State.putTileOp_tlbis (s : State) (o : TileOp) :
    (s.putTileOp o).tlbis = s.tlbis := rfl
@[simp] theorem State.putTileOp_tokens (s : State) (o : TileOp) :
    (s.putTileOp o).tokens = s.tokens := rfl
@[simp] theorem State.putTileOp_pod (s : State) (o : TileOp) :
    (s.putTileOp o).pod = s.pod := rfl
@[simp] theorem State.putTileOp_ports (s : State) (o : TileOp) :
    (s.putTileOp o).ports = s.ports := rfl
@[simp] theorem State.putTileOp_next (s : State) (o : TileOp) :
    (s.putTileOp o).next = s.next := rfl

/-! A group put into the state -/

@[simp] theorem State.putGroup_agenda (s : State) (g : Group) :
    (s.putGroup g).agenda = s.agenda := rfl
@[simp] theorem State.putGroup_cur (s : State) (g : Group) :
    (s.putGroup g).cur = s.cur := rfl
@[simp] theorem State.putGroup_clock (s : State) (g : Group) :
    (s.putGroup g).clock = s.clock := rfl
@[simp] theorem State.putGroup_ticks (s : State) (g : Group) :
    (s.putGroup g).ticks = s.ticks := rfl
@[simp] theorem State.putGroup_regs (s : State) (g : Group) :
    (s.putGroup g).regs = s.regs := rfl
@[simp] theorem State.putGroup_mem (s : State) (g : Group) :
    (s.putGroup g).mem = s.mem := rfl
@[simp] theorem State.putGroup_poison (s : State) (g : Group) :
    (s.putGroup g).poison = s.poison := rfl
@[simp] theorem State.putGroup_dies (s : State) (g : Group) :
    (s.putGroup g).dies = s.dies := rfl
@[simp] theorem State.putGroup_cores (s : State) (g : Group) :
    (s.putGroup g).cores = s.cores := rfl
@[simp] theorem State.putGroup_strokes (s : State) (g : Group) :
    (s.putGroup g).strokes = s.strokes := rfl
@[simp] theorem State.putGroup_transfers (s : State) (g : Group) :
    (s.putGroup g).transfers = s.transfers := rfl
@[simp] theorem State.putGroup_tileOps (s : State) (g : Group) :
    (s.putGroup g).tileOps = s.tileOps := rfl
@[simp] theorem State.putGroup_launches (s : State) (g : Group) :
    (s.putGroup g).launches = s.launches := rfl
@[simp] theorem State.putGroup_folios (s : State) (g : Group) :
    (s.putGroup g).folios = s.folios := rfl
@[simp] theorem State.putGroup_saves (s : State) (g : Group) :
    (s.putGroup g).saves = s.saves := rfl
@[simp] theorem State.putGroup_steps (s : State) (g : Group) :
    (s.putGroup g).steps = s.steps := rfl
@[simp] theorem State.putGroup_batches (s : State) (g : Group) :
    (s.putGroup g).batches = s.batches := rfl
@[simp] theorem State.putGroup_tableStores (s : State) (g : Group) :
    (s.putGroup g).tableStores = s.tableStores := rfl
@[simp] theorem State.putGroup_tlbis (s : State) (g : Group) :
    (s.putGroup g).tlbis = s.tlbis := rfl
@[simp] theorem State.putGroup_tokens (s : State) (g : Group) :
    (s.putGroup g).tokens = s.tokens := rfl
@[simp] theorem State.putGroup_pod (s : State) (g : Group) :
    (s.putGroup g).pod = s.pod := rfl
@[simp] theorem State.putGroup_ports (s : State) (g : Group) :
    (s.putGroup g).ports = s.ports := rfl
@[simp] theorem State.putGroup_next (s : State) (g : Group) :
    (s.putGroup g).next = s.next := rfl

/-! A group of the state changed -/

@[simp] theorem State.modGroup_agenda (s : State) (gid : Nat) (f : Group → Group) :
    (s.modGroup gid f).agenda = s.agenda := by
  unfold State.modGroup; split <;> rfl
@[simp] theorem State.modGroup_cur (s : State) (gid : Nat) (f : Group → Group) :
    (s.modGroup gid f).cur = s.cur := by
  unfold State.modGroup; split <;> rfl
@[simp] theorem State.modGroup_clock (s : State) (gid : Nat) (f : Group → Group) :
    (s.modGroup gid f).clock = s.clock := by
  unfold State.modGroup; split <;> rfl
@[simp] theorem State.modGroup_ticks (s : State) (gid : Nat) (f : Group → Group) :
    (s.modGroup gid f).ticks = s.ticks := by
  unfold State.modGroup; split <;> rfl
@[simp] theorem State.modGroup_regs (s : State) (gid : Nat) (f : Group → Group) :
    (s.modGroup gid f).regs = s.regs := by
  unfold State.modGroup; split <;> rfl
@[simp] theorem State.modGroup_mem (s : State) (gid : Nat) (f : Group → Group) :
    (s.modGroup gid f).mem = s.mem := by
  unfold State.modGroup; split <;> rfl
@[simp] theorem State.modGroup_poison (s : State) (gid : Nat) (f : Group → Group) :
    (s.modGroup gid f).poison = s.poison := by
  unfold State.modGroup; split <;> rfl
@[simp] theorem State.modGroup_dies (s : State) (gid : Nat) (f : Group → Group) :
    (s.modGroup gid f).dies = s.dies := by
  unfold State.modGroup; split <;> rfl
@[simp] theorem State.modGroup_cores (s : State) (gid : Nat) (f : Group → Group) :
    (s.modGroup gid f).cores = s.cores := by
  unfold State.modGroup; split <;> rfl
@[simp] theorem State.modGroup_strokes (s : State) (gid : Nat) (f : Group → Group) :
    (s.modGroup gid f).strokes = s.strokes := by
  unfold State.modGroup; split <;> rfl
@[simp] theorem State.modGroup_transfers (s : State) (gid : Nat) (f : Group → Group) :
    (s.modGroup gid f).transfers = s.transfers := by
  unfold State.modGroup; split <;> rfl
@[simp] theorem State.modGroup_tileOps (s : State) (gid : Nat) (f : Group → Group) :
    (s.modGroup gid f).tileOps = s.tileOps := by
  unfold State.modGroup; split <;> rfl
@[simp] theorem State.modGroup_launches (s : State) (gid : Nat) (f : Group → Group) :
    (s.modGroup gid f).launches = s.launches := by
  unfold State.modGroup; split <;> rfl
@[simp] theorem State.modGroup_folios (s : State) (gid : Nat) (f : Group → Group) :
    (s.modGroup gid f).folios = s.folios := by
  unfold State.modGroup; split <;> rfl
@[simp] theorem State.modGroup_saves (s : State) (gid : Nat) (f : Group → Group) :
    (s.modGroup gid f).saves = s.saves := by
  unfold State.modGroup; split <;> rfl
@[simp] theorem State.modGroup_steps (s : State) (gid : Nat) (f : Group → Group) :
    (s.modGroup gid f).steps = s.steps := by
  unfold State.modGroup; split <;> rfl
@[simp] theorem State.modGroup_batches (s : State) (gid : Nat) (f : Group → Group) :
    (s.modGroup gid f).batches = s.batches := by
  unfold State.modGroup; split <;> rfl
@[simp] theorem State.modGroup_tableStores (s : State) (gid : Nat) (f : Group → Group) :
    (s.modGroup gid f).tableStores = s.tableStores := by
  unfold State.modGroup; split <;> rfl
@[simp] theorem State.modGroup_tlbis (s : State) (gid : Nat) (f : Group → Group) :
    (s.modGroup gid f).tlbis = s.tlbis := by
  unfold State.modGroup; split <;> rfl
@[simp] theorem State.modGroup_tokens (s : State) (gid : Nat) (f : Group → Group) :
    (s.modGroup gid f).tokens = s.tokens := by
  unfold State.modGroup; split <;> rfl
@[simp] theorem State.modGroup_pod (s : State) (gid : Nat) (f : Group → Group) :
    (s.modGroup gid f).pod = s.pod := by
  unfold State.modGroup; split <;> rfl
@[simp] theorem State.modGroup_ports (s : State) (gid : Nat) (f : Group → Group) :
    (s.modGroup gid f).ports = s.ports := by
  unfold State.modGroup; split <;> rfl
@[simp] theorem State.modGroup_next (s : State) (gid : Nat) (f : Group → Group) :
    (s.modGroup gid f).next = s.next := by
  unfold State.modGroup; split <;> rfl

/-! A thread of the state changed -/

@[simp] theorem State.modThread_agenda (s : State) (gid k : Nat) (f : Thread → Thread) :
    (s.modThread gid k f).agenda = s.agenda := State.modGroup_agenda s gid _
@[simp] theorem State.modThread_cur (s : State) (gid k : Nat) (f : Thread → Thread) :
    (s.modThread gid k f).cur = s.cur := State.modGroup_cur s gid _
@[simp] theorem State.modThread_clock (s : State) (gid k : Nat) (f : Thread → Thread) :
    (s.modThread gid k f).clock = s.clock := State.modGroup_clock s gid _
@[simp] theorem State.modThread_ticks (s : State) (gid k : Nat) (f : Thread → Thread) :
    (s.modThread gid k f).ticks = s.ticks := State.modGroup_ticks s gid _
@[simp] theorem State.modThread_regs (s : State) (gid k : Nat) (f : Thread → Thread) :
    (s.modThread gid k f).regs = s.regs := State.modGroup_regs s gid _
@[simp] theorem State.modThread_mem (s : State) (gid k : Nat) (f : Thread → Thread) :
    (s.modThread gid k f).mem = s.mem := State.modGroup_mem s gid _
@[simp] theorem State.modThread_poison (s : State) (gid k : Nat) (f : Thread → Thread) :
    (s.modThread gid k f).poison = s.poison := State.modGroup_poison s gid _
@[simp] theorem State.modThread_dies (s : State) (gid k : Nat) (f : Thread → Thread) :
    (s.modThread gid k f).dies = s.dies := State.modGroup_dies s gid _
@[simp] theorem State.modThread_cores (s : State) (gid k : Nat) (f : Thread → Thread) :
    (s.modThread gid k f).cores = s.cores := State.modGroup_cores s gid _
@[simp] theorem State.modThread_strokes (s : State) (gid k : Nat) (f : Thread → Thread) :
    (s.modThread gid k f).strokes = s.strokes := State.modGroup_strokes s gid _
@[simp] theorem State.modThread_transfers (s : State) (gid k : Nat) (f : Thread → Thread) :
    (s.modThread gid k f).transfers = s.transfers := State.modGroup_transfers s gid _
@[simp] theorem State.modThread_tileOps (s : State) (gid k : Nat) (f : Thread → Thread) :
    (s.modThread gid k f).tileOps = s.tileOps := State.modGroup_tileOps s gid _
@[simp] theorem State.modThread_launches (s : State) (gid k : Nat) (f : Thread → Thread) :
    (s.modThread gid k f).launches = s.launches := State.modGroup_launches s gid _
@[simp] theorem State.modThread_folios (s : State) (gid k : Nat) (f : Thread → Thread) :
    (s.modThread gid k f).folios = s.folios := State.modGroup_folios s gid _
@[simp] theorem State.modThread_saves (s : State) (gid k : Nat) (f : Thread → Thread) :
    (s.modThread gid k f).saves = s.saves := State.modGroup_saves s gid _
@[simp] theorem State.modThread_steps (s : State) (gid k : Nat) (f : Thread → Thread) :
    (s.modThread gid k f).steps = s.steps := State.modGroup_steps s gid _
@[simp] theorem State.modThread_batches (s : State) (gid k : Nat) (f : Thread → Thread) :
    (s.modThread gid k f).batches = s.batches := State.modGroup_batches s gid _
@[simp] theorem State.modThread_tableStores (s : State) (gid k : Nat) (f : Thread → Thread) :
    (s.modThread gid k f).tableStores = s.tableStores := State.modGroup_tableStores s gid _
@[simp] theorem State.modThread_tlbis (s : State) (gid k : Nat) (f : Thread → Thread) :
    (s.modThread gid k f).tlbis = s.tlbis := State.modGroup_tlbis s gid _
@[simp] theorem State.modThread_tokens (s : State) (gid k : Nat) (f : Thread → Thread) :
    (s.modThread gid k f).tokens = s.tokens := State.modGroup_tokens s gid _
@[simp] theorem State.modThread_pod (s : State) (gid k : Nat) (f : Thread → Thread) :
    (s.modThread gid k f).pod = s.pod := State.modGroup_pod s gid _
@[simp] theorem State.modThread_ports (s : State) (gid k : Nat) (f : Thread → Thread) :
    (s.modThread gid k f).ports = s.ports := State.modGroup_ports s gid _
@[simp] theorem State.modThread_next (s : State) (gid k : Nat) (f : Thread → Thread) :
    (s.modThread gid k f).next = s.next := State.modGroup_next s gid _

/-! A die changed -/

@[simp] theorem State.modDie_agenda (s : State) (d : Nat) (f : Die → Die) :
    (s.modDie d f).agenda = s.agenda := rfl
@[simp] theorem State.modDie_cur (s : State) (d : Nat) (f : Die → Die) :
    (s.modDie d f).cur = s.cur := rfl
@[simp] theorem State.modDie_clock (s : State) (d : Nat) (f : Die → Die) :
    (s.modDie d f).clock = s.clock := rfl
@[simp] theorem State.modDie_ticks (s : State) (d : Nat) (f : Die → Die) :
    (s.modDie d f).ticks = s.ticks := rfl
@[simp] theorem State.modDie_regs (s : State) (d : Nat) (f : Die → Die) :
    (s.modDie d f).regs = s.regs := rfl
@[simp] theorem State.modDie_mem (s : State) (d : Nat) (f : Die → Die) :
    (s.modDie d f).mem = s.mem := rfl
@[simp] theorem State.modDie_poison (s : State) (d : Nat) (f : Die → Die) :
    (s.modDie d f).poison = s.poison := rfl
@[simp] theorem State.modDie_cores (s : State) (d : Nat) (f : Die → Die) :
    (s.modDie d f).cores = s.cores := rfl
@[simp] theorem State.modDie_groups (s : State) (d : Nat) (f : Die → Die) :
    (s.modDie d f).groups = s.groups := rfl
@[simp] theorem State.modDie_strokes (s : State) (d : Nat) (f : Die → Die) :
    (s.modDie d f).strokes = s.strokes := rfl
@[simp] theorem State.modDie_transfers (s : State) (d : Nat) (f : Die → Die) :
    (s.modDie d f).transfers = s.transfers := rfl
@[simp] theorem State.modDie_tileOps (s : State) (d : Nat) (f : Die → Die) :
    (s.modDie d f).tileOps = s.tileOps := rfl
@[simp] theorem State.modDie_launches (s : State) (d : Nat) (f : Die → Die) :
    (s.modDie d f).launches = s.launches := rfl
@[simp] theorem State.modDie_folios (s : State) (d : Nat) (f : Die → Die) :
    (s.modDie d f).folios = s.folios := rfl
@[simp] theorem State.modDie_saves (s : State) (d : Nat) (f : Die → Die) :
    (s.modDie d f).saves = s.saves := rfl
@[simp] theorem State.modDie_steps (s : State) (d : Nat) (f : Die → Die) :
    (s.modDie d f).steps = s.steps := rfl
@[simp] theorem State.modDie_batches (s : State) (d : Nat) (f : Die → Die) :
    (s.modDie d f).batches = s.batches := rfl
@[simp] theorem State.modDie_tableStores (s : State) (d : Nat) (f : Die → Die) :
    (s.modDie d f).tableStores = s.tableStores := rfl
@[simp] theorem State.modDie_tlbis (s : State) (d : Nat) (f : Die → Die) :
    (s.modDie d f).tlbis = s.tlbis := rfl
@[simp] theorem State.modDie_tokens (s : State) (d : Nat) (f : Die → Die) :
    (s.modDie d f).tokens = s.tokens := rfl
@[simp] theorem State.modDie_pod (s : State) (d : Nat) (f : Die → Die) :
    (s.modDie d f).pod = s.pod := rfl
@[simp] theorem State.modDie_ports (s : State) (d : Nat) (f : Die → Die) :
    (s.modDie d f).ports = s.ports := rfl
@[simp] theorem State.modDie_next (s : State) (d : Nat) (f : Die → Die) :
    (s.modDie d f).next = s.next := rfl

/-! A core changed -/

@[simp] theorem State.modCore_agenda (s : State) (d c : Nat) (f : Core → Core) :
    (s.modCore d c f).agenda = s.agenda := rfl
@[simp] theorem State.modCore_cur (s : State) (d c : Nat) (f : Core → Core) :
    (s.modCore d c f).cur = s.cur := rfl
@[simp] theorem State.modCore_clock (s : State) (d c : Nat) (f : Core → Core) :
    (s.modCore d c f).clock = s.clock := rfl
@[simp] theorem State.modCore_ticks (s : State) (d c : Nat) (f : Core → Core) :
    (s.modCore d c f).ticks = s.ticks := rfl
@[simp] theorem State.modCore_regs (s : State) (d c : Nat) (f : Core → Core) :
    (s.modCore d c f).regs = s.regs := rfl
@[simp] theorem State.modCore_mem (s : State) (d c : Nat) (f : Core → Core) :
    (s.modCore d c f).mem = s.mem := rfl
@[simp] theorem State.modCore_poison (s : State) (d c : Nat) (f : Core → Core) :
    (s.modCore d c f).poison = s.poison := rfl
@[simp] theorem State.modCore_dies (s : State) (d c : Nat) (f : Core → Core) :
    (s.modCore d c f).dies = s.dies := rfl
@[simp] theorem State.modCore_groups (s : State) (d c : Nat) (f : Core → Core) :
    (s.modCore d c f).groups = s.groups := rfl
@[simp] theorem State.modCore_strokes (s : State) (d c : Nat) (f : Core → Core) :
    (s.modCore d c f).strokes = s.strokes := rfl
@[simp] theorem State.modCore_transfers (s : State) (d c : Nat) (f : Core → Core) :
    (s.modCore d c f).transfers = s.transfers := rfl
@[simp] theorem State.modCore_tileOps (s : State) (d c : Nat) (f : Core → Core) :
    (s.modCore d c f).tileOps = s.tileOps := rfl
@[simp] theorem State.modCore_launches (s : State) (d c : Nat) (f : Core → Core) :
    (s.modCore d c f).launches = s.launches := rfl
@[simp] theorem State.modCore_folios (s : State) (d c : Nat) (f : Core → Core) :
    (s.modCore d c f).folios = s.folios := rfl
@[simp] theorem State.modCore_saves (s : State) (d c : Nat) (f : Core → Core) :
    (s.modCore d c f).saves = s.saves := rfl
@[simp] theorem State.modCore_steps (s : State) (d c : Nat) (f : Core → Core) :
    (s.modCore d c f).steps = s.steps := rfl
@[simp] theorem State.modCore_batches (s : State) (d c : Nat) (f : Core → Core) :
    (s.modCore d c f).batches = s.batches := rfl
@[simp] theorem State.modCore_tableStores (s : State) (d c : Nat) (f : Core → Core) :
    (s.modCore d c f).tableStores = s.tableStores := rfl
@[simp] theorem State.modCore_tlbis (s : State) (d c : Nat) (f : Core → Core) :
    (s.modCore d c f).tlbis = s.tlbis := rfl
@[simp] theorem State.modCore_tokens (s : State) (d c : Nat) (f : Core → Core) :
    (s.modCore d c f).tokens = s.tokens := rfl
@[simp] theorem State.modCore_pod (s : State) (d c : Nat) (f : Core → Core) :
    (s.modCore d c f).pod = s.pod := rfl
@[simp] theorem State.modCore_ports (s : State) (d c : Nat) (f : Core → Core) :
    (s.modCore d c f).ports = s.ports := rfl
@[simp] theorem State.modCore_next (s : State) (d c : Nat) (f : Core → Core) :
    (s.modCore d c f).next = s.next := rfl

/-! Fault records added -/

@[simp] theorem State.addRecords_agenda (s : State) (d : Nat) (rs : List FaultRecord) :
    (s.addRecords d rs).agenda = s.agenda := rfl
@[simp] theorem State.addRecords_cur (s : State) (d : Nat) (rs : List FaultRecord) :
    (s.addRecords d rs).cur = s.cur := rfl
@[simp] theorem State.addRecords_clock (s : State) (d : Nat) (rs : List FaultRecord) :
    (s.addRecords d rs).clock = s.clock := rfl
@[simp] theorem State.addRecords_ticks (s : State) (d : Nat) (rs : List FaultRecord) :
    (s.addRecords d rs).ticks = s.ticks := rfl
@[simp] theorem State.addRecords_regs (s : State) (d : Nat) (rs : List FaultRecord) :
    (s.addRecords d rs).regs = s.regs := rfl
@[simp] theorem State.addRecords_mem (s : State) (d : Nat) (rs : List FaultRecord) :
    (s.addRecords d rs).mem = s.mem := rfl
@[simp] theorem State.addRecords_poison (s : State) (d : Nat) (rs : List FaultRecord) :
    (s.addRecords d rs).poison = s.poison := rfl
@[simp] theorem State.addRecords_cores (s : State) (d : Nat) (rs : List FaultRecord) :
    (s.addRecords d rs).cores = s.cores := rfl
@[simp] theorem State.addRecords_groups (s : State) (d : Nat) (rs : List FaultRecord) :
    (s.addRecords d rs).groups = s.groups := rfl
@[simp] theorem State.addRecords_strokes (s : State) (d : Nat) (rs : List FaultRecord) :
    (s.addRecords d rs).strokes = s.strokes := rfl
@[simp] theorem State.addRecords_transfers (s : State) (d : Nat) (rs : List FaultRecord) :
    (s.addRecords d rs).transfers = s.transfers := rfl
@[simp] theorem State.addRecords_tileOps (s : State) (d : Nat) (rs : List FaultRecord) :
    (s.addRecords d rs).tileOps = s.tileOps := rfl
@[simp] theorem State.addRecords_launches (s : State) (d : Nat) (rs : List FaultRecord) :
    (s.addRecords d rs).launches = s.launches := rfl
@[simp] theorem State.addRecords_folios (s : State) (d : Nat) (rs : List FaultRecord) :
    (s.addRecords d rs).folios = s.folios := rfl
@[simp] theorem State.addRecords_saves (s : State) (d : Nat) (rs : List FaultRecord) :
    (s.addRecords d rs).saves = s.saves := rfl
@[simp] theorem State.addRecords_steps (s : State) (d : Nat) (rs : List FaultRecord) :
    (s.addRecords d rs).steps = s.steps := rfl
@[simp] theorem State.addRecords_batches (s : State) (d : Nat) (rs : List FaultRecord) :
    (s.addRecords d rs).batches = s.batches := rfl
@[simp] theorem State.addRecords_tableStores (s : State) (d : Nat) (rs : List FaultRecord) :
    (s.addRecords d rs).tableStores = s.tableStores := rfl
@[simp] theorem State.addRecords_tlbis (s : State) (d : Nat) (rs : List FaultRecord) :
    (s.addRecords d rs).tlbis = s.tlbis := rfl
@[simp] theorem State.addRecords_tokens (s : State) (d : Nat) (rs : List FaultRecord) :
    (s.addRecords d rs).tokens = s.tokens := rfl
@[simp] theorem State.addRecords_pod (s : State) (d : Nat) (rs : List FaultRecord) :
    (s.addRecords d rs).pod = s.pod := rfl
@[simp] theorem State.addRecords_ports (s : State) (d : Nat) (rs : List FaultRecord) :
    (s.addRecords d rs).ports = s.ports := rfl
@[simp] theorem State.addRecords_next (s : State) (d : Nat) (rs : List FaultRecord) :
    (s.addRecords d rs).next = s.next := rfl

/-! A stroke put into its slot -/

@[simp] theorem State.putStroke_agenda (s : State) (k : Stroke) :
    (s.putStroke k).agenda = s.agenda := rfl
@[simp] theorem State.putStroke_cur (s : State) (k : Stroke) :
    (s.putStroke k).cur = s.cur := rfl
@[simp] theorem State.putStroke_clock (s : State) (k : Stroke) :
    (s.putStroke k).clock = s.clock := rfl
@[simp] theorem State.putStroke_ticks (s : State) (k : Stroke) :
    (s.putStroke k).ticks = s.ticks := rfl
@[simp] theorem State.putStroke_regs (s : State) (k : Stroke) :
    (s.putStroke k).regs = s.regs := rfl
@[simp] theorem State.putStroke_mem (s : State) (k : Stroke) :
    (s.putStroke k).mem = s.mem := rfl
@[simp] theorem State.putStroke_poison (s : State) (k : Stroke) :
    (s.putStroke k).poison = s.poison := rfl
@[simp] theorem State.putStroke_dies (s : State) (k : Stroke) :
    (s.putStroke k).dies = s.dies := rfl
@[simp] theorem State.putStroke_cores (s : State) (k : Stroke) :
    (s.putStroke k).cores = s.cores := rfl
@[simp] theorem State.putStroke_groups (s : State) (k : Stroke) :
    (s.putStroke k).groups = s.groups := rfl
@[simp] theorem State.putStroke_transfers (s : State) (k : Stroke) :
    (s.putStroke k).transfers = s.transfers := rfl
@[simp] theorem State.putStroke_tileOps (s : State) (k : Stroke) :
    (s.putStroke k).tileOps = s.tileOps := rfl
@[simp] theorem State.putStroke_launches (s : State) (k : Stroke) :
    (s.putStroke k).launches = s.launches := rfl
@[simp] theorem State.putStroke_folios (s : State) (k : Stroke) :
    (s.putStroke k).folios = s.folios := rfl
@[simp] theorem State.putStroke_saves (s : State) (k : Stroke) :
    (s.putStroke k).saves = s.saves := rfl
@[simp] theorem State.putStroke_steps (s : State) (k : Stroke) :
    (s.putStroke k).steps = s.steps := rfl
@[simp] theorem State.putStroke_batches (s : State) (k : Stroke) :
    (s.putStroke k).batches = s.batches := rfl
@[simp] theorem State.putStroke_tableStores (s : State) (k : Stroke) :
    (s.putStroke k).tableStores = s.tableStores := rfl
@[simp] theorem State.putStroke_tlbis (s : State) (k : Stroke) :
    (s.putStroke k).tlbis = s.tlbis := rfl
@[simp] theorem State.putStroke_tokens (s : State) (k : Stroke) :
    (s.putStroke k).tokens = s.tokens := rfl
@[simp] theorem State.putStroke_pod (s : State) (k : Stroke) :
    (s.putStroke k).pod = s.pod := rfl
@[simp] theorem State.putStroke_ports (s : State) (k : Stroke) :
    (s.putStroke k).ports = s.ports := rfl
@[simp] theorem State.putStroke_next (s : State) (k : Stroke) :
    (s.putStroke k).next = s.next := rfl

/-! A stroke ended -/

@[simp] theorem State.endStroke_agenda (s : State) (k : Stroke) :
    (s.endStroke k).agenda = s.agenda := State.modGroup_agenda _ _ _
@[simp] theorem State.endStroke_cur (s : State) (k : Stroke) :
    (s.endStroke k).cur = s.cur := State.modGroup_cur _ _ _
@[simp] theorem State.endStroke_clock (s : State) (k : Stroke) :
    (s.endStroke k).clock = s.clock := State.modGroup_clock _ _ _
@[simp] theorem State.endStroke_ticks (s : State) (k : Stroke) :
    (s.endStroke k).ticks = s.ticks := State.modGroup_ticks _ _ _
@[simp] theorem State.endStroke_regs (s : State) (k : Stroke) :
    (s.endStroke k).regs = s.regs := State.modGroup_regs _ _ _
@[simp] theorem State.endStroke_mem (s : State) (k : Stroke) :
    (s.endStroke k).mem = s.mem := State.modGroup_mem _ _ _
@[simp] theorem State.endStroke_poison (s : State) (k : Stroke) :
    (s.endStroke k).poison = s.poison := State.modGroup_poison _ _ _
@[simp] theorem State.endStroke_dies (s : State) (k : Stroke) :
    (s.endStroke k).dies = s.dies := State.modGroup_dies _ _ _
@[simp] theorem State.endStroke_cores (s : State) (k : Stroke) :
    (s.endStroke k).cores = s.cores := State.modGroup_cores _ _ _
@[simp] theorem State.endStroke_transfers (s : State) (k : Stroke) :
    (s.endStroke k).transfers = s.transfers := State.modGroup_transfers _ _ _
@[simp] theorem State.endStroke_tileOps (s : State) (k : Stroke) :
    (s.endStroke k).tileOps = s.tileOps := State.modGroup_tileOps _ _ _
@[simp] theorem State.endStroke_launches (s : State) (k : Stroke) :
    (s.endStroke k).launches = s.launches := State.modGroup_launches _ _ _
@[simp] theorem State.endStroke_folios (s : State) (k : Stroke) :
    (s.endStroke k).folios = s.folios := State.modGroup_folios _ _ _
@[simp] theorem State.endStroke_saves (s : State) (k : Stroke) :
    (s.endStroke k).saves = s.saves := State.modGroup_saves _ _ _
@[simp] theorem State.endStroke_steps (s : State) (k : Stroke) :
    (s.endStroke k).steps = s.steps := State.modGroup_steps _ _ _
@[simp] theorem State.endStroke_batches (s : State) (k : Stroke) :
    (s.endStroke k).batches = s.batches := State.modGroup_batches _ _ _
@[simp] theorem State.endStroke_tableStores (s : State) (k : Stroke) :
    (s.endStroke k).tableStores = s.tableStores := State.modGroup_tableStores _ _ _
@[simp] theorem State.endStroke_tlbis (s : State) (k : Stroke) :
    (s.endStroke k).tlbis = s.tlbis := State.modGroup_tlbis _ _ _
@[simp] theorem State.endStroke_tokens (s : State) (k : Stroke) :
    (s.endStroke k).tokens = s.tokens := State.modGroup_tokens _ _ _
@[simp] theorem State.endStroke_pod (s : State) (k : Stroke) :
    (s.endStroke k).pod = s.pod := State.modGroup_pod _ _ _
@[simp] theorem State.endStroke_ports (s : State) (k : Stroke) :
    (s.endStroke k).ports = s.ports := State.modGroup_ports _ _ _
@[simp] theorem State.endStroke_next (s : State) (k : Stroke) :
    (s.endStroke k).next = s.next := State.modGroup_next _ _ _

/-! Places taken in the threads' order -/

@[simp] theorem State.takePlaces_agenda (s : State) (n : Nat) :
    (s.takePlaces n).agenda = s.agenda := rfl
@[simp] theorem State.takePlaces_cur (s : State) (n : Nat) :
    (s.takePlaces n).cur = s.cur := rfl
@[simp] theorem State.takePlaces_clock (s : State) (n : Nat) :
    (s.takePlaces n).clock = s.clock := rfl
@[simp] theorem State.takePlaces_ticks (s : State) (n : Nat) :
    (s.takePlaces n).ticks = s.ticks := rfl
@[simp] theorem State.takePlaces_regs (s : State) (n : Nat) :
    (s.takePlaces n).regs = s.regs := rfl
@[simp] theorem State.takePlaces_mem (s : State) (n : Nat) :
    (s.takePlaces n).mem = s.mem := rfl
@[simp] theorem State.takePlaces_poison (s : State) (n : Nat) :
    (s.takePlaces n).poison = s.poison := rfl
@[simp] theorem State.takePlaces_dies (s : State) (n : Nat) :
    (s.takePlaces n).dies = s.dies := rfl
@[simp] theorem State.takePlaces_cores (s : State) (n : Nat) :
    (s.takePlaces n).cores = s.cores := rfl
@[simp] theorem State.takePlaces_groups (s : State) (n : Nat) :
    (s.takePlaces n).groups = s.groups := rfl
@[simp] theorem State.takePlaces_strokes (s : State) (n : Nat) :
    (s.takePlaces n).strokes = s.strokes := rfl
@[simp] theorem State.takePlaces_transfers (s : State) (n : Nat) :
    (s.takePlaces n).transfers = s.transfers := rfl
@[simp] theorem State.takePlaces_tileOps (s : State) (n : Nat) :
    (s.takePlaces n).tileOps = s.tileOps := rfl
@[simp] theorem State.takePlaces_launches (s : State) (n : Nat) :
    (s.takePlaces n).launches = s.launches := rfl
@[simp] theorem State.takePlaces_folios (s : State) (n : Nat) :
    (s.takePlaces n).folios = s.folios := rfl
@[simp] theorem State.takePlaces_saves (s : State) (n : Nat) :
    (s.takePlaces n).saves = s.saves := rfl
@[simp] theorem State.takePlaces_steps (s : State) (n : Nat) :
    (s.takePlaces n).steps = s.steps := rfl
@[simp] theorem State.takePlaces_batches (s : State) (n : Nat) :
    (s.takePlaces n).batches = s.batches := rfl
@[simp] theorem State.takePlaces_tableStores (s : State) (n : Nat) :
    (s.takePlaces n).tableStores = s.tableStores := rfl
@[simp] theorem State.takePlaces_tlbis (s : State) (n : Nat) :
    (s.takePlaces n).tlbis = s.tlbis := rfl
@[simp] theorem State.takePlaces_tokens (s : State) (n : Nat) :
    (s.takePlaces n).tokens = s.tokens := rfl
@[simp] theorem State.takePlaces_pod (s : State) (n : Nat) :
    (s.takePlaces n).pod = s.pod := rfl
@[simp] theorem State.takePlaces_ports (s : State) (n : Nat) :
    (s.takePlaces n).ports = s.ports := rfl

/-! An entry of a sent set -/

@[simp] theorem State.sendEntry_agenda (s : State) (die home polder : Nat) (k : ApplyKind) :
    (s.sendEntry die home polder k).agenda = s.agenda := rfl
@[simp] theorem State.sendEntry_cur (s : State) (die home polder : Nat) (k : ApplyKind) :
    (s.sendEntry die home polder k).cur = s.cur := rfl
@[simp] theorem State.sendEntry_clock (s : State) (die home polder : Nat) (k : ApplyKind) :
    (s.sendEntry die home polder k).clock = s.clock := rfl
@[simp] theorem State.sendEntry_ticks (s : State) (die home polder : Nat) (k : ApplyKind) :
    (s.sendEntry die home polder k).ticks = s.ticks := rfl
@[simp] theorem State.sendEntry_regs (s : State) (die home polder : Nat) (k : ApplyKind) :
    (s.sendEntry die home polder k).regs = s.regs := rfl
@[simp] theorem State.sendEntry_mem (s : State) (die home polder : Nat) (k : ApplyKind) :
    (s.sendEntry die home polder k).mem = s.mem := rfl
@[simp] theorem State.sendEntry_poison (s : State) (die home polder : Nat) (k : ApplyKind) :
    (s.sendEntry die home polder k).poison = s.poison := rfl
@[simp] theorem State.sendEntry_cores (s : State) (die home polder : Nat) (k : ApplyKind) :
    (s.sendEntry die home polder k).cores = s.cores := rfl
@[simp] theorem State.sendEntry_groups (s : State) (die home polder : Nat) (k : ApplyKind) :
    (s.sendEntry die home polder k).groups = s.groups := rfl
@[simp] theorem State.sendEntry_strokes (s : State) (die home polder : Nat) (k : ApplyKind) :
    (s.sendEntry die home polder k).strokes = s.strokes := rfl
@[simp] theorem State.sendEntry_transfers (s : State) (die home polder : Nat) (k : ApplyKind) :
    (s.sendEntry die home polder k).transfers = s.transfers := rfl
@[simp] theorem State.sendEntry_tileOps (s : State) (die home polder : Nat) (k : ApplyKind) :
    (s.sendEntry die home polder k).tileOps = s.tileOps := rfl
@[simp] theorem State.sendEntry_launches (s : State) (die home polder : Nat) (k : ApplyKind) :
    (s.sendEntry die home polder k).launches = s.launches := rfl
@[simp] theorem State.sendEntry_folios (s : State) (die home polder : Nat) (k : ApplyKind) :
    (s.sendEntry die home polder k).folios = s.folios := rfl
@[simp] theorem State.sendEntry_saves (s : State) (die home polder : Nat) (k : ApplyKind) :
    (s.sendEntry die home polder k).saves = s.saves := rfl
@[simp] theorem State.sendEntry_steps (s : State) (die home polder : Nat) (k : ApplyKind) :
    (s.sendEntry die home polder k).steps = s.steps := rfl
@[simp] theorem State.sendEntry_batches (s : State) (die home polder : Nat) (k : ApplyKind) :
    (s.sendEntry die home polder k).batches = s.batches := rfl
@[simp] theorem State.sendEntry_tableStores (s : State) (die home polder : Nat) (k : ApplyKind) :
    (s.sendEntry die home polder k).tableStores = s.tableStores := rfl
@[simp] theorem State.sendEntry_tlbis (s : State) (die home polder : Nat) (k : ApplyKind) :
    (s.sendEntry die home polder k).tlbis = s.tlbis := rfl
@[simp] theorem State.sendEntry_tokens (s : State) (die home polder : Nat) (k : ApplyKind) :
    (s.sendEntry die home polder k).tokens = s.tokens := rfl
@[simp] theorem State.sendEntry_pod (s : State) (die home polder : Nat) (k : ApplyKind) :
    (s.sendEntry die home polder k).pod = s.pod := rfl
@[simp] theorem State.sendEntry_ports (s : State) (die home polder : Nat) (k : ApplyKind) :
    (s.sendEntry die home polder k).ports = s.ports := rfl

/-! A store to every replica of the table region -/

@[simp] theorem State.writeTables_agenda (s : State) (off : Nat) (bs : List Byte) :
    (s.writeTables off bs).agenda = s.agenda := rfl
@[simp] theorem State.writeTables_cur (s : State) (off : Nat) (bs : List Byte) :
    (s.writeTables off bs).cur = s.cur := rfl
@[simp] theorem State.writeTables_clock (s : State) (off : Nat) (bs : List Byte) :
    (s.writeTables off bs).clock = s.clock := rfl
@[simp] theorem State.writeTables_ticks (s : State) (off : Nat) (bs : List Byte) :
    (s.writeTables off bs).ticks = s.ticks := rfl
@[simp] theorem State.writeTables_regs (s : State) (off : Nat) (bs : List Byte) :
    (s.writeTables off bs).regs = s.regs := rfl
@[simp] theorem State.writeTables_poison (s : State) (off : Nat) (bs : List Byte) :
    (s.writeTables off bs).poison = s.poison := rfl
@[simp] theorem State.writeTables_dies (s : State) (off : Nat) (bs : List Byte) :
    (s.writeTables off bs).dies = s.dies := rfl
@[simp] theorem State.writeTables_cores (s : State) (off : Nat) (bs : List Byte) :
    (s.writeTables off bs).cores = s.cores := rfl
@[simp] theorem State.writeTables_groups (s : State) (off : Nat) (bs : List Byte) :
    (s.writeTables off bs).groups = s.groups := rfl
@[simp] theorem State.writeTables_strokes (s : State) (off : Nat) (bs : List Byte) :
    (s.writeTables off bs).strokes = s.strokes := rfl
@[simp] theorem State.writeTables_transfers (s : State) (off : Nat) (bs : List Byte) :
    (s.writeTables off bs).transfers = s.transfers := rfl
@[simp] theorem State.writeTables_tileOps (s : State) (off : Nat) (bs : List Byte) :
    (s.writeTables off bs).tileOps = s.tileOps := rfl
@[simp] theorem State.writeTables_launches (s : State) (off : Nat) (bs : List Byte) :
    (s.writeTables off bs).launches = s.launches := rfl
@[simp] theorem State.writeTables_folios (s : State) (off : Nat) (bs : List Byte) :
    (s.writeTables off bs).folios = s.folios := rfl
@[simp] theorem State.writeTables_saves (s : State) (off : Nat) (bs : List Byte) :
    (s.writeTables off bs).saves = s.saves := rfl
@[simp] theorem State.writeTables_steps (s : State) (off : Nat) (bs : List Byte) :
    (s.writeTables off bs).steps = s.steps := rfl
@[simp] theorem State.writeTables_batches (s : State) (off : Nat) (bs : List Byte) :
    (s.writeTables off bs).batches = s.batches := rfl
@[simp] theorem State.writeTables_tableStores (s : State) (off : Nat) (bs : List Byte) :
    (s.writeTables off bs).tableStores = s.tableStores := rfl
@[simp] theorem State.writeTables_tlbis (s : State) (off : Nat) (bs : List Byte) :
    (s.writeTables off bs).tlbis = s.tlbis := rfl
@[simp] theorem State.writeTables_tokens (s : State) (off : Nat) (bs : List Byte) :
    (s.writeTables off bs).tokens = s.tokens := rfl
@[simp] theorem State.writeTables_pod (s : State) (off : Nat) (bs : List Byte) :
    (s.writeTables off bs).pod = s.pod := rfl
@[simp] theorem State.writeTables_ports (s : State) (off : Nat) (bs : List Byte) :
    (s.writeTables off bs).ports = s.ports := rfl
@[simp] theorem State.writeTables_next (s : State) (off : Nat) (bs : List Byte) :
    (s.writeTables off bs).next = s.next := rfl

/-! A bit of a touched-dies mask set -/

@[simp] theorem State.touch_agenda (s : State) (ctx die : Nat) :
    (s.touch ctx die).agenda = s.agenda := by
  unfold State.touch; split <;> rfl
@[simp] theorem State.touch_cur (s : State) (ctx die : Nat) :
    (s.touch ctx die).cur = s.cur := by
  unfold State.touch; split <;> rfl
@[simp] theorem State.touch_clock (s : State) (ctx die : Nat) :
    (s.touch ctx die).clock = s.clock := by
  unfold State.touch; split <;> rfl
@[simp] theorem State.touch_ticks (s : State) (ctx die : Nat) :
    (s.touch ctx die).ticks = s.ticks := by
  unfold State.touch; split <;> rfl
@[simp] theorem State.touch_regs (s : State) (ctx die : Nat) :
    (s.touch ctx die).regs = s.regs := by
  unfold State.touch; split <;> rfl
@[simp] theorem State.touch_poison (s : State) (ctx die : Nat) :
    (s.touch ctx die).poison = s.poison := by
  unfold State.touch; split <;> rfl
@[simp] theorem State.touch_dies (s : State) (ctx die : Nat) :
    (s.touch ctx die).dies = s.dies := by
  unfold State.touch; split <;> rfl
@[simp] theorem State.touch_cores (s : State) (ctx die : Nat) :
    (s.touch ctx die).cores = s.cores := by
  unfold State.touch; split <;> rfl
@[simp] theorem State.touch_groups (s : State) (ctx die : Nat) :
    (s.touch ctx die).groups = s.groups := by
  unfold State.touch; split <;> rfl
@[simp] theorem State.touch_strokes (s : State) (ctx die : Nat) :
    (s.touch ctx die).strokes = s.strokes := by
  unfold State.touch; split <;> rfl
@[simp] theorem State.touch_transfers (s : State) (ctx die : Nat) :
    (s.touch ctx die).transfers = s.transfers := by
  unfold State.touch; split <;> rfl
@[simp] theorem State.touch_tileOps (s : State) (ctx die : Nat) :
    (s.touch ctx die).tileOps = s.tileOps := by
  unfold State.touch; split <;> rfl
@[simp] theorem State.touch_launches (s : State) (ctx die : Nat) :
    (s.touch ctx die).launches = s.launches := by
  unfold State.touch; split <;> rfl
@[simp] theorem State.touch_folios (s : State) (ctx die : Nat) :
    (s.touch ctx die).folios = s.folios := by
  unfold State.touch; split <;> rfl
@[simp] theorem State.touch_saves (s : State) (ctx die : Nat) :
    (s.touch ctx die).saves = s.saves := by
  unfold State.touch; split <;> rfl
@[simp] theorem State.touch_steps (s : State) (ctx die : Nat) :
    (s.touch ctx die).steps = s.steps := by
  unfold State.touch; split <;> rfl
@[simp] theorem State.touch_batches (s : State) (ctx die : Nat) :
    (s.touch ctx die).batches = s.batches := by
  unfold State.touch; split <;> rfl
@[simp] theorem State.touch_tableStores (s : State) (ctx die : Nat) :
    (s.touch ctx die).tableStores = s.tableStores := by
  unfold State.touch; split <;> rfl
@[simp] theorem State.touch_tlbis (s : State) (ctx die : Nat) :
    (s.touch ctx die).tlbis = s.tlbis := by
  unfold State.touch; split <;> rfl
@[simp] theorem State.touch_tokens (s : State) (ctx die : Nat) :
    (s.touch ctx die).tokens = s.tokens := by
  unfold State.touch; split <;> rfl
@[simp] theorem State.touch_pod (s : State) (ctx die : Nat) :
    (s.touch ctx die).pod = s.pod := by
  unfold State.touch; split <;> rfl
@[simp] theorem State.touch_ports (s : State) (ctx die : Nat) :
    (s.touch ctx die).ports = s.ports := by
  unfold State.touch; split <;> rfl
@[simp] theorem State.touch_next (s : State) (ctx die : Nat) :
    (s.touch ctx die).next = s.next := by
  unfold State.touch; split <;> rfl

/-! A packet that waits to leave -/

@[simp] theorem State.queueOut_agenda (s : State) (p : Packet) (o : Option (Nat × Nat × Nat)) (again : Bool) :
    (s.queueOut p o again).agenda = s.agenda := rfl
@[simp] theorem State.queueOut_cur (s : State) (p : Packet) (o : Option (Nat × Nat × Nat)) (again : Bool) :
    (s.queueOut p o again).cur = s.cur := rfl
@[simp] theorem State.queueOut_clock (s : State) (p : Packet) (o : Option (Nat × Nat × Nat)) (again : Bool) :
    (s.queueOut p o again).clock = s.clock := rfl
@[simp] theorem State.queueOut_ticks (s : State) (p : Packet) (o : Option (Nat × Nat × Nat)) (again : Bool) :
    (s.queueOut p o again).ticks = s.ticks := rfl
@[simp] theorem State.queueOut_regs (s : State) (p : Packet) (o : Option (Nat × Nat × Nat)) (again : Bool) :
    (s.queueOut p o again).regs = s.regs := rfl
@[simp] theorem State.queueOut_mem (s : State) (p : Packet) (o : Option (Nat × Nat × Nat)) (again : Bool) :
    (s.queueOut p o again).mem = s.mem := rfl
@[simp] theorem State.queueOut_poison (s : State) (p : Packet) (o : Option (Nat × Nat × Nat)) (again : Bool) :
    (s.queueOut p o again).poison = s.poison := rfl
@[simp] theorem State.queueOut_dies (s : State) (p : Packet) (o : Option (Nat × Nat × Nat)) (again : Bool) :
    (s.queueOut p o again).dies = s.dies := rfl
@[simp] theorem State.queueOut_cores (s : State) (p : Packet) (o : Option (Nat × Nat × Nat)) (again : Bool) :
    (s.queueOut p o again).cores = s.cores := rfl
@[simp] theorem State.queueOut_groups (s : State) (p : Packet) (o : Option (Nat × Nat × Nat)) (again : Bool) :
    (s.queueOut p o again).groups = s.groups := rfl
@[simp] theorem State.queueOut_strokes (s : State) (p : Packet) (o : Option (Nat × Nat × Nat)) (again : Bool) :
    (s.queueOut p o again).strokes = s.strokes := rfl
@[simp] theorem State.queueOut_transfers (s : State) (p : Packet) (o : Option (Nat × Nat × Nat)) (again : Bool) :
    (s.queueOut p o again).transfers = s.transfers := rfl
@[simp] theorem State.queueOut_tileOps (s : State) (p : Packet) (o : Option (Nat × Nat × Nat)) (again : Bool) :
    (s.queueOut p o again).tileOps = s.tileOps := rfl
@[simp] theorem State.queueOut_launches (s : State) (p : Packet) (o : Option (Nat × Nat × Nat)) (again : Bool) :
    (s.queueOut p o again).launches = s.launches := rfl
@[simp] theorem State.queueOut_folios (s : State) (p : Packet) (o : Option (Nat × Nat × Nat)) (again : Bool) :
    (s.queueOut p o again).folios = s.folios := rfl
@[simp] theorem State.queueOut_saves (s : State) (p : Packet) (o : Option (Nat × Nat × Nat)) (again : Bool) :
    (s.queueOut p o again).saves = s.saves := rfl
@[simp] theorem State.queueOut_steps (s : State) (p : Packet) (o : Option (Nat × Nat × Nat)) (again : Bool) :
    (s.queueOut p o again).steps = s.steps := rfl
@[simp] theorem State.queueOut_batches (s : State) (p : Packet) (o : Option (Nat × Nat × Nat)) (again : Bool) :
    (s.queueOut p o again).batches = s.batches := rfl
@[simp] theorem State.queueOut_tableStores (s : State) (p : Packet) (o : Option (Nat × Nat × Nat)) (again : Bool) :
    (s.queueOut p o again).tableStores = s.tableStores := rfl
@[simp] theorem State.queueOut_tlbis (s : State) (p : Packet) (o : Option (Nat × Nat × Nat)) (again : Bool) :
    (s.queueOut p o again).tlbis = s.tlbis := rfl
@[simp] theorem State.queueOut_tokens (s : State) (p : Packet) (o : Option (Nat × Nat × Nat)) (again : Bool) :
    (s.queueOut p o again).tokens = s.tokens := rfl
@[simp] theorem State.queueOut_ports (s : State) (p : Packet) (o : Option (Nat × Nat × Nat)) (again : Bool) :
    (s.queueOut p o again).ports = s.ports := rfl
@[simp] theorem State.queueOut_next (s : State) (p : Packet) (o : Option (Nat × Nat × Nat)) (again : Bool) :
    (s.queueOut p o again).next = s.next := rfl

/-! A channel changed -/

@[simp] theorem State.modChannel_agenda (s : State) (c : Nat) (f : Channel → Channel) :
    (s.modChannel c f).agenda = s.agenda := rfl
@[simp] theorem State.modChannel_cur (s : State) (c : Nat) (f : Channel → Channel) :
    (s.modChannel c f).cur = s.cur := rfl
@[simp] theorem State.modChannel_clock (s : State) (c : Nat) (f : Channel → Channel) :
    (s.modChannel c f).clock = s.clock := rfl
@[simp] theorem State.modChannel_ticks (s : State) (c : Nat) (f : Channel → Channel) :
    (s.modChannel c f).ticks = s.ticks := rfl
@[simp] theorem State.modChannel_regs (s : State) (c : Nat) (f : Channel → Channel) :
    (s.modChannel c f).regs = s.regs := rfl
@[simp] theorem State.modChannel_mem (s : State) (c : Nat) (f : Channel → Channel) :
    (s.modChannel c f).mem = s.mem := rfl
@[simp] theorem State.modChannel_poison (s : State) (c : Nat) (f : Channel → Channel) :
    (s.modChannel c f).poison = s.poison := rfl
@[simp] theorem State.modChannel_dies (s : State) (c : Nat) (f : Channel → Channel) :
    (s.modChannel c f).dies = s.dies := rfl
@[simp] theorem State.modChannel_cores (s : State) (c : Nat) (f : Channel → Channel) :
    (s.modChannel c f).cores = s.cores := rfl
@[simp] theorem State.modChannel_groups (s : State) (c : Nat) (f : Channel → Channel) :
    (s.modChannel c f).groups = s.groups := rfl
@[simp] theorem State.modChannel_strokes (s : State) (c : Nat) (f : Channel → Channel) :
    (s.modChannel c f).strokes = s.strokes := rfl
@[simp] theorem State.modChannel_transfers (s : State) (c : Nat) (f : Channel → Channel) :
    (s.modChannel c f).transfers = s.transfers := rfl
@[simp] theorem State.modChannel_tileOps (s : State) (c : Nat) (f : Channel → Channel) :
    (s.modChannel c f).tileOps = s.tileOps := rfl
@[simp] theorem State.modChannel_launches (s : State) (c : Nat) (f : Channel → Channel) :
    (s.modChannel c f).launches = s.launches := rfl
@[simp] theorem State.modChannel_folios (s : State) (c : Nat) (f : Channel → Channel) :
    (s.modChannel c f).folios = s.folios := rfl
@[simp] theorem State.modChannel_saves (s : State) (c : Nat) (f : Channel → Channel) :
    (s.modChannel c f).saves = s.saves := rfl
@[simp] theorem State.modChannel_steps (s : State) (c : Nat) (f : Channel → Channel) :
    (s.modChannel c f).steps = s.steps := rfl
@[simp] theorem State.modChannel_batches (s : State) (c : Nat) (f : Channel → Channel) :
    (s.modChannel c f).batches = s.batches := rfl
@[simp] theorem State.modChannel_tableStores (s : State) (c : Nat) (f : Channel → Channel) :
    (s.modChannel c f).tableStores = s.tableStores := rfl
@[simp] theorem State.modChannel_tlbis (s : State) (c : Nat) (f : Channel → Channel) :
    (s.modChannel c f).tlbis = s.tlbis := rfl
@[simp] theorem State.modChannel_tokens (s : State) (c : Nat) (f : Channel → Channel) :
    (s.modChannel c f).tokens = s.tokens := rfl
@[simp] theorem State.modChannel_ports (s : State) (c : Nat) (f : Channel → Channel) :
    (s.modChannel c f).ports = s.ports := rfl
@[simp] theorem State.modChannel_next (s : State) (c : Nat) (f : Channel → Channel) :
    (s.modChannel c f).next = s.next := rfl

/-! A folio put into the state -/

@[simp] theorem State.putFolio_agenda (s : State) (f : Folio) :
    (s.putFolio f).agenda = s.agenda := rfl
@[simp] theorem State.putFolio_cur (s : State) (f : Folio) :
    (s.putFolio f).cur = s.cur := rfl
@[simp] theorem State.putFolio_clock (s : State) (f : Folio) :
    (s.putFolio f).clock = s.clock := rfl
@[simp] theorem State.putFolio_ticks (s : State) (f : Folio) :
    (s.putFolio f).ticks = s.ticks := rfl
@[simp] theorem State.putFolio_regs (s : State) (f : Folio) :
    (s.putFolio f).regs = s.regs := rfl
@[simp] theorem State.putFolio_mem (s : State) (f : Folio) :
    (s.putFolio f).mem = s.mem := rfl
@[simp] theorem State.putFolio_poison (s : State) (f : Folio) :
    (s.putFolio f).poison = s.poison := rfl
@[simp] theorem State.putFolio_dies (s : State) (f : Folio) :
    (s.putFolio f).dies = s.dies := rfl
@[simp] theorem State.putFolio_cores (s : State) (f : Folio) :
    (s.putFolio f).cores = s.cores := rfl
@[simp] theorem State.putFolio_groups (s : State) (f : Folio) :
    (s.putFolio f).groups = s.groups := rfl
@[simp] theorem State.putFolio_strokes (s : State) (f : Folio) :
    (s.putFolio f).strokes = s.strokes := rfl
@[simp] theorem State.putFolio_transfers (s : State) (f : Folio) :
    (s.putFolio f).transfers = s.transfers := rfl
@[simp] theorem State.putFolio_tileOps (s : State) (f : Folio) :
    (s.putFolio f).tileOps = s.tileOps := rfl
@[simp] theorem State.putFolio_launches (s : State) (f : Folio) :
    (s.putFolio f).launches = s.launches := rfl
@[simp] theorem State.putFolio_saves (s : State) (f : Folio) :
    (s.putFolio f).saves = s.saves := rfl
@[simp] theorem State.putFolio_steps (s : State) (f : Folio) :
    (s.putFolio f).steps = s.steps := rfl
@[simp] theorem State.putFolio_batches (s : State) (f : Folio) :
    (s.putFolio f).batches = s.batches := rfl
@[simp] theorem State.putFolio_tableStores (s : State) (f : Folio) :
    (s.putFolio f).tableStores = s.tableStores := rfl
@[simp] theorem State.putFolio_tlbis (s : State) (f : Folio) :
    (s.putFolio f).tlbis = s.tlbis := rfl
@[simp] theorem State.putFolio_tokens (s : State) (f : Folio) :
    (s.putFolio f).tokens = s.tokens := rfl
@[simp] theorem State.putFolio_pod (s : State) (f : Folio) :
    (s.putFolio f).pod = s.pod := rfl
@[simp] theorem State.putFolio_ports (s : State) (f : Folio) :
    (s.putFolio f).ports = s.ports := rfl
@[simp] theorem State.putFolio_next (s : State) (f : Folio) :
    (s.putFolio f).next = s.next := rfl

/-! A packet that the polder filter dropped -/

@[simp] theorem State.countFiltered_agenda (s : State) :
    s.countFiltered.agenda = s.agenda := rfl
@[simp] theorem State.countFiltered_cur (s : State) :
    s.countFiltered.cur = s.cur := rfl
@[simp] theorem State.countFiltered_clock (s : State) :
    s.countFiltered.clock = s.clock := rfl
@[simp] theorem State.countFiltered_ticks (s : State) :
    s.countFiltered.ticks = s.ticks := rfl
@[simp] theorem State.countFiltered_mem (s : State) :
    s.countFiltered.mem = s.mem := rfl
@[simp] theorem State.countFiltered_poison (s : State) :
    s.countFiltered.poison = s.poison := rfl
@[simp] theorem State.countFiltered_dies (s : State) :
    s.countFiltered.dies = s.dies := rfl
@[simp] theorem State.countFiltered_cores (s : State) :
    s.countFiltered.cores = s.cores := rfl
@[simp] theorem State.countFiltered_groups (s : State) :
    s.countFiltered.groups = s.groups := rfl
@[simp] theorem State.countFiltered_strokes (s : State) :
    s.countFiltered.strokes = s.strokes := rfl
@[simp] theorem State.countFiltered_transfers (s : State) :
    s.countFiltered.transfers = s.transfers := rfl
@[simp] theorem State.countFiltered_tileOps (s : State) :
    s.countFiltered.tileOps = s.tileOps := rfl
@[simp] theorem State.countFiltered_folios (s : State) :
    s.countFiltered.folios = s.folios := rfl
@[simp] theorem State.countFiltered_saves (s : State) :
    s.countFiltered.saves = s.saves := rfl
@[simp] theorem State.countFiltered_steps (s : State) :
    s.countFiltered.steps = s.steps := rfl
@[simp] theorem State.countFiltered_batches (s : State) :
    s.countFiltered.batches = s.batches := rfl
@[simp] theorem State.countFiltered_tableStores (s : State) :
    s.countFiltered.tableStores = s.tableStores := rfl
@[simp] theorem State.countFiltered_tlbis (s : State) :
    s.countFiltered.tlbis = s.tlbis := rfl
@[simp] theorem State.countFiltered_tokens (s : State) :
    s.countFiltered.tokens = s.tokens := rfl
@[simp] theorem State.countFiltered_pod (s : State) :
    s.countFiltered.pod = s.pod := rfl
@[simp] theorem State.countFiltered_ports (s : State) :
    s.countFiltered.ports = s.ports := rfl
@[simp] theorem State.countFiltered_next (s : State) :
    s.countFiltered.next = s.next := rfl
@[simp] theorem State.countFiltered_launches (s : State) :
    s.countFiltered.launches = s.launches := rfl

/-! A retired instruction counted -/

@[simp] theorem State.countRetired_agenda (s : State) (lid : Nat) :
    (s.countRetired lid).agenda = s.agenda := rfl
@[simp] theorem State.countRetired_cur (s : State) (lid : Nat) :
    (s.countRetired lid).cur = s.cur := rfl
@[simp] theorem State.countRetired_clock (s : State) (lid : Nat) :
    (s.countRetired lid).clock = s.clock := rfl
@[simp] theorem State.countRetired_ticks (s : State) (lid : Nat) :
    (s.countRetired lid).ticks = s.ticks := rfl
@[simp] theorem State.countRetired_regs (s : State) (lid : Nat) :
    (s.countRetired lid).regs = s.regs := rfl
@[simp] theorem State.countRetired_mem (s : State) (lid : Nat) :
    (s.countRetired lid).mem = s.mem := rfl
@[simp] theorem State.countRetired_poison (s : State) (lid : Nat) :
    (s.countRetired lid).poison = s.poison := rfl
@[simp] theorem State.countRetired_dies (s : State) (lid : Nat) :
    (s.countRetired lid).dies = s.dies := rfl
@[simp] theorem State.countRetired_cores (s : State) (lid : Nat) :
    (s.countRetired lid).cores = s.cores := rfl
@[simp] theorem State.countRetired_groups (s : State) (lid : Nat) :
    (s.countRetired lid).groups = s.groups := rfl
@[simp] theorem State.countRetired_strokes (s : State) (lid : Nat) :
    (s.countRetired lid).strokes = s.strokes := rfl
@[simp] theorem State.countRetired_transfers (s : State) (lid : Nat) :
    (s.countRetired lid).transfers = s.transfers := rfl
@[simp] theorem State.countRetired_tileOps (s : State) (lid : Nat) :
    (s.countRetired lid).tileOps = s.tileOps := rfl
@[simp] theorem State.countRetired_folios (s : State) (lid : Nat) :
    (s.countRetired lid).folios = s.folios := rfl
@[simp] theorem State.countRetired_saves (s : State) (lid : Nat) :
    (s.countRetired lid).saves = s.saves := rfl
@[simp] theorem State.countRetired_steps (s : State) (lid : Nat) :
    (s.countRetired lid).steps = s.steps := rfl
@[simp] theorem State.countRetired_batches (s : State) (lid : Nat) :
    (s.countRetired lid).batches = s.batches := rfl
@[simp] theorem State.countRetired_tableStores (s : State) (lid : Nat) :
    (s.countRetired lid).tableStores = s.tableStores := rfl
@[simp] theorem State.countRetired_tlbis (s : State) (lid : Nat) :
    (s.countRetired lid).tlbis = s.tlbis := rfl
@[simp] theorem State.countRetired_tokens (s : State) (lid : Nat) :
    (s.countRetired lid).tokens = s.tokens := rfl
@[simp] theorem State.countRetired_pod (s : State) (lid : Nat) :
    (s.countRetired lid).pod = s.pod := rfl
@[simp] theorem State.countRetired_ports (s : State) (lid : Nat) :
    (s.countRetired lid).ports = s.ports := rfl
@[simp] theorem State.countRetired_next (s : State) (lid : Nat) :
    (s.countRetired lid).next = s.next := rfl

/-! A thread put into a group -/

@[simp] theorem Group.putThread_gid (g : Group) (k : Nat) (t : Thread) :
    (g.putThread k t).gid = g.gid := rfl
@[simp] theorem Group.putThread_control (g : Group) (k : Nat) (t : Thread) :
    (g.putThread k t).control = g.control := rfl
@[simp] theorem Group.putThread_place (g : Group) (k : Nat) (t : Thread) :
    (g.putThread k t).place = g.place := rfl
@[simp] theorem Group.putThread_residency (g : Group) (k : Nat) (t : Thread) :
    (g.putThread k t).residency = g.residency := rfl
@[simp] theorem Group.putThread_moved (g : Group) (k : Nat) (t : Thread) :
    (g.putThread k t).moved = g.moved := rfl
@[simp] theorem Group.putThread_name (g : Group) (k : Nat) (t : Thread) :
    (g.putThread k t).name = g.name := rfl
@[simp] theorem Group.putThread_lid (g : Group) (k : Nat) (t : Thread) :
    (g.putThread k t).lid = g.lid := rfl
@[simp] theorem Group.putThread_ordinal (g : Group) (k : Nat) (t : Thread) :
    (g.putThread k t).ordinal = g.ordinal := rfl
@[simp] theorem Group.putThread_base (g : Group) (k : Nat) (t : Thread) :
    (g.putThread k t).base = g.base := rfl
@[simp] theorem Group.putThread_widWord (g : Group) (k : Nat) (t : Thread) :
    (g.putThread k t).widWord = g.widWord := rfl
@[simp] theorem Group.putThread_entry (g : Group) (k : Nat) (t : Thread) :
    (g.putThread k t).entry = g.entry := rfl
@[simp] theorem Group.putThread_ctl (g : Group) (k : Nat) (t : Thread) :
    (g.putThread k t).ctl = g.ctl := rfl
@[simp] theorem Group.putThread_quantum (g : Group) (k : Nat) (t : Thread) :
    (g.putThread k t).quantum = g.quantum := rfl
@[simp] theorem Group.putThread_rquant (g : Group) (k : Nat) (t : Thread) :
    (g.putThread k t).rquant = g.rquant := rfl
@[simp] theorem Group.putThread_budget (g : Group) (k : Nat) (t : Thread) :
    (g.putThread k t).budget = g.budget := rfl
@[simp] theorem Group.putThread_nthr (g : Group) (k : Nat) (t : Thread) :
    (g.putThread k t).nthr = g.nthr := rfl
@[simp] theorem Group.putThread_scratchSize (g : Group) (k : Nat) (t : Thread) :
    (g.putThread k t).scratchSize = g.scratchSize := rfl
@[simp] theorem Group.putThread_scratch (g : Group) (k : Nat) (t : Thread) :
    (g.putThread k t).scratch = g.scratch := rfl
@[simp] theorem Group.putThread_tiles (g : Group) (k : Nat) (t : Thread) :
    (g.putThread k t).tiles = g.tiles := rfl
@[simp] theorem Group.putThread_tileMem (g : Group) (k : Nat) (t : Thread) :
    (g.putThread k t).tileMem = g.tileMem := rfl
@[simp] theorem Group.putThread_bitmapZero (g : Group) (k : Nat) (t : Thread) :
    (g.putThread k t).bitmapZero = g.bitmapZero := rfl
@[simp] theorem Group.putThread_tileErrors (g : Group) (k : Nat) (t : Thread) :
    (g.putThread k t).tileErrors = g.tileErrors := rfl
@[simp] theorem Group.putThread_scratchErrors (g : Group) (k : Nat) (t : Thread) :
    (g.putThread k t).scratchErrors = g.scratchErrors := rfl
@[simp] theorem Group.putThread_sluiceFails (g : Group) (k : Nat) (t : Thread) :
    (g.putThread k t).sluiceFails = g.sluiceFails := rfl
@[simp] theorem Group.putThread_tshape (g : Group) (k : Nat) (t : Thread) :
    (g.putThread k t).tshape = g.tshape := rfl
@[simp] theorem Group.putThread_terr (g : Group) (k : Nat) (t : Thread) :
    (g.putThread k t).terr = g.terr := rfl
@[simp] theorem Group.putThread_ovr (g : Group) (k : Nat) (t : Thread) :
    (g.putThread k t).ovr = g.ovr := rfl
@[simp] theorem Group.putThread_bins (g : Group) (k : Nat) (t : Thread) :
    (g.putThread k t).bins = g.bins := rfl
@[simp] theorem Group.putThread_warps (g : Group) (k : Nat) (t : Thread) :
    (g.putThread k t).warps = g.warps := rfl
@[simp] theorem Group.putThread_actions (g : Group) (k : Nat) (t : Thread) :
    (g.putThread k t).actions = g.actions := rfl
@[simp] theorem Group.putThread_blocks (g : Group) (k : Nat) (t : Thread) :
    (g.putThread k t).blocks = g.blocks := rfl
@[simp] theorem Group.putThread_granules (g : Group) (k : Nat) (t : Thread) :
    (g.putThread k t).granules = g.granules := rfl
@[simp] theorem Group.putThread_tileRegs (g : Group) (k : Nat) (t : Thread) :
    (g.putThread k t).tileRegs = g.tileRegs := rfl
@[simp] theorem Group.putThread_gangIssued (g : Group) (k : Nat) (t : Thread) :
    (g.putThread k t).gangIssued = g.gangIssued := rfl

/-! A thread of a group changed -/

@[simp] theorem Group.modThread_gid (g : Group) (k : Nat) (f : Thread → Thread) :
    (g.modThread k f).gid = g.gid := by
  unfold Group.modThread; split <;> rfl
@[simp] theorem Group.modThread_control (g : Group) (k : Nat) (f : Thread → Thread) :
    (g.modThread k f).control = g.control := by
  unfold Group.modThread; split <;> rfl
@[simp] theorem Group.modThread_place (g : Group) (k : Nat) (f : Thread → Thread) :
    (g.modThread k f).place = g.place := by
  unfold Group.modThread; split <;> rfl
@[simp] theorem Group.modThread_residency (g : Group) (k : Nat) (f : Thread → Thread) :
    (g.modThread k f).residency = g.residency := by
  unfold Group.modThread; split <;> rfl
@[simp] theorem Group.modThread_moved (g : Group) (k : Nat) (f : Thread → Thread) :
    (g.modThread k f).moved = g.moved := by
  unfold Group.modThread; split <;> rfl
@[simp] theorem Group.modThread_name (g : Group) (k : Nat) (f : Thread → Thread) :
    (g.modThread k f).name = g.name := by
  unfold Group.modThread; split <;> rfl
@[simp] theorem Group.modThread_lid (g : Group) (k : Nat) (f : Thread → Thread) :
    (g.modThread k f).lid = g.lid := by
  unfold Group.modThread; split <;> rfl
@[simp] theorem Group.modThread_ordinal (g : Group) (k : Nat) (f : Thread → Thread) :
    (g.modThread k f).ordinal = g.ordinal := by
  unfold Group.modThread; split <;> rfl
@[simp] theorem Group.modThread_base (g : Group) (k : Nat) (f : Thread → Thread) :
    (g.modThread k f).base = g.base := by
  unfold Group.modThread; split <;> rfl
@[simp] theorem Group.modThread_widWord (g : Group) (k : Nat) (f : Thread → Thread) :
    (g.modThread k f).widWord = g.widWord := by
  unfold Group.modThread; split <;> rfl
@[simp] theorem Group.modThread_entry (g : Group) (k : Nat) (f : Thread → Thread) :
    (g.modThread k f).entry = g.entry := by
  unfold Group.modThread; split <;> rfl
@[simp] theorem Group.modThread_ctl (g : Group) (k : Nat) (f : Thread → Thread) :
    (g.modThread k f).ctl = g.ctl := by
  unfold Group.modThread; split <;> rfl
@[simp] theorem Group.modThread_quantum (g : Group) (k : Nat) (f : Thread → Thread) :
    (g.modThread k f).quantum = g.quantum := by
  unfold Group.modThread; split <;> rfl
@[simp] theorem Group.modThread_rquant (g : Group) (k : Nat) (f : Thread → Thread) :
    (g.modThread k f).rquant = g.rquant := by
  unfold Group.modThread; split <;> rfl
@[simp] theorem Group.modThread_budget (g : Group) (k : Nat) (f : Thread → Thread) :
    (g.modThread k f).budget = g.budget := by
  unfold Group.modThread; split <;> rfl
@[simp] theorem Group.modThread_nthr (g : Group) (k : Nat) (f : Thread → Thread) :
    (g.modThread k f).nthr = g.nthr := by
  unfold Group.modThread; split <;> rfl
@[simp] theorem Group.modThread_scratchSize (g : Group) (k : Nat) (f : Thread → Thread) :
    (g.modThread k f).scratchSize = g.scratchSize := by
  unfold Group.modThread; split <;> rfl
@[simp] theorem Group.modThread_scratch (g : Group) (k : Nat) (f : Thread → Thread) :
    (g.modThread k f).scratch = g.scratch := by
  unfold Group.modThread; split <;> rfl
@[simp] theorem Group.modThread_tiles (g : Group) (k : Nat) (f : Thread → Thread) :
    (g.modThread k f).tiles = g.tiles := by
  unfold Group.modThread; split <;> rfl
@[simp] theorem Group.modThread_tileMem (g : Group) (k : Nat) (f : Thread → Thread) :
    (g.modThread k f).tileMem = g.tileMem := by
  unfold Group.modThread; split <;> rfl
@[simp] theorem Group.modThread_bitmapZero (g : Group) (k : Nat) (f : Thread → Thread) :
    (g.modThread k f).bitmapZero = g.bitmapZero := by
  unfold Group.modThread; split <;> rfl
@[simp] theorem Group.modThread_tileErrors (g : Group) (k : Nat) (f : Thread → Thread) :
    (g.modThread k f).tileErrors = g.tileErrors := by
  unfold Group.modThread; split <;> rfl
@[simp] theorem Group.modThread_scratchErrors (g : Group) (k : Nat) (f : Thread → Thread) :
    (g.modThread k f).scratchErrors = g.scratchErrors := by
  unfold Group.modThread; split <;> rfl
@[simp] theorem Group.modThread_sluiceFails (g : Group) (k : Nat) (f : Thread → Thread) :
    (g.modThread k f).sluiceFails = g.sluiceFails := by
  unfold Group.modThread; split <;> rfl
@[simp] theorem Group.modThread_tshape (g : Group) (k : Nat) (f : Thread → Thread) :
    (g.modThread k f).tshape = g.tshape := by
  unfold Group.modThread; split <;> rfl
@[simp] theorem Group.modThread_terr (g : Group) (k : Nat) (f : Thread → Thread) :
    (g.modThread k f).terr = g.terr := by
  unfold Group.modThread; split <;> rfl
@[simp] theorem Group.modThread_ovr (g : Group) (k : Nat) (f : Thread → Thread) :
    (g.modThread k f).ovr = g.ovr := by
  unfold Group.modThread; split <;> rfl
@[simp] theorem Group.modThread_bins (g : Group) (k : Nat) (f : Thread → Thread) :
    (g.modThread k f).bins = g.bins := by
  unfold Group.modThread; split <;> rfl
@[simp] theorem Group.modThread_warps (g : Group) (k : Nat) (f : Thread → Thread) :
    (g.modThread k f).warps = g.warps := by
  unfold Group.modThread; split <;> rfl
@[simp] theorem Group.modThread_actions (g : Group) (k : Nat) (f : Thread → Thread) :
    (g.modThread k f).actions = g.actions := by
  unfold Group.modThread; split <;> rfl
@[simp] theorem Group.modThread_blocks (g : Group) (k : Nat) (f : Thread → Thread) :
    (g.modThread k f).blocks = g.blocks := by
  unfold Group.modThread; split <;> rfl
@[simp] theorem Group.modThread_granules (g : Group) (k : Nat) (f : Thread → Thread) :
    (g.modThread k f).granules = g.granules := by
  unfold Group.modThread; split <;> rfl
@[simp] theorem Group.modThread_tileRegs (g : Group) (k : Nat) (f : Thread → Thread) :
    (g.modThread k f).tileRegs = g.tileRegs := by
  unfold Group.modThread; split <;> rfl
@[simp] theorem Group.modThread_gangIssued (g : Group) (k : Nat) (f : Thread → Thread) :
    (g.modThread k f).gangIssued = g.gangIssued := by
  unfold Group.modThread; split <;> rfl

/-! A register written -/

@[simp] theorem Thread.setReg_gidx (t : Thread) (r : Nat) (v : Word) :
    (t.setReg r v).gidx = t.gidx := rfl
@[simp] theorem Thread.setReg_wid (t : Thread) (r : Nat) (v : Word) :
    (t.setReg r v).wid = t.wid := rfl
@[simp] theorem Thread.setReg_pc (t : Thread) (r : Nat) (v : Word) :
    (t.setReg r v).pc = t.pc := rfl
@[simp] theorem Thread.setReg_state (t : Thread) (r : Nat) (v : Word) :
    (t.setReg r v).state = t.state := rfl
@[simp] theorem Thread.setReg_lane (t : Thread) (r : Nat) (v : Word) :
    (t.setReg r v).lane = t.lane := rfl
@[simp] theorem Thread.setReg_fpctl (t : Thread) (r : Nat) (v : Word) :
    (t.setReg r v).fpctl = t.fpctl := rfl
@[simp] theorem Thread.setReg_fpflags (t : Thread) (r : Nat) (v : Word) :
    (t.setReg r v).fpflags = t.fpflags := rfl
@[simp] theorem Thread.setReg_pl (t : Thread) (r : Nat) (v : Word) :
    (t.setReg r v).pl = t.pl := rfl
@[simp] theorem Thread.setReg_ppl (t : Thread) (r : Nat) (v : Word) :
    (t.setReg r v).ppl = t.ppl := rfl
@[simp] theorem Thread.setReg_epc (t : Thread) (r : Nat) (v : Word) :
    (t.setReg r v).epc = t.epc := rfl
@[simp] theorem Thread.setReg_cause (t : Thread) (r : Nat) (v : Word) :
    (t.setReg r v).cause = t.cause := rfl
@[simp] theorem Thread.setReg_tval (t : Thread) (r : Nat) (v : Word) :
    (t.setReg r v).tval = t.tval := rfl
@[simp] theorem Thread.setReg_vbase (t : Thread) (r : Nat) (v : Word) :
    (t.setReg r v).vbase = t.vbase := rfl
@[simp] theorem Thread.setReg_ctxid (t : Thread) (r : Nat) (v : Word) :
    (t.setReg r v).ctxid = t.ctxid := rfl
@[simp] theorem Thread.setReg_polder (t : Thread) (r : Nat) (v : Word) :
    (t.setReg r v).polder = t.polder := rfl
@[simp] theorem Thread.setReg_ev (t : Thread) (r : Nat) (v : Word) :
    (t.setReg r v).ev = t.ev := rfl
@[simp] theorem Thread.setReg_pciaddr (t : Thread) (r : Nat) (v : Word) :
    (t.setReg r v).pciaddr = t.pciaddr := rfl
@[simp] theorem Thread.setReg_pcidata (t : Thread) (r : Nat) (v : Word) :
    (t.setReg r v).pcidata = t.pcidata := rfl
@[simp] theorem Thread.setReg_sb (t : Thread) (r : Nat) (v : Word) :
    (t.setReg r v).sb = t.sb := rfl
@[simp] theorem Thread.setReg_ops (t : Thread) (r : Nat) (v : Word) :
    (t.setReg r v).ops = t.ops := rfl
@[simp] theorem Thread.setReg_remote (t : Thread) (r : Nat) (v : Word) :
    (t.setReg r v).remote = t.remote := rfl
@[simp] theorem Thread.setReg_acquires (t : Thread) (r : Nat) (v : Word) :
    (t.setReg r v).acquires = t.acquires := rfl
@[simp] theorem Thread.setReg_order (t : Thread) (r : Nat) (v : Word) :
    (t.setReg r v).order = t.order := rfl
@[simp] theorem Thread.setReg_fence (t : Thread) (r : Nat) (v : Word) :
    (t.setReg r v).fence = t.fence := rfl
@[simp] theorem Thread.setReg_stepping (t : Thread) (r : Nat) (v : Word) :
    (t.setReg r v).stepping = t.stepping := rfl
@[simp] theorem Thread.setReg_resumed (t : Thread) (r : Nat) (v : Word) :
    (t.setReg r v).resumed = t.resumed := rfl
@[simp] theorem Thread.setReg_trapped (t : Thread) (r : Nat) (v : Word) :
    (t.setReg r v).trapped = t.trapped := rfl

/-! A pair written -/

@[simp] theorem Thread.setPair_gidx (t : Thread) (r : Nat) (v : Dword) :
    (t.setPair r v).gidx = t.gidx := rfl
@[simp] theorem Thread.setPair_wid (t : Thread) (r : Nat) (v : Dword) :
    (t.setPair r v).wid = t.wid := rfl
@[simp] theorem Thread.setPair_pc (t : Thread) (r : Nat) (v : Dword) :
    (t.setPair r v).pc = t.pc := rfl
@[simp] theorem Thread.setPair_state (t : Thread) (r : Nat) (v : Dword) :
    (t.setPair r v).state = t.state := rfl
@[simp] theorem Thread.setPair_lane (t : Thread) (r : Nat) (v : Dword) :
    (t.setPair r v).lane = t.lane := rfl
@[simp] theorem Thread.setPair_fpctl (t : Thread) (r : Nat) (v : Dword) :
    (t.setPair r v).fpctl = t.fpctl := rfl
@[simp] theorem Thread.setPair_fpflags (t : Thread) (r : Nat) (v : Dword) :
    (t.setPair r v).fpflags = t.fpflags := rfl
@[simp] theorem Thread.setPair_pl (t : Thread) (r : Nat) (v : Dword) :
    (t.setPair r v).pl = t.pl := rfl
@[simp] theorem Thread.setPair_ppl (t : Thread) (r : Nat) (v : Dword) :
    (t.setPair r v).ppl = t.ppl := rfl
@[simp] theorem Thread.setPair_epc (t : Thread) (r : Nat) (v : Dword) :
    (t.setPair r v).epc = t.epc := rfl
@[simp] theorem Thread.setPair_cause (t : Thread) (r : Nat) (v : Dword) :
    (t.setPair r v).cause = t.cause := rfl
@[simp] theorem Thread.setPair_tval (t : Thread) (r : Nat) (v : Dword) :
    (t.setPair r v).tval = t.tval := rfl
@[simp] theorem Thread.setPair_vbase (t : Thread) (r : Nat) (v : Dword) :
    (t.setPair r v).vbase = t.vbase := rfl
@[simp] theorem Thread.setPair_ctxid (t : Thread) (r : Nat) (v : Dword) :
    (t.setPair r v).ctxid = t.ctxid := rfl
@[simp] theorem Thread.setPair_polder (t : Thread) (r : Nat) (v : Dword) :
    (t.setPair r v).polder = t.polder := rfl
@[simp] theorem Thread.setPair_ev (t : Thread) (r : Nat) (v : Dword) :
    (t.setPair r v).ev = t.ev := rfl
@[simp] theorem Thread.setPair_pciaddr (t : Thread) (r : Nat) (v : Dword) :
    (t.setPair r v).pciaddr = t.pciaddr := rfl
@[simp] theorem Thread.setPair_pcidata (t : Thread) (r : Nat) (v : Dword) :
    (t.setPair r v).pcidata = t.pcidata := rfl
@[simp] theorem Thread.setPair_sb (t : Thread) (r : Nat) (v : Dword) :
    (t.setPair r v).sb = t.sb := rfl
@[simp] theorem Thread.setPair_ops (t : Thread) (r : Nat) (v : Dword) :
    (t.setPair r v).ops = t.ops := rfl
@[simp] theorem Thread.setPair_remote (t : Thread) (r : Nat) (v : Dword) :
    (t.setPair r v).remote = t.remote := rfl
@[simp] theorem Thread.setPair_acquires (t : Thread) (r : Nat) (v : Dword) :
    (t.setPair r v).acquires = t.acquires := rfl
@[simp] theorem Thread.setPair_order (t : Thread) (r : Nat) (v : Dword) :
    (t.setPair r v).order = t.order := rfl
@[simp] theorem Thread.setPair_fence (t : Thread) (r : Nat) (v : Dword) :
    (t.setPair r v).fence = t.fence := rfl
@[simp] theorem Thread.setPair_stepping (t : Thread) (r : Nat) (v : Dword) :
    (t.setPair r v).stepping = t.stepping := rfl
@[simp] theorem Thread.setPair_resumed (t : Thread) (r : Nat) (v : Dword) :
    (t.setPair r v).resumed = t.resumed := rfl
@[simp] theorem Thread.setPair_trapped (t : Thread) (r : Nat) (v : Dword) :
    (t.setPair r v).trapped = t.trapped := rfl

/-! A register marked -/

@[simp] theorem Thread.mark_gidx (t : Thread) (r : Nat) (c : Fe) :
    (t.mark r c).gidx = t.gidx := rfl
@[simp] theorem Thread.mark_wid (t : Thread) (r : Nat) (c : Fe) :
    (t.mark r c).wid = t.wid := rfl
@[simp] theorem Thread.mark_pc (t : Thread) (r : Nat) (c : Fe) :
    (t.mark r c).pc = t.pc := rfl
@[simp] theorem Thread.mark_state (t : Thread) (r : Nat) (c : Fe) :
    (t.mark r c).state = t.state := rfl
@[simp] theorem Thread.mark_lane (t : Thread) (r : Nat) (c : Fe) :
    (t.mark r c).lane = t.lane := rfl
@[simp] theorem Thread.mark_regs (t : Thread) (r : Nat) (c : Fe) :
    (t.mark r c).regs = t.regs := rfl
@[simp] theorem Thread.mark_fpctl (t : Thread) (r : Nat) (c : Fe) :
    (t.mark r c).fpctl = t.fpctl := rfl
@[simp] theorem Thread.mark_fpflags (t : Thread) (r : Nat) (c : Fe) :
    (t.mark r c).fpflags = t.fpflags := rfl
@[simp] theorem Thread.mark_pl (t : Thread) (r : Nat) (c : Fe) :
    (t.mark r c).pl = t.pl := rfl
@[simp] theorem Thread.mark_ppl (t : Thread) (r : Nat) (c : Fe) :
    (t.mark r c).ppl = t.ppl := rfl
@[simp] theorem Thread.mark_epc (t : Thread) (r : Nat) (c : Fe) :
    (t.mark r c).epc = t.epc := rfl
@[simp] theorem Thread.mark_cause (t : Thread) (r : Nat) (c : Fe) :
    (t.mark r c).cause = t.cause := rfl
@[simp] theorem Thread.mark_tval (t : Thread) (r : Nat) (c : Fe) :
    (t.mark r c).tval = t.tval := rfl
@[simp] theorem Thread.mark_vbase (t : Thread) (r : Nat) (c : Fe) :
    (t.mark r c).vbase = t.vbase := rfl
@[simp] theorem Thread.mark_ctxid (t : Thread) (r : Nat) (c : Fe) :
    (t.mark r c).ctxid = t.ctxid := rfl
@[simp] theorem Thread.mark_polder (t : Thread) (r : Nat) (c : Fe) :
    (t.mark r c).polder = t.polder := rfl
@[simp] theorem Thread.mark_ev (t : Thread) (r : Nat) (c : Fe) :
    (t.mark r c).ev = t.ev := rfl
@[simp] theorem Thread.mark_pciaddr (t : Thread) (r : Nat) (c : Fe) :
    (t.mark r c).pciaddr = t.pciaddr := rfl
@[simp] theorem Thread.mark_pcidata (t : Thread) (r : Nat) (c : Fe) :
    (t.mark r c).pcidata = t.pcidata := rfl
@[simp] theorem Thread.mark_sb (t : Thread) (r : Nat) (c : Fe) :
    (t.mark r c).sb = t.sb := rfl
@[simp] theorem Thread.mark_ops (t : Thread) (r : Nat) (c : Fe) :
    (t.mark r c).ops = t.ops := rfl
@[simp] theorem Thread.mark_remote (t : Thread) (r : Nat) (c : Fe) :
    (t.mark r c).remote = t.remote := rfl
@[simp] theorem Thread.mark_acquires (t : Thread) (r : Nat) (c : Fe) :
    (t.mark r c).acquires = t.acquires := rfl
@[simp] theorem Thread.mark_order (t : Thread) (r : Nat) (c : Fe) :
    (t.mark r c).order = t.order := rfl
@[simp] theorem Thread.mark_fence (t : Thread) (r : Nat) (c : Fe) :
    (t.mark r c).fence = t.fence := rfl
@[simp] theorem Thread.mark_stepping (t : Thread) (r : Nat) (c : Fe) :
    (t.mark r c).stepping = t.stepping := rfl
@[simp] theorem Thread.mark_resumed (t : Thread) (r : Nat) (c : Fe) :
    (t.mark r c).resumed = t.resumed := rfl
@[simp] theorem Thread.mark_trapped (t : Thread) (r : Nat) (c : Fe) :
    (t.mark r c).trapped = t.trapped := rfl
@[simp] theorem Thread.mark_regErrors (t : Thread) (r : Nat) (c : Fe) :
    (t.mark r c).regErrors = t.regErrors := rfl

/-! A block of a working store changed -/

@[simp] theorem Die.modBlock_svcring (d : Die) (key : Nat) (f : Block → Block) :
    (d.modBlock key f).svcring = d.svcring := rfl
@[simp] theorem Die.modBlock_stale (d : Die) (key : Nat) (f : Block → Block) :
    (d.modBlock key f).stale = d.stale := rfl
@[simp] theorem Die.modBlock_fring (d : Die) (key : Nat) (f : Block → Block) :
    (d.modBlock key f).fring = d.fring := rfl
@[simp] theorem Die.modBlock_fringCtx (d : Die) (key : Nat) (f : Block → Block) :
    (d.modBlock key f).fringCtx = d.fringCtx := rfl
@[simp] theorem Die.modBlock_fringPolder (d : Die) (key : Nat) (f : Block → Block) :
    (d.modBlock key f).fringPolder = d.fringPolder := rfl
@[simp] theorem Die.modBlock_hloc (d : Die) (key : Nat) (f : Block → Block) :
    (d.modBlock key f).hloc = d.hloc := rfl
@[simp] theorem Die.modBlock_hrem (d : Die) (key : Nat) (f : Block → Block) :
    (d.modBlock key f).hrem = d.hrem := rfl
@[simp] theorem Die.modBlock_lost (d : Die) (key : Nat) (f : Block → Block) :
    (d.modBlock key f).lost = d.lost := rfl
@[simp] theorem Die.modBlock_leftReset (d : Die) (key : Nat) (f : Block → Block) :
    (d.modBlock key f).leftReset = d.leftReset := rfl
@[simp] theorem Die.modBlock_kcopies (d : Die) (key : Nat) (f : Block → Block) :
    (d.modBlock key f).kcopies = d.kcopies := rfl
@[simp] theorem Die.modBlock_kinvHeld (d : Die) (key : Nat) (f : Block → Block) :
    (d.modBlock key f).kinvHeld = d.kinvHeld := rfl
@[simp] theorem Die.modBlock_sent (d : Die) (key : Nat) (f : Block → Block) :
    (d.modBlock key f).sent = d.sent := rfl
@[simp] theorem Die.modBlock_queue (d : Die) (key : Nat) (f : Block → Block) :
    (d.modBlock key f).queue = d.queue := rfl
@[simp] theorem Die.modBlock_records (d : Die) (key : Nat) (f : Block → Block) :
    (d.modBlock key f).records = d.records := rfl
@[simp] theorem Die.modBlock_podQueue (d : Die) (key : Nat) (f : Block → Block) :
    (d.modBlock key f).podQueue = d.podQueue := rfl
@[simp] theorem Die.modBlock_names (d : Die) (key : Nat) (f : Block → Block) :
    (d.modBlock key f).names = d.names := rfl
@[simp] theorem Die.modBlock_tlb (d : Die) (key : Nat) (f : Block → Block) :
    (d.modBlock key f).tlb = d.tlb := rfl
@[simp] theorem Die.modBlock_inkSize (d : Die) (key : Nat) (f : Block → Block) :
    (d.modBlock key f).inkSize = d.inkSize := rfl
@[simp] theorem Die.modBlock_ioInkSize (d : Die) (key : Nat) (f : Block → Block) :
    (d.modBlock key f).ioInkSize = d.ioInkSize := rfl
@[simp] theorem Die.modBlock_spilling (d : Die) (key : Nat) (f : Block → Block) :
    (d.modBlock key f).spilling = d.spilling := rfl

/-! What an update wrote -/

@[simp] theorem State.die_modDie_same (s : State) (d : Nat) (f : Die → Die) : (s.modDie d f).die d = f (s.die d) := by
  simp [State.die, State.modDie]
theorem State.die_modDie_other (s : State) (d e : Nat) (f : Die → Die) (h : e ≠ d) : (s.modDie d f).die e = s.die e :=
  tget_tset_other _ _ _ _ _ _ h
@[simp] theorem State.core_modCore_same (s : State) (d c : Nat) (f : Core → Core) :
    (s.modCore d c f).core d c = f (s.core d c) := by
  simp [State.core, State.modCore]
theorem State.core_modCore_other (s : State) (d c e k : Nat) (f : Core → Core) (h : coreKey e k ≠ coreKey d c) :
    (s.modCore d c f).core e k = s.core e k := tget_tset_other _ _ _ _ _ _ h
@[simp] theorem Thread.reg_setReg_same (t : Thread) (r : Nat) (v : Word) : (t.setReg r v).reg r = v := tget_tset_same _ _ _ _
theorem Thread.reg_setReg_other (t : Thread) (r k : Nat) (v : Word) (h : k ≠ r) : (t.setReg r v).reg k = t.reg k :=
  tget_tset_other _ _ _ _ _ _ h
@[simp] theorem Thread.feOf_setReg_same (t : Thread) (r : Nat) (v : Word) : (t.setReg r v).feOf r = .full :=
  tget_tset_same Fe.full t.fe r .full
theorem Thread.feOf_setReg_other (t : Thread) (r k : Nat) (v : Word) (h : k ≠ r) : (t.setReg r v).feOf k = t.feOf k :=
  tget_tset_other Fe.full Fe.full t.fe r k .full h
@[simp] theorem Thread.feOf_mark_same (t : Thread) (r : Nat) (c : Fe) : (t.mark r c).feOf r = c := tget_tset_same _ _ _ _
theorem Thread.feOf_mark_other (t : Thread) (r k : Nat) (c : Fe) (h : k ≠ r) : (t.mark r c).feOf k = t.feOf k :=
  tget_tset_other _ _ _ _ _ _ h
@[simp] theorem Thread.reg_mark (t : Thread) (r k : Nat) (c : Fe) : (t.mark r c).reg k = t.reg k := rfl

/-! A slot given to a lane set -/

@[simp] theorem State.giveSlot_agenda (s : State) (die core slot gid wid : Nat) (lanes : List Nat) :
    (s.giveSlot die core slot gid wid lanes).agenda = s.agenda := by
  simp [State.giveSlot, State.freshWin]
@[simp] theorem State.giveSlot_cur (s : State) (die core slot gid wid : Nat) (lanes : List Nat) :
    (s.giveSlot die core slot gid wid lanes).cur = s.cur := by
  simp [State.giveSlot, State.freshWin]
@[simp] theorem State.giveSlot_clock (s : State) (die core slot gid wid : Nat) (lanes : List Nat) :
    (s.giveSlot die core slot gid wid lanes).clock = s.clock := by
  simp [State.giveSlot, State.freshWin]
@[simp] theorem State.giveSlot_ticks (s : State) (die core slot gid wid : Nat) (lanes : List Nat) :
    (s.giveSlot die core slot gid wid lanes).ticks = s.ticks := by
  simp [State.giveSlot, State.freshWin]
@[simp] theorem State.giveSlot_regs (s : State) (die core slot gid wid : Nat) (lanes : List Nat) :
    (s.giveSlot die core slot gid wid lanes).regs = s.regs := by
  simp [State.giveSlot, State.freshWin]
@[simp] theorem State.giveSlot_mem (s : State) (die core slot gid wid : Nat) (lanes : List Nat) :
    (s.giveSlot die core slot gid wid lanes).mem = s.mem := by
  simp [State.giveSlot, State.freshWin]
@[simp] theorem State.giveSlot_poison (s : State) (die core slot gid wid : Nat) (lanes : List Nat) :
    (s.giveSlot die core slot gid wid lanes).poison = s.poison := by
  simp [State.giveSlot, State.freshWin]
@[simp] theorem State.giveSlot_dies (s : State) (die core slot gid wid : Nat) (lanes : List Nat) :
    (s.giveSlot die core slot gid wid lanes).dies = s.dies := by
  simp [State.giveSlot, State.freshWin]
@[simp] theorem State.giveSlot_cores (s : State) (die core slot gid wid : Nat) (lanes : List Nat) :
    (s.giveSlot die core slot gid wid lanes).cores = s.cores := by
  simp [State.giveSlot, State.freshWin]
@[simp] theorem State.giveSlot_transfers (s : State) (die core slot gid wid : Nat) (lanes : List Nat) :
    (s.giveSlot die core slot gid wid lanes).transfers = s.transfers := by
  simp [State.giveSlot, State.freshWin]
@[simp] theorem State.giveSlot_tileOps (s : State) (die core slot gid wid : Nat) (lanes : List Nat) :
    (s.giveSlot die core slot gid wid lanes).tileOps = s.tileOps := by
  simp [State.giveSlot, State.freshWin]
@[simp] theorem State.giveSlot_launches (s : State) (die core slot gid wid : Nat) (lanes : List Nat) :
    (s.giveSlot die core slot gid wid lanes).launches = s.launches := by
  simp [State.giveSlot, State.freshWin]
@[simp] theorem State.giveSlot_folios (s : State) (die core slot gid wid : Nat) (lanes : List Nat) :
    (s.giveSlot die core slot gid wid lanes).folios = s.folios := by
  simp [State.giveSlot, State.freshWin]
@[simp] theorem State.giveSlot_saves (s : State) (die core slot gid wid : Nat) (lanes : List Nat) :
    (s.giveSlot die core slot gid wid lanes).saves = s.saves := by
  simp [State.giveSlot, State.freshWin]
@[simp] theorem State.giveSlot_steps (s : State) (die core slot gid wid : Nat) (lanes : List Nat) :
    (s.giveSlot die core slot gid wid lanes).steps = s.steps := by
  simp [State.giveSlot, State.freshWin]
@[simp] theorem State.giveSlot_batches (s : State) (die core slot gid wid : Nat) (lanes : List Nat) :
    (s.giveSlot die core slot gid wid lanes).batches = s.batches := by
  simp [State.giveSlot, State.freshWin]
@[simp] theorem State.giveSlot_tableStores (s : State) (die core slot gid wid : Nat) (lanes : List Nat) :
    (s.giveSlot die core slot gid wid lanes).tableStores = s.tableStores := by
  simp [State.giveSlot, State.freshWin]
@[simp] theorem State.giveSlot_tlbis (s : State) (die core slot gid wid : Nat) (lanes : List Nat) :
    (s.giveSlot die core slot gid wid lanes).tlbis = s.tlbis := by
  simp [State.giveSlot, State.freshWin]
@[simp] theorem State.giveSlot_tokens (s : State) (die core slot gid wid : Nat) (lanes : List Nat) :
    (s.giveSlot die core slot gid wid lanes).tokens = s.tokens := by
  simp [State.giveSlot, State.freshWin]
@[simp] theorem State.giveSlot_pod (s : State) (die core slot gid wid : Nat) (lanes : List Nat) :
    (s.giveSlot die core slot gid wid lanes).pod = s.pod := by
  simp [State.giveSlot, State.freshWin]
@[simp] theorem State.giveSlot_ports (s : State) (die core slot gid wid : Nat) (lanes : List Nat) :
    (s.giveSlot die core slot gid wid lanes).ports = s.ports := by
  simp [State.giveSlot, State.freshWin]

/-- Reset memory has the canonical form. -/
theorem State.reset_mem_wf : State.reset.mem.wf = true := rfl

/-- A store to every replica keeps the canonical form. -/
theorem State.writeTables_wf {s : State} (h : s.mem.wf = true) (off : Nat) (bs : List Byte) :
    (s.writeTables off bs).mem.wf = true := by
  show ((tableCopies off).foldl (fun m d => Memory.writeN m (storageKey d off) bs) s.mem).wf = true
  generalize tableCopies off = l
  revert h
  generalize s.mem = m
  induction l generalizing m with
  | nil => exact id
  | cons d l ih => exact fun h => ih _ (Memory.wf_writeN h _ _)

end Sys2Proof.Machine
end

