-- ==== Sys2Proof/Laws/Run.lean ====
section
/-!
SUPPORT. One law of running an instruction in a lane set: where every check passes and no lane traps or is held, what the next
state is and what it leaves alone.
-/
namespace Sys2Proof.Machine

open Sys2Proof

/-! ## Groups and threads after a change -/

theorem State.group_gid {s : State} {gid : Nat} {g : Group} (h : s.group gid = some g) : g.gid = gid := by
  unfold State.group at h
  split at h
  · cases h; rfl
  · split at h
    · cases h; rfl
    · cases h

@[simp] theorem State.group_putGroup_same (s : State) (g : Group) : (s.putGroup g).group g.gid = some g := by
  simp [State.group, State.putGroup, tfind_tput_same]

theorem State.group_putGroup_other (s : State) (g : Group) (k : Nat) (h : k ≠ g.gid) :
    (s.putGroup g).group k = s.group k := by
  simp [State.group, State.putGroup, tfind_tput_other _ _ _ _ h]

theorem State.modGroup_some {s : State} {gid : Nat} {g : Group} (h : s.group gid = some g) (f : Group → Group) :
    s.modGroup gid f = s.putGroup { f g with gid := gid } := by
  simp [State.modGroup, h]

theorem State.modGroup_none {s : State} {gid : Nat} (h : s.group gid = none) (f : Group → Group) :
    s.modGroup gid f = s := by
  simp [State.modGroup, h]

theorem State.group_modGroup_same {s : State} {gid : Nat} {g : Group} (h : s.group gid = some g) (f : Group → Group) :
    (s.modGroup gid f).group gid = some { f g with gid := gid } := by
  rw [State.modGroup_some h]
  exact State.group_putGroup_same s { f g with gid := gid }

theorem State.group_modGroup_other (s : State) (gid k : Nat) (f : Group → Group) (hk : k ≠ gid) :
    (s.modGroup gid f).group k = s.group k := by
  cases h : s.group gid with
  | none => rw [State.modGroup_none h]
  | some g => rw [State.modGroup_some h]; exact State.group_putGroup_other s { f g with gid := gid } k hk

theorem State.modGroup_rest (s : State) (gid : Nat) (f : Group → Group) :
    s.modGroup gid f = { s with groups := (s.modGroup gid f).groups } := by
  unfold State.modGroup; split <;> rfl

@[simp] theorem Group.thread_putThread_same (g : Group) (t : Nat) (x : Thread) :
    (g.putThread t x).thread t = some { x with gidx := t } := by
  simp [Group.thread, Group.putThread, tfind_tput_same]

theorem Group.thread_putThread_other (g : Group) (t k : Nat) (x : Thread) (h : k ≠ t) :
    (g.putThread t x).thread k = g.thread k := by
  simp [Group.thread, Group.putThread, tfind_tput_other _ _ _ _ h]

theorem Group.thread_gidx {g : Group} {k : Nat} {t : Thread} (h : g.thread k = some t) : t.gidx = k := by
  unfold Group.thread at h
  cases h' : tfind g.threads k with
  | none => simp [h'] at h
  | some y => simp [h'] at h; rw [← h]

theorem Group.modThread_rest (g : Group) (t : Nat) (f : Thread → Thread) :
    g.modThread t f = { g with threads := (g.modThread t f).threads } := by
  unfold Group.modThread; split <;> rfl

theorem Group.thread_modThread_same {g : Group} {k : Nat} {t : Thread} (h : g.thread k = some t) (f : Thread → Thread) :
    (g.modThread k f).thread k = some { f t with gidx := k } := by
  simp [Group.modThread, h]

theorem Group.thread_modThread_other (g : Group) (t k : Nat) (f : Thread → Thread) (h : k ≠ t) :
    (g.modThread t f).thread k = g.thread k := by
  unfold Group.modThread; split
  · exact Group.thread_putThread_other _ _ _ _ h
  · rfl

/-- A run of thread updates of a group keeps the rest of it. -/
theorem Group.foldl_rest {α : Type} (l : List α) (f : Group → α → Group)
    (hf : ∀ g a, f g a = { g with threads := (f g a).threads }) (g : Group) :
    l.foldl f g = { g with threads := (l.foldl f g).threads } := by
  induction l generalizing g with
  | nil => rfl
  | cons a l ih => rw [List.foldl_cons, ih, hf g a]

theorem Group.foldl_putThread_other {α : Type} (l : List α) (key : α → Nat) (c : α → Thread) (g : Group) (k : Nat)
    (h : ∀ a ∈ l, key a ≠ k) : (l.foldl (fun g a => g.putThread (key a) (c a)) g).thread k = g.thread k := by
  induction l generalizing g with
  | nil => rfl
  | cons a l ih =>
    rw [List.foldl_cons, ih _ fun b hb => h b (List.mem_cons_of_mem _ hb)]
    exact Group.thread_putThread_other _ _ _ _ (h a (by simp)).symm

theorem Group.foldl_putThread_same {α : Type} (l : List α) (key : α → Nat) (c : α → Thread) (g : Group) (a : α)
    (ha : a ∈ l) (hu : ∀ b ∈ l, key b = key a → c b = c a) :
    (l.foldl (fun g a => g.putThread (key a) (c a)) g).thread (key a) = some { c a with gidx := key a } := by
  induction l generalizing g a with
  | nil => cases ha
  | cons b l ih =>
    rw [List.foldl_cons]
    by_cases h : ∃ b' ∈ l, key b' = key a
    · obtain ⟨b', hb, hk⟩ := h
      have := ih (g.putThread (key b) (c b)) b' hb fun d hd hdk => by
        rw [hu d (List.mem_cons_of_mem _ hd) (hdk.trans hk), hu b' (List.mem_cons_of_mem _ hb) hk]
      rw [← hk, this, hu b' (List.mem_cons_of_mem _ hb) hk]
    · have hne : ∀ b' ∈ l, key b' ≠ key a := fun b' hb hk => h ⟨b', hb, hk⟩
      rw [Group.foldl_putThread_other l key c _ (key a) hne]
      rcases List.mem_cons.mp ha with rfl | ha
      · simp
      · exact absurd rfl (hne a ha)

theorem Group.foldl_modThread_other (l : List Nat) (f : Nat → Thread → Thread) (g : Group) (k : Nat) (h : k ∉ l) :
    (l.foldl (fun g a => g.modThread a (f a)) g).thread k = g.thread k := by
  induction l generalizing g with
  | nil => rfl
  | cons a l ih =>
    rw [List.foldl_cons, ih _ fun hl => h (List.mem_cons_of_mem _ hl)]
    exact Group.thread_modThread_other _ _ _ _ fun e => h (e ▸ List.mem_cons_self)

theorem Thread.with_gidx {t : Thread} {k : Nat} (h : t.gidx = k) : { t with gidx := k } = t := by subst h; rfl

/-- An update that a second pass does not change, applied to the threads of a list, changes each of them once. -/
theorem Group.foldl_modThread_mem (l : List Nat) (f : Nat → Thread → Thread) (hid : ∀ a t, f a (f a t) = f a t)
    (hk : ∀ a t, (f a t).gidx = t.gidx) (g : Group) (k : Nat) (t : Thread) (h : g.thread k = some t) (hm : k ∈ l) :
    (l.foldl (fun g a => g.modThread a (f a)) g).thread k = some (f k t) := by
  induction l generalizing g t with
  | nil => cases hm
  | cons a l ih =>
    rw [List.foldl_cons]
    by_cases ha : a = k
    · subst ha
      have h1 : (g.modThread a (f a)).thread a = some (f a t) := by
        rw [Group.thread_modThread_same h, Thread.with_gidx ((hk a t).trans (Group.thread_gidx h))]
      by_cases hl : a ∈ l
      · rw [ih _ _ h1 hl, hid]
      · rw [Group.foldl_modThread_other _ _ _ _ hl, h1]
    · have h1 : (g.modThread a (f a)).thread k = some t := by
        rw [Group.thread_modThread_other _ _ _ _ (Ne.symm ha), h]
      exact ih _ _ h1 ((List.mem_cons.mp hm).resolve_left (Ne.symm ha))

theorem Group.freeState_modThread (g : Group) (k a : Nat) (f : Thread → Thread) :
    (g.modThread k f).freeState a = g.freeState a := by
  simp [Group.freeState, Group.kindOf, Group.warpOf]

/-- Freeing lanes one after another frees each as the group's warps say. -/
theorem Group.foldl_freeState (l : List Nat) (g : Group) (F : Nat → TState) (hF : ∀ a, g.freeState a = F a) :
    l.foldl (fun g t => g.modThread t fun x => if x.state == .issuing then { x with state := g.freeState t } else x) g =
      l.foldl (fun g t => g.modThread t fun x => if x.state == .issuing then { x with state := F t } else x) g := by
  induction l generalizing g with
  | nil => rfl
  | cons a l ih =>
    rw [List.foldl_cons, List.foldl_cons, hF a]
    exact ih _ fun b => (Group.freeState_modThread _ _ _ _).trans (hF b)

theorem Group.freeState_ne (g : Group) (k : Nat) : g.freeState k ≠ .issuing := by
  unfold Group.freeState; split <;> simp

/-! ## The issuing lane set -/

theorem State.issue_stroke {s : State} {x : Issue} (h : s.issue = some x) :
    s.group x.stroke.gid = some x.group ∧ x.lanes = sortBy Thread.lane (x.stroke.lanes.filterMap fun t => x.group.thread t) ∧
    x.lanes ≠ [] := by
  unfold State.issue at h
  split at h
  · cases h
  · next k _ =>
    split at h
    · cases h
    · next g hg =>
      split at h
      · cases h
      · next t ts hs => cases h; exact ⟨hg, hs.symm, by simp⟩

theorem State.issue_group {s : State} {x : Issue} (h : s.issue = some x) : s.group x.group.gid = some x.group := by
  have := (State.issue_stroke h).1
  rwa [State.group_gid this]

theorem mem_insertBy {α : Type} (f : α → Nat) (x y : α) (l : List α) : y ∈ insertBy f x l ↔ y = x ∨ y ∈ l := by
  induction l with
  | nil => simp [insertBy]
  | cons z l ih =>
    unfold insertBy
    split
    · simp
    · simp [ih, or_left_comm]

theorem mem_sortBy {α : Type} (f : α → Nat) (y : α) (l : List α) : y ∈ sortBy f l ↔ y ∈ l := by
  have : ∀ (l acc : List α), y ∈ l.foldl (fun acc x => insertBy f x acc) acc ↔ y ∈ acc ∨ y ∈ l := by
    intro l
    induction l with
    | nil => simp
    | cons z l ih => intro acc; rw [List.foldl_cons, ih, mem_insertBy]; simp [or_left_comm, or_assoc]
  simp [sortBy, this]

theorem State.issue_lane {s : State} {x : Issue} (h : s.issue = some x) {t : Thread} (ht : t ∈ x.lanes) :
    x.group.thread t.gidx = some t := by
  rw [(State.issue_stroke h).2.1, mem_sortBy, List.mem_filterMap] at ht
  obtain ⟨k, -, hk⟩ := ht
  rwa [Group.thread_gidx hk]

/-- Lanes of one set that name one thread are equal. -/
theorem State.issue_lane_unique {s : State} {x : Issue} (h : s.issue = some x) {t y : Thread} (ht : t ∈ x.lanes)
    (hy : y ∈ x.lanes) (e : t.gidx = y.gidx) : t = y := by
  have h1 := State.issue_lane h ht
  rw [e, State.issue_lane h hy] at h1
  exact (Option.some.inj h1).symm

/-! ## The end of an instruction -/

theorem State.thread_group {s : State} {gid k : Nat} {g : Group} (h : s.group gid = some g) :
    s.thread gid k = g.thread k := by simp [State.thread, h]

/-- Updates of threads of one group, each of which a second pass would not change. -/
structure ThreadsUpdated (s T : State) (gid : Nat) (l : List Nat) (f : Group → Nat → Thread → Thread) : Prop where
  groups : ∀ k, k ≠ gid → T.group k = s.group k
  group : ∀ g, s.group gid = some g → ∃ ths, T.group gid = some { g with threads := ths }
  others : ∀ k, k ∉ l → T.thread gid k = s.thread gid k
  lanes : ∀ g, s.group gid = some g → ∀ k ∈ l, ∀ t, g.thread k = some t → T.thread gid k = some (f g k t)

theorem State.modGroup_updated (s : State) (gid : Nat) (l : List Nat) (f : Group → Nat → Thread → Thread)
    (h : Group → Group) (hid : ∀ g a t, f g a (f g a t) = f g a t) (hk : ∀ g a t, (f g a t).gidx = t.gidx)
    (hf : ∀ g, s.group gid = some g → h g = l.foldl (fun y a => y.modThread a (f g a)) g) :
    ThreadsUpdated s (s.modGroup gid h) gid l f := by
  cases hg : s.group gid with
  | none =>
    rw [State.modGroup_none hg]
    refine ⟨fun _ _ => rfl, fun g h => ?_, fun _ _ => rfl, fun g h => ?_⟩ <;> (rw [hg] at h; cases h)
  | some g =>
    have hs := State.group_modGroup_same hg h
    have hr : h g = { g with threads := (h g).threads } := by
      rw [hf g hg]; exact Group.foldl_rest l _ (fun y a => Group.modThread_rest y a (f g a)) g
    have ht : ∀ k, (s.modGroup gid h).thread gid k = (h g).thread k := fun k => by rw [State.thread_group hs]; rfl
    refine ⟨fun k hn => State.group_modGroup_other s _ k _ hn, fun g' hg' => ?_, fun k hn => ?_, fun g' hg' k hm t hk' => ?_⟩
    · rw [hg] at hg'; cases hg'
      rw [hr, ← State.group_gid hg] at hs
      exact ⟨_, by rw [← State.group_gid hg]; exact hs⟩
    · rw [ht, hf g hg, Group.foldl_modThread_other l _ _ _ hn, State.thread_group hg]
    · rw [hg] at hg'; cases hg'
      rw [ht, hf g hg]
      exact Group.foldl_modThread_mem l _ (hid g) (hk g) g k t hk' hm

theorem State.endStroke_updated (s : State) (k : Stroke) : ThreadsUpdated s (s.endStroke k) k.gid k.lanes
    fun g a t => if t.state == .issuing then { t with state := g.freeState a } else t := by
  have h := State.modGroup_updated { s with strokes := s.strokes.filter fun x => !k.sameSlot x } k.gid k.lanes
    (fun g a t => if t.state == .issuing then { t with state := g.freeState a } else t)
    (fun g => k.lanes.foldl (fun g t => g.modThread t fun x =>
      if x.state == .issuing then { x with state := g.freeState t } else x) g)
    (fun g a t => by by_cases h : t.state = .issuing <;> simp [h, Group.freeState_ne])
    (fun g a t => by split <;> rfl)
    (fun g _ => Group.foldl_freeState _ _ _ fun _ => rfl)
  exact ⟨h.groups, h.group, h.others, h.lanes⟩

theorem State.endStroke_rest (s : State) (k : Stroke) :
    s.endStroke k = { s with groups := (s.endStroke k).groups, strokes := (s.endStroke k).strokes } := by
  simp only [State.endStroke, State.modGroup_strokes]
  exact State.modGroup_rest _ _ _

theorem State.endStepping_updated (s : State) (gid : Nat) (pc : Pc) (l : List Nat) :
    ThreadsUpdated s (s.endStepping gid pc l) gid l fun _ _ t => { t with stepping := .no } := by
  have h := State.modGroup_updated s gid l (fun _ _ t => { t with stepping := .no })
    (fun g => l.foldl (fun g t => g.modThread t fun y => { y with stepping := .no }) g)
    (fun _ _ _ => rfl) (fun _ _ _ => rfl) (fun _ _ => rfl)
  exact ⟨h.groups, h.group, h.others, h.lanes⟩

theorem State.countRetired_launches (s : State) (lid : Nat) :
    (s.countRetired lid).launches = countedLaunches lid s.launches := by
  simp only [State.countRetired, countedLaunches, mapIf, Bool.and_eq_true, decide_eq_true_eq]
  rfl

/-- The end of an instruction that every lane of a set has executed. -/
theorem Ended.of_execute {s : State} {x : Issue} (hx : s.issue = some x) (s1 : State) {ran : Thread → Bool} {count stop : Bool}
    {ends : Prop} (hcount : count = true ↔ ∃ t ∈ x.lanes, t.resumed = false) (hstop : stop = true ↔ ends) :
    let sa := if count then s1.countRetired x.group.lid else s1
    let sb := sa.endStepping x.group.gid x.pc ((x.lanes.filter fun t => ran t && t.stepping == .toRun).map Thread.gidx)
    let k : Stroke := { x.stroke with lanes := x.lanes.map Thread.gidx, count := x.stroke.count + 1 }
    Ended x ran ends s1 (if stop then sb.endStroke k else sb.putStroke k) := by
  intro sa sb k
  have hgid : k.gid = x.group.gid := (State.group_gid (State.issue_stroke hx).1).symm
  have ha : sa.groups = s1.groups ∧ sa.strokes = s1.strokes ∧ sa.steps = s1.steps ∧
      (((∃ t ∈ x.lanes, t.resumed = false) → sa.launches = countedLaunches x.group.lid s1.launches) ∧
        ((∀ t ∈ x.lanes, t.resumed = true) → sa.launches = s1.launches)) ∧
      sa = { s1 with launches := sa.launches } := by
    cases count
    · exact ⟨rfl, rfl, rfl, ⟨fun h => absurd (hcount.mpr h) (by simp), fun _ => rfl⟩, rfl⟩
    · refine ⟨rfl, rfl, rfl, ⟨fun _ => State.countRetired_launches s1 _, fun h => ?_⟩, rfl⟩
      obtain ⟨t, ht, hr⟩ := hcount.mp rfl
      exact absurd (h t ht) (by simp [hr])
  have hag : ∀ gid, sa.group gid = s1.group gid := fun gid => by unfold State.group; rw [ha.1]
  have hu := State.endStepping_updated sa x.group.gid x.pc ((x.lanes.filter fun t => ran t && t.stepping == .toRun).map Thread.gidx)
  have hmem : ∀ t ∈ x.lanes, (ran t && t.stepping == .toRun) = false → t.gidx ∉ ((x.lanes.filter fun t => ran t && t.stepping == .toRun).map Thread.gidx) := by
    intro t ht hn hm
    obtain ⟨y, hy, e⟩ := List.mem_map.mp hm
    have := State.issue_lane_unique hx (List.mem_filter.mp hy).1 ht e
    subst this
    simp [hn] at hy
  have hsub : ∀ j, (∀ t ∈ x.lanes, t.gidx ≠ j) → j ∉ ((x.lanes.filter fun t => ran t && t.stepping == .toRun).map Thread.gidx) := by
    intro j h hm
    obtain ⟨y, hy, e⟩ := List.mem_map.mp hm
    exact h y (List.mem_filter.mp hy).1 e
  have hsub2 : ∀ j, (∀ t ∈ x.lanes, t.gidx ≠ j) → j ∉ k.lanes := by
    intro j h hm
    obtain ⟨y, hy, e⟩ := List.mem_map.mp hm
    exact h y hy e
  -- the lanes after the step requests are marked
  have hlane : ∀ g, s1.group x.group.gid = some g → ∀ t ∈ x.lanes, ∀ y, g.thread t.gidx = some y →
      sb.thread x.group.gid t.gidx = some (y.endedLane (ran t && t.stepping == .toRun) y.state) := by
    intro g hg t ht y hy
    by_cases hs : (ran t && t.stepping == .toRun) = true
    · rw [hu.lanes g ((hag _).trans hg) t.gidx (List.mem_map.mpr ⟨t, List.mem_filter.mpr ⟨ht, hs⟩, rfl⟩) y hy, hs]
      rfl
    · rw [Bool.not_eq_true] at hs
      rw [hu.others _ (hmem t ht hs), hs, State.thread_group ((hag _).trans hg), hy]
      rfl
  have hsteps : sb.steps = s1.steps ++ (x.lanes.filter fun t => ran t && t.stepping == .toRun).map fun t => ⟨x.group.gid, t.gidx, some x.pc⟩ := by
    simp only [sb, State.endStepping, State.modGroup_steps, ha.2.2.1, List.map_map]
    rfl
  have hrest : sb = { s1 with groups := sb.groups, steps := sb.steps, launches := sb.launches } := by
    simp only [sb, State.endStepping]
    rw [State.modGroup_rest, ha.2.2.2.2]
  have hst : sb.strokes = s1.strokes := by
    rw [hrest]
  have hla : sb.launches = sa.launches := by
    simp only [sb, State.endStepping, State.modGroup_launches]
  cases stop with
  | true =>
    have he := State.endStroke_updated sb k
    rw [hgid] at he
    refine ⟨?_, fun h => ?_, fun h => ?_, ?_, fun gid hn => ?_, fun g hg => ?_, fun j hj => ?_,
      fun _ => ⟨?_, fun g hg t ht y hy => ?_⟩, fun h => absurd (hstop.mp rfl) h⟩
    · simp only [if_true]
      refine (State.endStroke_rest sb k).trans ?_
      rw [State.endStroke_steps, State.endStroke_launches]
      exact congrArg (fun z : State => { z with groups := (sb.endStroke k).groups, strokes := (sb.endStroke k).strokes }) hrest
    · show (sb.endStroke k).launches = _
      rw [State.endStroke_launches, hla]; exact ha.2.2.2.1.1 h
    · show (sb.endStroke k).launches = _
      rw [State.endStroke_launches, hla]; exact ha.2.2.2.1.2 h
    · show (sb.endStroke k).steps = _
      rw [State.endStroke_steps]; exact hsteps
    · exact (he.groups gid hn).trans ((hu.groups gid hn).trans (hag gid))
    · obtain ⟨t1, h1⟩ := hu.group g ((hag _).trans hg)
      obtain ⟨t2, h2⟩ := he.group _ h1
      exact ⟨t2, h2⟩
    · show (sb.endStroke k).thread _ _ = _
      rw [he.others _ (hsub2 j hj), hu.others _ (hsub j hj)]
      unfold State.thread; rw [hag]
    · show (sb.endStroke k).strokes = _
      simp only [State.endStroke, State.modGroup_strokes, hst]
      rfl
    · obtain ⟨t1, h1⟩ := hu.group g ((hag _).trans hg)
      have h2 := hlane g hg t ht y hy
      rw [State.thread_group h1] at h2
      have h3 := he.lanes _ h1 t.gidx (List.mem_map.mpr ⟨t, ht, rfl⟩) _ h2
      refine h3.trans ?_
      by_cases hi : y.state = .issuing
      · simp only [Thread.endedLane, hi]; rfl
      · have : (y.state == TState.issuing) = false := by simpa using hi
        simp only [Thread.endedLane, hi, this, if_false]; rfl
  | false =>
    refine ⟨?_, fun h => ?_, fun h => ?_, hsteps, fun gid hn => (hu.groups gid hn).trans (hag gid), fun g hg => ?_, fun j hj => ?_,
      fun h => absurd (hstop.mpr h) (by simp), fun _ => ⟨?_, hlane⟩⟩
    · simp only [Bool.false_eq_true, if_false]
      exact congrArg (fun z : State => { z with strokes := (sb.putStroke k).strokes }) hrest
    · show sb.launches = _
      rw [hla]; exact ha.2.2.2.1.1 h
    · show sb.launches = _
      rw [hla]; exact ha.2.2.2.1.2 h
    · exact hu.group g ((hag _).trans hg)
    · refine (hu.others _ (hsub j hj)).trans ?_
      unfold State.thread; rw [hag]
    · show mapIf _ _ sb.strokes = _
      rw [hst]; rfl

/-! ## A ready lane set -/

theorem State.takeTraps_nil (s : State) (g : Group) (set : List Nat) : s.takeTraps g set [] = (s, false) := rfl

/-- A lane whose operands are all full sends nothing to REGEMPTY. -/
theorem Thread.regEmpty_none {t : Thread} {sg : Sig} {v : View} (h : t.emptyOperands sg v = []) :
    t.regEmpty sg v = none := by
  unfold Thread.regEmpty
  refine (congrArg (namedRegister v) (List.filter_eq_nil_iff.mpr ?_)).trans rfl
  intro r hr
  rw [List.mem_flatMap] at hr
  obtain ⟨f, hf, hr⟩ := hr
  unfold Thread.emptyOperands at h
  rw [List.filter_eq_nil_iff] at h
  apply h r
  unfold Sig.operands
  rw [List.mem_append, List.mem_flatMap]
  refine .inl ⟨f, hf, ?_⟩
  split at hr
  · exact hr
  · cases hr

/-- A lane of a ready set traps nowhere before its own execution. -/
theorem Ready.laneTrap {s : State} {i : Instr} {x : Issue} {v : View} (h : Ready s i x v) {t : Thread} (ht : t ∈ x.lanes) :
    t.sentEmpty i v = none ∧ x.laneTrap i v t = none := by
  have h1 : t.sentEmpty i v = none := by
    unfold Thread.sentEmpty
    split
    · next ha => exact Thread.regEmpty_none (h.full t ht ha)
    · rfl
  exact ⟨h1, by simp [Issue.laneTrap, h1, h.errors t ht]⟩

theorem Thread.foldl_setReg_gidx {α : Type} (l : List α) (r : α → Nat) (w : α → Word) (t : Thread) :
    (l.foldl (fun t a => t.setReg (r a) (w a)) t).gidx = t.gidx := by
  induction l generalizing t with
  | nil => rfl
  | cons a l ih => rw [List.foldl_cons, ih]; rfl

theorem Issue.inactive_gidx (x : Issue) (i : Instr) (v : View) (t : Thread) : (x.inactive i v t).gidx = t.gidx := by
  unfold Issue.inactive Thread.inactive
  split
  · simp only [Thread.foldl_setReg_gidx]
  · rfl

/-- The threads of a set written as their plans say, and the group's overrun flag. -/
def Issue.written (x : Issue) (s : State) (o : Bool) (h : Thread → Thread) : State :=
  s.modGroup x.group.gid fun g => x.lanes.foldl (fun g t => g.putThread t.gidx (h t)) (g.setOverrun o)

theorem Group.setOverrun_rest (g : Group) (o : Bool) :
    (g.setOverrun o).threads = g.threads ∧ (g.setOverrun o).gid = g.gid ∧ ∀ k, (g.setOverrun o).thread k = g.thread k := by
  cases o <;> exact ⟨rfl, rfl, fun _ => rfl⟩

theorem Group.with_gid {F G : Group} {gid : Nat} (h : F = { G with threads := F.threads }) (e : G.gid = gid) :
    { F with gid := gid } = { G with threads := F.threads } := by
  subst e; exact congrArg (fun z : Group => { z with gid := G.gid }) h

theorem Issue.written_lanes {s : State} {x : Issue} (hx : s.issue = some x) (o : Bool) (h : Thread → Thread)
    (hh : ∀ t ∈ x.lanes, (h t).gidx = t.gidx) : LanesWritten s x h o (x.written s o h) := by
  have hg := State.issue_group hx
  obtain ⟨ho1, ho2, ho3⟩ := Group.setOverrun_rest x.group o
  have hrest : ∀ g : Group, x.lanes.foldl (fun g t => g.putThread t.gidx (h t)) g
      = { g with threads := (x.lanes.foldl (fun g t => g.putThread t.gidx (h t)) g).threads } :=
    Group.foldl_rest _ _ fun g t => rfl
  have hs := State.group_modGroup_same hg
    fun g => x.lanes.foldl (fun g t => g.putThread t.gidx (h t)) (g.setOverrun o)
  refine ⟨State.modGroup_rest _ _ _, fun gid hn => State.group_modGroup_other s _ gid _ hn, ?_, fun t ht => ?_, fun k hk => ?_⟩
  · exact ⟨_, hs.trans (congrArg some (Group.with_gid (hrest (x.group.setOverrun o)) ho2))⟩
  · rw [Issue.written, State.thread_group hs]
    have := Group.foldl_putThread_same x.lanes Thread.gidx h (x.group.setOverrun o) t ht fun y hy e => by
      rw [State.issue_lane_unique hx hy ht e]
    refine this.trans ?_
    rw [← hh t ht]
  · rw [Issue.written, State.thread_group hs, State.thread_group hg, ← ho3 k]
    exact Group.foldl_putThread_other x.lanes Thread.gidx h (x.group.setOverrun o) k hk

theorem filterMap_none {α β : Type} (l : List α) (f : α → Option β) (h : ∀ a ∈ l, f a = none) : l.filterMap f = [] := by
  rw [List.filterMap_eq_nil_iff]; exact h

/-- A ready set has no mask register in error. -/
theorem Ready.maskError {s : State} {i : Instr} {x : Issue} {v : View} (h : Ready s i x v) {t : Thread} (ht : t ∈ x.lanes) :
    t.maskError v = false := by
  have he := h.errors t ht
  unfold Issue.errorRead at he
  split at he
  · exact absurd he (by simp)
  · next hn => simpa using hn

/-- Check 7 where no lane traps: the active lanes that `held` names are held, and the others complete. -/
theorem State.execute_runs {s : State} {x : Issue} {i : Instr} {v : View} (hx : s.issue = some x)
    {plan : Thread → Plan} (held : Thread → Bool) (f : Thread → Thread) (tgt : Thread → Option Pc)
    (after : List Thread → State → State) (ends : Bool) (hmask : ∀ t ∈ x.lanes, t.maskError v = false)
    (hplan : ∀ t ∈ x.lanes, laneActive v.tail.modifier t = true → held t = false → plan t = .go (f t) (tgt t))
    (hhold : ∀ t ∈ x.lanes, laneActive v.tail.modifier t = true → held t = true →
      ∃ y h, plan t = .hold y h ∧ f t = { y with state := .waiting h })
    (hgo : ∀ t ∈ x.lanes, (f t).gidx = t.gidx) (hends : ends = endsStroke i) :
    ∃ s1, LanesWritten s x (x.laneEnd i v held f tgt) (x.overrun i v) s1 ∧
      Ended x (x.ran v held) (x.strokeEnds i v held tgt) (after ((x.active v).filter fun t => !held t) s1)
        (s.execute x i v x.lanes plan after ends) := by
  have hl : ∀ t ∈ x.lanes, (x.laneEnd i v held f tgt t).gidx = t.gidx := by
    intro t _; unfold Issue.laneEnd; split
    · unfold Issue.laneAfter; split <;> rfl
    · rfl
  refine ⟨x.written s (x.overrun i v) (x.laneEnd i v held f tgt), Issue.written_lanes hx _ _ hl, ?_⟩
  -- every lane's plan goes on or holds it
  let go := fun (t : Thread) => if laneActive v.tail.modifier t = true then plan t else .go (x.inactive i v t) none
  have hgoes : ∀ t ∈ x.lanes, (go t).trapInfo = none ∧ (go t).goes = x.ran v held t ∧
      ((go t).ends = true ↔ laneActive v.tail.modifier t = true ∧ (held t = true ∨ (tgt t).isSome = true)) ∧
      ∀ g : Group, g.putThread t.gidx ((go t).commit (v.next x.pc) t) = g.putThread t.gidx (x.laneEnd i v held f tgt t) := by
    intro t ht
    by_cases ha : laneActive v.tail.modifier t = true
    · cases hh : held t with
      | true =>
        obtain ⟨y, h, h1, h2⟩ := hhold t ht ha hh
        refine ⟨?_, ?_, ?_, fun g => ?_⟩ <;>
          simp [go, ha, hh, h1, Plan.trapInfo, Plan.goes, Plan.ends, Plan.commit, Issue.ran, Issue.laneEnd, h2]
        have hy := hgo t ht
        rw [h2] at hy
        rw [← hy]
      | false =>
        refine ⟨?_, ?_, ?_, fun g => ?_⟩ <;>
          simp [go, ha, hh, hplan t ht ha hh, Plan.trapInfo, Plan.goes, Plan.ends, Plan.commit, Issue.ran, Issue.laneEnd, Issue.laneAfter]
        rw [← hgo t ht]
    · refine ⟨?_, ?_, ?_, fun g => ?_⟩ <;>
        simp [go, ha, Plan.trapInfo, Plan.goes, Plan.ends, Plan.commit, Issue.ran, Issue.laneEnd, Issue.laneAfter]
      rw [← x.inactive_gidx i v t]
  have hp : (x.lanes.map fun t => (t, if laneActive v.tail.modifier t || t.maskError v then plan t else .go (x.inactive i v t) none))
      = x.lanes.map fun t => (t, go t) := by
    apply List.map_congr_left
    intro t ht
    simp [go, hmask t ht]
  have htr : (x.lanes.map fun t => (t, go t)).filterMap (fun p => p.2.trapInfo.map fun i => (p.1.gidx, i)) = [] := by
    rw [List.filterMap_eq_nil_iff]
    intro p hp
    obtain ⟨t, ht, rfl⟩ := List.mem_map.mp hp
    simp [(hgoes t ht).1]
  have hwrite : (s.modGroup x.group.gid fun g => (x.lanes.map fun t => (t, go t)).foldl
        (fun g p => g.putThread p.1.gidx (p.2.commit (v.next x.pc) p.1)) (g.setOverrun (x.overrun i v)))
      = x.written s (x.overrun i v) (x.laneEnd i v held f tgt) := by
    unfold Issue.written
    congr 1
    funext g
    rw [List.foldl_map]
    generalize g.setOverrun (x.overrun i v) = g
    have : ∀ (l : List Thread) (g : Group), (∀ t ∈ l, t ∈ x.lanes) →
        l.foldl (fun g t => g.putThread t.gidx ((go t).commit (v.next x.pc) t)) g
        = l.foldl (fun g t => g.putThread t.gidx (x.laneEnd i v held f tgt t)) g := by
      intro l
      induction l with
      | nil => intros; rfl
      | cons a l ih =>
        intro g hm
        rw [List.foldl_cons, List.foldl_cons, ih _ fun t ht => hm t (List.mem_cons_of_mem _ ht),
          (hgoes a (hm a (by simp))).2.2.2 g]
    exact this x.lanes g fun t ht => ht
  have hwent : ((x.lanes.map fun t => (t, go t)).filter (fun p => p.2.goes && laneActive v.tail.modifier p.1)).map Prod.fst
      = (x.active v).filter fun t => !held t := by
    unfold Issue.active
    rw [List.filter_map, List.map_map, List.filter_filter]
    have : ∀ l : List Thread, l.map (Prod.fst ∘ fun t => (t, go t)) = l := by
      intro l; induction l with
      | nil => rfl
      | cons a l ih => rw [List.map_cons, ih]; rfl
    rw [this]
    apply List.filter_congr
    intro t ht
    cases ha : laneActive v.tail.modifier t <;> simp [ha, (hgoes t ht).2.1, Issue.ran]
  have hstepped : ((x.lanes.map fun t => (t, go t)).filter (fun p => p.2.goes && p.1.stepping == .toRun)).map (fun p => p.1.gidx)
      = (x.lanes.filter fun t => x.ran v held t && t.stepping == .toRun).map Thread.gidx := by
    rw [List.filter_map, List.map_map]
    have : (x.lanes.filter ((fun p : Thread × Plan => p.2.goes && p.1.stepping == .toRun) ∘ fun t => (t, go t)))
        = x.lanes.filter fun t => x.ran v held t && t.stepping == .toRun := by
      apply List.filter_congr
      intro t ht
      simp [(hgoes t ht).2.1]
    rw [this]
    rfl
  have hlanes : (x.lanes.map fun t => (t, go t)).map (fun p => p.1.gidx) = x.lanes.map Thread.gidx := by
    rw [List.map_map]; rfl
  unfold State.execute
  simp only [hp, htr, List.any_nil, Bool.not_false, List.filter_eq_self.mpr (fun _ _ => rfl), hwrite, hwent, State.takeTraps_nil,
    bne_self_eq_false, Bool.and_false, Bool.false_and, Bool.false_eq_true, if_false, hstepped, hlanes]
  have hlevee : ∀ s : State, s.haltLevees x.lanes [] = s := by
    intro s
    have : x.lanes.filterMap (fun t => (([] : List (Nat × TrapInfo)).find? fun p => p.1 = t.gidx && p.2.cause == .levee).map
        fun p => (t.ctxid.toNat, p.2)) = [] := filterMap_none _ _ fun _ _ => rfl
    unfold State.haltLevees
    rw [this]
    rfl
  rw [hlevee]
  refine Ended.of_execute hx (after _ _) ?_ ?_
  · simp [List.any_map]
  · have hne : x.lanes ≠ [] := (State.issue_stroke hx).2.2
    simp only [Issue.strokeEnds, Issue.active, hends, Bool.or_eq_true, decide_eq_true_eq, List.any_map, List.any_eq_true,
      List.map_eq_nil_iff, hne, bne_iff_ne, ne_eq, List.filter_eq_nil_iff, List.mem_filter]
    have hends2 : (∃ t, t ∈ x.lanes ∧ ((fun p : Thread × Plan => p.2.ends) ∘ fun t => (t, go t)) t = true) ↔
        ∃ t, (t ∈ x.lanes ∧ laneActive v.tail.modifier t = true) ∧ (held t = true ∨ (tgt t).isSome = true) := by
      refine exists_congr fun t => ⟨fun h => ?_, fun h => ?_⟩
      · have := (hgoes t h.1).2.2.1.mp h.2
        exact ⟨⟨h.1, this.1⟩, this.2⟩
      · exact ⟨h.1.1, (hgoes t h.1.1).2.2.1.mpr ⟨h.1.2, h.2⟩⟩
    have hstep : (¬∀ t, t ∈ x.lanes → ¬(x.ran v held t && t.stepping == .toRun) = true) ↔
        ∃ t, t ∈ x.lanes ∧ x.ran v held t = true ∧ (t.stepping == .toRun) = true :=
      ⟨fun h => Classical.byContradiction fun hn => h fun t ht hs => hn ⟨t, ht, (Bool.and_eq_true _ _).mp hs⟩,
        fun ⟨t, ht, hs⟩ h => h t ht ((Bool.and_eq_true _ _).mpr hs)⟩
    simp only [hends2, hstep, or_false, or_assoc]

/-- THE LAW OF A READY SET (Table 3-12): where no active lane's own execution traps and none needs room, each completes or is held, and
the whole instruction goes as `RunsWith` says. -/
theorem State.runSetRoom_runs {s : State} {x : Issue} {i : Instr} {v : View} (hr : Ready s i x v)
    {room : Thread → Option Hold} {plan : Thread → Plan} (held : Thread → Bool) (f : Thread → Thread) (tgt : Thread → Option Pc)
    (after : List Thread → State → State) (ends : Bool)
    (hroom : ∀ t ∈ x.lanes, laneActive v.tail.modifier t = true → room t = none)
    (hplan : ∀ t ∈ x.lanes, laneActive v.tail.modifier t = true → held t = false → plan t = .go (f t) (tgt t))
    (hhold : ∀ t ∈ x.lanes, laneActive v.tail.modifier t = true → held t = true →
      ∃ y h, plan t = .hold y h ∧ f t = { y with state := .waiting h })
    (hgo : ∀ t ∈ x.lanes, (f t).gidx = t.gidx) (hends : ends = endsStroke i) :
    ∃ s1, LanesWritten s x (x.laneEnd i v held f tgt) (x.overrun i v) s1 ∧
      Ended x (x.ran v held) (x.strokeEnds i v held tgt) (after ((x.active v).filter fun t => !held t) s1)
        (s.runSetRoom x i v room plan after ends) := by
  have h1 : (if x.group.control.isSome = true then x.lanes.head?.bind Thread.trapped else none) = none := by
    split
    · next h => exact hr.running h
    · rfl
  have h2 : x.maskNeeds v = [] := by
    unfold Issue.maskNeeds
    simp only
    split
    · next h =>
      rw [List.map_eq_nil_iff, List.filter_eq_nil_iff]
      intro t ht
      simp [hr.mask h t ht]
    · rfl
  have h3 : (x.lanes.filter fun t => (t.sentEmpty i v).isNone) = x.lanes :=
    List.filter_eq_self.mpr fun t ht => by simp [(hr.laneTrap ht).1]
  have h4 : x.operandNeeds i v = [] := by
    unfold Issue.operandNeeds
    rw [h3, List.flatMap_eq_nil_iff]
    intro t ht
    by_cases ha : laneActive v.tail.modifier t = true
    · simp [ha, hr.full t ht ha]
    · simp [ha]
  have h5 : (x.lanes.filterMap fun t => if laneActive v.tail.modifier t = true then room t else none) = [] := by
    rw [List.filterMap_eq_nil_iff]
    intro t ht
    by_cases ha : laneActive v.tail.modifier t = true
    · simp [ha, hroom t ht ha]
    · simp [ha]
  have h6 : s.runSetRoom x i v room plan after ends = s.execute x i v x.lanes (fun t => match x.laneTrap i v t with
      | some e => .trap e
      | none => plan t) after ends := by
    unfold State.runSetRoom
    simp only [h1, hr.checks, Option.or_none]
    unfold State.operandCheck
    simp only [h2, h3, h4, h5, bne_self_eq_false, Bool.false_eq_true, if_false, List.head?_nil]
    all_goals rfl
  rw [h6]
  exact State.execute_runs hr.issue held f tgt after ends (fun _ ht => hr.maskError ht)
    (fun t ht ha hh => by simp only [(hr.laneTrap ht).2]; exact hplan t ht ha hh)
    (fun t ht ha hh => by simp only [(hr.laneTrap ht).2]; exact hhold t ht ha hh) hgo hends

/-- What an instruction does whose meaning runs it in the lane set. -/
theorem runsWith_of_run {s : State} {x : Issue} {i : Instr} {v : View} (hr : Ready s i x v)
    {room : Thread → Option Hold} {plan : Thread → Plan} {held : Thread → Bool} {f : Thread → Thread} {tgt : Thread → Option Pc}
    {after : List Thread → State → State} {ends : Bool} {g : Issue → View → State}
    (he : exec i s = s.run i g) (hg : g x v = s.runSetRoom x i v room plan after ends)
    (hroom : ∀ t ∈ x.lanes, laneActive v.tail.modifier t = true → room t = none)
    (hplan : ∀ t ∈ x.lanes, laneActive v.tail.modifier t = true → held t = false → plan t = .go (f t) (tgt t))
    (hhold : ∀ t ∈ x.lanes, laneActive v.tail.modifier t = true → held t = true →
      ∃ y h, plan t = .hold y h ∧ f t = { y with state := .waiting h })
    (hgo : ∀ t ∈ x.lanes, (f t).gidx = t.gidx) (hends : ends = endsStroke i) :
    RunsWith s i x v held f tgt (after ((x.active v).filter fun t => !held t)) := by
  obtain ⟨s1, h1, h2⟩ := State.runSetRoom_runs hr (room := room) (plan := plan) held f tgt after ends hroom hplan hhold hgo hends
  refine ⟨s1, _, ?_, h1, h2⟩
  rw [he, State.run, hr.issue, hr.view]
  exact congrArg _ hg

/-- The completion of an instruction whose meaning runs it in the lane set. -/
theorem completesWith_of_run {s : State} {x : Issue} {i : Instr} {v : View} (hr : Ready s i x v)
    {room : Thread → Option Hold} {plan : Thread → Plan} {f : Thread → Thread} {tgt : Thread → Option Pc}
    {after : List Thread → State → State} {ends : Bool} {g : Issue → View → State}
    (he : exec i s = s.run i g) (hg : g x v = s.runSetRoom x i v room plan after ends)
    (hroom : ∀ t ∈ x.lanes, laneActive v.tail.modifier t = true → room t = none)
    (hplan : ∀ t ∈ x.lanes, laneActive v.tail.modifier t = true → plan t = .go (f t) (tgt t))
    (hgo : ∀ t ∈ x.lanes, (f t).gidx = t.gidx) (hends : ends = endsStroke i) :
    CompletesWith s i x v f tgt (after (x.active v)) := by
  have h := runsWith_of_run hr (held := fun _ => false) he hg hroom (fun t ht ha _ => hplan t ht ha)
    (fun t ht ha hh => absurd hh (by simp)) hgo hends
  have e : ((x.active v).filter fun t => !false) = x.active v := List.filter_eq_self.mpr fun _ _ => rfl
  rwa [e] at h

/-- What an instruction answers whose meaning runs it in the lane set. -/
theorem exec_of_run {s : State} {x : Issue} {i : Instr} {v : View} (hx : s.issue = some x) (hv : i.view = some v)
    {room : Thread → Option Hold} {plan : Thread → Plan} {after : List Thread → State → State} {ends : Bool} {g : Issue → View → State}
    (he : exec i s = s.run i g) (hg : g x v = s.runSetRoom x i v room plan after ends) :
    exec i s = .next (s.runSetRoom x i v room plan after ends) := by
  rw [he, State.run, hx, hv]; exact congrArg _ hg

/-- What `sync` and `shfl` answer. -/
theorem exec_of_exchange {s : State} {x : Issue} {i : Instr} {v : View} (hx : s.issue = some x) (hv : i.view = some v)
    {sh : Bool} {party : Thread → Party} {g : Issue → View → State}
    (he : exec i s = s.run i g) (hg : g x v = s.exchange x i v sh party) :
    exec i s = .next (s.exchange x i v sh party) := by
  rw [he, State.run, hx, hv]; exact congrArg _ hg

/-- THE TWO WAYS OF AN ENCODED INSTRUCTION: it runs in the lane set from check 2 on (Table 3-12), or it is an exchange, which looks at its
warp first (R43). -/
theorem exec_cases {i : Instr} {s : State} {x : Issue} {v : View} (hx : s.issue = some x) (hv : i.view = some v) :
    (∃ room plan after ends, exec i s = .next (s.runSetRoom x i v room plan after ends)) ∨
    ∃ shuffle party, exec i s = .next (s.exchange x i v shuffle party) := by
  cases i
  case sync o => exact .inr ⟨_, _, exec_of_exchange hx hv rfl rfl⟩
  case shfl o => exact .inr ⟨_, _, exec_of_exchange hx hv rfl rfl⟩
  all_goals first
    | exact .inl ⟨_, _, _, _, exec_of_run hx hv rfl rfl⟩
    | exact absurd hv (by simp [Instr.view])

/-- The completion of an instruction that writes one word. -/
theorem writesWord_of_exec {i : Instr} {r : Modifier → Word → Word → Word → Word}
    (h : ∀ s, exec i s = s.runWord i r) (he : endsStroke i = false) : WritesWord i r := by
  intro s x v hr
  exact completesWith_of_run hr (room := fun _ => none) (after := fun _ s => s) (h s) rfl (fun _ _ _ => rfl)
    (fun _ _ _ => rfl) (fun _ _ => rfl) he.symm

/-- The completion of an instruction that writes one pair. -/
theorem writesPair_of_exec {i : Instr} {r : View → Thread → Dword} (h : ∀ s, exec i s = s.runPair i r)
    (he : endsStroke i = false) : WritesPair i r := by
  intro s x v hr
  exact completesWith_of_run hr (room := fun _ => none) (after := fun _ s => s) (h s) rfl (fun _ _ _ => rfl)
    (fun _ _ _ => rfl) (fun _ _ => rfl) he.symm

end Sys2Proof.Machine
end

