-- ==== Sys2Proof/Laws/Access.lean ====
section
/-!
SUPPORT. What the shared operations of memory instructions can do: the touched-dies masks, the notes that an access leaves, and
the completion of loads and stores.
-/
namespace Sys2Proof.Machine

open Sys2Proof

/-! ## The touched-dies masks -/

/-- A table-region write leaves every byte outside the written range of every replica as it was. -/
theorem State.writeTables_outside (s : State) (off k : Nat) (bs : List Byte)
    (h : ∀ die ∈ tableCopies off, k < storageKey die off ∨ storageKey die off + bs.length ≤ k) :
    (s.writeTables off bs).mem.read k = s.mem.read k := by
  have go : ∀ (l : List Nat) (m : Memory), (∀ d ∈ l, d ∈ tableCopies off) →
      (l.foldl (fun m d => m.writeN (storageKey d off) bs) m).read k = m.read k := by
    intro l
    induction l with
    | nil => intros; rfl
    | cons d l ih =>
      intro m hl
      rw [List.foldl_cons, ih _ fun e he => hl e (List.mem_cons_of_mem _ he)]
      exact Memory.read_writeN_outside m _ k bs (h d (hl d List.mem_cons_self))
  exact go _ s.mem fun _ hd => hd

/-- Recording a touched die changes nothing but memory. -/
theorem State.touch_rest (s : State) (ctx die : Nat) : s.touch ctx die = { s with mem := (s.touch ctx die).mem } := by
  unfold State.touch
  split
  · simp only [State.writeTables]
  · rfl

/-- Recording a touched die changes no byte of memory outside the masks. -/
theorem State.touch_memory (s : State) (ctx die : Nat) : MemoryKept s (s.touch ctx die) := by
  intro k hk
  unfold State.touch
  split
  · next h =>
    have hc : ctx < 4096 := by simp at h; exact h.1
    refine State.writeTables_outside s _ k _ fun d hd => ?_
    have hm : inMonitorTables (maskOffset ctx) = false := by
      unfold inMonitorTables maskOffset; simp; omega
    have hd : d < 32 := by simpa [tableCopies, hm] using hd
    rw [bytesOfNat_length]
    refine Classical.byContradiction fun hn => hk ⟨d, k - storageKey d 0x10000, hd, ?_, ?_⟩ <;>
      (unfold storageKey maskOffset Memory.homeBase at *; omega)
  · rfl

/-- A run of notes changes memory in the masks only. -/
theorem MemoryKept.trans {a b c : State} (h : MemoryKept a b) (k : MemoryKept b c) : MemoryKept a c :=
  fun x hx => (k x hx).trans (h x hx)

/-- Counting a home access leaves memory alone. -/
theorem State.countHome_mem (s : State) (die home : Nat) : (s.countHome die home).mem = s.mem := by
  unfold State.countHome State.modDie; split <;> rfl

/-- What lanes' accesses leave behind changes memory in the masks only. -/
theorem State.noteAccess_memory (s : State) (g : Group) (space : Space) (ls : List (Thread × Except TrapInfo Loc)) :
    MemoryKept s (s.noteAccess g space ls) := by
  unfold State.noteAccess
  induction ls generalizing s with
  | nil => exact fun _ _ => rfl
  | cons p ls ih =>
    rw [List.foldl_cons]
    refine MemoryKept.trans ?_ (ih _)
    rcases p with ⟨t, _ | l⟩
    · exact fun _ _ => rfl
    · cases space
      · exact fun k hk => by
          show ((s.touch t.ctxid.toNat l.home).countHome g.place.die l.home).mem.read k = _
          rw [State.countHome_mem]; exact State.touch_memory s _ _ k hk
      · exact fun _ _ => rfl
      · exact State.touch_memory s _ _

/-- The memory after a completion is what `after` made of the memory before. -/
theorem CompletesWith.memoryKept {s : State} {i : Instr} {x : Issue} {v : View} {f : Thread → Thread}
    {tgt : Thread → Option Pc} {after : State → State} (h : CompletesWith s i x v f tgt after)
    (ha : ∀ s1, MemoryKept s1 (after s1)) : ∀ T, exec i s = .next T → MemoryKept s T := by
  intro T hT
  obtain ⟨s1, T', h1, h2, h3⟩ := h
  rw [h1] at hT
  cases hT
  have e1 : s1.mem = s.mem := by rw [h2.rest]
  have e2 : T.mem = (after s1).mem := by rw [h3.rest]
  intro k hk
  have := ha s1 k hk
  rw [e2, this, e1]

/-! ## Loads and stores -/

/-- The lanes that complete, with the locations that their checks gave. -/
theorem map_access_ok {ls : List Thread} {acc : Thread → Except TrapInfo Loc} {l : Thread → Loc}
    (h : ∀ t ∈ ls, acc t = .ok (l t)) : (ls.map fun t => (t, acc t)) = ls.map fun t => (t, .ok (l t)) :=
  List.map_congr_left fun t ht => by rw [h t ht]

/-- A thread that marks registers keeps its place. -/
theorem Thread.markN_rest (t : Thread) (r n : Nat) (c : Fe) : t.markN r n c = { t with fe := (t.markN r n c).fe } := by
  unfold Thread.markN
  have go : ∀ (l : List Nat) (t : Thread), ∃ fe, l.foldl (fun t i => t.mark (r + i) c) t = { t with fe := fe } := by
    intro l
    induction l with
    | nil => exact fun t => ⟨t.fe, rfl⟩
    | cons i l ih => exact fun t => by rw [List.foldl_cons]; exact ih _
  obtain ⟨fe, h⟩ := go (List.range n) t
  rw [h]

/-- A load that has issued has changed its destination's codes, its operations and its acquires, and nothing else. -/
theorem Thread.issueLoad_rest (t : Thread) (id : Nat) (space : Space) (l : Loc) (n d : Nat) (dev : Bool) (acq : Option Scope) :
    t.issueLoad id space l n d dev acq =
      { t with
          fe := (t.markN d (accessRegisters n) .load).fe
          ops := t.ops ++ [{ id := id, cls := some .load, kind := .load space l n d dev acq none, done := false,
                             cancelled := [] }]
          acquires := t.acquires ++ acq.toList.map fun sc => (id, sc) } := by
  have h := Thread.markN_rest t d (accessRegisters n) .load
  generalize hm : (t.markN d (accessRegisters n) .load).fe = fe at h ⊢
  unfold Thread.issueLoad
  simp only [show (if n = 8 then 2 else if n = 16 then 4 else 1) = accessRegisters n from rfl, h]
  cases acq <;> rfl

/-- The completion of an instruction that issues a load in each active lane. -/
theorem loadIssues_of_run {i : Instr} {space : Space} {n : View → Nat} {dev : View → Bool} {acq : View → Option Scope}
    (he : endsStroke i = false) (h : ∀ s, exec i s = s.run i fun x v =>
      s.runSetRoom x i v (fun t => t.classRoom .load)
        (fun t => match s.access x.group t v space (n v) .read with
          | .error e => .trap e
          | .ok l => .go (t.issueLoad s.next.op space l (n v) v.d.toNat (dev v) (acq v)) none)
        (fun went s' =>
          (s'.noteAccess x.group space (went.map fun t => (t, s.access x.group t v space (n v) .read))).takePlaces 1)
        false) : LoadIssues i space n dev acq := by
  intro s x v l hr ha
  have hx : ∀ t ∈ x.lanes, laneActive v.tail.modifier t = true → t ∈ x.active v :=
    fun t ht hl => List.mem_filter.mpr ⟨ht, hl⟩
  have key := completesWith_of_run hr (f := fun t => t.issueLoad s.next.op space (l t) (n v) v.d.toNat (dev v) (acq v))
    (tgt := fun _ => none) (h s) rfl
    (fun t ht hl => by
      unfold Thread.classRoom
      exact if_neg (by have := (ha t (hx t ht hl)).1; simp [OpClass.limit]; omega))
    (fun t ht hl => by
      show (match s.access x.group t v space (n v) .read with
        | .error e => _
        | .ok l => _) = _
      rw [(ha t (hx t ht hl)).2])
    (fun t ht => by rw [Thread.issueLoad_rest]) he.symm
  rw [map_access_ok fun t ht => (ha t ht).2] at key
  simp only [Thread.issueLoad_rest] at key
  exact ⟨key, key.memoryKept fun s1 => State.noteAccess_memory s1 _ _ _⟩

/-- The completion of an instruction that places entries in each active lane's store buffer. -/
theorem storeIssues_of_run {i : Instr} {space : Space} {n : View → Nat} {room : View → Nat}
    {new : State → View → Thread → Loc → List SbEntry}
    (he : endsStroke i = false) (h : ∀ s, exec i s = s.run i fun x v =>
      s.runSetRoom x i v (fun t => t.bufferRoom (room v))
        (fun t => match s.access x.group t v space (n v) .write with
          | .error e => .trap e
          | .ok l => .go { t with sb := t.sb ++ new s v t l } none)
        (fun went s' =>
          (s'.noteAccess x.group space (went.map fun t => (t, s.access x.group t v space (n v) .write))).takePlaces 2)
        false) : StoreIssues i space n room new := by
  intro s x v l hr ha
  have hx : ∀ t ∈ x.lanes, laneActive v.tail.modifier t = true → t ∈ x.active v :=
    fun t ht hl => List.mem_filter.mpr ⟨ht, hl⟩
  have key := completesWith_of_run hr (f := fun t => { t with sb := t.sb ++ new s v t (l t) })
    (tgt := fun _ => none) (h s) rfl
    (fun t ht hl => by
      unfold Thread.bufferRoom
      exact if_neg (by have := (ha t (hx t ht hl)).1; omega))
    (fun t ht hl => by
      show (match s.access x.group t v space (n v) .write with
        | .error e => _
        | .ok l => _) = _
      rw [(ha t (hx t ht hl)).2])
    (fun t ht => rfl) he.symm
  rw [map_access_ok fun t ht => (ha t ht).2] at key
  exact ⟨key, key.memoryKept fun s1 => State.noteAccess_memory s1 _ _ _⟩

end Sys2Proof.Machine
end

