-- ==== Sys2Proof/Laws/Codec.lean ====
section
/-!
SUPPORT. What cutting an instruction's words into fields and joining them again gives (Tables 3-6, 3-7 and 3-9).
-/
namespace Sys2Proof

/-- A bit vector cut in two and joined is itself. -/
theorem append_extractLsb' {n m : Nat} (w : BitVec (n + m)) : w.extractLsb' m n ++ w.extractLsb' 0 m = w := by
  ext i hi
  simp only [BitVec.getElem_append, BitVec.getElem_extractLsb']
  split
  · simp
    exact (BitVec.getElem_eq_testBit_toNat w i hi).symm ▸ rfl
  · rw [Nat.add_sub_cancel' (by omega)]
    exact (BitVec.getLsbD_eq_getElem hi)

/-- Two neighbouring fields joined are the field that spans them. -/
theorem extractLsb'_append_extractLsb' {w : Nat} (x : BitVec w) (s n m : Nat) :
    x.extractLsb' (s + m) n ++ x.extractLsb' s m = x.extractLsb' s (n + m) := by
  ext i hi
  simp only [BitVec.getElem_append, BitVec.getElem_extractLsb']
  split
  · rfl
  · rw [Nat.add_assoc, Nat.add_sub_cancel' (by omega)]

/-- A single bit is the field of width 1. -/
theorem ofBool_getLsbD {w : Nat} (x : BitVec w) (s : Nat) : BitVec.ofBool (x.getLsbD s) = x.extractLsb' s 1 := by
  ext i hi
  have : i = 0 := by omega
  subst this
  simp [BitVec.getElem_extractLsb']

/-- A modifier's fields, joined and cut again (Table 3-9). -/
@[simp] theorem decodeModifier_encodeModifier (m : Modifier) : decodeModifier (encodeModifier m) = m := by
  obtain ⟨z, sc, x, sat, tec, teb, tea, rm, zm, me, mm, c⟩ := m
  simp only [decodeModifier, encodeModifier, Modifier.mk.injEq]
  refine ⟨?_, ?_, ?_, ?_, ?_, ?_, ?_, ?_, ?_, ?_, ?_, ?_⟩
  all_goals
    repeat first
      | (rw [BitVec.extractLsb'_append_eq_of_le]; rotate_left; decide)
      | (rw [BitVec.extractLsb'_append_eq_of_add_le]; rotate_left; decide)
      | (rw [BitVec.getLsbD_append, if_neg (by decide)])
      | (rw [BitVec.getLsbD_append, if_pos (by decide)])
    first
      | exact BitVec.extractLsb'_eq_self
      | simp

/-- A modifier word cut and joined (Table 3-9). -/
@[simp] theorem encodeModifier_decodeModifier (w : Word) : encodeModifier (decodeModifier w) = w := by
  simp only [encodeModifier, decodeModifier, ofBool_getLsbD]
  rw [extractLsb'_append_extractLsb' w 26 4 2, extractLsb'_append_extractLsb' w 23 6 3,
    extractLsb'_append_extractLsb' w 22 9 1, extractLsb'_append_extractLsb' w 21 10 1,
    extractLsb'_append_extractLsb' w 20 11 1, extractLsb'_append_extractLsb' w 19 12 1,
    extractLsb'_append_extractLsb' w 16 13 3, extractLsb'_append_extractLsb' w 15 16 1,
    extractLsb'_append_extractLsb' w 14 17 1, extractLsb'_append_extractLsb' w 7 18 7,
    extractLsb'_append_extractLsb' w 0 25 7]
  exact BitVec.extractLsb'_eq_self

/-- The base word's fields (Table 3-7). -/
theorem View.base_fields (hi : BitVec 21) (op : Byte) (s : Bool) (c : BitVec 2) :
    let w : Word := hi ++ op ++ BitVec.ofBool s ++ c
    w.extractLsb' 0 2 = c ∧ w.getLsbD 2 = s ∧ w.extractLsb' 3 8 = op ∧ w.extractLsb' 11 21 = hi := by
  refine ⟨?_, ?_, ?_, ?_⟩
  all_goals
    repeat first
      | (rw [BitVec.extractLsb'_append_eq_of_le]; rotate_left; decide)
      | (rw [BitVec.extractLsb'_append_eq_of_add_le]; rotate_left; decide)
      | (rw [BitVec.getLsbD_append, if_neg (by decide)])
      | (rw [BitVec.getLsbD_append, if_pos (by decide)])
    first
      | exact BitVec.extractLsb'_eq_self
      | simp

/-- A base word is its fields joined (Table 3-7). -/
theorem View.base_join (w : Word) :
    w.extractLsb' 11 21 ++ w.extractLsb' 3 8 ++ BitVec.ofBool (w.getLsbD 2) ++ w.extractLsb' 0 2 = w := by
  rw [ofBool_getLsbD, extractLsb'_append_extractLsb' w 3 21 8, extractLsb'_append_extractLsb' w 2 29 1,
    extractLsb'_append_extractLsb' w 0 30 2]
  exact BitVec.extractLsb'_eq_self

/-- What follows the base word is read back from its own words (Table 3-6). -/
@[simp] theorem decodeTail_encode (t : Tail) (rest : List Word) : decodeTail t.code (t.encode ++ rest) = .ok (t, rest) := by
  cases t with
  | none => rfl
  | mod m => simp [Tail.code, Tail.encode, decodeTail]
  | modLit m l => simp [Tail.code, Tail.encode, decodeTail]
  | lit l =>
    have h : l.extractLsb' 32 32 ++ l.extractLsb' 0 32 = l := append_extractLsb' (n := 32) (m := 32) l
    simp [Tail.code, Tail.encode, decodeTail, h]

/-- What follows a base word has the words it was read from (Table 3-6). -/
theorem encode_decodeTail {l : BitVec 2} {ws rest : List Word} {t : Tail} (h : decodeTail l ws = .ok (t, rest)) :
    t.code = l ∧ ws = t.encode ++ rest := by
  have hl : ∀ l : BitVec 2, l = 0 ∨ l = 1 ∨ l = 2 ∨ l = 3 := by decide
  rcases hl l with rfl | rfl | rfl | rfl
  · cases ws <;> cases h <;> exact ⟨rfl, rfl⟩
  · rcases ws with _ | ⟨w, ws⟩ <;> cases h
    exact ⟨rfl, by simp [Tail.encode]⟩
  · rcases ws with _ | ⟨w, _ | ⟨v, ws⟩⟩ <;> cases h
    exact ⟨rfl, by simp [Tail.encode]⟩
  · rcases ws with _ | ⟨w, _ | ⟨v, ws⟩⟩ <;> cases h
    exact ⟨rfl, by simp only [Tail.encode, BitVec.extractLsb'_append_eq_right, BitVec.extractLsb'_append_eq_left,
      List.cons_append, List.nil_append]⟩

/-- Words of a view decode to the instruction of its major opcode. -/
theorem decodeWords_encode (v : View) (rest : List Word) :
    decodeWords (v.encode ++ rest) = .ok (decodeOp v.op v.hi21 v.stroke v.tail, rest) := by
  obtain ⟨h0, h1, h2, h3⟩ := View.base_fields v.hi21 v.op v.stroke v.tail.code
  simp only [View.encode, List.cons_append, decodeWords]
  rw [h0, h1, h2, h3, decodeTail_encode]

end Sys2Proof
end

