-- ==== Sys2Proof/Laws/Departure.lean ====
section
/-!
SUPPORT. What packets that leave the chip can change (R269): slots are only taken while packets leave, and what is still waiting
afterwards is blocked.
-/
namespace Sys2Proof.Machine

open Sys2Proof

/-- A group's change leaves the pod fabric alone. -/
theorem State.foldl_modChannel_pod {α : Type} (l : List α) (c : α → Nat) (f : α → Channel → Channel) (s : State) :
    (l.foldl (fun s a => s.modChannel (c a) (f a)) s).pod =
      { s.pod with channels := (l.foldl (fun s a => s.modChannel (c a) (f a)) s).pod.channels } := by
  induction l generalizing s with
  | nil => rfl
  | cons a l ih => rw [List.foldl_cons, ih]; rfl

/-- Setting a packet's PREV keeps its destinations and the copies that have left. -/
theorem State.setPrev_copies (s : State) (p : Packet) : (s.setPrev p).2.pod.copies = s.pod.copies := by
  unfold State.setPrev
  split
  · rfl
  · rw [State.foldl_modChannel_pod]

/-- A packet that leaves adds its copies and removes none. -/
theorem State.leave_copies (s : State) (o : Outgoing) : ∃ cs, (s.leave o).pod.copies = s.pod.copies ++ cs := by
  have hr : (if o.again then (s.onPlane o, s) else s.setPrev (s.onPlane o)).2.pod.copies = s.pod.copies := by
    split
    · rfl
    · exact State.setPrev_copies _ _
  unfold State.leave
  generalize (if o.again then (s.onPlane o, s) else s.setPrev (s.onPlane o)) = r at hr ⊢
  obtain ⟨p, s1⟩ := r
  simp only at hr ⊢
  split <;> simp [hr]

/-- Slots held never fall while packets leave. -/
theorem State.slotsHeld_leave (s : State) (o : Outgoing) (chip : Nat) : s.slotsHeld chip ≤ (s.leave o).slotsHeld chip := by
  obtain ⟨cs, h⟩ := State.leave_copies s o
  unfold State.slotsHeld
  rw [h, List.filter_append, List.length_append]
  exact Nat.le_add_right _ _

/-- A waiting packet is blocked by the slots that this chip holds or by packets before it (R269). -/
def State.Blocked (s : State) (before : List Outgoing) (o : Outgoing) : Prop :=
  o.packet.kind.takesSlot = true ∧ ∃ l ∈ o.packet.legs, 64 ≤ s.slotsHeld l.dst ∨
    ∃ w ∈ before, ∃ m ∈ w.packet.legs, m.dst = l.dst

theorem State.Blocked.mono {s t : State} {b : List Outgoing} {o : Outgoing} (h : s.Blocked b o)
    (hs : ∀ c, s.slotsHeld c ≤ t.slotsHeld c) : t.Blocked b o := by
  obtain ⟨h1, l, hl, h2⟩ := h
  exact ⟨h1, l, hl, h2.imp (fun h => Nat.le_trans h (hs _)) id⟩

/-- After packets have left in order, every packet that still waits is blocked (R269). -/
theorem State.departAll_blocked (s : State) : s.departAll.DeparturesBlocked := by
  unfold State.departAll
  simp only
  generalize { s with pod := { s.pod with outWait := [] } } = s0
  suffices H : ∀ (l : List Outgoing) (s : State) (ws : List Outgoing),
      (∀ i o, ws[i]? = some o → s.Blocked (ws.take i) o) →
      let r := l.foldl (fun (acc : State × List Outgoing) (o : Outgoing) =>
        if acc.1.staleRepeat o then acc
        else if (o.packet.kind.takesSlot && (o.packet.legs.map Packet.dst).any fun c =>
          64 ≤ acc.1.slotsHeld c || acc.2.any fun w => (w.packet.legs.map Packet.dst).contains c) then (acc.1, acc.2 ++ [o])
        else (acc.1.leave o, acc.2)) (s, ws)
      ∀ i o, r.2[i]? = some o → r.1.Blocked (r.2.take i) o by
    exact H _ s0 [] (by simp)
  intro l
  induction l with
  | nil => exact fun _ _ h => h
  | cons o l ih =>
    intro s ws h
    rw [List.foldl_cons]
    simp only
    split
    · exact ih s ws h
    · split
      · refine ih s _ ?_
        rename_i hb
        intro i p hp
        rcases Nat.lt_or_ge i ws.length with hi | hi
        · rw [List.getElem?_append_left hi] at hp
          rw [List.take_append_of_le_length (Nat.le_of_lt hi)]
          exact h i p hp
        · rw [List.getElem?_append_right hi] at hp
          have hi' : i - ws.length = 0 := by
            cases hk : i - ws.length with
            | zero => rfl
            | succ k => rw [hk] at hp; simp at hp
          rw [hi'] at hp
          simp only [List.getElem?_cons_zero, Option.some.injEq] at hp
          subst hp
          have : i = ws.length := by omega
          subst this
          rw [List.take_left]
          simp only [Bool.and_eq_true, List.any_eq_true, List.mem_map, Bool.or_eq_true, decide_eq_true_eq,
            List.contains_iff_mem] at hb
          obtain ⟨h1, c, ⟨m, hm, rfl⟩, h2⟩ := hb
          refine ⟨h1, m, hm, h2.imp id ?_⟩
          rintro ⟨w, hw, m', hm', he⟩
          exact ⟨w, hw, m', hm', he⟩
      · exact ih _ ws fun i p hp => (h i p hp).mono (State.slotsHeld_leave s o)

end Sys2Proof.Machine
end

