-- ==== Sys2Proof/Laws/PerInstr.lean ====
section
/-!
SUPPORT. One lemma per instruction: its words are those of its major opcode and format, and that opcode names it again
(Table 3-10); a step of the abstract machine or of a device has no words.
-/
namespace Sys2Proof

theorem asRrr_join (o : Rrr) : asRrr (o.b ++ o.a ++ o.d) o.stroke o.tail = o := by
  have h1 : (o.b ++ o.a ++ o.d).extractLsb' 14 7 = o.b := by
    rw [BitVec.extractLsb'_append_eq_of_le (by decide), BitVec.extractLsb'_append_eq_of_le (by decide)]
    exact BitVec.extractLsb'_eq_self
  have h2 : (o.b ++ o.a ++ o.d).extractLsb' 7 7 = o.a := by
    rw [BitVec.extractLsb'_append_eq_of_le (by decide), BitVec.extractLsb'_append_eq_of_add_le (by decide)]
    exact BitVec.extractLsb'_eq_self
  have h3 : (o.b ++ o.a ++ o.d).extractLsb' 0 7 = o.d := by
    rw [BitVec.extractLsb'_append_eq_of_add_le (by decide)]
    exact BitVec.extractLsb'_eq_self
  simp only [asRrr]
  rw [h1, h2, h3]

theorem asRri_join (o : Rri) : asRri (o.imm ++ o.a ++ o.d) o.stroke o.tail = o := by
  have h := asRrr_join ⟨o.imm, o.a, o.d, o.stroke, o.tail⟩
  simp only [asRrr, Rrr.mk.injEq] at h
  simp only [asRri]
  rw [h.1, h.2.1, h.2.2.1]

theorem asRi_join (o : Ri) : asRi (o.imm ++ o.d) o.stroke o.tail = o := by
  have h1 : (o.imm ++ o.d).extractLsb' 7 14 = o.imm := by
    rw [BitVec.extractLsb'_append_eq_of_le (by decide)]
    exact BitVec.extractLsb'_eq_self
  have h2 : (o.imm ++ o.d).extractLsb' 0 7 = o.d := by
    rw [BitVec.extractLsb'_append_eq_of_add_le (by decide)]
    exact BitVec.extractLsb'_eq_self
  simp only [asRi]
  rw [h1, h2]

theorem asBr_join (o : Br) : asBr o.off o.stroke o.tail = o := rfl

theorem asEntry_join (o : EntryFields) : asEntry (o.zero14 ++ o.budget) o.stroke o.tail = o := by
  have h := asRi_join ⟨o.zero14, o.budget, o.stroke, o.tail⟩
  simp only [asRi, Ri.mk.injEq] at h
  simp only [asEntry]
  rw [h.1, h.2.1]

namespace Laws.Opcode

/-- Tables 3-7 to 3-10: an encoded instruction's words are those of its view, and the major opcode in them names it; a step has no
words and is well formed. -/
def Statement (i : Instr) : Prop :=
  match i.view with
  | none => encode i = none ∧ i.wellFormed = true
  | some v => encode i = some v.encode ∧ (v.fmt ≠ .raw → decodeOp v.op v.hi21 v.stroke v.tail = i)

theorem add (o : Rrr) : Statement (.add o) := ⟨rfl, fun _ => congrArg Instr.add (asRrr_join o)⟩
theorem sub (o : Rrr) : Statement (.sub o) := ⟨rfl, fun _ => congrArg Instr.sub (asRrr_join o)⟩
theorem addc (o : Rrr) : Statement (.addc o) := ⟨rfl, fun _ => congrArg Instr.addc (asRrr_join o)⟩
theorem subb (o : Rrr) : Statement (.subb o) := ⟨rfl, fun _ => congrArg Instr.subb (asRrr_join o)⟩
theorem mul (o : Rrr) : Statement (.mul o) := ⟨rfl, fun _ => congrArg Instr.mul (asRrr_join o)⟩
theorem mulh (o : Rrr) : Statement (.mulh o) := ⟨rfl, fun _ => congrArg Instr.mulh (asRrr_join o)⟩
theorem mulhz (o : Rrr) : Statement (.mulhz o) := ⟨rfl, fun _ => congrArg Instr.mulhz (asRrr_join o)⟩
theorem mad (o : Rrr) : Statement (.mad o) := ⟨rfl, fun _ => congrArg Instr.mad (asRrr_join o)⟩
theorem div (o : Rrr) : Statement (.div o) := ⟨rfl, fun _ => congrArg Instr.div (asRrr_join o)⟩
theorem divz (o : Rrr) : Statement (.divz o) := ⟨rfl, fun _ => congrArg Instr.divz (asRrr_join o)⟩
theorem rem (o : Rrr) : Statement (.rem o) := ⟨rfl, fun _ => congrArg Instr.rem (asRrr_join o)⟩
theorem remz (o : Rrr) : Statement (.remz o) := ⟨rfl, fun _ => congrArg Instr.remz (asRrr_join o)⟩
theorem min (o : Rrr) : Statement (.min o) := ⟨rfl, fun _ => congrArg Instr.min (asRrr_join o)⟩
theorem max (o : Rrr) : Statement (.max o) := ⟨rfl, fun _ => congrArg Instr.max (asRrr_join o)⟩
theorem minz (o : Rrr) : Statement (.minz o) := ⟨rfl, fun _ => congrArg Instr.minz (asRrr_join o)⟩
theorem maxz (o : Rrr) : Statement (.maxz o) := ⟨rfl, fun _ => congrArg Instr.maxz (asRrr_join o)⟩
theorem abs (o : Rrr) : Statement (.abs o) := ⟨rfl, fun _ => congrArg Instr.abs (asRrr_join o)⟩
theorem neg (o : Rrr) : Statement (.neg o) := ⟨rfl, fun _ => congrArg Instr.neg (asRrr_join o)⟩
theorem and (o : Rrr) : Statement (.and o) := ⟨rfl, fun _ => congrArg Instr.and (asRrr_join o)⟩
theorem or (o : Rrr) : Statement (.or o) := ⟨rfl, fun _ => congrArg Instr.or (asRrr_join o)⟩
theorem xor (o : Rrr) : Statement (.xor o) := ⟨rfl, fun _ => congrArg Instr.xor (asRrr_join o)⟩
theorem andn (o : Rrr) : Statement (.andn o) := ⟨rfl, fun _ => congrArg Instr.andn (asRrr_join o)⟩
theorem not (o : Rrr) : Statement (.not o) := ⟨rfl, fun _ => congrArg Instr.not (asRrr_join o)⟩
theorem sel (o : Rrr) : Statement (.sel o) := ⟨rfl, fun _ => congrArg Instr.sel (asRrr_join o)⟩
theorem shl (o : Rrr) : Statement (.shl o) := ⟨rfl, fun _ => congrArg Instr.shl (asRrr_join o)⟩
theorem shr (o : Rrr) : Statement (.shr o) := ⟨rfl, fun _ => congrArg Instr.shr (asRrr_join o)⟩
theorem sar (o : Rrr) : Statement (.sar o) := ⟨rfl, fun _ => congrArg Instr.sar (asRrr_join o)⟩
theorem rol (o : Rrr) : Statement (.rol o) := ⟨rfl, fun _ => congrArg Instr.rol (asRrr_join o)⟩
theorem clz (o : Rrr) : Statement (.clz o) := ⟨rfl, fun _ => congrArg Instr.clz (asRrr_join o)⟩
theorem ctz (o : Rrr) : Statement (.ctz o) := ⟨rfl, fun _ => congrArg Instr.ctz (asRrr_join o)⟩
theorem popc (o : Rrr) : Statement (.popc o) := ⟨rfl, fun _ => congrArg Instr.popc (asRrr_join o)⟩
theorem brev (o : Rrr) : Statement (.brev o) := ⟨rfl, fun _ => congrArg Instr.brev (asRrr_join o)⟩
theorem bfx (o : Rrr) : Statement (.bfx o) := ⟨rfl, fun _ => congrArg Instr.bfx (asRrr_join o)⟩
theorem bfxz (o : Rrr) : Statement (.bfxz o) := ⟨rfl, fun _ => congrArg Instr.bfxz (asRrr_join o)⟩
theorem bfi (o : Rrr) : Statement (.bfi o) := ⟨rfl, fun _ => congrArg Instr.bfi (asRrr_join o)⟩
theorem cmp (o : Rrr) : Statement (.cmp o) := ⟨rfl, fun _ => congrArg Instr.cmp (asRrr_join o)⟩
theorem cmpz (o : Rrr) : Statement (.cmpz o) := ⟨rfl, fun _ => congrArg Instr.cmpz (asRrr_join o)⟩
theorem lea (o : Rrr) : Statement (.lea o) := ⟨rfl, fun _ => congrArg Instr.lea (asRrr_join o)⟩
theorem add64 (o : Rrr) : Statement (.add64 o) := ⟨rfl, fun _ => congrArg Instr.add64 (asRrr_join o)⟩
theorem sub64 (o : Rrr) : Statement (.sub64 o) := ⟨rfl, fun _ => congrArg Instr.sub64 (asRrr_join o)⟩
theorem mul64 (o : Rrr) : Statement (.mul64 o) := ⟨rfl, fun _ => congrArg Instr.mul64 (asRrr_join o)⟩
theorem shl64 (o : Rrr) : Statement (.shl64 o) := ⟨rfl, fun _ => congrArg Instr.shl64 (asRrr_join o)⟩
theorem shr64 (o : Rrr) : Statement (.shr64 o) := ⟨rfl, fun _ => congrArg Instr.shr64 (asRrr_join o)⟩
theorem add2 (o : Rrr) : Statement (.add2 o) := ⟨rfl, fun _ => congrArg Instr.add2 (asRrr_join o)⟩
theorem sub2 (o : Rrr) : Statement (.sub2 o) := ⟨rfl, fun _ => congrArg Instr.sub2 (asRrr_join o)⟩
theorem min2 (o : Rrr) : Statement (.min2 o) := ⟨rfl, fun _ => congrArg Instr.min2 (asRrr_join o)⟩
theorem max2 (o : Rrr) : Statement (.max2 o) := ⟨rfl, fun _ => congrArg Instr.max2 (asRrr_join o)⟩
theorem cmp2 (o : Rrr) : Statement (.cmp2 o) := ⟨rfl, fun _ => congrArg Instr.cmp2 (asRrr_join o)⟩
theorem dot4 (o : Rrr) : Statement (.dot4 o) := ⟨rfl, fun _ => congrArg Instr.dot4 (asRrr_join o)⟩
theorem mov (o : Rrr) : Statement (.mov o) := ⟨rfl, fun _ => congrArg Instr.mov (asRrr_join o)⟩
theorem movi (o : Ri) : Statement (.movi o) := ⟨rfl, fun _ => congrArg Instr.movi (asRi_join o)⟩
theorem getsr (o : Ri) : Statement (.getsr o) := ⟨rfl, fun _ => congrArg Instr.getsr (asRi_join o)⟩
theorem setsr (o : Ri) : Statement (.setsr o) := ⟨rfl, fun _ => congrArg Instr.setsr (asRi_join o)⟩
theorem shfl (o : Rrr) : Statement (.shfl o) := ⟨rfl, fun _ => congrArg Instr.shfl (asRrr_join o)⟩
theorem vote (o : Rrr) : Statement (.vote o) := ⟨rfl, fun _ => congrArg Instr.vote (asRrr_join o)⟩
theorem arm (o : Rrr) : Statement (.arm o) := ⟨rfl, fun _ => congrArg Instr.arm (asRrr_join o)⟩
theorem addImm7 (o : Rri) : Statement (.addImm7 o) := ⟨rfl, fun _ => congrArg Instr.addImm7 (asRri_join o)⟩
theorem andImm7 (o : Rri) : Statement (.andImm7 o) := ⟨rfl, fun _ => congrArg Instr.andImm7 (asRri_join o)⟩
theorem orImm7 (o : Rri) : Statement (.orImm7 o) := ⟨rfl, fun _ => congrArg Instr.orImm7 (asRri_join o)⟩
theorem shlImm7 (o : Rri) : Statement (.shlImm7 o) := ⟨rfl, fun _ => congrArg Instr.shlImm7 (asRri_join o)⟩
theorem shrImm7 (o : Rri) : Statement (.shrImm7 o) := ⟨rfl, fun _ => congrArg Instr.shrImm7 (asRri_join o)⟩
theorem sarImm7 (o : Rri) : Statement (.sarImm7 o) := ⟨rfl, fun _ => congrArg Instr.sarImm7 (asRri_join o)⟩
theorem cmpImm7 (o : Rri) : Statement (.cmpImm7 o) := ⟨rfl, fun _ => congrArg Instr.cmpImm7 (asRri_join o)⟩
theorem cmpzImm7 (o : Rri) : Statement (.cmpzImm7 o) := ⟨rfl, fun _ => congrArg Instr.cmpzImm7 (asRri_join o)⟩
theorem fadd (t : FpType) (o : Rrr) : Statement (.fadd t o) := by
  cases t <;> exact ⟨rfl, fun _ => congrArg (Instr.fadd _) (asRrr_join o)⟩
theorem fsub (t : FpType) (o : Rrr) : Statement (.fsub t o) := by
  cases t <;> exact ⟨rfl, fun _ => congrArg (Instr.fsub _) (asRrr_join o)⟩
theorem fmul (t : FpType) (o : Rrr) : Statement (.fmul t o) := by
  cases t <;> exact ⟨rfl, fun _ => congrArg (Instr.fmul _) (asRrr_join o)⟩
theorem fma (t : FpType) (o : Rrr) : Statement (.fma t o) := by
  cases t <;> exact ⟨rfl, fun _ => congrArg (Instr.fma _) (asRrr_join o)⟩
theorem fmin (t : FpType) (o : Rrr) : Statement (.fmin t o) := by
  cases t <;> exact ⟨rfl, fun _ => congrArg (Instr.fmin _) (asRrr_join o)⟩
theorem fmax (t : FpType) (o : Rrr) : Statement (.fmax t o) := by
  cases t <;> exact ⟨rfl, fun _ => congrArg (Instr.fmax _) (asRrr_join o)⟩
theorem fcmp (t : FpType) (o : Rrr) : Statement (.fcmp t o) := by
  cases t <;> exact ⟨rfl, fun _ => congrArg (Instr.fcmp _) (asRrr_join o)⟩
theorem fclass (o : Rrr) : Statement (.fclass o) := ⟨rfl, fun _ => congrArg Instr.fclass (asRrr_join o)⟩
theorem frnd (o : Rrr) : Statement (.frnd o) := ⟨rfl, fun _ => congrArg Instr.frnd (asRrr_join o)⟩
theorem fdiv (o : Rrr) : Statement (.fdiv o) := ⟨rfl, fun _ => congrArg Instr.fdiv (asRrr_join o)⟩
theorem fsqrt (o : Rrr) : Statement (.fsqrt o) := ⟨rfl, fun _ => congrArg Instr.fsqrt (asRrr_join o)⟩
theorem frcp (o : Rrr) : Statement (.frcp o) := ⟨rfl, fun _ => congrArg Instr.frcp (asRrr_join o)⟩
theorem frsq (o : Rrr) : Statement (.frsq o) := ⟨rfl, fun _ => congrArg Instr.frsq (asRrr_join o)⟩
theorem fex2 (o : Rrr) : Statement (.fex2 o) := ⟨rfl, fun _ => congrArg Instr.fex2 (asRrr_join o)⟩
theorem flg2 (o : Rrr) : Statement (.flg2 o) := ⟨rfl, fun _ => congrArg Instr.flg2 (asRrr_join o)⟩
theorem fsin (o : Rrr) : Statement (.fsin o) := ⟨rfl, fun _ => congrArg Instr.fsin (asRrr_join o)⟩
theorem fcos (o : Rrr) : Statement (.fcos o) := ⟨rfl, fun _ => congrArg Instr.fcos (asRrr_join o)⟩
theorem ldexp (o : Rrr) : Statement (.ldexp o) := ⟨rfl, fun _ => congrArg Instr.ldexp (asRrr_join o)⟩
theorem frexp (o : Rrr) : Statement (.frexp o) := ⟨rfl, fun _ => congrArg Instr.frexp (asRrr_join o)⟩
theorem cvt (o : Rrr) : Statement (.cvt o) := ⟨rfl, fun _ => congrArg Instr.cvt (asRrr_join o)⟩
theorem br (o : Br) : Statement (.br o) := ⟨rfl, fun _ => congrArg Instr.br (asBr_join o)⟩
theorem brc (o : Ri) : Statement (.brc o) := ⟨rfl, fun _ => congrArg Instr.brc (asRi_join o)⟩
theorem jmp (o : Rrr) : Statement (.jmp o) := ⟨rfl, fun _ => congrArg Instr.jmp (asRrr_join o)⟩
theorem call (o : Br) : Statement (.call o) := ⟨rfl, fun _ => congrArg Instr.call (asBr_join o)⟩
theorem callr (o : Rrr) : Statement (.callr o) := ⟨rfl, fun _ => congrArg Instr.callr (asRrr_join o)⟩
theorem ret (o : Rrr) : Statement (.ret o) := ⟨rfl, fun _ => congrArg Instr.ret (asRrr_join o)⟩
theorem reform (o : Rrr) : Statement (.reform o) := ⟨rfl, fun _ => congrArg Instr.reform (asRrr_join o)⟩
theorem exit (o : Rrr) : Statement (.exit o) := ⟨rfl, fun _ => congrArg Instr.exit (asRrr_join o)⟩
theorem bar (o : Rrr) : Statement (.bar o) := ⟨rfl, fun _ => congrArg Instr.bar (asRrr_join o)⟩
theorem sync (o : Rrr) : Statement (.sync o) := ⟨rfl, fun _ => congrArg Instr.sync (asRrr_join o)⟩
theorem svc (o : Rrr) : Statement (.svc o) := ⟨rfl, fun _ => congrArg Instr.svc (asRrr_join o)⟩
theorem trap (o : Rrr) : Statement (.trap o) := ⟨rfl, fun _ => congrArg Instr.trap (asRrr_join o)⟩
theorem nop (o : Rrr) : Statement (.nop o) := ⟨rfl, fun _ => congrArg Instr.nop (asRrr_join o)⟩
theorem yield (o : Rrr) : Statement (.yield o) := ⟨rfl, fun _ => congrArg Instr.yield (asRrr_join o)⟩
theorem launch (o : Rrr) : Statement (.launch o) := ⟨rfl, fun _ => congrArg Instr.launch (asRrr_join o)⟩
theorem launchW (o : Rrr) : Statement (.launchW o) := ⟨rfl, fun _ => congrArg Instr.launchW (asRrr_join o)⟩
theorem gname (o : Rrr) : Statement (.gname o) := ⟨rfl, fun _ => congrArg Instr.gname (asRrr_join o)⟩
theorem entryWord (o : EntryFields) : Statement (.entryWord o) := ⟨rfl, fun _ => congrArg Instr.entryWord (asEntry_join o)⟩
theorem ldGB (o : Rri) : Statement (.ldGB o) := ⟨rfl, fun _ => congrArg Instr.ldGB (asRri_join o)⟩
theorem ldGH (o : Rri) : Statement (.ldGH o) := ⟨rfl, fun _ => congrArg Instr.ldGH (asRri_join o)⟩
theorem ldGW (o : Rri) : Statement (.ldGW o) := ⟨rfl, fun _ => congrArg Instr.ldGW (asRri_join o)⟩
theorem ldGD (o : Rri) : Statement (.ldGD o) := ⟨rfl, fun _ => congrArg Instr.ldGD (asRri_join o)⟩
theorem ldGQ (o : Rri) : Statement (.ldGQ o) := ⟨rfl, fun _ => congrArg Instr.ldGQ (asRri_join o)⟩
theorem ldLB (o : Rri) : Statement (.ldLB o) := ⟨rfl, fun _ => congrArg Instr.ldLB (asRri_join o)⟩
theorem ldLH (o : Rri) : Statement (.ldLH o) := ⟨rfl, fun _ => congrArg Instr.ldLH (asRri_join o)⟩
theorem ldLW (o : Rri) : Statement (.ldLW o) := ⟨rfl, fun _ => congrArg Instr.ldLW (asRri_join o)⟩
theorem ldLD (o : Rri) : Statement (.ldLD o) := ⟨rfl, fun _ => congrArg Instr.ldLD (asRri_join o)⟩
theorem ldLQ (o : Rri) : Statement (.ldLQ o) := ⟨rfl, fun _ => congrArg Instr.ldLQ (asRri_join o)⟩
theorem ldKB (o : Rri) : Statement (.ldKB o) := ⟨rfl, fun _ => congrArg Instr.ldKB (asRri_join o)⟩
theorem ldKH (o : Rri) : Statement (.ldKH o) := ⟨rfl, fun _ => congrArg Instr.ldKH (asRri_join o)⟩
theorem ldKW (o : Rri) : Statement (.ldKW o) := ⟨rfl, fun _ => congrArg Instr.ldKW (asRri_join o)⟩
theorem ldKD (o : Rri) : Statement (.ldKD o) := ⟨rfl, fun _ => congrArg Instr.ldKD (asRri_join o)⟩
theorem ldKQ (o : Rri) : Statement (.ldKQ o) := ⟨rfl, fun _ => congrArg Instr.ldKQ (asRri_join o)⟩
theorem stGB (o : Rri) : Statement (.stGB o) := ⟨rfl, fun _ => congrArg Instr.stGB (asRri_join o)⟩
theorem stGH (o : Rri) : Statement (.stGH o) := ⟨rfl, fun _ => congrArg Instr.stGH (asRri_join o)⟩
theorem stGW (o : Rri) : Statement (.stGW o) := ⟨rfl, fun _ => congrArg Instr.stGW (asRri_join o)⟩
theorem stGD (o : Rri) : Statement (.stGD o) := ⟨rfl, fun _ => congrArg Instr.stGD (asRri_join o)⟩
theorem stGQ (o : Rri) : Statement (.stGQ o) := ⟨rfl, fun _ => congrArg Instr.stGQ (asRri_join o)⟩
theorem stLB (o : Rri) : Statement (.stLB o) := ⟨rfl, fun _ => congrArg Instr.stLB (asRri_join o)⟩
theorem stLH (o : Rri) : Statement (.stLH o) := ⟨rfl, fun _ => congrArg Instr.stLH (asRri_join o)⟩
theorem stLW (o : Rri) : Statement (.stLW o) := ⟨rfl, fun _ => congrArg Instr.stLW (asRri_join o)⟩
theorem stLD (o : Rri) : Statement (.stLD o) := ⟨rfl, fun _ => congrArg Instr.stLD (asRri_join o)⟩
theorem stLQ (o : Rri) : Statement (.stLQ o) := ⟨rfl, fun _ => congrArg Instr.stLQ (asRri_join o)⟩
theorem ldAcq (o : Rrr) : Statement (.ldAcq o) := ⟨rfl, fun _ => congrArg Instr.ldAcq (asRrr_join o)⟩
theorem stRel (o : Rrr) : Statement (.stRel o) := ⟨rfl, fun _ => congrArg Instr.stRel (asRrr_join o)⟩
theorem atom (o : Rrr) : Statement (.atom o) := ⟨rfl, fun _ => congrArg Instr.atom (asRrr_join o)⟩
theorem red (o : Rrr) : Statement (.red o) := ⟨rfl, fun _ => congrArg Instr.red (asRrr_join o)⟩
theorem fence (o : Rrr) : Statement (.fence o) := ⟨rfl, fun _ => congrArg Instr.fence (asRrr_join o)⟩
theorem pref (o : Rrr) : Statement (.pref o) := ⟨rfl, fun _ => congrArg Instr.pref (asRrr_join o)⟩
theorem twflush (o : Rrr) : Statement (.twflush o) := ⟨rfl, fun _ => congrArg Instr.twflush (asRrr_join o)⟩
theorem cctl (o : Rrr) : Statement (.cctl o) := ⟨rfl, fun _ => congrArg Instr.cctl (asRrr_join o)⟩
theorem xfer (o : Rrr) : Statement (.xfer o) := ⟨rfl, fun _ => congrArg Instr.xfer (asRrr_join o)⟩
theorem xgat (o : Rrr) : Statement (.xgat o) := ⟨rfl, fun _ => congrArg Instr.xgat (asRrr_join o)⟩
theorem slset (o : Rrr) : Statement (.slset o) := ⟨rfl, fun _ => congrArg Instr.slset (asRrr_join o)⟩
theorem slwait (o : Rrr) : Statement (.slwait o) := ⟨rfl, fun _ => congrArg Instr.slwait (asRrr_join o)⟩
theorem xwait (o : Rrr) : Statement (.xwait o) := ⟨rfl, fun _ => congrArg Instr.xwait (asRrr_join o)⟩
theorem tld (o : Rrr) : Statement (.tld o) := ⟨rfl, fun _ => congrArg Instr.tld (asRrr_join o)⟩
theorem tst (o : Rrr) : Statement (.tst o) := ⟨rfl, fun _ => congrArg Instr.tst (asRrr_join o)⟩
theorem tzero (o : Rrr) : Statement (.tzero o) := ⟨rfl, fun _ => congrArg Instr.tzero (asRrr_join o)⟩
theorem tmma (o : Rrr) : Statement (.tmma o) := ⟨rfl, fun _ => congrArg Instr.tmma (asRrr_join o)⟩
theorem tmmas (o : Rrr) : Statement (.tmmas o) := ⟨rfl, fun _ => congrArg Instr.tmmas (asRrr_join o)⟩
theorem tscal (o : Rrr) : Statement (.tscal o) := ⟨rfl, fun _ => congrArg Instr.tscal (asRrr_join o)⟩
theorem trd (o : Rrr) : Statement (.trd o) := ⟨rfl, fun _ => congrArg Instr.trd (asRrr_join o)⟩
theorem twr (o : Rrr) : Statement (.twr o) := ⟨rfl, fun _ => congrArg Instr.twr (asRrr_join o)⟩
theorem tcvt (o : Rrr) : Statement (.tcvt o) := ⟨rfl, fun _ => congrArg Instr.tcvt (asRrr_join o)⟩
theorem ttr (o : Rrr) : Statement (.ttr o) := ⟨rfl, fun _ => congrArg Instr.ttr (asRrr_join o)⟩
theorem pst (o : Rrr) : Statement (.pst o) := ⟨rfl, fun _ => congrArg Instr.pst (asRrr_join o)⟩
theorem pld (o : Rrr) : Statement (.pld o) := ⟨rfl, fun _ => congrArg Instr.pld (asRrr_join o)⟩
theorem patom (o : Rrr) : Statement (.patom o) := ⟨rfl, fun _ => congrArg Instr.patom (asRrr_join o)⟩
theorem prel (o : Rrr) : Statement (.prel o) := ⟨rfl, fun _ => congrArg Instr.prel (asRrr_join o)⟩
theorem pacq (o : Rrr) : Statement (.pacq o) := ⟨rfl, fun _ => congrArg Instr.pacq (asRrr_join o)⟩
theorem rst (o : Rrr) : Statement (.rst o) := ⟨rfl, fun _ => congrArg Instr.rst (asRrr_join o)⟩
theorem pmc (o : Rrr) : Statement (.pmc o) := ⟨rfl, fun _ => congrArg Instr.pmc (asRrr_join o)⟩
theorem eret (o : Rrr) : Statement (.eret o) := ⟨rfl, fun _ => congrArg Instr.eret (asRrr_join o)⟩
theorem rdsys (o : Rrr) : Statement (.rdsys o) := ⟨rfl, fun _ => congrArg Instr.rdsys (asRrr_join o)⟩
theorem wrsys (o : Rrr) : Statement (.wrsys o) := ⟨rfl, fun _ => congrArg Instr.wrsys (asRrr_join o)⟩
theorem tlbi (o : Rrr) : Statement (.tlbi o) := ⟨rfl, fun _ => congrArg Instr.tlbi (asRrr_join o)⟩
theorem tlbsync (o : Rrr) : Statement (.tlbsync o) := ⟨rfl, fun _ => congrArg Instr.tlbsync (asRrr_join o)⟩
theorem halt (o : Rrr) : Statement (.halt o) := ⟨rfl, fun _ => congrArg Instr.halt (asRrr_join o)⟩
theorem wfe (o : Rrr) : Statement (.wfe o) := ⟨rfl, fun _ => congrArg Instr.wfe (asRrr_join o)⟩
theorem sev (o : Rrr) : Statement (.sev o) := ⟨rfl, fun _ => congrArg Instr.sev (asRrr_join o)⟩
theorem dstep (o : Rrr) : Statement (.dstep o) := ⟨rfl, fun _ => congrArg Instr.dstep (asRrr_join o)⟩
theorem ctxsv (o : Rrr) : Statement (.ctxsv o) := ⟨rfl, fun _ => congrArg Instr.ctxsv (asRrr_join o)⟩
theorem ctxld (o : Rrr) : Statement (.ctxld o) := ⟨rfl, fun _ => congrArg Instr.ctxld (asRrr_join o)⟩
theorem kerase (o : Rrr) : Statement (.kerase o) := ⟨rfl, fun _ => congrArg Instr.kerase (asRrr_join o)⟩
theorem strokeStart (die core slot : Nat) : Statement (.strokeStart die core slot) := ⟨rfl, rfl⟩
theorem binAgeFire (gid : Nat) (key : Pc) : Statement (.binAgeFire gid key) := ⟨rfl, rfl⟩
theorem performStore (gid gidx index : Nat) : Statement (.performStore gid gidx index) := ⟨rfl, rfl⟩
theorem performLoad (gid gidx op : Nat) : Statement (.performLoad gid gidx op) := ⟨rfl, rfl⟩
theorem fetch (die block : Nat) : Statement (.fetch die block) := ⟨rfl, rfl⟩
theorem drop (die block : Nat) : Statement (.drop die block) := ⟨rfl, rfl⟩
theorem send (die block : Nat) : Statement (.send die block) := ⟨rfl, rfl⟩
theorem apply (home : Nat) : Statement (.apply home) := ⟨rfl, rfl⟩
theorem dataReturn (gid gidx op : Nat) : Statement (.dataReturn gid gidx op) := ⟨rfl, rfl⟩
theorem atomicReturn (gid gidx op : Nat) : Statement (.atomicReturn gid gidx op) := ⟨rfl, rfl⟩
theorem launchStatusReturn (gid gidx op : Nat) : Statement (.launchStatusReturn gid gidx op) := ⟨rfl, rfl⟩
theorem gnameComplete (gid gidx op : Nat) : Statement (.gnameComplete gid gidx op) := ⟨rfl, rfl⟩
theorem tileComplete (die core op : Nat) : Statement (.tileComplete die core op) := ⟨rfl, rfl⟩
theorem transferPacket (die core handle bytes : Nat) : Statement (.transferPacket die core handle bytes) := ⟨rfl, rfl⟩
theorem slotFree (gid : Nat) : Statement (.slotFree gid) := ⟨rfl, rfl⟩
theorem svcBatchPlace (die : Nat) : Statement (.svcBatchPlace die) := ⟨rfl, rfl⟩
theorem launchStart (lid : Nat) (places : List Place) : Statement (.launchStart lid places) := ⟨rfl, rfl⟩
theorem streamAdmit (lid : Nat) (places : List Place) : Statement (.streamAdmit lid places) := ⟨rfl, rfl⟩
theorem quantumEnd (die core : Nat) : Statement (.quantumEnd die core) := ⟨rfl, rfl⟩
theorem replaySlice (die core : Nat) : Statement (.replaySlice die core) := ⟨rfl, rfl⟩
theorem launchComplete (lid : Nat) : Statement (.launchComplete lid) := ⟨rfl, rfl⟩
theorem folioKickTake (fid : Nat) : Statement (.folioKickTake fid) := ⟨rfl, rfl⟩
theorem folioNodeSubmit (fid node : Nat) : Statement (.folioNodeSubmit fid node) := ⟨rfl, rfl⟩
theorem faultRecordWrite (die : Nat) : Statement (.faultRecordWrite die) := ⟨rfl, rfl⟩
theorem resume (die core slot entry : Nat) : Statement (.resume die core slot entry) := ⟨rfl, rfl⟩
theorem skip (die core slot entry : Nat) : Statement (.skip die core slot entry) := ⟨rfl, rfl⟩
theorem kill (die core slot entry : Nat) : Statement (.kill die core slot entry) := ⟨rfl, rfl⟩
theorem unpark (die core slot : Nat) : Statement (.unpark die core slot) := ⟨rfl, rfl⟩
theorem gkill (die core slot : Nat) : Statement (.gkill die core slot) := ⟨rfl, rfl⟩
theorem gresume (die core slot : Nat) : Statement (.gresume die core slot) := ⟨rfl, rfl⟩
theorem xretry (die core slot handle : Nat) : Statement (.xretry die core slot handle) := ⟨rfl, rfl⟩
theorem xfail (die core slot handle : Nat) : Statement (.xfail die core slot handle) := ⟨rfl, rfl⟩
theorem qdrop (die : Nat) : Statement (.qdrop die) := ⟨rfl, rfl⟩
theorem tableReplicaWrite (index : Nat) : Statement (.tableReplicaWrite index) := ⟨rfl, rfl⟩
theorem tlbFill (die ctx level : Nat) (va : Dword) : Statement (.tlbFill die ctx level va) := ⟨rfl, rfl⟩
theorem tlbiAck (die id : Nat) : Statement (.tlbiAck die id) := ⟨rfl, rfl⟩
theorem contextSave (index : Nat) : Statement (.contextSave index) := ⟨rfl, rfl⟩
theorem contextRestore (index : Nat) : Statement (.contextRestore index) := ⟨rfl, rfl⟩
theorem replayStop (lid : Nat) : Statement (.replayStop lid) := ⟨rfl, rfl⟩
theorem stepTake (index : Nat) : Statement (.stepTake index) := ⟨rfl, rfl⟩
theorem creditReceive (chip chan : Nat) (seq : Half) : Statement (.creditReceive chip chan seq) := ⟨rfl, rfl⟩
theorem markerSend (chan : Nat) : Statement (.markerSend chan) := ⟨rfl, rfl⟩
theorem gapRequestSend (src chan : Nat) : Statement (.gapRequestSend src chan) := ⟨rfl, rfl⟩
theorem retransmitTimer (chan : Nat) (seq : Half) : Statement (.retransmitTimer chan seq) := ⟨rfl, rfl⟩
theorem packetAgeDiscard (index : Nat) : Statement (.packetAgeDiscard index) := ⟨rfl, rfl⟩
theorem replayBufferExpire (chan : Nat) (seq : Half) : Statement (.replayBufferExpire chan seq) := ⟨rfl, rfl⟩
theorem channelAllocate (src chan ctx dest : Nat) (nseq : Half) : Statement (.channelAllocate src chan ctx dest nseq) := ⟨rfl, rfl⟩
theorem podRequestRetry (tag : Half) : Statement (.podRequestRetry tag) := ⟨rfl, rfl⟩
theorem podRequestTimeout (tag : Half) : Statement (.podRequestTimeout tag) := ⟨rfl, rfl⟩
theorem pacqPoll (gid gidx : Nat) : Statement (.pacqPoll gid gidx) := ⟨rfl, rfl⟩
theorem transientRequestReceive (index : Nat) : Statement (.transientRequestReceive index) := ⟨rfl, rfl⟩
theorem tokenResponseReceive (index : Nat) : Statement (.tokenResponseReceive index) := ⟨rfl, rfl⟩
theorem transientRetry (die line : Nat) : Statement (.transientRetry die line) := ⟨rfl, rfl⟩
theorem persistentEscalate (die line : Nat) : Statement (.persistentEscalate die line) := ⟨rfl, rfl⟩
theorem persistentDeactivate (die : Nat) : Statement (.persistentDeactivate die) := ⟨rfl, rfl⟩
theorem tokenGiveUp (die line : Nat) : Statement (.tokenGiveUp die line) := ⟨rfl, rfl⟩
theorem dieLoss (die : Nat) (why : LossCause) : Statement (.dieLoss die why) := ⟨rfl, rfl⟩
theorem wavelengthFail (entry : Nat) : Statement (.wavelengthFail entry) := ⟨rfl, rfl⟩
theorem dieResetExit (die : Nat) : Statement (.dieResetExit die) := ⟨rfl, rfl⟩
theorem uncorrectableError (site : ErrorSite) : Statement (.uncorrectableError site) := ⟨rfl, rfl⟩
theorem pciTimeout (gid op : Nat) : Statement (.pciTimeout gid op) := ⟨rfl, rfl⟩
theorem pcidataWrite (gid gidx : Nat) (value : Dword) : Statement (.pcidataWrite gid gidx value) := ⟨rfl, rfl⟩
theorem pcidataRead (gid gidx : Nat) (d : RegNum) : Statement (.pcidataRead gid gidx d) := ⟨rfl, rfl⟩
theorem portLinkDown (port : Nat) : Statement (.portLinkDown port) := ⟨rfl, rfl⟩
theorem linkRetrain (link : LinkName) : Statement (.linkRetrain link) := ⟨rfl, rfl⟩
theorem plmapWrite (value : Word) : Statement (.plmapWrite value) := ⟨rfl, rfl⟩
theorem planeDead (plane : Nat) : Statement (.planeDead plane) := ⟨rfl, rfl⟩
theorem registerWrite (gid gidx : Nat) (number : BitVec 14) (value : Dword) : Statement (.registerWrite gid gidx number value) := ⟨rfl, rfl⟩
theorem unassignedOpcode (o : RawFields) : Statement (.unassignedOpcode o) := ⟨rfl, fun h => absurd rfl h⟩
theorem anchorAdvance (chan : Nat) : Statement (.anchorAdvance chan) := ⟨rfl, rfl⟩
theorem podPortDown (port : Nat) : Statement (.podPortDown port) := ⟨rfl, rfl⟩
theorem tick : Statement (.tick) := ⟨rfl, rfl⟩
theorem podPacketArrive : Statement (.podPacketArrive) := ⟨rfl, rfl⟩
theorem podReply : Statement (.podReply) := ⟨rfl, rfl⟩
theorem gapRequestReceive : Statement (.gapRequestReceive) := ⟨rfl, rfl⟩
theorem expiryReceive : Statement (.expiryReceive) := ⟨rfl, rfl⟩
theorem inboundRequest : Statement (.inboundRequest) := ⟨rfl, rfl⟩
theorem pciCompletion : Statement (.pciCompletion) := ⟨rfl, rfl⟩
theorem retrainRelease : Statement (.retrainRelease) := ⟨rfl, rfl⟩
theorem sidebandResetRequest : Statement (.sidebandResetRequest) := ⟨rfl, rfl⟩
theorem resetWindowCount : Statement (.resetWindowCount) := ⟨rfl, rfl⟩
theorem resetWindowExpire : Statement (.resetWindowExpire) := ⟨rfl, rfl⟩
theorem moduleReset : Statement (.moduleReset) := ⟨rfl, rfl⟩
theorem getVersion : Statement (.getVersion) := ⟨rfl, rfl⟩
theorem getCapabilities : Statement (.getCapabilities) := ⟨rfl, rfl⟩
theorem negotiateAlgorithms : Statement (.negotiateAlgorithms) := ⟨rfl, rfl⟩
theorem getDigests : Statement (.getDigests) := ⟨rfl, rfl⟩
theorem getCertificate : Statement (.getCertificate) := ⟨rfl, rfl⟩
theorem challenge : Statement (.challenge) := ⟨rfl, rfl⟩
theorem getMeasurements : Statement (.getMeasurements) := ⟨rfl, rfl⟩
theorem sidebandUnsupported : Statement (.sidebandUnsupported) := ⟨rfl, rfl⟩
theorem imageWrite : Statement (.imageWrite) := ⟨rfl, rfl⟩
theorem imageCommit : Statement (.imageCommit) := ⟨rfl, rfl⟩
theorem claimSend : Statement (.claimSend) := ⟨rfl, rfl⟩
theorem claimReceive : Statement (.claimReceive) := ⟨rfl, rfl⟩
theorem progressBeatSend : Statement (.progressBeatSend) := ⟨rfl, rfl⟩
theorem progressBeatTimeout : Statement (.progressBeatTimeout) := ⟨rfl, rfl⟩
theorem securityAlarm : Statement (.securityAlarm) := ⟨rfl, rfl⟩
theorem powerCapThrottle : Statement (.powerCapThrottle) := ⟨rfl, rfl⟩
theorem junctionThrottle : Statement (.junctionThrottle) := ⟨rfl, rfl⟩
theorem junctionReset : Statement (.junctionReset) := ⟨rfl, rfl⟩
theorem instructionFetchFault : Statement (.instructionFetchFault) := ⟨rfl, rfl⟩
theorem senderLossNotice : Statement (.senderLossNotice) := ⟨rfl, rfl⟩
theorem progressBeatReceive : Statement (.progressBeatReceive) := ⟨rfl, rfl⟩
theorem podConfigurationLoad : Statement (.podConfigurationLoad) := ⟨rfl, rfl⟩

end Laws.Opcode
end Sys2Proof
end

