-- ==== Sys2Proof/Laws/Reserve.lean ====
section
/-!
SUPPORT. What the test of the inkwell reserve says (R366): a page covers a frame of the reserve of that frame's home.
-/
namespace Sys2Proof.Machine

open Sys2Proof

theorem xor_foldl (g : Nat → Nat) (l : List Nat) (a : Nat) :
    l.foldl (fun h i => h ^^^ g i) a = a ^^^ l.foldl (fun h i => h ^^^ g i) 0 := by
  induction l generalizing a with
  | nil => simp
  | cons b l ih => rw [List.foldl_cons, List.foldl_cons, ih, ih (0 ^^^ g b), Nat.zero_xor, Nat.xor_assoc]

/-- The fold of a number takes its low 5 bits beside the fold of the rest. -/
theorem fold5_low (n b k : Nat) (hk : k < 32) : fold5 (n + 1) (32 * b + k) = k ^^^ fold5 n b := by
  unfold fold5
  rw [List.range_succ_eq_map, List.foldl_cons, List.foldl_map, xor_foldl (fun i => (32 * b + k) / 32 ^ (i + 1) % 32)]
  have h0 : (0 ^^^ (32 * b + k) / 32 ^ 0 % 32) = k := by rw [Nat.zero_xor, Nat.pow_zero, Nat.div_one]; omega
  have hi : ∀ i, (32 * b + k) / 32 ^ (i + 1) % 32 = b / 32 ^ i % 32 := by
    intro i
    rw [Nat.pow_succ', ← Nat.div_div_eq_div_mul, show (32 * b + k) / 32 = b by omega]
  rw [h0]
  simp only [hi]

theorem fold5_lt (n b : Nat) : fold5 n b < 32 := by
  unfold fold5
  have : ∀ (l : List Nat) a, a < 32 → l.foldl (fun h i => h ^^^ b / 32 ^ i % 32) a < 32 := by
    intro l
    induction l with
    | nil => intro a h; exact h
    | cons i l ih => intro a h; exact ih _ (Nat.xor_lt_two_pow (n := 5) h (Nat.mod_lt _ (by decide)))
  exact this _ 0 (by decide)

/-- Of 32 units that stand together every die of an interleaved page's list has one. -/
theorem homeOf_onto (dies : List Nat) (e b d : Nat) (hn : dies.length ≤ 32) (h0 : pePlace e = 0 ∨ pePlace e = 2) (hd : d ∈ dies) :
    ∃ k, k < 32 ∧ homeOf dies e ((32 * b + k) * 2 ^ (if pePlace e = 2 then 21 else 12)) = d := by
  obtain ⟨j, hj, hjd⟩ := List.mem_iff_getElem.mp hd
  have key : ∀ m, ∃ k, k < 32 ∧ fold5 (m + 1) (32 * b + k) = j := by
    intro m
    refine ⟨j ^^^ fold5 m b, Nat.xor_lt_two_pow (n := 5) (by omega) (fold5_lt m b), ?_⟩
    rw [fold5_low _ _ _ (Nat.xor_lt_two_pow (n := 5) (by omega) (fold5_lt m b)), Nat.xor_assoc, Nat.xor_self, Nat.xor_zero]
  rcases h0 with h | h
  · obtain ⟨k, hk, he⟩ := key 7
    refine ⟨k, hk, ?_⟩
    simp only [homeOf, h, Nat.zero_ne_one, if_false, if_true, show ¬(0 = 2) from by decide]
    rw [Nat.mul_div_cancel _ (by decide), he, Nat.mod_eq_of_lt hj, List.getElem?_eq_getElem hj]
    exact hjd
  · obtain ⟨k, hk, he⟩ := key 5
    refine ⟨k, hk, ?_⟩
    simp only [homeOf, h, if_false, if_true, show ¬(2 = 1) from by decide, show ¬(2 = 0) from by decide]
    rw [Nat.mul_div_cancel _ (by decide), he, Nat.mod_eq_of_lt hj, List.getElem?_eq_getElem hj]
    exact hjd

theorem homeOf_mem (dies : List Nat) (e a : Nat) (hne : dies ≠ []) (h0 : pePlace e = 0 ∨ pePlace e = 2) : homeOf dies e a ∈ dies := by
  have hl : 0 < dies.length := List.length_pos_iff.mpr hne
  have pick : ∀ h, (dies[h % dies.length]?).getD 0 ∈ dies := by
    intro h
    rw [List.getElem?_eq_getElem (Nat.mod_lt _ hl)]
    exact List.getElem_mem _
  rcases h0 with h | h <;> simp only [homeOf, h] <;> simp [pick]

/-- A frame and the unit that it is in have one home. -/
theorem homeOf_unit (dies : List Nat) (e a b : Nat)
    (h : a / 2 ^ (if pePlace e = 2 then 21 else 12) = b / 2 ^ (if pePlace e = 2 then 21 else 12)) :
    homeOf dies e a = homeOf dies e b := by
  unfold homeOf
  by_cases h1 : pePlace e = 1
  · simp [h1]
  · by_cases h0 : pePlace e = 0
    · have : ¬pePlace e = 2 := by omega
      rw [if_neg this] at h
      simp only [h0, if_true, h]
    · by_cases h2 : pePlace e = 2
      · rw [if_pos h2] at h
        simp only [h0, h1, if_false, h]
      · have := Nat.mod_lt (e / 2 ^ 8) (show 0 < 4 by decide)
        have h3 : pePlace e = 3 := by unfold pePlace at *; omega
        rw [if_neg h2] at h
        simp only [h1, h0, if_false]
        have : a / 2 ^ 21 = b / 2 ^ 21 := by
          have e1 : a / 2 ^ 21 = a / 2 ^ 12 / 2 ^ 9 := by omega
          have e2 : b / 2 ^ 21 = b / 2 ^ 12 / 2 ^ 9 := by omega
          rw [e1, e2, h]
        rw [this]

/-- A reserve begins at a multiple of 64 MiB. -/
theorem State.reserve_start (s : State) (d : Nat) : 2 ^ 26 ∣ 2 ^ 37 - s.reserve d := by
  apply Nat.dvd_sub
  · exact ⟨2 ^ 11, by decide⟩
  · unfold State.reserve
    apply Nat.dvd_add
    · exact ⟨_, rfl⟩
    · split
      · exact ⟨_, rfl⟩
      · exact Nat.dvd_zero _

/-- A multiple of m lies at or below the start of a stretch of m bytes if it lies at or below its last byte. -/
theorem le_of_dvd_last {m B a : Nat} (hm : 0 < m) (hB : m ∣ B) (ha : m ∣ a) (h : B ≤ a + m - 1) : B ≤ a := by
  obtain ⟨p, rfl⟩ := hB
  obtain ⟨q, rfl⟩ := ha
  apply Nat.mul_le_mul_left
  by_cases hlt : p ≤ q
  · exact hlt
  · have : m * (q + 1) ≤ m * p := Nat.mul_le_mul_left m (by omega)
    rw [Nat.mul_succ] at this
    omega

/-- THE TEST OF THE RESERVE (R366): a page covers a frame of the inkwell reserve of the die that is that frame's home. -/
theorem State.coversReserve_iff (s : State) (dies : List Nat) (e base bits : Nat) (hn : dies.length ≤ 32)
    (hne : pePlace e ≠ 1 → dies ≠ []) (h3 : pePlace e ≠ 3) (hbits : 12 ≤ bits) (hb : base % 2 ^ bits = 0) :
    s.coversReserve dies e base bits = true ↔
      ∃ a, a % 2 ^ 12 = 0 ∧ base ≤ a ∧ a < base + 2 ^ bits ∧ 2 ^ 37 - s.reserve (homeOf dies e a) ≤ a := by
  have hpow : 0 < 2 ^ bits := Nat.two_pow_pos bits
  have hbd : 2 ^ bits ∣ base := Nat.dvd_of_mod_eq_zero hb
  have h12 : 2 ^ 12 ∣ 2 ^ bits := Nat.pow_dvd_pow 2 hbits
  have hb12 : 2 ^ 12 ∣ base := Nat.dvd_trans h12 hbd
  have hge : 2 ^ 12 ≤ 2 ^ bits := Nat.le_of_dvd hpow h12
  have h1226 : 2 ^ 12 ∣ 2 ^ 26 := Nat.pow_dvd_pow 2 (by decide)
  unfold State.coversReserve
  by_cases h1 : pePlace e = 1
  · simp only [h1, if_true, decide_eq_true_eq]
    have hh : ∀ a, homeOf dies e a = peHome e := fun a => by simp [homeOf, h1]
    simp only [hh]
    constructor
    · intro h
      refine ⟨base + 2 ^ bits - 2 ^ 12, ?_, by omega, by omega, ?_⟩
      · exact Nat.mod_eq_zero_of_dvd (Nat.dvd_sub (Nat.dvd_add hb12 h12) (Nat.dvd_refl _))
      · apply le_of_dvd_last (m := 2 ^ 12) (by decide) (Nat.dvd_trans h1226 (s.reserve_start _))
          (Nat.dvd_sub (Nat.dvd_add hb12 h12) (Nat.dvd_refl _))
        omega
    · rintro ⟨a, -, -, h4, h5⟩
      omega
  · have h02 : pePlace e = 0 ∨ pePlace e = 2 := by
      have := Nat.mod_lt (e / 2 ^ 8) (show 0 < 4 by decide)
      unfold pePlace at *; omega
    have hds := hne h1
    simp only [h1, if_false]
    generalize hu : (if pePlace e = 2 then 21 else 12) = unit
    have hu' : unit = 21 ∨ unit = 12 := by rw [← hu]; split <;> simp
    have hunit : ∀ a b, a / 2 ^ unit = b / 2 ^ unit → homeOf dies e a = homeOf dies e b := by
      intro a b h; exact homeOf_unit dies e a b (by rw [hu]; exact h)
    have hu12 : 2 ^ 12 ∣ 2 ^ unit := Nat.pow_dvd_pow 2 (by omega)
    have hup : 0 < 2 ^ unit := Nat.two_pow_pos unit
    by_cases hsmall : bits ≤ unit + 4
    · rw [if_pos hsmall, List.any_eq_true]
      simp only [List.mem_range, decide_eq_true_eq]
      have hmin : 2 ^ min bits unit ∣ 2 ^ bits := Nat.pow_dvd_pow 2 (Nat.min_le_left _ _)
      have hminu : 2 ^ min bits unit ∣ 2 ^ unit := Nat.pow_dvd_pow 2 (Nat.min_le_right _ _)
      have hmin12 : 2 ^ 12 ∣ 2 ^ min bits unit := Nat.pow_dvd_pow 2 (by omega)
      have hmin26 : 2 ^ min bits unit ∣ 2 ^ 26 := Nat.pow_dvd_pow 2 (by omega)
      have hminp : 0 < 2 ^ min bits unit := Nat.two_pow_pos _
      have hsplit : 2 ^ (bits - min bits unit) * 2 ^ min bits unit = 2 ^ bits := by
        rw [← Nat.pow_add]; congr 1; omega
      constructor
      · rintro ⟨i, hi, h⟩
        have hd : 2 ^ min bits unit ∣ base + i * 2 ^ unit :=
          Nat.dvd_add (Nat.dvd_trans hmin hbd) (Nat.dvd_trans hminu (Nat.dvd_mul_left _ _))
        refine ⟨base + i * 2 ^ unit, Nat.mod_eq_zero_of_dvd (Nat.dvd_trans hmin12 hd), by omega, ?_, ?_⟩
        · by_cases hlt : bits < unit
          · have : min bits unit = bits := by omega
            rw [this, Nat.sub_self, Nat.pow_zero] at hi
            have : i = 0 := by omega
            subst this; omega
          · have : min bits unit = unit := by omega
            rw [this] at hsplit hi
            have := Nat.mul_lt_mul_of_pos_right hi hup
            omega
        · exact le_of_dvd_last hminp (Nat.dvd_trans hmin26 (s.reserve_start _)) hd h
      · rintro ⟨a, -, h5, h6, h7⟩
        refine ⟨(a - base) / 2 ^ unit, ?_, ?_⟩
        · by_cases hlt : bits < unit
          · have hle : 2 ^ bits ≤ 2 ^ unit := Nat.pow_le_pow_right (by decide) (by omega)
            rw [Nat.div_eq_of_lt (by omega)]
            exact Nat.two_pow_pos _
          · have : min bits unit = unit := by omega
            rw [this] at hsplit ⊢
            exact (Nat.div_lt_iff_lt_mul hup).mpr (by omega)
        · have hq := Nat.div_mul_le_self (a - base) (2 ^ unit)
          have hlow : a - base < (a - base) / 2 ^ unit * 2 ^ unit + 2 ^ min bits unit := by
            by_cases hlt : bits < unit
            · have : min bits unit = bits := by omega
              rw [this]; omega
            · have : min bits unit = unit := by omega
              rw [this]
              have := Nat.lt_div_mul_add hup (a := a - base)
              omega
          have hhome : homeOf dies e (base + (a - base) / 2 ^ unit * 2 ^ unit) = homeOf dies e a := by
            apply hunit
            by_cases hlt : bits < unit
            · have hle : 2 ^ bits ∣ 2 ^ unit := Nat.pow_dvd_pow 2 (by omega)
              have hle' : 2 ^ bits ≤ 2 ^ unit := Nat.le_of_dvd hup hle
              rw [Nat.div_eq_of_lt (show a - base < 2 ^ unit by omega), Nat.zero_mul, Nat.add_zero]
              obtain ⟨q, hq'⟩ := hle
              rw [hq', ← Nat.div_div_eq_div_mul, ← Nat.div_div_eq_div_mul]
              congr 1
              obtain ⟨p, rfl⟩ := hbd
              rw [Nat.mul_div_cancel_left _ hpow]
              have : a = 2 ^ bits * p + (a - 2 ^ bits * p) := by omega
              rw [this, Nat.mul_add_div hpow, Nat.div_eq_of_lt (by omega)]; omega
            · have hle : 2 ^ unit ∣ base := Nat.dvd_trans (Nat.pow_dvd_pow 2 (by omega)) hbd
              obtain ⟨p, hp⟩ := hle
              have e1 : a = 2 ^ unit * p + (a - base) := by omega
              have e2 : base + (a - base) / 2 ^ unit * 2 ^ unit = 2 ^ unit * p + 2 ^ unit * ((a - base) / 2 ^ unit) := by
                rw [Nat.mul_comm ((a - base) / 2 ^ unit)]; omega
              rw [e2, Nat.mul_add_div hup, Nat.mul_div_cancel_left _ hup]
              conv => rhs; rw [e1, Nat.mul_add_div hup]
          rw [hhome]
          omega
    · rw [if_neg hsmall, List.any_eq_true]
      simp only [decide_eq_true_eq]
      have hbig : 2 ^ (unit + 5) ∣ 2 ^ bits := Nat.pow_dvd_pow 2 (by omega)
      have hbigp : 0 < 2 ^ (unit + 5) := Nat.two_pow_pos _
      have hbigle : 2 ^ (unit + 5) ≤ 2 ^ bits := Nat.le_of_dvd hpow hbig
      have h32 : 2 ^ (unit + 5) = 32 * 2 ^ unit := by rw [Nat.pow_add]; omega
      have hbig26 : 2 ^ (unit + 5) ∣ 2 ^ 26 := Nat.pow_dvd_pow 2 (by omega)
      constructor
      · rintro ⟨d, hd, h⟩
        have hchunk : 2 ^ (unit + 5) ∣ base + 2 ^ bits - 2 ^ (unit + 5) :=
          Nat.dvd_sub (Nat.dvd_add (Nat.dvd_trans hbig hbd) hbig) (Nat.dvd_refl _)
        obtain ⟨b, hbq⟩ := id hchunk
        obtain ⟨k, hk, hhome⟩ := homeOf_onto dies e b d hn h02 hd
        rw [hu] at hhome
        have hB := le_of_dvd_last hbigp (Nat.dvd_trans hbig26 (s.reserve_start d)) hchunk (by omega)
        have hval : (32 * b + k) * 2 ^ unit = base + 2 ^ bits - 2 ^ (unit + 5) + k * 2 ^ unit := by
          rw [hbq, h32, Nat.add_mul]
          congr 1
          rw [Nat.mul_assoc, Nat.mul_assoc]
          congr 1
          rw [Nat.mul_comm]
        have hkl : k * 2 ^ unit < 32 * 2 ^ unit := Nat.mul_lt_mul_of_pos_right hk hup
        refine ⟨(32 * b + k) * 2 ^ unit, Nat.mod_eq_zero_of_dvd (Nat.dvd_trans hu12 (Nat.dvd_mul_left _ _)), ?_, ?_, ?_⟩
        · rw [hval]; omega
        · rw [hval]; omega
        · rw [hhome, hval]; omega
      · rintro ⟨a, -, -, h6, h7⟩
        exact ⟨homeOf dies e a, homeOf_mem dies e a hds h02, by omega⟩

end Sys2Proof.Machine
end

