-- ==== Sys2Proof/Laws/Trap.lean ====
section
/-!
SUPPORT. What taking a trap, returning from one, and a step can do.
-/
namespace Sys2Proof.Machine

open Sys2Proof

/-- Taking traps does one of four things: nothing, where none traps; entry to the handler on a control core (R320); a fragment in
the lowest free entry (R36); or, with none free, a whole warp parked (R37). -/
theorem State.takeTraps_cases (s : State) (g : Group) (set : List Nat) (traps : List (Nat × TrapInfo)) :
    (traps = [] ∧ s.takeTraps g set traps = (s, false)) ∨
    (g.control.isSome = true ∧
      s.takeTraps g set traps = (traps.foldl (fun s p => s.modThread g.gid p.1 fun t => t.enterTrap p.2) s, false)) ∨
    (∃ e, g.control = none ∧ (s.core g.place.die g.place.core).freeEntry = some e ∧
      s.takeTraps g set traps = (s.splitFragment g.gid e traps, false)) ∨
    (∃ p rest, traps = p :: rest ∧ g.control = none ∧ (s.core g.place.die g.place.core).freeEntry = none ∧
      s.takeTraps g set traps = (s.parkWarp g.gid set p.2, true)) := by
  cases traps with
  | nil => exact .inl ⟨rfl, rfl⟩
  | cons p rest =>
    obtain ⟨t, i⟩ := p
    cases hc : g.control with
    | some k => exact .inr (.inl ⟨rfl, by simp [State.takeTraps, hc]⟩)
    | none =>
      cases he : (s.core g.place.die g.place.core).freeEntry with
      | some e => exact .inr (.inr (.inl ⟨e, rfl, rfl, by simp [State.takeTraps, hc, he]⟩))
      | none => exact .inr (.inr (.inr ⟨(t, i), rest, rfl, rfl, rfl, by simp [State.takeTraps, hc, he]⟩))

/-- A free entry of a fragment table is the lowest of 64 that holds no fragment (R36, R397). -/
theorem Core.freeEntry_some {c : Core} {e : Nat} (h : c.freeEntry = some e) : e < 64 ∧ tfind c.frags e = none := by
  have h1 := List.find?_some h
  have h2 := List.mem_of_find?_eq_some h
  simp only [List.mem_range] at h2
  exact ⟨h2, by simpa using h1⟩

@[simp] theorem Thread.enterTrap_epc (t : Thread) (i : TrapInfo) : (t.enterTrap i).epc = t.pc.zeroExtend 64 := rfl
@[simp] theorem Thread.enterTrap_tval (t : Thread) (i : TrapInfo) : (t.enterTrap i).tval = i.tval := rfl
@[simp] theorem Thread.enterTrap_ppl (t : Thread) (i : TrapInfo) : (t.enterTrap i).ppl = t.pl := rfl
@[simp] theorem Thread.enterTrap_pc (t : Thread) (i : TrapInfo) : (t.enterTrap i).pc = t.vbase.extractLsb' 0 56 := rfl
@[simp] theorem Thread.enterTrap_pl (t : Thread) (i : TrapInfo) : (t.enterTrap i).pl = if t.pl == 2 then 2 else 1 := rfl
@[simp] theorem Thread.enterTrap_regs (t : Thread) (i : TrapInfo) : (t.enterTrap i).regs = t.regs := rfl
@[simp] theorem Thread.enterTrap_fe (t : Thread) (i : TrapInfo) : (t.enterTrap i).fe = t.fe := rfl

/-- A return after an entry goes to the interrupted program counter and level (R320, R331). -/
theorem Thread.returnFromTrap_enterTrap (t : Thread) (i : TrapInfo) (h : t.pc.extractLsb' 0 2 = 0) :
    (t.enterTrap i).returnFromTrap = some { t.enterTrap i with pl := t.pl, ppl := 0, pc := t.pc } := by
  have h1 : (t.pc.zeroExtend 64).extractLsb' 0 2 = t.pc.extractLsb' 0 2 := by
    ext j hj; simp [BitVec.getElem_extractLsb']; omega
  have h2 : (t.pc.zeroExtend 64).extractLsb' 56 8 = 0 := by
    ext j hj; simp [BitVec.getElem_extractLsb']
  have h3 : (t.pc.zeroExtend 64).extractLsb' 0 56 = t.pc := by
    ext j hj; simp [BitVec.getElem_extractLsb', BitVec.getLsbD_eq_getElem hj]; omega
  simp [Thread.returnFromTrap, h1, h2, h3, h]

/-- What a step does: the turn that the agenda or the model's own order names, and what it settles (log entry 4). -/
theorem step_eq (s : State) : (∃ t rest, s.agenda = t :: rest ∧ step s = settled ({ s with agenda := rest }.turn t)) ∨
    (s.agenda = [] ∧ step s = settled ({ s with agenda := s.nextTurns.2 }.turn s.nextTurns.1)) := by
  unfold step
  split
  · rename_i t rest h; exact .inl ⟨t, rest, h, rfl⟩
  · rename_i h; exact .inr ⟨h, rfl⟩

/-- A settled outcome that goes on ends in a settled state. -/
theorem settled_next {r : Host.Outcome State Fault Refusal} {T : State} (h : settled r = .next T) :
    ∃ s, r = .next s ∧ T = s.settle := by
  cases r with
  | next s => simp only [settled, Host.Outcome.next.injEq] at h; exact ⟨s, rfl, h.symm⟩
  | fault f => simp only [settled, reduceCtorEq] at h
  | refused f => simp only [settled, reduceCtorEq] at h

end Sys2Proof.Machine
end

