-- ==== Sys2Proof/Tests/Slice0.lean ====
section
/-!
SUPPORT. Tests: ill-formed terms that each check of WellFormed refuses, words of the spec's encodings decoded, results of the
spec's worked examples, and for every statement with hypotheses a concrete state and operands that meet them.
-/
set_option Elab.async false

namespace Sys2Proof.Tests

open Sys2Proof Sys2Proof.Machine

/-- Tables in die 0's replica: context 0 in polder 0 with the image's page and, after it, a page of data for every level, a window to
chip 12, and a page of the token class. -/
def tables : Memory :=
  (cellsOf (bootWords 1 ++ [(Config.bootRoot + 0x4008, imageFrame + 4096 + 0x17B),
    (Config.bootRoot + 0x4010, imageFrame + 0x35B + 12 * 2 ^ 55), (Config.bootRoot + 0x4018, imageFrame + 0x3000 + 0x1FB)])).map fun c => (storageKey 0 0 + c.1, c.2)
/-- The data page's address. -/
def page : Nat := Config.imageBase + 0x1000

/-- A thread with registers written, at a program counter, issuing. -/
def thread (gidx lane : Nat) (pl : BitVec 2) (rs : List (Nat × Word)) : Thread :=
  { Thread.controlReset with gidx := gidx, lane := lane, pl := pl, pc := 0x100000000, state := .issuing, regs := rs }

/-- Control-core thread 0 issuing. -/
def ctl (rs : List (Nat × Word)) : State :=
  { State.reset with
      cur := (32, 0, 0), mem := tables, ports := { State.reset.ports with boot := .running }
      groups := [(0, { Group.controlReset 0 with threads := [(0, thread 0 0 2 rs)] })]
      strokes := [⟨32, 0, 0, 0, 1, [0], 0, false⟩] }

/-- A compute group's record with two threads, on die 0, core 0, slot 0. -/
def pair (rs rs' : List (Nat × Word)) : Group :=
  { Group.controlReset 200 with
      control := none, place := ⟨0, 0, 0⟩, name := 0x100000000, lid := 7, nthr := 2, scratchSize := 4096, tiles := 8,
      warps := [⟨1, .normal, [(0, 0), (1, 1)], none⟩], threads := [(0, thread 0 0 0 rs), (1, thread 1 1 0 rs')] }

/-- A compute group of two threads issuing. -/
def grp (rs rs' : List (Nat × Word)) : State :=
  { ctl [] with cur := (0, 0, 0), groups := [(200, pair rs rs')], strokes := [⟨0, 0, 0, 200, 1, [0, 1], 0, false⟩] }

/-- The lane set that issues. -/
def setOf (s : State) : Issue := s.issue.getD ⟨⟨0, 0, 0, 0, 0, [], 0, false⟩, Group.controlReset 0, [], 0⟩
/-- An instruction's view. -/
def viewOf (i : Instr) : View := i.view.getD ⟨0, .raw, 0, false, .none⟩

/-- `Ready` as a test. -/
def isReady (s : State) (i : Instr) : Bool :=
  let x := setOf s
  let v := viewOf i
  s.issue == some x && i.view == some v && (!x.group.control.isSome || (x.lanes.head?.bind Thread.trapped).isNone) &&
  x.staticTrap i v == none && (!v.tail.modifier.me || x.lanes.all fun t => t.isFull v.tail.modifier.m.toNat) &&
  (x.lanes.all fun t => !laneActive v.tail.modifier t || (t.emptyOperands (i.sig v) v).isEmpty) &&
  x.lanes.all fun t => (x.errorRead i v t).isNone

theorem ready {s : State} {i : Instr} (h : isReady s i = true) : Ready s i (setOf s) (viewOf i) := by
  simp only [isReady, Bool.and_eq_true, beq_iff_eq, Bool.or_eq_true, Bool.not_eq_true', List.all_eq_true,
    List.isEmpty_iff, Option.isNone_iff_eq_none] at h
  obtain ⟨⟨⟨⟨⟨⟨h1, h2⟩, h3⟩, h4⟩, h5⟩, h6⟩, h7⟩ := h
  exact ⟨h1, h2, fun h => h3.resolve_left (by simp [h]), h4, fun h => h5.resolve_left (by simp [h]),
    fun t ht h => (h6 t ht).resolve_left (by simp [h]), h7⟩

/-! ## Operand forms for samples -/

/-- Format RRR with d, a and b. -/
def r3 (d a b : RegNum) : Rrr := ⟨b, a, d, false, .none⟩
/-- Format RRR with d, a, b and a modifier word. -/
def r4 (d a b : RegNum) (m : Modifier) : Rrr := ⟨b, a, d, false, .mod m⟩
/-- Format RRI. -/
def ri7 (d a : RegNum) (n : BitVec 7) : Rri := ⟨n, a, d, false, .none⟩
/-- A modifier word with X. -/
def mx (x : BitVec 3) : Modifier := { Modifier.absent with x := x }
/-- A modifier word with C. -/
def mc (c : RegNum) : Modifier := { Modifier.absent with c := c }

/-- Every instruction of a list is ready in a state. -/
theorem readyAll {s : State} {is : List Instr} (h : is.all (isReady s) = true) :
    ∀ i ∈ is, ∃ x v, Ready s i x v := fun i hi => ⟨_, _, ready (List.all_eq_true.mp h i hi)⟩

theorem ok_of {ε α : Type} {e : Except ε α} {a : α} (h : e.toOption = some a) : e = .ok a := by
  cases e with
  | ok b => cases h; rfl
  | error _ => cases h

theorem error_of {ε α : Type} {e : Except ε α} (h : e.toOption = none) : ∃ x, e = .error x := by
  cases e with
  | ok b => cases h
  | error x => exact ⟨x, rfl⟩

/-- A word of the data page. -/
def withWord (s : State) (off : Nat) (w : Word) : State :=
  { s with mem := s.mem.writeN (storageKey 0 (imageFrame + 4096 + off)) (bytesOfWord w) }

/-- The location that an outcome gives, or one that nothing uses. -/
def locOf (e : Except TrapInfo Loc) : Loc := e.toOption.getD ⟨0, 0, 0, false, false, 0, 0⟩
theorem ok_locOf {e : Except TrapInfo Loc} (h : e.toOption.isSome = true) : e = .ok (locOf e) := by
  cases e with
  | ok b => rfl
  | error _ => cases h

/-- Whether an access of every active lane passes its checks, with room in every class and buffer. -/
def accessOk (s : State) (p : Instr × Space × Nat × Need) : Bool :=
  let x := setOf s
  let v := viewOf p.1
  isReady s p.1 && (x.active v).all fun t => decide (t.outstanding .load < 64) && decide (t.sb.length + 2 ≤ 64) &&
    (s.access x.group t v p.2.1 p.2.2.1 p.2.2.2).toOption.isSome
theorem accessReady {s : State} {ps : List (Instr × Space × Nat × Need)} (h : ps.all (accessOk s) = true) :
    ∀ p ∈ ps, ∃ x v, ∃ l : Thread → Loc, Ready s p.1 x v ∧ ∀ t ∈ x.active v, t.outstanding .load < 64 ∧ t.sb.length + 2 ≤ 64 ∧
      s.access x.group t v p.2.1 p.2.2.1 p.2.2.2 = .ok (l t) := by
  intro p hp
  have := List.all_eq_true.mp h p hp
  simp only [accessOk, Bool.and_eq_true, List.all_eq_true, decide_eq_true_eq] at this
  exact ⟨_, _, fun t => locOf _, ready this.1, fun t ht => ⟨(this.2 t ht).1.1, (this.2 t ht).1.2, ok_locOf (this.2 t ht).2⟩⟩

/-- Whether the access of a control-core thread fails its checks without a LEVEE. -/
def accessTraps (s : State) (p : Instr × Space × Nat × Need) : Bool :=
  let x := setOf s
  let v := viewOf p.1
  isReady s p.1 && match x.group.control, x.lanes with
    | some _, [t] => laneActive v.tail.modifier t && decide (t.outstanding .load < 64) && decide (t.sb.length + 2 ≤ 64) &&
      match s.access x.group t v p.2.1 p.2.2.1 p.2.2.2 with
      | .error e => e.cause != .levee
      | .ok _ => false
    | _, _ => false
theorem accessTrapReady {s : State} {ps : List (Instr × Space × Nat × Need)} (h : ps.all (accessTraps s) = true) :
    ∀ p ∈ ps, ∃ x v t k e, Ready s p.1 x v ∧ x.group.control = some k ∧ x.lanes = [t] ∧ laneActive v.tail.modifier t = true ∧
      t.outstanding .load < 64 ∧ t.sb.length + 2 ≤ 64 ∧ s.access x.group t v p.2.1 p.2.2.1 p.2.2.2 = .error e ∧
      e.cause ≠ .levee := by
  intro p hp
  have := List.all_eq_true.mp h p hp
  simp only [accessTraps, Bool.and_eq_true] at this
  obtain ⟨h1, h2⟩ := this
  split at h2
  · rename_i k t hk ht
    simp only [Bool.and_eq_true, decide_eq_true_eq] at h2
    obtain ⟨⟨⟨h3, h4⟩, h5⟩, h6⟩ := h2
    split at h6
    · rename_i e he
      exact ⟨_, _, t, k, e, ready h1, hk, ht, h3, h4, h5, he, by simpa using h6⟩
    · cases h6
  · cases h2

/-- Every active lane of a ready instruction meets a test. -/
def lanesOk (s : State) (i : Instr) (f : Issue → View → Thread → Bool) : Bool :=
  isReady s i && ((setOf s).active (viewOf i)).all (f (setOf s) (viewOf i))
theorem lanesReady {s : State} {i : Instr} {f : Issue → View → Thread → Bool} (h : lanesOk s i f = true) :
    ∃ x v, Ready s i x v ∧ ∀ t ∈ x.active v, f x v t = true := by
  simp only [lanesOk, Bool.and_eq_true, List.all_eq_true] at h
  exact ⟨_, _, ready h.1, h.2⟩

/-- The data page's first block, and its location. -/
def blk : Nat := storageKey 0 (imageFrame + 4096)
def loc0 : Loc := ⟨0x100001000, blk, 0, false, false, 0, 0⟩

/-! ## Ill-formed instructions, one for each check -/

/-- R77: an instruction that reads c needs a modifier word. -/
theorem test_illformed_length : (Instr.addc (r3 8 4 6)).wellFormed = false := by decide
/-- R71: a literal replaces an immediate that must be zero. -/
theorem test_illformed_literal : (Instr.addImm7 ⟨1, 4, 8, false, .lit 5⟩).wellFormed = false := by decide
/-- R143: a literal target is a multiple of four below 2^56. -/
theorem test_illformed_target : (Instr.br ⟨0, false, .lit 6⟩).wellFormed = false := by decide
/-- R69: a field that is not used is zero. -/
theorem test_illformed_unused : (Instr.abs (r3 8 4 6)).wellFormed = false := by decide
/-- R57: a pair starts at an even register. -/
theorem test_illformed_pair : (Instr.add64 (r3 9 4 6)).wellFormed = false := by decide
/-- Table 3-9: bits [31:28] of a modifier word are zero. -/
theorem test_illformed_zero4 : (Instr.add (r4 8 4 6 { Modifier.absent with zero4 := 1 })).wellFormed = false := by decide
/-- R77: M is zero without ME. -/
theorem test_illformed_mask : (Instr.add (r4 8 4 6 { Modifier.absent with m := 3 })).wellFormed = false := by decide
/-- R77: C is zero where no operand c is read. -/
theorem test_illformed_c : (Instr.add (r4 8 4 6 (mc 3))).wellFormed = false := by decide
/-- R77: a TE bit needs an operand that it governs. -/
theorem test_illformed_tea : (Instr.nop (r4 0 0 0 { Modifier.absent with tea := true })).wellFormed = false := by decide
theorem test_illformed_teb : (Instr.abs (r4 8 4 0 { Modifier.absent with teb := true })).wellFormed = false := by decide
theorem test_illformed_tec : (Instr.add (r4 8 4 6 { Modifier.absent with tec := true })).wellFormed = false := by decide
/-- Table 3-9: RM has six codes, and only a rounding instruction takes one. -/
theorem test_illformed_rm : (Instr.fadd .f32 (r4 8 4 6 { Modifier.absent with rm := 6 })).wellFormed = false := by decide
theorem test_illformed_rm_unused : (Instr.add (r4 8 4 6 { Modifier.absent with rm := 1 })).wellFormed = false := by decide
/-- R77: SAT, X, SC and ZM where the entry accepts them. -/
theorem test_illformed_sat : (Instr.and (r4 8 4 6 { Modifier.absent with sat := true })).wellFormed = false := by decide
theorem test_illformed_x : (Instr.addc (r4 20 4 8 { mc 30 with x := 2 })).wellFormed = false := by decide
theorem test_illformed_sc : (Instr.stLW ⟨0, 4, 8, false, .mod { Modifier.absent with sc := 1 }⟩).wellFormed = false := by decide
theorem test_illformed_zm : (Instr.stGW ⟨0, 4, 8, false, .mod { Modifier.absent with zm := true }⟩).wellFormed = false := by decide
/-- R60: only a register of Table 3-1 is named, and `setsr` names one that may be written. -/
theorem test_illformed_special : (Instr.getsr ⟨0x003, 8, false, .none⟩).wellFormed = false := by decide
theorem test_illformed_setsr : (Instr.setsr ⟨0x000, 8, false, .none⟩).wellFormed = false := by decide
/-- Table 6-1: a barrier number is below 16. -/
theorem test_illformed_bar : (Instr.bar (r3 0 0 16)).wellFormed = false := by decide
/-- R224: `red` takes no compare-and-swap. -/
theorem test_illformed_red : (Instr.red (r4 0 4 0x48 (mc 9))).wellFormed = false := by decide
/-- R80: a word of an unassigned opcode is never well formed. -/
theorem test_illformed_opcode : (Instr.unassignedOpcode ⟨0, 0x69, false, .none⟩).wellFormed = false := by decide

/-! ## Words written out in the spec -/

/-- spec/05_isa_integer.md, worked encodings. -/
theorem test_decode_addc : decodeWords [0x1010A011, 0x0000001E] = .ok (.addc ⟨8, 4, 20, false, (.mod { Modifier.absent with c := 30 })⟩, []) := rfl
/-- spec/05_isa_integer.md, worked encodings. -/
theorem test_decode_addc_carry : decodeWords [0x1010B811, 0x0080001E] = .ok (.addc ⟨8, 4, 23, false, (.mod { Modifier.absent with x := 1, c := 30 })⟩, []) := rfl
/-- spec/14_assembly_reference.md, worked encodings. -/
theorem test_decode_shl_stroke : decodeWords [0x040831DC] = .ok (.shlImm7 ⟨2, 2, 6, true, .none⟩, []) := rfl
/-- spec/15_program_sparse_matrix.md, worked encodings. -/
theorem test_decode_add_negative : decodeWords [0xFE3C79C0] = .ok (.addImm7 ⟨0x7F, 15, 15, false, .none⟩, []) := rfl
/-- spec/15_program_sparse_matrix.md, worked encodings. -/
theorem test_decode_cmp_gt : decodeWords [0x003CC1F1, 0x02000000] = .ok (.cmpImm7 ⟨0, 15, 24, false, (.mod { Modifier.absent with x := 4 })⟩, []) := rfl
/-- spec/15_program_sparse_matrix.md, worked encodings. -/
theorem test_decode_lea : decodeWords [0x1C102128] = .ok (.lea ⟨14, 4, 4, false, .none⟩, []) := rfl
/-- spec/18_program_pod_register.md, worked encodings. -/
theorem test_decode_mov : decodeWords [0x0050A988] = .ok (.mov ⟨0, 20, 21, false, .none⟩, []) := rfl
/-- spec/18_program_pod_register.md, worked encodings. -/
theorem test_decode_arm : decodeWords [0x0000A1B8] = .ok (.arm ⟨0, 0, 20, false, .none⟩, []) := rfl
/-- spec/18_program_pod_register.md, worked encodings. -/
theorem test_decode_getsr : decodeWords [0x00305198] = .ok (.getsr ⟨0x00C, 10, false, .none⟩, []) := rfl
/-- spec/07_isa_float.md, worked encodings. -/
theorem test_decode_fma_f64 : decodeWords [0x1C305269, 0x00000010] = .ok (.fma .f64 ⟨14, 12, 10, false, (.mod { Modifier.absent with c := 16 })⟩, []) := rfl
/-- spec/07_isa_float.md, worked encodings. -/
theorem test_decode_fsqrt : decodeWords [0x001822F9, 0x00800000] = .ok (.fsqrt ⟨0, 6, 4, false, (.mod { Modifier.absent with x := 1 })⟩, []) := rfl
/-- spec/07_isa_float.md, worked encodings. -/
theorem test_decode_cvt : decodeWords [0x00144341, 0x00000024] = .ok (.cvt ⟨0, 5, 8, false, (.mod { Modifier.absent with c := 0x24 })⟩, []) := rfl
/-- spec/07_isa_float.md, worked encodings. -/
theorem test_decode_cvt_dm8 : decodeWords [0x44204B40] = .ok (.cvt ⟨0x22, 8, 9, false, .none⟩, []) := rfl
/-- spec/06_isa_control.md, worked encodings. -/
theorem test_decode_callr : decodeWords [0x001003A0] = .ok (.callr ⟨0, 4, 0, false, .none⟩, []) := rfl
/-- spec/06_isa_control.md, worked encodings. -/
theorem test_decode_reform : decodeWords [0x000003B0] = .ok (.reform ⟨0, 0, 0, false, .none⟩, []) := rfl
/-- spec/06_isa_control.md, worked encodings. -/
theorem test_decode_exit : decodeWords [0x000003B8] = .ok (.exit ⟨0, 0, 0, false, .none⟩, []) := rfl
/-- spec/06_isa_control.md, worked encodings. -/
theorem test_decode_bar : decodeWords [0x060003C0] = .ok (.bar ⟨3, 0, 0, false, .none⟩, []) := rfl
/-- spec/06_isa_control.md, worked encodings. -/
theorem test_decode_sync : decodeWords [0x000003CB, 0x000000FF, 0x00000000] = .ok (.sync ⟨0, 0, 0, false, (.lit 0xFF)⟩, []) := rfl
/-- spec/06_isa_control.md, worked encodings. -/
theorem test_decode_trap : decodeWords [0x0A0003D8] = .ok (.trap ⟨5, 0, 0, false, .none⟩, []) := rfl
/-- spec/06_isa_control.md, worked encodings. -/
theorem test_decode_entry : decodeWords [0x00006C08] = .ok (.entryWord ⟨0, 13, false, .none⟩, []) := rfl
/-- spec/10_isa_memory.md, worked encodings. -/
theorem test_decode_ld_g : decodeWords [0x00105C91, 0x0080000A] = .ok (.ldGW ⟨0, 4, 11, false, (.mod { Modifier.absent with x := 1, c := 10 })⟩, []) := rfl
/-- spec/10_isa_memory.md, worked encodings. -/
theorem test_decode_ld_k : decodeWords [0x200044E8] = .ok (.ldKD ⟨16, 0, 8, false, .none⟩, []) := rfl
/-- spec/10_isa_memory.md, worked encodings. -/
theorem test_decode_st_g : decodeWords [0x00206D09, 0x0080000A] = .ok (.stGW ⟨0, 8, 13, false, (.mod { Modifier.absent with x := 1, c := 10 })⟩, []) := rfl
/-- spec/10_isa_memory.md, worked encodings. -/
theorem test_decode_atom : decodeWords [0x92104559, 0x08000009] = .ok (.atom ⟨0x49, 4, 8, false, (.mod { Modifier.absent with sc := 2, c := 9 })⟩, []) := rfl
/-- spec/10_isa_memory.md, worked encodings. -/
theorem test_decode_st_rel : decodeWords [0x00105551, 0x09000000] = .ok (.stRel ⟨0, 4, 10, false, (.mod { Modifier.absent with sc := 2, x := 2 })⟩, []) := rfl
/-- spec/10_isa_memory.md, worked encodings. -/
theorem test_decode_red : decodeWords [0x04100561, 0x08000009] = .ok (.red ⟨2, 4, 0, false, (.mod { Modifier.absent with sc := 2, c := 9 })⟩, []) := rfl
/-- spec/18_program_pod_register.md, worked encodings. -/
theorem test_decode_fence : decodeWords [0x00000569, 0x08800000] = .ok (.fence ⟨0, 0, 0, false, (.mod { Modifier.absent with sc := 2, x := 1 })⟩, []) := rfl
/-- spec/11_isa_transfer.md, worked encodings. -/
theorem test_decode_xfer : decodeWords [0x00380601, 0x00004F00] = .ok (.xfer ⟨0, 14, 0, false, (.mod { Modifier.absent with me := true, m := 30 })⟩, []) := rfl
/-- spec/11_isa_transfer.md, worked encodings. -/
theorem test_decode_xgat : decodeWords [0x2C380608] = .ok (.xgat ⟨22, 14, 0, false, .none⟩, []) := rfl
/-- spec/11_isa_transfer.md, worked encodings. -/
theorem test_decode_slset : decodeWords [0x224C0611, 0x00004F00] = .ok (.slset ⟨17, 19, 0, false, (.mod { Modifier.absent with me := true, m := 30 })⟩, []) := rfl
/-- spec/11_isa_transfer.md, worked encodings. -/
theorem test_decode_slwait : decodeWords [0x004C0618] = .ok (.slwait ⟨0, 19, 0, false, .none⟩, []) := rfl
/-- spec/11_isa_transfer.md, worked encodings. -/
theorem test_decode_xwait : decodeWords [0x00000621, 0x00800000] = .ok (.xwait ⟨0, 0, 0, false, (.mod { Modifier.absent with x := 1 })⟩, []) := rfl
/-- spec/12_isa_tiles.md, worked encodings. -/
theorem test_decode_tld : decodeWords [0x00180E80] = .ok (.tld ⟨0, 6, 1, false, .none⟩, []) := rfl
/-- spec/12_isa_tiles.md, worked encodings. -/
theorem test_decode_tst : decodeWords [0x00281688] = .ok (.tst ⟨0, 10, 2, false, .none⟩, []) := rfl
/-- spec/15_program_sparse_matrix.md, worked encodings. -/
theorem test_decode_tzero_stroke : decodeWords [0x00001E94] = .ok (.tzero ⟨0, 0, 3, true, .none⟩, []) := rfl
/-- spec/12_isa_tiles.md, worked encodings. -/
theorem test_decode_tmma : decodeWords [0x02001699, 0x02800000] = .ok (.tmma ⟨1, 0, 2, false, (.mod { Modifier.absent with x := 5 })⟩, []) := rfl
/-- spec/12_isa_tiles.md, worked encodings. -/
theorem test_decode_tmmas : decodeWords [0x020026A1, 0x00000001] = .ok (.tmmas ⟨1, 0, 4, false, (.mod { Modifier.absent with c := 1 })⟩, []) := rfl
/-- spec/15_program_sparse_matrix.md, worked encodings. -/
theorem test_decode_tscal : decodeWords [0x08081EA8] = .ok (.tscal ⟨4, 2, 3, false, .none⟩, []) := rfl
/-- spec/13_isa_pod.md, worked encodings. -/
theorem test_decode_pst : decodeWords [0x28103700] = .ok (.pst ⟨20, 4, 6, false, .none⟩, []) := rfl
/-- spec/13_isa_pod.md, worked encodings. -/
theorem test_decode_pld : decodeWords [0x00104709, 0x00800000] = .ok (.pld ⟨0, 4, 8, false, (.mod { Modifier.absent with x := 1 })⟩, []) := rfl
/-- spec/13_isa_pod.md, worked encodings. -/
theorem test_decode_patom : decodeWords [0x00104711, 0x00000009] = .ok (.patom ⟨0, 4, 8, false, (.mod { Modifier.absent with c := 9 })⟩, []) := rfl
/-- spec/13_isa_pod.md, worked encodings. -/
theorem test_decode_prel : decodeWords [0x28283F18] = .ok (.prel ⟨20, 10, 7, false, .none⟩, []) := rfl
/-- spec/13_isa_pod.md, worked encodings. -/
theorem test_decode_pacq : decodeWords [0x3C304720] = .ok (.pacq ⟨30, 12, 8, false, .none⟩, []) := rfl
/-- spec/13_isa_pod.md, worked encodings. -/
theorem test_decode_pmc : decodeWords [0x30103730] = .ok (.pmc ⟨24, 4, 6, false, .none⟩, []) := rfl
/-- spec/19_privilege.md, worked encodings. -/
theorem test_decode_eret : decodeWords [0x00000780] = .ok (.eret ⟨0, 0, 0, false, .none⟩, []) := rfl
/-- spec/19_privilege.md, worked encodings. -/
theorem test_decode_wrsys : decodeWords [0x003C3F90] = .ok (.wrsys ⟨0, 15, 7, false, .none⟩, []) := rfl
/-- spec/19_privilege.md, worked encodings. -/
theorem test_decode_tlbi : decodeWords [0x10000799, 0x00800000] = .ok (.tlbi ⟨8, 0, 0, false, (.mod { Modifier.absent with x := 1 })⟩, []) := rfl

/-! ## Witnesses: states and operands that meet the hypotheses of the statements -/

/-- AddSubMulMadResults: every instruction that it names is ready, on a control core and in a compute group. -/
theorem witness_addSubMulMad : ∀ i ∈ [Instr.add (r3 8 4 6), .addImm7 (ri7 8 4 1), .sub (r3 8 4 6), .mul (r4 8 4 6 { mx 1 with sat := true }),
    .mad (r4 8 4 6 (mc 9))], ∃ x v, Ready (grp [(4, 1)] []) i x v := readyAll (by decide +kernel)
/-- CarryHighAbsNegResults. -/
theorem witness_carryHighAbsNeg : ∀ i ∈ [Instr.addc (r4 20 4 8 (mc 30)), .subb (r4 20 4 8 { mc 30 with x := 1 }), .mulh (r3 8 4 6),
    .mulhz (r3 8 4 6), .abs (r4 8 4 0 { Modifier.absent with sat := true }), .neg (r3 8 4 0)],
    ∃ x v, Ready (ctl [(4, 0x80000000)]) i x v := readyAll (by decide +kernel)
/-- MinMaxDivideResults, with a zero divisor and with the most negative dividend. -/
theorem witness_minMaxDivide : ∀ i ∈ [Instr.min (r3 8 4 6), .max (r3 8 4 6), .minz (r3 8 4 6), .maxz (r3 8 4 6), .div (r3 8 4 6),
    .divz (r3 8 4 6), .rem (r3 8 4 6), .remz (r3 8 4 6), .div (r3 8 4 9), .rem (r3 8 4 9)],
    ∃ x v, Ready (grp [(4, 0x80000000), (9, 0xFFFFFFFF)] []) i x v := readyAll (by decide +kernel)
/-- LogicShiftAndSelectResults. -/
theorem witness_logicAndSelect : ∀ i ∈ [Instr.and (r3 8 4 6), .andImm7 (ri7 8 4 7), .or (r3 8 4 6), .orImm7 (ri7 8 4 7),
    .xor (r3 8 4 6), .andn (r3 8 4 6), .not (r3 8 4 0), .sel (r4 8 4 6 (mc 9))], ∃ x v, Ready (ctl []) i x v :=
  readyAll (by decide +kernel)
/-- LogicShiftAndSelectResults, with the source as the destination. -/
theorem witness_shift : ∀ i ∈ [Instr.shl (r3 4 4 6), .shlImm7 (ri7 8 4 31), .shr (r3 8 4 6), .shrImm7 (ri7 2 2 1), .sar (r3 8 4 6),
    .sarImm7 (ri7 8 4 31), .rol (r3 8 4 6)], ∃ x v, Ready (ctl []) i x v := readyAll (by decide +kernel)
/-- BitCountAndFieldResults. -/
theorem witness_bitCountAndField : ∀ i ∈ [Instr.clz (r3 8 4 0), .ctz (r3 8 4 0), .popc (r3 8 4 0), .brev (r3 8 4 0),
    .bfx (r3 8 4 6), .bfxz (r3 8 4 6), .bfi (r4 8 4 6 (mc 9))], ∃ x v, Ready (grp [] []) i x v := readyAll (by decide +kernel)
/-- CompareResults, at the first and the last condition. -/
theorem witness_compare : ∀ i ∈ [Instr.cmp (r3 8 4 6), .cmp (r4 8 4 6 (mx 5)), .cmpImm7 ⟨2, 2, 7, false, .mod (mx 5)⟩,
    .cmpz (r4 8 4 6 (mx 5)), .cmpzImm7 ⟨2, 2, 7, false, .mod (mx 5)⟩], ∃ x v, Ready (grp [] []) i x v :=
  readyAll (by decide +kernel)
/-- PairAddressAndMovementResults, lea with a register and with a literal. -/
theorem witness_pairAndAddress : ∀ i ∈ [Instr.add64 (r3 8 4 6), .sub64 (r3 8 4 6), .mul64 (r3 8 4 6), .shl64 (r3 8 4 9),
    .shr64 (r3 8 4 9), .lea (r4 8 4 9 (mx 7)), .lea ⟨0, 4, 8, false, .lit 0x1000⟩], ∃ x v, Ready (ctl []) i x v :=
  readyAll (by decide +kernel)
/-- PackedResults. -/
theorem witness_packed : ∀ i ∈ [Instr.add2 (r4 8 4 6 { mx 1 with sat := true }), .sub2 (r3 8 4 6), .min2 (r3 8 4 6),
    .max2 (r4 8 4 6 (mx 1)), .cmp2 (r4 8 4 6 (mx 5)), .dot4 (r4 8 4 6 { mx 3 with c := 9 })], ∃ x v, Ready (grp [] []) i x v :=
  readyAll (by decide +kernel)
/-- PairAddressAndMovementResults: both widths of mov. -/
theorem witness_movement : ∀ i ∈ [Instr.mov (r3 8 4 0), .mov (r4 8 4 0 (mx 1)), .movi ⟨0x3FFF, 8, false, .none⟩,
    .movi ⟨0, 8, false, .lit 0x3F800000⟩, .arm (r3 20 0 0)], ∃ x v, Ready (grp [] []) i x v := readyAll (by decide +kernel)
/-- SpecialRegisterMoves: a 32-bit and a 64-bit register, a thread's and a group's register, on both kinds of core. -/
theorem witness_specialRegisters :
    (∀ i ∈ [Instr.getsr ⟨0x000, 8, false, .none⟩, .getsr ⟨0x00C, 10, false, .none⟩, .setsr ⟨0x010, 8, false, .none⟩,
      .setsr ⟨0x013, 8, false, .none⟩], ∃ x v, Ready (grp [(8, 1)] []) i x v) ∧
    (pair [] []).control = none ∧ (Group.controlReset 5).control = some 5 :=
  ⟨readyAll (by decide +kernel), rfl, rfl⟩
/-- VoteResults, at the first and the last mode, with one lane masked off. -/
theorem witness_vote : ∀ i ∈ [Instr.vote (r3 8 4 0), .vote (r4 8 4 0 { mx 6 with me := true, m := 9 })],
    ∃ x v, Ready (grp [(4, 1), (9, 1)] []) i x v := readyAll (by decide +kernel)
/-- FloatResults: every instruction is ready; and, with no exception enabled, no active lane raises an enabled one: 1 + 1 and
the division of 1 by 0, which raises one. -/
theorem witness_float :
    (∀ i ∈ [Instr.fadd .f32 (r3 8 4 6), .fadd .f64 (r3 8 4 6), .fadd .h2 (r3 8 4 6), .fadd .bh2 (r3 8 4 6), .fsub .f32 (r3 8 4 6),
      .fmul .f32 (r3 8 4 6), .fma .f32 (r4 8 4 6 (mc 9)), .fmin .f64 (r3 8 4 6), .fmax .h2 (r3 8 4 6), .fcmp .f32 (r4 8 4 6 (mx 7)),
      .fclass (r4 8 4 0 (mx 1)), .frnd (r3 8 4 0), .fdiv (r3 8 4 6), .fsqrt (r3 8 4 0), .frcp (r3 8 4 0), .frsq (r3 8 4 0),
      .fex2 (r3 8 4 0), .flg2 (r3 8 4 0), .fsin (r3 8 4 0), .fcos (r4 8 4 0 (mx 3)), .ldexp (r3 8 4 6), .frexp (r3 8 4 0)],
      ∃ x v, Ready (ctl [(4, 0x3F800000)]) i x v) ∧
    ∀ b ∈ [0x3F800000, (0 : Word)], ∃ x v, Ready (ctl [(4, 0x3F800000), (6, b)]) (.fdiv (r3 8 4 6)) x v ∧
      ∀ t ∈ x.active v, flagWord (flagUnion ((t.elementResults v .f32 fun _ a b _ =>
        (typeFormat .f32).div (t.mode v.tail.modifier) ((typeFormat .f32).unpack a) ((typeFormat .f32).unpack b)).map Prod.snd)) &&&
          t.fpEnables = 0 := by
  refine ⟨readyAll (by decide +kernel), fun b hb => ?_⟩
  simp only [List.mem_cons, List.not_mem_nil, or_false] at hb
  rcases hb with rfl | rfl
  · exact ⟨_, _, ready (by decide +kernel), by decide +kernel⟩
  · exact ⟨_, _, ready (by decide +kernel), by decide +kernel⟩
/-- ConversionResults: dm8 to f32, and f64 to a 64-bit integer. -/
theorem witness_conversion : (∃ x v, Ready (grp [] []) (.cvt (r4 8 5 0 (mc 0x24))) x v ∧
      numFormat (descCode v.tail.modifier.c) = some .dm8 ∧ numFormat (descCode v.b) = some .f32) ∧
    ∃ x v, Ready (ctl []) (.cvt (r4 8 4 0x70 (mc 0x08))) x v ∧ numFormat (descCode v.tail.modifier.c) = some .f64 ∧
      numFormat (descCode v.b) = some (.int true 64) ∧
      ∀ t ∈ x.active v, flagWord (convert .f64 (.int true 64) (t.mode v.tail.modifier) (v.b.getLsbD 0)
        ((t.a64 v).toNat / 2 ^ (64 * descPos v.tail.modifier.c) % 2 ^ 64)).2 &&& t.fpEnables = 0 :=
  ⟨⟨_, _, ready (by decide +kernel), rfl, rfl⟩, _, _, ready (by decide +kernel), rfl, rfl, by decide +kernel⟩

/-! ## Results, from the spec's own examples and by hand from its rules -/

/-- The next state of an outcome. -/
def next? (r : Host.Outcome State Fault Refusal) : Option State :=
  match r with
  | .next s => some s
  | .fault _ => none
  | .refused _ => none
/-- A thread of the next state. -/
def threadOf (r : Host.Outcome State Fault Refusal) (gid k : Nat) : Option Thread := (next? r).bind fun s => s.thread gid k
/-- A register of a thread of the next state. -/
def regOf (r : Host.Outcome State Fault Refusal) (gid k n : Nat) : Option Word := (threadOf r gid k).map fun t => t.reg n

/-- R117: 0xFFFF_FFFF + 1 wraps to 0. -/
theorem test_add_wraps : regOf (exec (.add (r3 8 4 6)) (ctl [(4, 0xFFFFFFFF), (6, 1)])) 0 0 8 = some 0 := by decide +kernel
/-- R117: the signed clamp of 0x7FFF_FFFF + 1. -/
theorem test_add_saturates : regOf (exec (.add (r4 8 4 6 { Modifier.absent with sat := true })) (ctl [(4, 0x7FFFFFFF), (6, 1)]))
    0 0 8 = some 0x7FFFFFFF := by decide +kernel
/-- The 96-bit add of spec/05: 0xFFFF_FFFF + 0 + 1 carries. -/
theorem test_addc_carry : regOf (exec (.addc (r4 23 4 8 { mc 30 with x := 1 })) (ctl [(4, 0xFFFFFFFF), (30, 1)])) 0 0 23 = some 1 := by
  decide +kernel
/-- R119's own example. -/
theorem test_mulh : regOf (exec (.mulh (r3 8 4 6)) (ctl [(4, 0xFFFFFFFF), (6, 2)])) 0 0 8 = some 0xFFFFFFFF := by decide +kernel
theorem test_mulhz : regOf (exec (.mulhz (r3 8 4 6)) (ctl [(4, 0xFFFFFFFF), (6, 2)])) 0 0 8 = some 1 := by decide +kernel
/-- R122's own examples: -7 by 2, and a zero divisor. -/
theorem test_div : regOf (exec (.div (r3 8 4 6)) (ctl [(4, -7), (6, 2)])) 0 0 8 = some (-3) := by decide +kernel
theorem test_rem : regOf (exec (.rem (r3 8 4 6)) (ctl [(4, -7), (6, 2)])) 0 0 8 = some (-1) := by decide +kernel
theorem test_divz_zero : regOf (exec (.divz (r3 8 4 6)) (ctl [(4, 9)])) 0 0 8 = some 0xFFFFFFFF := by decide +kernel
/-- R126's own examples. -/
theorem test_bfx : regOf (exec (.bfx (r3 8 4 6)) (ctl [(4, 0x0000ABCD), (6, 0x0C04)])) 0 0 8 = some 0xFFFFFABC := by decide +kernel
theorem test_bfxz : regOf (exec (.bfxz (r3 8 4 6)) (ctl [(4, 0x0000ABCD), (6, 0x0C04)])) 0 0 8 = some 0x00000ABC := by decide +kernel
/-- R133's own examples: c - 124, and c + 388 with a read unsigned. -/
theorem test_dot4 : regOf (exec (.dot4 (r4 8 4 6 (mc 9))) (ctl [(4, 0xFF020380), (6, 0x01010101), (9, 1000)])) 0 0 8 = some 876 := by
  decide +kernel
theorem test_dot4_zi : regOf (exec (.dot4 (r4 8 4 6 { mc 9 with x := 1 })) (ctl [(4, 0xFF020380), (6, 0x01010101), (9, 1000)]))
    0 0 8 = some 1388 := by decide +kernel
/-- R124: a shift count of 32 shifts by 0, and an arithmetic shift copies the sign. -/
theorem test_shl_32 : regOf (exec (.shl (r3 8 4 6)) (ctl [(4, 5), (6, 32)])) 0 0 8 = some 5 := by decide +kernel
theorem test_sar : regOf (exec (.sarImm7 (ri7 8 4 31)) (ctl [(4, 0x80000000)])) 0 0 8 = some 0xFFFFFFFF := by decide +kernel
/-- R4, R129: the carry goes from the even to the odd register. -/
theorem test_add64 : regOf (exec (.add64 (r3 8 4 6)) (ctl [(4, 0xFFFFFFFF), (6, 1)])) 0 0 9 = some 1 := by decide +kernel
/-- R59: an inactive lane keeps its destination, or zeroes it under ZM. -/
theorem test_mask_keeps : regOf (exec (.add (r4 8 4 6 { Modifier.absent with me := true, m := 9 }))
    (grp [(4, 1), (8, 77)] [(4, 1), (9, 1)])) 200 0 8 = some 77 := by decide +kernel
theorem test_mask_zeroes : regOf (exec (.add (r4 8 4 6 { Modifier.absent with me := true, m := 9, zm := true }))
    (grp [(4, 1), (8, 77)] [(4, 1), (9, 1)])) 200 0 8 = some 0 := by decide +kernel
/-- R138's own example: position 6 reads 7 and position 7 reads 4 in runs of four. -/
theorem test_shuffle_spin : shuffleSource 2 6 0x201 = some 7 ∧ shuffleSource 2 7 0x201 = some 4 := by decide +kernel
/-- R139, R140: two lanes exchange their values, and their ballot has both bits. -/
theorem test_shfl_swap : regOf (exec (.shfl (r4 8 4 6 { mx 3 with c := 7 }))
    (grp [(4, 10), (6, 0x501), (7, 3)] [(4, 20), (6, 0x501), (7, 3)])) 200 0 8 = some 20 := by decide +kernel
theorem test_vote_ballot : regOf (exec (.vote (r4 8 4 0 (mx 2))) (grp [(4, 1)] [(4, 3)])) 200 1 8 = some 3 := by decide +kernel
/-- The packing of spec/07: ties, saturation, decoding. -/
theorem test_cvt_tie_low : regOf (exec (.cvt (r3 8 4 0x20)) (ctl [(4, 0x3F920000)])) 0 0 8 = some 0x00000040 := by decide +kernel
theorem test_cvt_saturates : (threadOf (exec (.cvt (r3 8 6 0x24)) (ctl [(6, 0x4D8F0D18), (8, 0x00006040)])) 0 0).map
    (fun t => (t.reg 8, t.fpflags)) = some (0x007E6040, 0x14) := by decide +kernel
/-- The division of spec/07: lane 0 completes with 0.25, and lane 1 traps in a fragment of its own. -/
def divGroup : State :=
  (grp [(4, 0x3F800000), (5, 0x40800000)] [(4, 0x3F800000)]).modGroup 200 fun g =>
    { g with threads := g.threads.map fun t => (t.1, { t.2 with fpctl := 0x200 }) }
theorem test_fdiv_completes : regOf (exec (.fdiv (r3 6 4 5)) divGroup) 200 0 6 = some 0x3E800000 := by decide +kernel
theorem test_fdiv_traps : (threadOf (exec (.fdiv (r3 6 4 5)) divGroup) 200 1).map (fun t => (t.state, t.reg 6, t.fpflags)) =
    some (.parked, 0, 0) := by decide +kernel
/-- R163 by hand: 1/3 to nearest even, and the sum of opposite zeros. -/
theorem test_frcp : regOf (exec (.frcp (r3 8 4 0)) (ctl [(4, 0x40400000)])) 0 0 8 = some 0x3EAAAAAB := by decide +kernel
theorem test_fadd_zeros : regOf (exec (.fadd .f32 (r3 8 4 6)) (ctl [(6, 0x80000000)])) 0 0 8 = some 0 := by decide +kernel
/-- spec/07's own examples of frexp and ldexp. -/
theorem test_frexp : regOf (exec (.frexp (r3 8 4 0)) (ctl [(4, 0x41400000)])) 0 0 8 = some 4 := by decide +kernel
theorem test_ldexp : regOf (exec (.ldexp (r3 8 4 6)) (ctl [(4, 0x41400000), (6, -4)])) 0 0 8 = some 0x3F400000 := by decide +kernel
/-- R143: a branch four words back from the program counter; the link of a call is the next instruction. -/
theorem test_br : (threadOf (exec (.br ⟨0x1FFFFC, false, .none⟩) (ctl [])) 0 0).map Thread.pc = some 0xFFFFFFF0 := by decide +kernel
theorem test_brc_not_taken : (threadOf (exec (.brc ⟨0x3FFC, 7, false, .none⟩) (ctl [(7, 2)])) 0 0).map Thread.pc = some 0x100000004 := by
  decide +kernel
/-- Table 23-4: a control-core thread's trap: its pc in epc, the cause with its code, and the handler's address. -/
theorem test_trap_control : (threadOf (exec (.trap (r3 0 0 5)) (ctl [])) 0 0).map (fun t => (t.epc, t.cause, t.pc, t.ppl)) =
    some (0x100000000, 0x0005000C, 0, 2) := by decide +kernel
/-- R369's worked walk of spec/21: PLACE 0b00 selects die 14, and PLACE 0b10 die 20. -/
theorem test_home : homeOf [5, 9, 14, 20] 0 0x011234BCDE = 14 ∧ homeOf [5, 9, 14, 20] 0 0x011234C000 = 9 ∧
    homeOf [5, 9, 14, 20] 0x200 0x011234BCDE = 20 := by decide +kernel
/-- The flags of spec/13: a flag after three writes carries COUNT 3 and the next sequence, past the wrap. -/
theorem test_flag_count :
    let s := { ctl [] with pod := { Pod.reset with channels := [⟨7, 0, 12, 0, 3, [], 0, [], []⟩] } }
    ((s.makePacket { Packet.blank .flag with chan := 7 } []).1.seq, (s.makePacket { Packet.blank .flag with chan := 7 } []).1.aux,
      (s.makePacket { Packet.blank .flag with chan := 7 } []).1.dst) = (0, 3, 12) := by decide +kernel

/-! The product of spec/12: `tmmas` skips what a bitmap bit excludes. -/

/-- The tiles of the product before `tmmas`: A in t0 and B in t1, with their bitmaps' zero bits. -/
def productGroup : Group :=
  { pair [] [] with
      tshape := [0x00040200, 0x00020400, 0x00020202, 0, 0, 0, 0, 0]
      tileMem := [(0, 0x60), (2, 0x42), (3, 0x40), (512, 0x80), (513, 0x20), (515, 0x44), (65536, 0x40), (65537, 0x60),
        (66048, 0x7F), (66049, 0x40), (66560, 0x40), (67072, 0x20), (67073, 0x42)]
      bitmapZero := [1, 514, 65536, 65537, 66048] }
/-- The operation. -/
def productOp : TileOp :=
  { id := 1, die := 0, core := 0, gid := 200, lanes := [(0, 0)], instr := .tmmas (r3 2 0 1), shapes := [0x00020202, 0x00040200, 0x00020400], rm := 0
    rows := [], args := [], rank := 0, gang := none }
/-- The state before the operation completes. -/
def productState : State := { grp [] [] with groups := [(200, productGroup)], tileOps := [productOp] }
/-- spec/12's four words, row by row. -/
theorem test_tmmas : ((next? (exec (.tileComplete 0 0 1) productState)).bind fun s => s.group 200).map (fun g =>
    (g.tileElem 2 0 0 4, g.tileElem 2 0 1 4, g.tileElem 2 1 0 4, g.tileElem 2 1 1 4)) =
    some (0x3FD4CCCD, 0x3FC80000, 0x3E59999A, 0x405AE666) := by decide +kernel

/-- BranchesAndCalls: br with an offset and with a literal, every length of brc, aligned pairs for jmp and ret, and the rest. -/
theorem witness_branches :
    (∀ i ∈ [Instr.br ⟨0x1FFFFC, false, .none⟩, .br ⟨0, false, .lit 0x100001000⟩, .brc ⟨1, 7, false, .none⟩,
      .brc ⟨1, 7, false, .mod Modifier.absent⟩, .brc ⟨0, 7, false, .modLit Modifier.absent 8⟩, .brc ⟨0, 7, false, .lit 0x100001000⟩,
      .nop (r3 0 0 0), .entryWord ⟨0, 13, false, .none⟩, .yield (r3 0 0 0)], ∃ x v, Ready (ctl [(7, 1)]) i x v) ∧
    ∀ i ∈ [Instr.jmp (r3 0 4 0), .ret (r3 0 0 0)], ∃ x v, Ready (ctl [(4, 0x1000), (5, 1)]) i x v ∧
      ∀ t ∈ x.active v, (t.a64 v).toNat % 4 = 0 ∧ (t.a64 v).toNat < 2 ^ 56 := by
  refine ⟨readyAll (by decide +kernel), fun i hi => ⟨_, _, ready (i := i) ?_, ?_⟩⟩
  · revert i; decide +kernel
  · revert i; decide +kernel
/-- BranchesAndCalls: an entry word four bytes before the target. -/
theorem witness_calls :
    let s := withWord (ctl [(4, 0x1004), (5, 1)]) 0 0x00006C08
    (∃ x v, Ready s (.call ⟨0, false, .lit 0x100001004⟩) x v ∧
      ∀ t ∈ x.active v, s.checkEntry x.group t v.base 0x100001004 = .ok ()) ∧
    ∃ x v, Ready s (.callr (r3 0 4 0)) x v ∧ ∀ t ∈ x.active v, (t.a64 v).toNat % 4 = 0 ∧ (t.a64 v).toNat < 2 ^ 56 ∧
      s.checkEntry x.group t v.base (BitVec.ofNat 56 (t.a64 v).toNat) = .ok () :=
  ⟨⟨_, _, ready (by decide +kernel), fun t ht => ok_of (by revert t; decide +kernel)⟩, _, _, ready (by decide +kernel),
    fun t ht => ⟨by revert t; decide +kernel, by revert t; decide +kernel, ok_of (by revert t; decide +kernel)⟩⟩
/-- ReformExitAndBarrierComplete: both kinds of core; every live thread of the group executes bar. -/
theorem witness_reformExitBar :
    (∃ x v, Ready (grp [] []) (.reform (r3 0 0 0)) x v ∧ x.group.control = none) ∧
    (∃ x v k, Ready (ctl []) (.reform (r3 0 0 0)) x v ∧ x.group.control = some k) ∧
    (∃ x v, Ready (grp [] []) (.exit (r3 0 0 0)) x v) ∧
    (∃ x v k, Ready (ctl []) (.bar (r3 0 0 15)) x v ∧ x.group.control = some k) ∧
    ∃ x v, Ready (grp [] []) (.bar (r3 0 0 3)) x v ∧
      (x.group.heldAt v.b.toNat).length + x.lanes.length = x.group.live.length :=
  ⟨⟨_, _, ready (by decide +kernel), by decide +kernel⟩, ⟨_, _, 0, ready (by decide +kernel), by decide +kernel⟩,
    ⟨_, _, ready (by decide +kernel)⟩, ⟨_, _, 0, ready (by decide +kernel), by decide +kernel⟩,
    _, _, ready (by decide +kernel), by decide +kernel⟩
/-- Two lanes whose mask names both. -/
def exchangeState : State := grp [(6, 0x501), (7, 3)] [(6, 0x501), (7, 3)]
theorem exchangeWhole {m : Word} {v : View} {mask : Thread → Word}
    (h : ((setOf exchangeState).active v).all (fun t => decide (mask t = m) && m.getLsbD t.lane) = true)
    (h' : (List.range 32).all (fun i => !m.getLsbD i || (setOf exchangeState).lanes.any fun t => decide (t.lane = i)) = true) :
    ExchangeWhole (setOf exchangeState) v ⟨1, .normal, [(0, 0), (1, 1)], none⟩ m mask := by
  simp only [List.all_eq_true, Bool.and_eq_true, decide_eq_true_eq, Bool.or_eq_true, Bool.not_eq_true', List.any_eq_true,
    List.mem_range] at h h'
  exact ⟨h, fun i hi hm => .inl ((h' i hi).resolve_left (by simp [hm]))⟩
/-- ExchangesComplete: sync and shfl of two lanes. -/
theorem witness_exchanges :
    (∃ x v w m, Ready exchangeState (.sync (r3 0 0 7)) x v ∧ (x.lanes.head?.bind fun t => x.group.warpOf t.gidx) = some w ∧
      x.group.parties w false = [] ∧ ExchangeWhole x v w m (fun t => t.b32 v)) ∧
    ∃ x v w m, Ready exchangeState (.shfl (r4 8 4 6 { mx 3 with c := 7 })) x v ∧
      (x.lanes.head?.bind fun t => x.group.warpOf t.gidx) = some w ∧ x.group.parties w true = [] ∧
      ExchangeWhole x v w m (fun t => if v.tail.hasMod then t.c32 v else 0xFFFFFFFF) :=
  ⟨⟨_, _, _, 3, ready (by decide +kernel), by decide +kernel, by decide +kernel, exchangeWhole (by decide +kernel) (by decide +kernel)⟩,
    _, _, _, 3, ready (by decide +kernel), by decide +kernel, by decide +kernel, exchangeWhole (by decide +kernel) (by decide +kernel)⟩
/-- ControlCoreTakesTraps: trap, svc, an unassigned opcode, and fadd of a number and a signalling NaN with ENV set. -/
theorem witness_controlCoreTraps :
    (∀ i ∈ [Instr.trap (r3 0 0 5), .svc (r3 8 4 6)], ∃ x v t k, Ready (ctl []) i x v ∧ x.group.control = some k ∧ x.lanes = [t] ∧
      laneActive v.tail.modifier t = true) ∧
    (∃ x v t k, (ctl []).issue = some x ∧ (Instr.unassignedOpcode ⟨0, 0x69, false, .none⟩).view = some v ∧
      x.group.control = some k ∧ x.lanes = [t] ∧ t.trapped = none) ∧
    let s := (ctl [(4, 0x7F800001)]).modThread 0 0 fun t => { t with fpctl := 0x100 }
    ∃ x v t k, Ready s (.fadd .f32 (r3 8 4 6)) x v ∧ x.group.control = some k ∧ x.lanes = [t] ∧
      laneActive v.tail.modifier t = true ∧
      flagWord (flagUnion ((t.elementResults v .f32 fun _ a b _ => (typeFormat .f32).add (t.mode v.tail.modifier)
        ((typeFormat .f32).unpack a) ((typeFormat .f32).unpack b)).map Prod.snd)) &&& t.fpEnables ≠ 0 := by
  refine ⟨fun i hi => ⟨setOf (ctl []), viewOf i, thread 0 0 2 [], 0, ready ?_, by decide +kernel, by decide +kernel, ?_⟩,
    ⟨setOf (ctl []), _, thread 0 0 2 [], 0, by decide +kernel, rfl, by decide +kernel, by decide +kernel, rfl⟩, ?_⟩
  · revert i; decide +kernel
  · revert i; decide +kernel
  · exact ⟨_, _, { thread 0 0 2 [(4, 0x7F800001)] with fpctl := 0x100 }, 0, ready (by decide +kernel), by decide +kernel,
      by decide +kernel, by decide +kernel, by decide +kernel⟩
/-- LoadsIssue: every load, from the data page, the scratchpad and space k. -/
theorem witness_loads : ∀ p ∈ [(Instr.ldGB (ri7 8 4 1), Space.g, 1, Need.read), (.ldGH (ri7 8 4 2), .g, 2, .read), (.ldGW (ri7 8 4 4), .g, 4, .read),
    (.ldGD (ri7 8 4 8), .g, 8, .read), (.ldGQ (ri7 8 4 16), .g, 16, .read), (.ldLB (ri7 8 6 1), .l, 1, .read), (.ldLH (ri7 8 6 2), .l, 2, .read),
    (.ldLW (ri7 8 6 4), .l, 4, .read), (.ldLD (ri7 8 6 8), .l, 8, .read), (.ldLQ (ri7 8 6 16), .l, 16, .read), (.ldKB (ri7 8 4 1), .k, 1, .read),
    (.ldKH (ri7 8 4 2), .k, 2, .read), (.ldKW (ri7 8 4 4), .k, 4, .read), (.ldKD (ri7 8 4 8), .k, 8, .read), (.ldKQ (ri7 8 4 16), .k, 16, .read),
    (.ldAcq (r4 8 4 0 { mx 2 with sc := 2 }), .g, 4, .read)],
    ∃ x v, ∃ l : Thread → Loc, Ready (grp [(4, 0x1000), (5, 1)] [(4, 0x1040), (5, 1)]) p.1 x v ∧ ∀ t ∈ x.active v, t.outstanding .load < 64 ∧
      t.sb.length + 2 ≤ 64 ∧ (grp [(4, 0x1000), (5, 1)] [(4, 0x1040), (5, 1)]).access x.group t v p.2.1 p.2.2.1 p.2.2.2 = .ok (l t) :=
  accessReady (by decide +kernel)
/-- StoresIssue. -/
theorem witness_stores : ∀ p ∈ [(Instr.stGB (ri7 8 4 1), Space.g, 1, Need.write), (.stGH (ri7 8 4 2), .g, 2, .write), (.stGW (ri7 8 4 4), .g, 4, .write),
    (.stGD (ri7 8 4 8), .g, 8, .write), (.stGQ (ri7 8 4 16), .g, 16, .write), (.stLB (ri7 8 6 1), .l, 1, .write), (.stLH (ri7 8 6 2), .l, 2, .write),
    (.stLW (ri7 8 6 4), .l, 4, .write), (.stLD (ri7 8 6 8), .l, 8, .write), (.stLQ (ri7 8 6 16), .l, 16, .write),
    (.stRel (r4 8 4 0 { mx 2 with sc := 2 }), .g, 4, .write)],
    ∃ x v, ∃ l : Thread → Loc, Ready (grp [(4, 0x1000), (5, 1)] [(4, 0x1040), (5, 1)]) p.1 x v ∧ ∀ t ∈ x.active v, t.outstanding .load < 64 ∧
      t.sb.length + 2 ≤ 64 ∧ (grp [(4, 0x1000), (5, 1)] [(4, 0x1040), (5, 1)]).access x.group t v p.2.1 p.2.2.1 p.2.2.2 = .ok (l t) :=
  accessReady (by decide +kernel)
/-- AccessChecks: an access that passes, one past 2^56 and one misaligned. -/
theorem witness_accessChecks :
    let s := ctl []
    let g := Group.controlReset 0
    let v := viewOf (.ldGW (ri7 8 4 0))
    (∃ l, s.access g (thread 0 0 2 [(4, 0x1000), (5, 1)]) v .g 4 .read = .ok l) ∧
    2 ^ 56 ≤ ((thread 0 0 2 [(5, 0x01000000)]).a64 v + BitVec.ofInt 64 0).toNat ∧
    ((thread 0 0 2 [(4, 0xFFFFFFFF), (5, 0xFFFFFF)]).a64 v).toNat < 2 ^ 56 ∧
    ((thread 0 0 2 [(4, 0xFFFFFFFF), (5, 0xFFFFFF)]).a64 v).toNat % 4 ≠ 0 ∧
    ∃ l, s.access (pair [] []) (thread 0 0 0 [(6, 4092)]) (viewOf (.ldLW (ri7 8 6 0))) .l 4 .read = .ok l :=
  ⟨⟨_, ok_locOf (by decide +kernel)⟩, by decide +kernel, by decide +kernel, by decide +kernel, _, ok_locOf (by decide +kernel)⟩

/-- AtomicsIssue: add on a word of the data page, cas with acquire and release, a double of the scratchpad, and reductions. -/
theorem witness_atomics : ∀ p ∈ [(Instr.atom (r4 8 4 0 (mc 9)), Space.g, 4, Need.both), (.atom (r4 8 4 0x4B { mc 9 with sc := 2 }), .g, 4, .both),
    (.atom (r4 8 6 0x04 { mc 10 with x := 1 }), .l, 8, .both), (.red (r4 0 4 2 { mc 9 with sc := 2 }), .g, 4, .both),
    (.red (r4 0 4 0x50 (mc 12)), .g, 4, .both)],
    ∃ x v, ∃ l : Thread → Loc, Ready (grp [(4, 0x1000), (5, 1)] [(4, 0x1040), (5, 1)]) p.1 x v ∧ ∀ t ∈ x.active v, t.outstanding .load < 64 ∧
      t.sb.length + 2 ≤ 64 ∧ (grp [(4, 0x1000), (5, 1)] [(4, 0x1040), (5, 1)]).access x.group t v p.2.1 p.2.2.1 p.2.2.2 = .ok (l t) :=
  accessReady (by decide +kernel)
/-- AtomicResults: each operation has a descriptor, of words and of doubles. -/
theorem witness_atomicResults : ∀ k, k < 11 → ∃ desc : RegNum, atomOpr desc = k ∧ desc.getLsbD 2 = true := fun k hk =>
  ⟨BitVec.ofNat 7 (8 * k + 4), by revert k; decide⟩
/-- FencesComplete: the four kinds, the third also after its release was placed. -/
theorem witness_fences :
    (∃ x v, Ready (grp [] []) (.fence (r3 0 0 0)) x v ∧ v.tail.modifier.x = 0 ∧
      ∀ t ∈ x.active v, t.fence = .idle → t.sb.length + 1 ≤ 64) ∧
    (∃ x v, Ready (grp [] []) (.fence (r4 0 0 0 { mx 1 with sc := 2 })) x v ∧ v.tail.modifier.x = 1 ∧
      ∀ t ∈ x.active v, t.loadsPerformed = true) ∧
    (∃ x v, Ready (grp [] []) (.fence (r4 0 0 0 { mx 2 with sc := 2 })) x v ∧ v.tail.modifier.x = 2 ∧
      ∀ t ∈ x.active v, (t.fence = .idle → t.sb.length + 1 ≤ 64) ∧ t.loadsPerformed = true) ∧
    let s := { (ctl []).modThread 0 0 (fun t => { t with fence := .ticking 3 }) with ticks := 4 }
    ∃ x v, Ready s (.fence (r4 0 0 0 { mx 3 with sc := 2 })) x v ∧ v.tail.modifier.x = 3 ∧
      ∀ t ∈ x.active v, ∃ n, t.fence = .ticking n ∧ n < s.ticks :=
  ⟨⟨_, _, ready (by decide +kernel), by decide +kernel, by decide +kernel⟩,
    ⟨_, _, ready (by decide +kernel), by decide +kernel, by decide +kernel⟩,
    ⟨_, _, ready (by decide +kernel), by decide +kernel, by decide +kernel⟩,
    _, _, ready (by decide +kernel), by decide +kernel, fun t ht => ⟨3, by revert t; decide +kernel, by decide +kernel⟩⟩
/-- CacheInstructionsComplete: every form. -/
theorem witness_cache : ∀ i ∈ [Instr.pref (r3 0 4 0), .twflush (r3 0 4 0), .twflush (r4 0 0 0 (mx 1)), .cctl (r3 0 4 0),
    .cctl (r4 0 0 0 (mx 1)), .cctl (r4 0 0 0 (mx 2))], ∃ x v, Ready (grp [(4, 0x1000), (5, 1)] []) i x v := readyAll (by decide +kernel)
/-- A group whose first lane, alone active, has the descriptor of spec/11's gather: rows of 8 bytes at the data page to the
scratchpad's start, counter at 48, indices at 32. -/
def transferState : State :=
  grp [(14, 0x1000), (15, 1), (16, 0), (17, 8), (18, 8), (19, 48), (20, 0xEE003008), (21, 0x00030008), (22, 32), (30, 1)] []
/-- TransferInstructionsComplete: xfer and xgat with that descriptor, masked. -/
theorem witness_transfers : ∀ p ∈ [(Instr.xfer (r4 0 14 0 { Modifier.absent with me := true, m := 30 }), false),
    (.xgat (r4 0 14 22 { Modifier.absent with me := true, m := 30 }), true)],
    ∃ x v, Ready transferState p.1 x v ∧
      (x.active v).length ≤ (transferState.freeHandles x.group.place.die x.group.place.core).length ∧
      ∀ t ∈ x.active v, t.sb = [] ∧ t.outstanding .transfer < 16 ∧ (t.descriptor x.group v p.2 0 0).bad x.group = false := by
  intro p hp
  refine ⟨_, _, ready (i := p.1) ?_, ?_, ?_⟩ <;> revert p <;> decide +kernel
/-- TransferInstructionsComplete: a counter at the scratchpad's last 8 bytes, with COUNT at TARGET; and an xwait whose one older
operation is done. -/
theorem witness_counters :
    (∃ x v, Ready (grp [(19, 4088), (17, 1)] [(19, 48)]) (.slset (r3 0 19 17)) x v ∧
      ∀ t ∈ x.active v, (t.a32 v).toNat % 8 = 0 ∧ (t.a32 v).toNat + 8 ≤ x.group.scratchSize ∧ x.group.heldByOrder t 0 = false ∧ t.sb = []) ∧
    (∃ x v, Ready (grp [(19, 4088)] [(19, 48)]) (.slwait (r3 0 19 0)) x v ∧
      ∀ t ∈ x.active v, (t.a32 v).toNat % 8 = 0 ∧ (t.a32 v).toNat + 8 ≤ x.group.scratchSize ∧ t.sb = [] ∧
        x.group.heldByOrder t 0 = false ∧ x.group.scratchError (t.a32 v).toNat 8 = none ∧
        natOfBytes (x.group.scratch.readN (t.a32 v).toNat 4) < 2 ^ 31 ∧
        natOfBytes (x.group.scratch.readN ((t.a32 v).toNat + 4) 4) ≤ natOfBytes (x.group.scratch.readN (t.a32 v).toNat 4)) ∧
    let s := (grp [] []).modThread 200 0 fun t => { t with ops := [⟨9, some .transfer, .transfer 0 none, true, [], false, false⟩] }
    ∃ x v, Ready s (.xwait (r4 0 0 0 (mx 1))) x v ∧ ∀ t ∈ x.active v,
      let ops := t.ops.filter fun o => o.cls = some (classOfX v.tail.modifier.x)
      ∀ o ∈ ops.take (ops.length - v.b.toNat), o.done = true ∧ o.failure = none :=
  ⟨⟨_, _, ready (by decide +kernel), by decide +kernel⟩, ⟨_, _, ready (by decide +kernel), by decide +kernel⟩,
    _, _, ready (by decide +kernel), by decide +kernel⟩
/-- A group with 4 × 4 tiles of words. -/
def tileState : State :=
  (grp [(4, 0x1000), (5, 1)] [(4, 0x1000), (5, 1)]).modGroup 200 fun g => { g with tshape := List.replicate 8 0x00040402 }
/-- The rows of a tile instruction. -/
def rowsOf (s : State) (i : Instr) : List (List (Loc × Nat)) :=
  match i.tileNeed, ((setOf s).active (viewOf i)).head? with
  | some need, some t => ((s.tileRows (setOf s).group t i (viewOf i) need).toOption).getD []
  | _, _ => []
/-- What TileInstructionsIssue asks, as a test. -/
def tileOk (s : State) (i : Instr) : Bool :=
  let x := setOf s
  let v := viewOf i
  isReady s i && !(x.active v).isEmpty && (tileTrap i v x.group).isNone &&
  (x.active v).all (fun t => t.fe.isEmpty && t.sb.isEmpty && decide (t.outstanding .tile < 16)) &&
  match i.tileNeed, (x.active v).head? with
  | some need, some t => (s.tileRows x.group t i v need).toOption.isSome
  | _, _ => true
theorem tileWitness {s : State} {i : Instr} (h : tileOk s i = true) : ∃ x v rows, Ready s i x v ∧ x.active v ≠ [] ∧
    tileTrap i v x.group = none ∧ (∀ r, tilePair i v x.group = some r → ∀ t ∈ x.active v, t.isFull (r + 1) = true) ∧
    (i.tileCounted = true → ∀ t ∈ x.active v, t.outstanding .tile < 16 ∧ (i.tileNeed ≠ none → t.sb = [])) ∧
    (i.tileNeed = none → rows = []) ∧
    ∀ need t, i.tileNeed = some need → (x.active v).head? = some t → s.tileRows x.group t i v need = .ok rows := by
  simp only [tileOk, Bool.and_eq_true, Bool.not_eq_true', List.isEmpty_eq_false_iff, Option.isNone_iff_eq_none,
    List.all_eq_true, List.isEmpty_iff, decide_eq_true_eq] at h
  obtain ⟨⟨⟨⟨h1, h2⟩, h3⟩, h4⟩, h5⟩ := h
  refine ⟨_, _, rowsOf s i, ready h1, h2, h3, ?_, fun _ t ht => ⟨(h4 t ht).2, fun _ => (h4 t ht).1.2⟩, ?_, ?_⟩
  · intro r _ t ht
    have := (h4 t ht).1.1
    simp [Thread.isFull, Thread.feOf, this, tget]
  · intro hn; simp [rowsOf, hn]
  · intro need t hn ht
    rw [hn, ht] at h5
    simp only at h5
    simp only [rowsOf, hn, ht]
    cases hr : s.tileRows (setOf s).group t i (viewOf i) need with
    | ok rows => rfl
    | error e => rw [hr] at h5; cases h5
/-- TileInstructionsIssue: every tile instruction. -/
theorem witness_tiles : ∀ i ∈ [Instr.tld (r3 1 4 0), .tld (r4 1 4 9 (mx 5)), .tst (r3 2 4 0), .tzero (r3 7 0 0), .tmma (r4 2 0 1 (mx 5)),
    .tmmas (r4 2 0 1 (mx 5)), .tscal (r3 3 2 4), .trd (r3 20 21 3), .twr (r3 3 21 22), .tcvt (r3 1 2 0), .ttr (r3 1 2 0)],
    ∃ x v rows, Ready tileState i x v ∧ x.active v ≠ [] ∧
    tileTrap i v x.group = none ∧ (∀ r, tilePair i v x.group = some r → ∀ t ∈ x.active v, t.isFull (r + 1) = true) ∧
    (i.tileCounted = true → ∀ t ∈ x.active v, t.outstanding .tile < 16 ∧ (i.tileNeed ≠ none → t.sb = [])) ∧
    (i.tileNeed = none → rows = []) ∧
    ∀ need t, i.tileNeed = some need → (x.active v).head? = some t → tileState.tileRows x.group t i v need = .ok rows :=
  fun i hi => tileWitness (by revert i; decide +kernel)
/-- A group whose lanes reach the window of chip 12, with channel 7 to it and channel 8 to chip 3. -/
def podState : State :=
  { grp [(4, 0x2000), (5, 1), (8, 0x00000200), (9, 0), (10, 0x1F00000C), (20, 7), (24, 0x80088007)]
      [(4, 0x2040), (5, 1), (10, 0x0000000C), (20, 7), (24, 0x80088007)] with
      pod := { Pod.reset with channels := [⟨7, 0, 12, 65533, 0, [65533, 65533, 65533, 65533, 65533, 65533, 65533, 65533], 65533, [], []⟩,
        ⟨8, 0, 3, 0, 0, [0, 0, 0, 0, 0, 0, 0, 0], 0, [], []⟩] } }
/-- The packet that a send makes. -/
def packetOf (send : Issue → View → Thread → Except TrapInfo PodSend) (x : Issue) (v : View) (t : Thread) : PodSend :=
  (send x v t).toOption.getD ⟨Packet.blank .pst, []⟩
/-- Whether each active lane of a ready send has a packet and room behind the lanes before it. -/
def sendOk (s : State) (i : Instr) (send : Issue → View → Thread → Except TrapInfo PodSend) : Bool :=
  lanesOk s i fun x v t => (send x v t).toOption.isSome && t.sb.isEmpty &&
    (s.sendRoom x.group t (packetOf send x v t) fun c => (((x.active v).takeWhile fun y => y.gidx != t.gidx).filter fun y =>
      (packetOf send x v y).packet.chan = c || (packetOf send x v y).more.contains c).length).isNone
theorem sendReady {s : State} {i : Instr} {send : Issue → View → Thread → Except TrapInfo PodSend} (h : sendOk s i send = true) :
    ∃ x v, ∃ p : Thread → PodSend, Ready s i x v ∧ ∀ t ∈ x.active v, t.sb.length + 1 ≤ 64 ∧ send x v t = .ok (p t) ∧
      s.sendRoom x.group t (p t) (fun c => (((x.active v).takeWhile fun y => y.gidx != t.gidx).filter fun y =>
        (p y).packet.chan = c || (p y).more.contains c).length) = none := by
  simp only [sendOk, lanesOk, Bool.and_eq_true, List.all_eq_true, List.isEmpty_iff, Option.isNone_iff_eq_none] at h
  refine ⟨_, _, packetOf send (setOf s) (viewOf i), ready h.1, fun t ht => ?_⟩
  obtain ⟨⟨h1, h2⟩, h3⟩ := h.2 t ht
  refine ⟨by rw [h2]; decide, ?_, h3⟩
  unfold packetOf
  cases hs : send (setOf s) (viewOf i) t with
  | ok b => rfl
  | error e => rw [hs] at h1; cases h1
/-- PodSendsComplete: pst of four words, pmc of a pair, rst, the flag of rst, and prel, each in two lanes. -/
theorem witness_podSends :
    (∃ x v, ∃ p : Thread → PodSend, Ready podState (.pst (r4 16 4 20 (mx 2))) x v ∧ ∀ t ∈ x.active v, t.sb.length + 1 ≤ 64 ∧
      podState.addrSend x.group t v .pst 16 = .ok (p t) ∧ podState.sendRoom x.group t (p t) (fun c =>
        (((x.active v).takeWhile fun y => y.gidx != t.gidx).filter fun y =>
          (p y).packet.chan = c || (p y).more.contains c).length) = none) ∧
    (∃ x v, ∃ p : Thread → PodSend, Ready podState (.pmc (r4 6 4 24 (mx 1))) x v ∧ ∀ t ∈ x.active v, t.sb.length + 1 ≤ 64 ∧
      podState.pmcSend x.group t v 8 = .ok (p t) ∧ podState.sendRoom x.group t (p t) (fun c =>
        (((x.active v).takeWhile fun y => y.gidx != t.gidx).filter fun y =>
          (p y).packet.chan = c || (p y).more.contains c).length) = none) ∧
    (∃ x v, ∃ p : Thread → PodSend, Ready podState (.rst (r4 6 10 20 (mc 9))) x v ∧ ∀ t ∈ x.active v, t.sb.length + 1 ≤ 64 ∧
      podState.rstSend x.group t v .rst 4 = .ok (p t) ∧ podState.sendRoom x.group t (p t) (fun c =>
        (((x.active v).takeWhile fun y => y.gidx != t.gidx).filter fun y =>
          (p y).packet.chan = c || (p y).more.contains c).length) = none) ∧
    (∃ x v, ∃ p : Thread → PodSend, Ready podState (.rst (r4 6 10 20 { mc 8 with x := 3 })) x v ∧ ∀ t ∈ x.active v, t.sb.length + 1 ≤ 64 ∧
      podState.rstSend x.group t v .rstFlag 8 = .ok (p t) ∧ podState.sendRoom x.group t (p t) (fun c =>
        (((x.active v).takeWhile fun y => y.gidx != t.gidx).filter fun y =>
          (p y).packet.chan = c || (p y).more.contains c).length) = none) ∧
    (∃ x v, ∃ p : Thread → PodSend, Ready podState (.prel (r3 7 4 20)) x v ∧ ∀ t ∈ x.active v, t.sb.length + 1 ≤ 64 ∧
      podState.addrSend x.group t v .flag 4 = .ok (p t) ∧ podState.sendRoom x.group t (p t) (fun c =>
        (((x.active v).takeWhile fun y => y.gidx != t.gidx).filter fun y =>
          (p y).packet.chan = c || (p y).more.contains c).length) = none) :=
  ⟨sendReady (send := fun x v t => podState.addrSend x.group t v .pst 16) (by decide +kernel),
    sendReady (send := fun x v t => podState.pmcSend x.group t v 8) (by decide +kernel),
    sendReady (send := fun x v t => podState.rstSend x.group t v .rst 4) (by decide +kernel),
    sendReady (send := fun x v t => podState.rstSend x.group t v .rstFlag 8) (by decide +kernel),
    sendReady (send := fun x v t => podState.addrSend x.group t v .flag 4) (by decide +kernel)⟩
/-- PodReadsComplete: requests through the window. -/
theorem witness_podRequests : ∀ p ∈ [(Instr.pld (r4 8 4 0 (mx 1)), 8, Need.read, false), (.patom (r4 8 4 0 (mc 9)), 4, .both, true)],
    ∃ x v, Ready podState p.1 x v ∧ ∀ t ∈ x.active v, (podState.podWindow x.group t (t.a64 v) p.2.1 p.2.2.1).toOption.isSome = true ∧
      podState.requestRoom t = none := by
  intro p hp
  refine ⟨_, _, ready (i := p.1) ?_, ?_⟩ <;> revert p <;> decide +kernel
/-- A group whose lanes poll a word of the data page. -/
def pacqState : State :=
  withWord (withWord (grp [(4, 0x1000), (5, 1), (10, 1)] [(4, 0x1040), (5, 1), (10, 1)]) 0 1) 0x40 1
/-- PodReadsComplete: pacq of a word that differs from its comparand, of one that equals it, and of one not before it. -/
theorem witness_pacq :
    (lanesOk pacqState (.pacq (r3 8 4 6)) fun x v t => match pacqState.globalAccess x.group t (t.a64 v) 0 4 .read with
      | .ok l => t.acquires.isEmpty && !x.group.heldByOrder t pacqState.next.op && t.ops.isEmpty && (match (pacqState.pacqRead x.group t l).1 with
        | some w => w == 1 && w != t.b32 v && decide ((w - t.b32 v).toNat < 2 ^ 31)
        | none => false)
      | .error _ => false) = true ∧
    (lanesOk pacqState (.pacq (r4 8 4 10 (mx 2))) fun x v t => match pacqState.globalAccess x.group t (t.a64 v) 0 4 .read with
      | .ok l => t.acquires.isEmpty && !x.group.heldByOrder t pacqState.next.op && t.ops.isEmpty && (pacqState.pacqRead x.group t l).1 == some 1
      | .error _ => false) = true := by decide +kernel

/-- A launch header of one group of 64 threads, on die 0, with its entry word at offset 0x200 of the data page. -/
def headerBytes : List Byte :=
  bytesOfNat 0x100001200 8 ++ bytesOfNat 0x100001800 8 ++ bytesOfNat 0 8 ++ bytesOfNat 1 8 ++
  bytesOfNat (6 + 2 ^ 8 + 2 * 2 ^ 48 + 2 ^ 52) 8 ++ bytesOfNat 0 8 ++ bytesOfNat 1 4 ++ bytesOfNat 0 4 ++ bytesOfNat 0 4 ++
  bytesOfNat 0 4 ++ bytesOfNat 0 8 ++ List.replicate 56 0
/-- A group whose first lane launches it, masked. -/
def launchState : State :=
  let s := withWord (grp [(4, 0x1000), (5, 1), (30, 1)] []) 0x200 0x00006C08
  { s with mem := s.mem.writeN (storageKey 0 (imageFrame + 4096)) headerBytes }
/-- A modifier word with the mask v30. -/
def m30 : Modifier := { Modifier.absent with me := true, m := 30 }
/-- LaunchesIssue: both instructions find their headers. -/
theorem witness_launches : ∀ i ∈ [Instr.launch (r4 20 4 0 m30), .launchW (r4 20 4 0 m30)],
    ∃ x v, ∃ l : Thread → Loc, Ready launchState i x v ∧ x.active v ≠ [] ∧ ∀ t ∈ x.active v, t.sb.length + 1 ≤ 64 ∧
      x.group.heldByOrder t launchState.next.op = false ∧ launchState.launchLoc x.group t v = .ok (l t) := by
  intro i hi
  refine ⟨_, _, fun t => locOf (launchState.launchLoc (setOf launchState).group t (viewOf i)), ready (i := i) ?_, ?_,
    fun t ht => ⟨?_, ?_, ok_locOf ?_⟩⟩
  · revert i; decide +kernel
  · revert i; decide +kernel
  · revert t; revert i; decide +kernel
  · revert t; revert i; decide +kernel
  · revert t; revert i; decide +kernel
/-- A launch that waits in a store. -/
def queued (lid : Nat) : Launch :=
  { lid := lid, header := headerOf headerBytes, ctx := 0, polder := 0, store := 0, phase := .queued, mark := none, admitted := 0
    budget := 14, dies := [], node := none, retired := 0, sliceRetired := 0, held := false, stopAsked := false, stopped := false
    restored := [], resumeAt := 0, onCore := none, target := none, before := [], lastKey := 0 }
/-- LaunchStatuses: a bad header, a good one with room, and a good one at a full store. -/
theorem witness_launchStatuses :
    let g := pair [] []
    let t := thread 0 0 0 []
    let w := whoOf g t
    let full := { launchState with launches := List.replicate 4096 (queued 1) }
    ¬((headerOf headerBytes).isFolio = true ∧ t.pl ≠ 0) ∧
    (launchState.touchCode w false []).goodHeader w false [] = none ∧
    (∃ h b, (launchState.touchCode w false headerBytes).goodHeader w false headerBytes = some (h, b) ∧
      launchState.storeUsed (storeOf g h) < 4096 ∧ launchState.storeWaiters (storeOf g h) = []) ∧
    ∃ h b, (full.touchCode w false headerBytes).goodHeader w false headerBytes = some (h, b) ∧ 4096 ≤ full.storeUsed (storeOf g h) := by
  refine ⟨by decide +kernel, by decide +kernel, ⟨{ headerOf headerBytes with dies := 1 }, 14, ?_⟩,
    { headerOf headerBytes with dies := 1 }, 14, ?_⟩ <;> decide +kernel
/-- The group and, on core 63, a service group with room in its ring. -/
def serviceState : State :=
  let s := grp [(4, 5)] []
  { s with groups := s.groups ++ [(201, { pair [] [] with
      gid := 201, place := ⟨0, 63, 31⟩, scratchSize := 262144, warps := []
      threads := [(0, { thread 0 0 1 [] with state := .waiting (.wfe 0) })] })] }
/-- ServiceAndNamesIssue. -/
theorem witness_serviceAndNames :
    (∃ x v, Ready serviceState (.svc (r3 8 4 6)) x v ∧ x.group.servesItself = false ∧
      serviceState.svcWaits x.group.place.die = false ∧ ∀ t ∈ x.active v, t.sb.length + 1 ≤ 64) ∧
    ∃ x v, Ready serviceState (.gname (r3 8 4 0)) x v :=
  ⟨⟨_, _, ready (by decide +kernel), by decide +kernel, by decide +kernel, by decide +kernel⟩, _, _, ready (by decide +kernel)⟩
/-- A control-core thread with an event, its release over. -/
def eventState : State :=
  (ctl [(6, 0x2000)]).modThread 0 0 fun t => { t with ev := true, fence := .releasing 1, epc := 0x100000040, ppl := 1 }
/-- EventAndReturnComplete. -/
theorem witness_eventAndReturn :
    (∃ x v k, Ready eventState (.eret (r3 0 0 0)) x v ∧ x.group.control = some k ∧
      ∀ t ∈ x.active v, t.epc.toNat % 4 = 0 ∧ t.epc.toNat < 2 ^ 56) ∧
    (∃ x v, Ready eventState (.wfe (r3 0 0 0)) x v ∧ ∀ t ∈ x.active v, t.ev = true) ∧
    (∃ x v k, Ready eventState (.halt (r3 0 0 0)) x v ∧ x.group.control = some k ∧
      ∀ t ∈ x.active v, t.ev = true ∧ ∃ m, t.fence = .releasing m ∧ ∀ e ∈ t.sb, e.seq ≠ m) ∧
    ∃ x v, Ready eventState (.sev (r3 0 0 6)) x v ∧
      ∀ t ∈ x.active v, eventState.sevOk x.group t (t.b32 v) = true ∧ ∃ m, t.fence = .releasing m ∧ ∀ e ∈ t.sb, e.seq ≠ m :=
  ⟨⟨_, _, 0, ready (by decide +kernel), by decide +kernel, by decide +kernel⟩, ⟨_, _, ready (by decide +kernel), by decide +kernel⟩,
    ⟨_, _, 0, ready (by decide +kernel), by decide +kernel,
      fun t ht => ⟨by revert t; decide +kernel, 1, by revert t; decide +kernel, by revert t; decide +kernel⟩⟩,
    _, _, ready (by decide +kernel),
      fun t ht => ⟨by revert t; decide +kernel, 1, by revert t; decide +kernel, by revert t; decide +kernel⟩⟩
/-- Field b and a of `rdsys` and `wrsys` for a system register's number. -/
def sys (d : RegNum) (n : BitVec 14) : Rrr := ⟨n.extractLsb' 7 7, n.extractLsb' 0 7, d, false, .none⟩
/-- The group at supervisor level. -/
def supervisorState : State :=
  (grp [(6, 1)] [(6, 1)]).modGroup 200 fun g => { g with threads := g.threads.map fun t => (t.1, { t.2 with pl := 1 }) }
/-- SystemRegisterInstructions: on a control core a Thread register, a Module register, a pair, and a downstream access; in a group at
supervisor level a Die register. -/
theorem witness_systemRegisters :
    (∀ p ∈ [(ctl [(6, 1)], Instr.rdsys (sys 6 0x001), false), (ctl [(6, 1)], .rdsys (sys 6 0x00A), false),
      (ctl [(6, 1)], .rdsys (sys 6 0x028), false), (ctl [(6, 1)], .wrsys (sys 6 0x001), true), (ctl [(6, 1)], .wrsys (sys 6 0x00A), true),
      (supervisorState, .rdsys (sys 6 0x010), false), (supervisorState, .wrsys (sys 6 0x010), true)],
      ∃ x v, Ready p.1 p.2.1 x v ∧ ∀ t ∈ x.active v, sysCheck x.group t v p.2.2 = none ∧ sysNumber v ≠ 0x02A) ∧
    ∀ p ∈ [(Instr.rdsys (sys 6 0x02A), false), (.wrsys (sys 6 0x02A), true)], ∃ x v, Ready (ctl [(6, 1)]) p.1 x v ∧
      ∀ t ∈ x.active v, sysCheck x.group t v p.2 = none ∧ sysNumber v = 0x02A ∧ t.sb = [] ∧ t.outstanding .load < 64 ∧
        (t.pciAligned = true → t.pciConfig = false) := by
  refine ⟨fun p hp => ⟨_, _, ready (s := p.1) (i := p.2.1) ?_, ?_⟩, fun p hp => ⟨_, _, ready (i := p.1) ?_, ?_⟩⟩
  all_goals revert p; decide +kernel
/-- SystemRegistersReadBack: a level above the thread's and one that is not; a ring size of 0 and one that is not. -/
theorem witness_readBack : (thread 0 0 1 []).pl.toNat < ((0x8 : Dword).extractLsb' 2 2).toNat ∧
    ((0x4 : Dword).extractLsb' 2 2).toNat ≤ (thread 0 0 1 []).pl.toNat ∧
    ((0x40 : Dword).extractLsb' 0 32 : Word) &&& 0x3F = 0 ∧ ((1 : Dword).extractLsb' 0 32 : Word) &&& 0x3F ≠ 0 := by decide
/-- MonitorInstructionsComplete. -/
theorem witness_monitor :
    let s := ctl [(4, 0x1000), (5, 1), (6, 0x10000), (8, 0)]
    (∀ i ∈ [Instr.tlbi (r3 0 4 8), .tlbi (r4 0 0 8 (mx 1)), .tlbi (r4 0 0 0 (mx 3))], ∃ x v, Ready s i x v ∧
      ∀ t ∈ x.active v, s.tlbiTrap x.group t v = none) ∧
    (∃ x v, Ready s (.tlbsync (r3 0 0 0)) x v ∧ ∀ t ∈ x.active v, s.tlbSynced x.group t = true) ∧
    (∃ x v, Ready s (.dstep (r3 0 10 0)) x v ∧ ∀ t ∈ x.active v, s.dstepOk t (t.a64 v) = true) ∧
    (∃ x v, Ready s (.ctxsv (r3 0 4 6)) x v) ∧
    (∃ x v, Ready s (.ctxld (r3 0 4 6)) x v ∧ ∀ t ∈ x.active v, placementOk (t.b32 v) = true) ∧
    ∃ x v k, Ready s (.kerase (r3 0 0 0)) x v ∧ x.group.control = some k ∧ x.group.place.die = 32 := by
  refine ⟨fun i hi => ⟨_, _, ready (i := i) ?_, ?_⟩, ⟨_, _, ready ?_, ?_⟩, ⟨_, _, ready ?_, ?_⟩, ⟨_, _, ready ?_⟩, ⟨_, _, ready ?_, ?_⟩,
    _, _, 0, ready ?_, ?_, ?_⟩
  · revert i; decide +kernel
  · revert i; decide +kernel
  all_goals decide +kernel
/-- PrivilegedInstructionsTrap: a monitor and a supervisor instruction of a user-level control-core thread. -/
theorem witness_privileged :
    let s := (ctl []).modThread 0 0 fun t => { t with pl := 0 }
    ∀ i ∈ [Instr.eret (r3 0 0 0), .kerase (r3 0 0 0), .rdsys (sys 6 0x001)], ∃ x v t k, s.issue = some x ∧ i.view = some v ∧
      x.group.control = some k ∧ x.lanes = [t] ∧ t.trapped = none ∧ t.pl.toNat < i.leastPrivilege ∧ v.fmt ≠ .raw ∧
      (∀ r ∈ (i.sig v).registers v, r < x.group.budget) ∧ (i.sig v).tiles v = [] ∧ i.legal v = true ∧
      i.dieRegisterOnControl v = false := by
  intro s i hi
  refine ⟨setOf s, viewOf i, thread 0 0 0 [], 0, ?_⟩
  revert i; decide +kernel
/-- DifferencesCarryChanges: a block with one changed byte, its last. -/
theorem witness_difference :
    let b : Memory := [(511, 7)]
    b.read 511 ≠ Memory.read [] 511 ∧ runsOf b (changedOffsets b []) = [⟨511, [7]⟩] := by decide +kernel

/-! ## Witnesses of the steps' statements -/

/-- A group whose first thread has three buffered entries and two loads, in a die that holds a twinned block. -/
def accessState : State :=
  ((grp [] []).modThread 200 0 fun t => { t with
    sb := [⟨3, .scratch 8, 5, 4, false, false⟩, ⟨4, .global loc0 false, 0x01020304, 4, false, false⟩, ⟨5, .mark .die .stores, 0, 0, false, false⟩]
    ops := [⟨6, some .load, .load .l ⟨8, 8, 0, false, false, 0, 0⟩ 4 9 false none none, false, [], false, false⟩,
      ⟨7, some .load, .load .g loc0 8 10 false none none, false, [], false, false⟩] }).modDie 0 fun d =>
    { d with work := [⟨blk, [(0, 1)], some [], 0, 0, 0, false⟩] }
/-- AccessStepsPerform: a block that is not held and one with a twin; a scratchpad store, a global store and a mark with nothing before
it; loads of both spaces, the global one half from the store buffer. -/
theorem witness_accessSteps :
    (isBlockKey (blk + 512) = true ∧ (accessState.die 0).lost = false ∧ (accessState.die (keyHome (blk + 512))).lost = false ∧
      (accessState.die 0).block (blk + 512) = none) ∧
    (∃ b ∈ (accessState.die 0).block blk, b.twin.isSome = true ∧ runsOf b.bytes (changedOffsets b.bytes []) ≠ []) ∧
    (∃ g ∈ accessState.group 200, ∃ t ∈ g.thread 0,
      (∃ e ∈ t.sb[0]?, e.kind = .scratch 8 ∧ accessState.entryReady g t (t.sb.take 0) e = true) ∧
      ∃ e ∈ t.sb[1]?, e.kind = .global loc0 false ∧ accessState.entryReady g t (t.sb.take 1) e = true) ∧
    (let s := accessState.modThread 200 0 fun t => { t with sb := [⟨5, .mark .die .stores, 0, 0, false, false⟩] }
      ∃ g ∈ s.group 200, ∃ t ∈ g.thread 0, ∃ e ∈ t.sb[0]?, e.kind = .mark .die .stores ∧ Scope.wide .die = false ∧
        s.entryReady g t [] e = true) ∧
    (∃ o ∈ accessState.operation 200 0 6, accessState.opReady o.1 o.2.1 o.2.2 = true ∧
      o.2.2.kind = .load .l ⟨8, 8, 0, false, false, 0, 0⟩ 4 9 false none none) ∧
    ∃ o ∈ accessState.operation 200 0 7, accessState.opReady o.1 o.2.1 o.2.2 = true ∧ o.2.2.kind = .load .g loc0 8 10 false none none ∧
      o.2.1.bufferByte 7 false (loc0.key + 3) ≠ none ∧ o.2.1.bufferByte 7 false (loc0.key + 4) = none := by decide +kernel
/-- A group whose first thread awaits a pair of a load, an atomic, a `gname` and a launch; a difference and the atomic wait at home 0. -/
def resultState : State :=
  ((grp [] []).modThread 200 0 fun t => { t with ops := [
    ⟨6, some .load, .load .g loc0 8 8 false none (some (bytesOfNat 77 8)), false, [], false, false⟩,
    ⟨7, some .load, .atom .g loc0 4 1 0 10 true none true (some 5), false, [], false, false⟩,
    ⟨8, none, .gname 5 12, false, [], false, false⟩, ⟨9, none, .launch true loc0 0 (some 2) 14, false, [], false, false⟩] }).modDie 0 fun d =>
    { d with queue := [⟨1, 0, 0, 0, .atomic 200 0 7 loc0 4 1 0 true⟩] }
/-- ResultsReturn. -/
theorem witness_results :
    (∃ o ∈ resultState.operation 200 0 6, o.2.2.done = false ∧ o.2.2.cancelled = [] ∧ o.2.1.state ≠ .exited ∧ o.2.1.remote = [] ∧
      o.2.2.kind = .load .g loc0 8 8 false none (some (bytesOfNat 77 8))) ∧
    (∃ o ∈ resultState.operation 200 0 7, o.2.2.done = false ∧ o.2.2.cancelled = [] ∧ o.2.1.state ≠ .exited ∧ o.2.1.remote = [] ∧
      o.2.2.kind = .atom .g loc0 4 1 0 10 true none true (some 5)) ∧
    (∃ o ∈ resultState.operation 200 0 8, o.2.2.done = false ∧ o.2.2.cancelled = [] ∧ o.2.1.state ≠ .exited ∧ o.2.1.remote = [] ∧
      o.2.2.kind = .gname 5 12 ∧ o.1.residency = .resident 0) ∧
    (∃ o ∈ resultState.operation 200 0 9, o.2.2.done = false ∧ o.2.2.cancelled = [] ∧ o.2.1.state ≠ .exited ∧ o.2.1.remote = [] ∧
      o.2.2.kind = .launch true loc0 0 (some 2) 14) ∧
    (∃ e ∈ (resultState.die 0).queue.head?, e.kind = .atomic 200 0 7 loc0 4 1 0 true ∧ resultState.poison = []) ∧
    ∃ e ∈ ((resultState.modDie 0 fun d => { d with queue := [⟨1, 3, 0, 0, .diff blk [⟨511, [7]⟩] false⟩] }).die 0).queue.head?,
      e.kind = .diff blk [⟨511, [7]⟩] false := by decide +kernel
/-- An operation of the tile engine as its group issues it. -/
def tileOp (id core gid : Nat) (i : Instr) (gang : Option Nat) (rank : Nat) : TileOp :=
  { id := id, die := 0, core := core, gid := gid, lanes := [(0, 20), (1, 20)], instr := i, shapes := List.replicate 8 0x00040402, rm := 0
    rows := [], args := [], rank := rank, gang := gang }
/-- The group of spec/11's gather with that transfer begun. -/
def movingState : State :=
  let s := transferState
  let g := (s.group 200).getD (pair [] [])
  let t := (g.thread 0).getD (thread 0 0 0 [])
  let x := t.descriptor g (viewOf (.xfer (r4 0 14 0 m30))) false 0 20
  { s.modThread 200 0 fun t => { t with ops := [⟨20, some .transfer, .transfer 0 none, false, [], false, false⟩] } with
      transfers := [x, { x with handle := 1, fault := some ({ cause := .page }, true), asked := 4 },
        { x with handle := 2, flags := 0x00003018, fault := none }] }
/-- EnginesProceed: a packet of a transfer with a counter and of one without, and a stopped transfer that a retry or a failure meets. -/
theorem witness_transferSteps :
    (∃ x ∈ movingState.transfers.head?, x.fault = none ∧ ∃ g ∈ movingState.group x.gid, ∃ t ∈ g.thread x.gidx,
      movingState.engineReady g t x.opId = true ∧ x.moved = 0 ∧ (movingState.packetPieces x g t (x.parts g 512)).toOption.isSome = true) ∧
    (∃ x ∈ movingState.transfers[2]?, x.fault = none ∧ x.dir = 0 ∧ x.nosl = true ∧ ∃ g ∈ movingState.group x.gid, ∃ t ∈ g.thread x.gidx,
      movingState.engineReady g t x.opId = true ∧ (movingState.packetPieces x g t (x.parts g 1)).toOption.isSome = true) ∧
    ∃ x ∈ movingState.stoppedTransfer 0 0 0 1, x.fault = some ({ cause := .page }, true) ∧ x.nosl = false ∧ ∃ g ∈ movingState.group x.gid,
      ∃ t ∈ g.thread x.gidx, (movingState.packetPieces x g t (x.parts g x.asked)).toOption.isSome = true := by decide +kernel
/-- The service group with a batch, and a die whose fault records have a ring on the token page. -/
def recordState : State :=
  let s := serviceState.modDie 0 fun d => { d with
    fring := 0x100003000, fringCtx := 0, fringPolder := 0
    records := [[⟨1, 2, 3, 1, 0, 1, 0, 1, 0, 0, 0, 0, 0⟩]] }
  { s with batches := [⟨0, [(0, List.replicate 64 0)], []⟩] }
/-- EnginesProceed: a batch and a ring with room. -/
theorem witness_records :
    (∃ b ∈ recordState.batches.find? fun b => b.die = 0 && b.marks.all recordState.markDone, b.die = 0) ∧
    (recordState.serviceGroup 0).isSome = true ∧ recordState.ringRoom 0 0 = true ∧
    (recordState.die 0).records ≠ [] ∧ ∃ l ∈ recordState.ringLoc 0, (recordState.die 0).lost = false ∧
      let s1 := (recordState.touch (recordState.die 0).fringCtx l.home).gather l.key
      (natOfBytes (s1.readLoc 0 l 4) + 2 ^ 32 - natOfBytes (s1.readLoc 0 (l.at 4) 4)) % 2 ^ 32 + 1 ≤ 63 := by decide +kernel

/-- A group whose threads are ready, on a core that is free, with a launch of its own. -/
def idleState : State :=
  let s := grp [] []
  let ready : Group → Group := fun g => { g with threads := g.threads.map fun t => (t.1, { t.2 with state := .ready }) }
  { s.modGroup 200 ready with strokes := [], clock := 1000000, launches := [{ queued 7 with phase := .started, admitted := 1 }] }
/-- The same under a replay launch that has started on its core. -/
def replayState (asked : Bool) : State :=
  { idleState with launches := [{ queued 7 with
      phase := .started, admitted := 1, onCore := some (0, 0), sliceRetired := 0, stopAsked := asked
      lastKey := if asked then 1 + 2047 else 0, header := { headerOf headerBytes with ctl := 0x100 } }] }
/-- SchedulerSteps: a stroke of an ordinary and of a replay core, a bin that has come of age, a spent slot, the ends of a quantum, a
slice and a replay launch. -/
theorem witness_strokesAndSlots :
    (idleState.slotFree 0 0 1 = true ∧ (idleState.die 0).lost = false ∧ idleState.ports.boot = .running ∧
      idleState.replayOn 0 0 = none ∧ (leastLex (fun (p : Group × Warp) => p.2.rank) (idleState.contenders 0 0)).isSome = true) ∧
    (∃ l ∈ (replayState false).replayOn 0 0, l.stopped = false ∧ (replayState false).replayBusy l.lid = false ∧
      (replayState false).stopDue l 0 0 = false ∧ (replayState false).sliceDue l 0 0 = false ∧ ((replayState false).replayNext l 0 0).isSome = true) ∧
    (∃ l ∈ (replayState true).launches.find? fun l => l.lid = 7, l.onCore = some (0, 0) ∧ (replayState true).stopDue l 0 0 = true) ∧
    (let s := idleState.modGroup 200 fun g => { g with bins := [⟨0x100000000, [(0, 0), (1, 5)]⟩] }
      ∃ g ∈ s.group 200, ∃ b ∈ g.bins.find? fun b => b.key == 0x100000000, g.isResident = true ∧ b.earliest + 128 ≤ s.clockOf g ∧
        b.entries.length ≤ 32) ∧
    (let gone : Group → Group := fun g => { g with threads := g.threads.map fun t => (t.1, { t.2 with state := .exited }) }
      ∃ g ∈ (idleState.modGroup 200 gone).group 200, (idleState.modGroup 200 gone).spent g = true) ∧
    (idleState.modCore 0 0 fun c => { c with quantum := some (0, 1000000) }).quantumDue 0 0 = true := by decide +kernel
/-- A launch that is accepted and waits, of one group or admitted as it goes, and one of which every group is gone. -/
theorem witness_admission :
    (let s := { idleState with launches := [{ queued 7 with header := { headerOf headerBytes with dies := 1 } }] }
      ∃ l ∈ s.launches.find? fun l => l.lid = 7, s.mayAdmit l = true ∧ l.header.isStream = false ∧
        s.placesOk l l.header.groups [⟨0, 63, 30⟩] = true) ∧
    (let s := { idleState with launches := [{ queued 7 with header := { headerOf headerBytes with dies := 1, ctl := 0x80, groups := 2 } }] }
      ∃ l ∈ s.launches.find? fun l => l.lid = 7, s.mayAdmit l = true ∧ l.header.isStream = true ∧ s.placesOk l l.batch [⟨0, 5, 3⟩] = true) ∧
    let s := { idleState with groups := [] }
    ∃ l ∈ s.launches.find? fun l => l.lid = 7, s.launchDone l = true ∧ l.node = none := by decide +kernel
/-- A folio on the token page, with a run of two nodes or none. -/
def folio (run : Bool) : Folio :=
  { fid := 5, die := 0, base := 0x100003000, ctx := 0, polder := 0, run := run, err := false, runs := 0
    nodes := if run then [(0, false, false), (1, false, false)] else [], stale := false }
/-- A state with that folio and a value of its KICK. -/
def folioState (kick : Nat) (run : Bool) : State :=
  let s := idleState
  let m := s.mem.writeN (storageKey 0 (imageFrame + 0x3000)) (bytesOfNat kick 8)
  let m := m.writeN (storageKey 0 (imageFrame + 0x3080)) headerBytes
  { s with folios := [folio run], mem := m.writeN (storageKey 0 (imageFrame + 4096 + 0x200)) (bytesOfWord 0x00006C08) }
/-- FolioSaveAndStepSteps: each value of KICK, and a node whose header is good. -/
theorem witness_folio :
    (∀ k ∈ [0, 1, 2, 0x100001000], ∃ f ∈ (folioState k false).folios.find? fun f => f.fid = 5, f.run = false ∧
      ((folioState k false).locate f.who .both false f.base).toOption.isSome = true ∧
      ∃ l ∈ ((folioState k false).locate f.who .both false f.base).toOption, l.token = true ∧
        (folioState k false).poisoned .both true l 8 = false ∧
        dwordOfBytes (((folioState k false).gather l.key).tokenRead l.key 8) = BitVec.ofNat 64 k) ∧
    ∃ f ∈ (folioState 0 true).folios.find? fun f => f.fid = 5 && f.run, f.nodes[0]? = some (0, false, false) ∧
      ∃ p ∈ (folioState 0 true).deviceRead f.who (nodeAddress f.base 0) 128, (p.2.goodHeader f.who true p.1).isSome = true ∧
        p.2.storeUsed (f.storeOf (headerOf p.1)) < 4096 := by decide +kernel
/-- A request to save or to restore the group in the area at the data page. -/
def save (load : Bool) (name area : Dword) : SaveRequest := ⟨load, 200, area, 0, 0, 0, 2, 0, name, false⟩
/-- A group that is OUT and named. -/
def outState : State :=
  let s := idleState.modGroup 200 fun g => { g with
    residency := .out 0 true, tiles := 0, scratchSize := 0, nthr := 1, budget := 4, warps := [⟨1, .normal, [(0, 0)], none⟩]
    threads := g.threads.take 1 }
  s.modDie 0 fun d => { d with names := [⟨0, 1, 200⟩] }
/-- A state of which the bytes at the data page are an area: of no group's name, of a name that is not recorded, or none. -/
def areaState (name : Nat) (bad : Bool) : State :=
  let g := ((outState.group 200).getD (pair [] []))
  let bs := g.areaImage 0 0
  let bs := bs.take 8 ++ bytesOfNat name 8 ++ bs.drop 16
  { outState with mem := outState.mem.writeN (storageKey 0 (imageFrame + 4096)) (if bad then [] else bs) }
/-- FolioSaveAndStepSteps: requests to save a name that is not found and one that is. -/
theorem witness_saves : outState.findName 0x2000000 = none ∧
    ∃ g ∈ outState.findName 0x1000000, outState.readyToSave g = true ∧ (save false 0x1000000 0x100001000).area.toNat % 4096 = 0 ∧
      g.residency = .out 0 true ∧ (outState.deviceWrite ((save false 0x1000000 0x100001000).who 0) (0x100001000 + 4)
        ((g.areaImage (outState.clockOf g) 0).drop 4)).isSome = true := by decide +kernel
/-- FolioSaveAndStepSteps: requests to restore an area that is unreadable, one of a stale name, and one that creates a group. -/
theorem witness_badArea : (areaState 0 true).readArea (save true 0 0x100001000) 0 = none := by decide +kernel
theorem witness_staleArea : ∃ p ∈ (areaState 0x2000000 false).readArea (save true 0 0x100001000) 0,
    (p.2.areaGroup (save true 0 0x100001000) p.1).toOption = none := by decide +kernel
theorem witness_newArea :
    let r := { save true 0 0x100001000 with placement := 1 }
    ∃ p ∈ (areaState 0 false).readArea r 0, (p.2.areaGroup r p.1).toOption = some none ∧ areaStores p.1 = [] ∧
      p.2.restoreRoom (areaShapeOf p.1) none 0 1 false ((BitVec.ofNat 32 (areaField p.1 0x028 4)).getLsbD 6) = true ∧
      p.2.replayOn 0 1 = none ∧ (p.2.restoreSlot r none 0 1 false).toOption = some (some 0) := by decide +kernel
/-- A group one of whose threads is a parked fragment and whose other is as named. -/
def fragmentState (st : TState) : State :=
  (idleState.modGroup 200 fun g => { g with
    warps := [⟨1, .fragment 3, [(0, 0)], none⟩, ⟨2, .halted, [(1, 1)], none⟩]
    threads := [(0, { thread 0 0 0 [] with state := .parked }), (1, { thread 1 1 0 [] with state := st })] }).modCore 0 0 fun c =>
    { c with frags := [(3, (200, 1, false))] }
/-- FolioSaveAndStepSteps and RepairCommands: step requests of an exited, a ready and a parked thread; commands to a fragment and to the
group in a slot. -/
theorem witness_stepsAndCommands :
    (let s := { fragmentState .exited with steps := [⟨200, 1, none⟩] }
      ∃ r ∈ s.steps[0]?, r.ran = none ∧ ∃ g ∈ s.group r.gid, ∃ t ∈ g.thread r.gidx, t.state = .exited) ∧
    (let s := { fragmentState .ready with steps := [⟨200, 1, none⟩] }
      ∃ r ∈ s.steps[0]?, ∃ g ∈ s.group r.gid, ∃ t ∈ g.thread r.gidx, g.isResident = true ∧ t.state = .ready ∧
        (s.core g.place.die g.place.core).freeEntry.isSome = true) ∧
    (let s := { fragmentState .ready with steps := [⟨200, 0, none⟩] }
      ∃ r ∈ s.steps[0]?, ∃ g ∈ s.group r.gid, ∃ t ∈ g.thread r.gidx, g.isResident = true ∧ t.state = .parked ∧ r.ran = none ∧
        g.kindOf t.gidx = .fragment 3 ∧ s.recordsWait g 3 = false) ∧
    (∃ p ∈ (fragmentState .ready).fragmentAt 0 0 0 3, (fragmentState .ready).group p.1.gid = some p.1 ∧
      (fragmentState .ready).recordsWait p.1 3 = false) ∧
    ∃ g ∈ (fragmentState .ready).groupAt 0 0 0, (fragmentState .ready).group g.gid = some g ∧ ∀ p ∈ g.threads, p.2.gidx = p.1 := by
  decide +kernel
/-- A valid connection entry of dies 0 and 1. -/
def wave (live spares state : Nat) : Nat := 1 + 2 ^ 13 + 4 * 2 ^ 24 + live * 2 ^ 28 + spares * 2 ^ 32 + state * 2 ^ 36
/-- TableAndLossSteps: a table store under way and an invalidation of one die; a table entry to cache at each end of the walk; a die to
lose and one that has been lost; a wavelength with and without a spare, and the last one. -/
theorem witness_tableStore :
    let s := { idleState with tableStores := [⟨0x18000, List.replicate 8 0, [0, 1], 0, [(200, 0, 1)], 2⟩], tlbis := [⟨1, 1, 0, 5, 0, 200, 0, 9, [0, 1]⟩] }
    s.tableStores ≠ [] ∧ s.nextReplica 0 = some 0 ∧ ∃ i ∈ s.tlbis.find? fun i => i.id = 1 && i.left.contains 0,
      (s.modDie 0 fun d => { d with tlb := [] }).tlbiWaits i 0 = false := by decide +kernel
def tlbiState : State :=
  { idleState.modThread 200 0 (fun t => { t with sb := [⟨4, .global loc0 false, 0, 4, false, false⟩] }) with tlbis := [⟨1, 1, 0, 0, 0, 200, 0, 9, [0, 1]⟩] }
theorem witness_tlbiWaits : ∃ i ∈ tlbiState.tlbis.find? fun i => i.id = 1 && i.left.contains 0,
    (tlbiState.modDie 0 fun d => { d with tlb := [] }).tlbiWaits i 0 = true := by decide +kernel
theorem witness_tlbFill : (idleState.contextEntry 0 0).testBit 0 = true ∧ ∀ level ∈ [0, 4], ∃ table ∈
    idleState.tableAt 0 (idleState.contextEntry 0 0 / 2 ^ 11 % 2 ^ 37 * 2048) 0x100001000 level 5 4,
      let e := idleState.readNat (idleState.replicaOf 0) (table + 8 * tableIndex 0x100001000 level) 8
      peValid e = true ∧ idleState.malformed (idleState.polder (idleState.replicaOf 0) (idleState.contextEntry 0 0 / 2 ^ 6 % 32)) level e = false := by
  decide +kernel
theorem witness_loss : idleState.lossDue 33 .ticks = true ∧ ((idleState.modDie 5 fun d => { d with lost := true }).die 5).lost = true ∧
    ∃ g ∈ idleState.group 200, 7 < g.tiles := by decide +kernel
/-- A line of the token page of which die 1 holds 63 tokens and the owner token is home, with messages and requests under way. -/
def line0 : Nat := storageKey 0 (imageFrame + 0x3000)
def tokenState : State :=
  { idleState with tokens := {
      lines := [⟨line0, 1, true, [⟨1, 61, false⟩, ⟨2, 1, false⟩], [], false⟩], msgs := [⟨line0, some 3, 1, false, []⟩]
      reqs := [⟨3, 0, line0, true, 0, 0⟩], reqMsgs := [⟨3, line0, true, some 1⟩], persistent := [], waiting := [] } }
/-- TokenSteps: every premise of a line's 64 tokens, a request under way, one to repeat, one to escalate, and a persistent request
that has been served. -/
theorem witness_tokens :
    tokenState.tokenTotal line0 = 64 ∧ ((tokenState.lineOrHome line0).holders.map Holder.die).Nodup ∧
    (tokenState.lineOrHome line0).poisoned = false ∧ 61 ≤ ((tokenState.lineOrHome line0).held (some 1)).1 ∧
    tokenState.activeRequester line0 = none ∧ (∃ m ∈ tokenState.tokens.reqMsgs[0]?, m.line = line0 ∧ m.dest ≠ some m.src) ∧
    (∃ m ∈ tokenState.tokens.msgs[0]?, m.dest = some 3) ∧
    (∃ r ∈ tokenState.tokens.reqs.find? fun r => r.die = 3 && r.line = line0, r.last + nanoseconds 500 ≤ tokenState.clock ∧
      r.first + microseconds 2 ≤ tokenState.clock ∧ tokenState.mayEscalate 3 = true) ∧
    (tokenState.tokens.lines.find? fun t => t.key = line0 && !t.poisoned).isSome = true ∧
    (let s := { tokenState with tokens := { tokenState.tokens with persistent := [(3, line0, true)] } };
      (s.tokens.persistent.find? fun p => p.1 = 3) = some (3, line0, true)) := by decide +kernel

/-- A packet of kind k from one chip to another, on channel 7 with a sequence. -/
def packet (k : PacketKind) (src dst : Nat) (seq : Half) (data : List Byte) : Packet :=
  { Packet.blank k with src := src, dst := dst, chan := 7, seq := seq, addr := 0, data := data }
/-- A sender whose channel's count is full and on which a write waits; packets kept, flying and lost; a second after reset. -/
def senderState : State :=
  let p := packet .pst 0 12 65533 [1]
  let s := podState.modThread 200 0 fun t => { t with state := .waiting (.channel 7 true) }
  { s with
      clock := 2000000000
      pod := { s.pod with
        channels := [⟨7, 0, 12, 65534, 32736, List.replicate 8 65533, 65533, [], []⟩]
        copies := [⟨p, 0, true, true, false, false, false⟩]
        kept := [⟨p, 1999900000, 1999900000, false⟩, ⟨packet .pst 0 12 65532 [1], 0, 0, false⟩]
        lossNotices := [(7, 65533)] } }
/-- PodSenderSteps: a credit for a copy, a marker, a retransmission and an expiry, an old copy, a channel with its anchor, and a notice of
loss. -/
theorem witness_podSender :
    (12 ≠ senderState.pod.chip ∧ ∃ c ∈ senderState.pod.copies, c.named 12 7 65533 = true) ∧
    (∃ c ∈ senderState.channel 7, senderState.waitsOn 7 true = true ∧ 32736 ≤ c.cnt ∧ senderState.pod.outWait = [] ∧
      senderState.pod.flags = [] ∧ (65533 : Half) ∉ c.expired) ∧
    (∃ k ∈ senderState.pod.kept.find? fun k => k.packet.chan = 7 && k.packet.seq == 65533, k.credited = false ∧
      k.lastLeft + microseconds 20 ≤ senderState.clock ∧ senderState.clock < k.firstLeft + microseconds 2000) ∧
    (∃ k ∈ senderState.pod.kept.find? fun k => k.packet.chan = 7 && k.packet.seq == 65532,
      k.firstLeft + microseconds 2000 ≤ senderState.clock) ∧
    (∃ c ∈ senderState.pod.copies[0]?, c.here = false ∧ c.lost = false ∧ c.left + microseconds 20 < senderState.clock) ∧
    senderState.pod.lossNotices = [(7, 65533)] := by decide +kernel
/-- A receiver of packets from chip 12 whose polder 0 is admitted. -/
def receiverState (ps : List Packet) : State :=
  let s := podState.modThread 200 0 fun t => { t with ops := [⟨20, some .pod, .podRead 8 8, false, [], false, false⟩] }
  { s with
      clock := 2000000000, mem := s.mem.writeN (storageKey 0 (0x8000 + 32)) (bytesOfNat 1 8) |>.writeN (storageKey 0 (0x8000 + 40)) (bytesOfNat 1 8)
      pod := { s.pod with
        arrivals := ps
        kept := [⟨packet .pst 0 12 65532 [1], 1999999000, 1999999000, false⟩]
        requests := [⟨5, 200, 0, 20, 0, packet .pld 0 12 5 [], some 0, 0, true, 0x100002000, none⟩,
          ⟨6, 200, 0, 21, 0, packet .pld 0 12 6 [], some 1999000000, 1999000000, true, 0x100002000, none⟩]
        recv := [⟨12, 7, 9, 12, [10], [12], [], 0, [(packet .flag 12 0 12 [1, 2, 3, 4], 0)], [], false, none, false, none⟩] } }
/-- PodSenderSteps and PodReceiverSteps: packets of each kind that arrive, of a polder that is admitted and of one that is not. -/
theorem witness_arrivals :
    (∀ k ∈ [PacketKind.pst, .flag, .rst, .rstFlag, .pld, .patom], ∃ p ∈ (receiverState [packet k 12 0 12 []]).nextArrival
      (fun k => k.isChannel || k == .pld || k == .patom), p.2.admits p.1 = true) ∧
    (∃ p ∈ (receiverState [{ packet .pst 12 0 12 [] with polder := 1 }]).nextArrival (fun k => k.isChannel || k == .pld || k == .patom),
      p.2.admits p.1 = false) ∧
    (let s := receiverState [];
      0 ≤ seqDist (State.recvOf s 12 7).hseq 12 ∧ (12 : Half) ∉ (s.recvOf 12 7).miss) ∧
    (∀ q ∈ [65532, 65531], ∃ p ∈ (receiverState [packet .gap 12 0 0 (bytesOfNat q 2)]).nextArrival (fun k => k == .gap),
      p.2.admits p.1 = true ∧ gapSeqs p.1.data = [BitVec.ofNat 16 q] ∧
      ((p.2.pod.kept.find? fun k => k.packet.chan = p.1.chan && k.packet.seq.toNat == q && k.packet.dst = p.1.src).isSome = decide (q = 65532)) ∧
      ∃ c ∈ p.2.channel p.1.chan, c.dest = p.1.src) ∧
    (∃ p ∈ (receiverState [packet .expiry 12 0 10 []]).nextArrival (fun k => k == .expiry), p.2.admits p.1 = true) := by decide +kernel
/-- PodReceiverSteps: a reply to a load, a gap to ask for, and requests to repeat and to give up. -/
theorem witness_replies :
    (∃ p ∈ (receiverState [packet .reply 12 0 5 (bytesOfNat 9 8)]).nextArrival (fun k => k == .reply), p.2.admits p.1 = true ∧ p.1.data ≠ [] ∧
      ∃ q ∈ (p.2.credit p.1).pod.requests.find? fun q => q.tag == p.1.seq && q.waits,
      ∃ t ∈ (receiverState [packet .reply 12 0 5 (bytesOfNat 9 8)]).thread q.gid q.gidx, ∃ o ∈ t.ops.find? fun o => o.id = q.op,
        o.kind = .podRead 8 8 ∧ o.cancelled = [] ∧ t.state ≠ .exited ∧ t.remote = []) ∧
    (let s := receiverState [];
      let r := s.recvOf 12 7
      ((r.withheld ++ r.heldWrites).map Prod.snd) = [0] ∧ r.miss ≠ [] ∧ max 0 (r.lastGap.getD 0) + microseconds 20 ≤ s.clock) ∧
    (∃ q ∈ (receiverState []).pod.requests.find? fun q => q.tag == 6, q.first = some 1999000000 ∧ q.waits = true ∧
      q.last + microseconds 20 ≤ (receiverState []).clock ∧ (receiverState []).clock < 1999000000 + microseconds 2000) ∧
    ∃ q ∈ (receiverState []).pod.requests.find? fun q => q.tag == 5, q.first = some 0 ∧ q.waits = true ∧
      0 + microseconds 2000 ≤ (receiverState []).clock := by decide +kernel
/-- A lane that is held at `pacq` on a word of 1. -/
def pollState (c : Word) : State := pacqState.modThread 200 0 fun t => { t with state := .waiting (.pacq loc0 c 1 8 0x100000008) }
/-- PodReceiverSteps: a held `pacq` whose word meets its condition, and one whose does not. -/
theorem witness_pacqPolls : ∀ p ∈ [(pollState 1, 1, true), (pollState 2, 2, false)], ∃ g ∈ p.1.group 200, ∃ t ∈ g.thread 0,
    t.state = .waiting (.pacq loc0 (BitVec.ofNat 32 p.2.1) 1 8 0x100000008) ∧ g.residency = .resident 0 ∧
    p.1.linePoisoned loc0 false = false ∧ (p.1.pacqRead g t loc0).1.any (fun w => pacqMeets 1 w (BitVec.ofNat 32 p.2.1)) = p.2.2 := by
  decide +kernel
/-- A state whose pod ports 2 and 3 have been down for a second, with a downstream read that awaits its completion. -/
def portState : State :=
  let s := (ctl []).modThread 0 0 fun t => { t with state := .ready, ops := [⟨20, some .load, .pciRead 8, false, [], false, false⟩] }
  { s with
      clock := 2000000000
      regs := { s.regs with dmactx := List.replicate 4 0x80000000 ++ List.replicate 4 0 }
      ports := { s.ports with podDown := [(2, 0), (3, 0)], outstanding := [⟨0, 20, 0, false, false, 0, 3, 0, 0⟩], pciIn := [(0, 20, false, 0xABCDEF)] } }
/-- PortAndPlaneSteps: a port to go down, a plane whose ports are both down, values of MAP that name it and not, and a register write. -/
theorem witness_ports :
    (∀ x ∈ portState.ports.podDown, x.1 ≠ 15) ∧ portState.regs.plmap.getLsbD (24 + 1) = false ∧
    (∃ x ∈ portState.ports.podDown, x.1 = 2 * 1 ∧ x.2 + microseconds 100 ≤ portState.clock) ∧
    (∃ x ∈ portState.ports.podDown, x.1 = 2 * 1 + 1 ∧ x.2 + microseconds 100 ≤ portState.clock) ∧
    (let s := { portState with regs := { portState.regs with plmap := 0x02000000 } };
      (∀ i, i < 8 → s.regs.plmap.getLsbD (24 + field (0 : Word) (3 * i) 3) = false) ∧
      ∃ i, i < 8 ∧ s.regs.plmap.getLsbD (24 + field (0x00200000 : Word) (3 * i) 3) = true) ∧
    (∀ r ∈ portState.ports.outstanding, r.port ∉ portState.ports.rootDown) ∧ portState.ports.retrain = [] ∧
    (∃ g ∈ portState.group 0, ∃ t ∈ g.thread 0, (systemReg (BitVec.toNat (w := 14) 0x001)).isSome = true ∧ plainSysReg 0x001 = true ∧
      2 ≤ t.pl.toNat) := by decide +kernel
/-- The same with a memory or a configuration address in sys.pciaddr. -/
def pciState (cfg : Bool) : State :=
  portState.modThread 0 0 fun t => { t with pciaddr := if cfg then 0x8000000000000010 else 0x10 }
/-- PciAndFetchSteps: a completion and a request without one; writes and a read of sys.pcidata. -/
theorem witness_pci :
    (∃ r ∈ portState.pciRequest 0 20, r.write = false ∧ r.sent + microseconds 50000 ≤ portState.clock ∧
      ∃ o ∈ portState.operation 0 0 20, o.2.2.done = false ∧ o.2.2.cancelled = [] ∧ o.2.1.state ≠ .exited ∧ o.2.1.remote = [] ∧
        o.2.2.kind = .pciRead 8) ∧
    ∀ p ∈ [(pciState false, false), (pciState true, true)], ∃ g ∈ p.1.group 0, g.control = some 0 ∧ ∃ t ∈ g.thread 0, t.sb = [] ∧ t.state = .ready ∧
      t.pciAligned = true ∧ t.pciConfig = p.2 ∧ t.outstanding .load < 64 ∧ t.isFull 8 = true ∧ t.isFull 9 = true := by decide +kernel
/-- PciAndFetchSteps: inbound requests of an enabled and a disabled port, to the data page and to no page. -/
theorem witness_inbound :
    portState.portEnabled 3 = true ∧ portState.portEnabled 4 = false ∧ portState.ports.rootDown = [] ∧
    (∃ ps ∈ portState.stretch (portState.portWho 3) .write false 0x1000011F0 32, portState.piecesDelivered (portState.portWho 3) ps = true) ∧
    portState.stretch (portState.portWho 3) .write false 0x200000000 32 = none := by decide +kernel
/-- PciAndFetchSteps: a control-core thread whose program counter no page maps. -/
theorem witness_fetchFault :
    let s := (ctl []).modThread 0 0 fun t => { t with pc := 0x200000000 }
    ∃ x ∈ s.issue, x.group.control = some 0 ∧ x.lanes.length = 1 ∧
      (match s.fetchInstr x with
       | .error e => e.cause == .page
       | .ok _ => false) = true := ⟨setOf ((ctl []).modThread 0 0 fun t => { t with pc := 0x200000000 }), by decide +kernel⟩
/-- A state whose sideband holds one message. -/
def sidebandState (m : SidebandMsg) (b : BootPhase) : State :=
  let s := ctl []
  { s with ports := { s.ports with sideband := [m], boot := b, staged := [1, 2] } }
/-- SidebandSteps: any message whose signature verifies is taken, of every kind and in every phase of boot, and one whose nonce was
seen is not. Whether any signature verifies is a free value (log entry 7). -/
theorem witness_sideband (m : SidebandMsg) (b : BootPhase) (h : Config.signatureValid m.signed m.signature = true) :
    ∃ s1, SidebandTaken (sidebandState m b) m m.kind s1 := ⟨_, [], rfl, rfl, rfl, h, List.not_mem_nil, rfl⟩
/-- SidebandSteps: a tenant's context, and a window with a millisecond to go and with none. -/
theorem witness_sidebandWindow :
    State.reset.ports.boot = .check ∧ State.tenants { ctl [] with mem := [(storageKey 0 0, 0x41)] } = true ∧
    (ctl []).ports.resetWindow = none ∧
    (let s := ctl []
      let w := { s with clock := 2000000, ports := { s.ports with resetWindow := some 0 }, regs := { s.regs with notice := 0x2000000 } }
      w.ports.resetWindow = some 0 ∧ 0 + microseconds 1000 ≤ w.clock ∧ w.msLeft = 0 ∧
        State.msLeft { w with regs := { w.regs with notice := 1 } } = 1) := by decide +kernel

/-- A state in a phase of the election, ten seconds after reset, with a follower that waits for its configuration. -/
def electionState (c : ClaimState) : State :=
  let s := ctl []
  { s with
      clock := 20000000000
      ports := { s.ports with election := { Election.reset with
        state := c, lowest := if c = .follower then some 3 else none, loading := true, followers := [(9, 1, false)] } } }
/-- ElectionAndCoolingSteps: a claim that is due; what a leader sends and what a follower that hears nothing does. -/
theorem witness_election :
    (electionState .claiming).claimDue = true ∧
    (∀ c ∈ [ClaimState.leader, .follower], (electionState c).ports.election.lastBeat + seconds 5 ≤ (electionState c).clock ∧
      (electionState c).ports.election.loading = true) ∧
    (electionState .follower).ports.election.lowest = some 3 ∧ (electionState .leader).ports.configsIn = [] ∧
    ((electionState .leader).ports.election.followers.find? fun f => !f.2.2) = some (9, 1, false) := by decide +kernel
/-- ElectionAndCoolingSteps: claims of each outcome, beats and configurations, whatever the module's serial is; whether a signature
verifies is a free value (log entry 7). -/
theorem witness_claims (c : Claim) (sig : List Byte) (p : PodConfig) :
    let s := electionState .claiming
    let f := electionState .follower
    (let t := { s with ports := { s.ports with claimsIn := [(15, c)] } };
      t.ports.claimsIn = [(15, c)] ∧ t.ports.keys = true ∧ c.serial ∉ t.ports.election.without ∧
        t.ports.election.state ≠ .follower ∧ t.ports.election.lowest = none) ∧
    (let t := { f with ports := { f.ports with beatsIn := [(3, sig)] } };
      t.ports.beatsIn = [(3, sig)] ∧ t.ports.election.state = .follower ∧ t.ports.election.lowest = some 3 ∧ t.ports.keys = true) ∧
    (let t := { f with ports := { f.ports with configsIn := [(3, .config p)] } };
      t.ports.configsIn = [(3, .config p)] ∧ t.ports.election.state = .follower ∧ t.ports.election.lowest = some 3) :=
  ⟨⟨rfl, rfl, List.not_mem_nil, (fun h => by cases h), rfl⟩, ⟨rfl, rfl, rfl, rfl⟩, rfl, rfl, rfl⟩
/-- ElectionAndCoolingSteps: an alarm with and without the fuse, and temperatures at the ends of their ranges. -/
theorem witness_cooling (fuse : Bool) :
    let s := ctl []
    let t := { s with ports := { s.ports with alarmIn := [.tamper], eraseFuse := fuse, powerIn := [0, 26001], junctionIn := [(0, 105), (0, 114), (0, 115)] } }
    t.ports.alarmIn = [.tamper] ∧ t.ports.eraseFuse = fuse ∧ t.ports.powerIn = 0 :: [26001] ∧
      t.ports.junctionIn = (0, 105) :: [(0, 114), (0, 115)] := ⟨rfl, rfl, rfl, rfl⟩
/-- A control-core thread whose program counter holds the words of `movi v4, 0x3F800000`. -/
def programState : State :=
  let s := ctl []
  { s with agenda := [.issue 32 0 0], mem := s.mem.writeN (storageKey 0 imageFrame) ([(0x00002193 : Word), 0x3F800000, 0].flatMap bytesOfWord) }
/-- StepRunsTheDecodedInstruction: the words at the program counter decode and are fetched from their three locations. -/
theorem witness_step :
    State.agenda programState = [.issue 32 0 0] ∧ programState.mayIssue = true ∧ ∃ x ∈ programState.issue, x.lanes.length = 1 ∧
      (programState.fetchInstr x).toOption.map Prod.fst = some (.movi ⟨0, 4, false, .lit 0x3F800000⟩) ∧
      ∀ t ∈ x.lanes, ∀ p ∈ [((0x00002193 : Word), 0), (0x3F800000, 1), (0, 2)], ∃ l ∈ (State.fetchLoc programState x t p.2).toOption,
        programState.readLoc x.group.place.die l 4 = bytesOfWord p.1 := by decide +kernel
/-- The step writes the literal's lower word to v4 and goes on after the three words (R135). -/
theorem test_stepMovi : (match step programState with
    | .next T => (T.thread 0 0).map fun t => (t.reg 4, t.pc)
    | _ => none) = some (0x3F800000, 0x10000000C) := by decide +kernel
/-- DecodeAndEncodeAgree: a well-formed instruction with every field in use. -/
theorem witness_wellFormed : Instr.WellFormed (.mad ⟨0, 126, 125, true, .modLit { Modifier.absent with me := true, m := 124, c := 127, sat := true } 0xFFFFFFFF⟩) := by
  decide
/-- EveryStepKeepsDeparturesBlocked: a state and a step that answers. -/
theorem witness_stepAnswers : (match step programState with
    | .next T => T.pod.outWait.isEmpty
    | _ => false) = true := by decide +kernel

/-- ArithmeticRoundsExactly: values with their digits above 2^-1, of sums and products that are and are not 0, a negative one, and one
of no digits; and a NaN beside a product that exists. -/
theorem witness_arithmeticRounds :
    (∀ p ∈ [(1, (3 : Nat), (-1 : Int)), (1, 1, 0), (1, 0, 0)], FVal.fits (.fin false p.2.1 p.2.2) 1 ∧ FVal.fits (.fin true p.2.1 p.2.2) 2) ∧
    (FVal.fin false 3 (-1)).scaled 1 + (FVal.fin false 1 0).scaled 1 ≠ 0 ∧ (FVal.fin false 3 (-1)).scaled 1 + (FVal.fin true 3 (-1)).scaled 1 = 0 ∧
    (FVal.fin false 3 (-1)).scaled 1 * (FVal.fin false 1 0).scaled 1 ≠ 0 ∧ (FVal.fin false 0 0).scaled 1 = 0 ∧
    0 < (FVal.fin false 3 (-1)).scaled 1 ∧ (FVal.fin true 3 (-1)).scaled 1 < 0 ∧ (FVal.nan true).isNan = true ∧ (FVal.inf true).isNan = false ∧
    (FVal.fin false 3 (-1)).product (.fin false 1 0) ≠ none := by
  refine ⟨fun p hp => ?_, by decide⟩
  simp only [List.mem_cons, List.not_mem_nil, or_false] at hp
  rcases hp with rfl | rfl | rfl <;> exact ⟨by unfold FVal.fits; decide, by unfold FVal.fits; decide⟩
/-- RoundsExactly, in f32: an exact 3/2; 1/3 between its neighbours; a tiny value and one that is not, by half a unit of precision; 2^128
past the largest, and a value that rounds up past it. -/
theorem witness_rounds :
    let f := fmtF32
    f.ratio 3 2 (f.magnitude 0x3FC00000) 1 = .eq ∧
    (f.ratio 1 3 (f.magnitude 0x3EAAAAAA) 1 = .lt ∧ f.ratio 1 3 (f.magnitude 0x3EAAAAAB) 1 = .gt) ∧
    (f.ratio 1 (2 ^ 150) (f.magnitude 0) 1 = .lt ∧ f.ratio 1 (2 ^ 150) (f.magnitude 1) 1 = .gt ∧ f.ratio 1 (2 ^ 150) (2 ^ f.fb) 1 = .gt) ∧
    (f.ratio (2 ^ 26 - 1) (2 ^ 152) (2 ^ f.fb) 1 = .gt ∧ f.ratio (2 ^ 26 - 1) (2 ^ 152) (2 ^ (f.fb + 1) - 1) 2 = .lt) ∧
    f.ratio (2 ^ 128) 1 (f.magnitude f.infBits) 1 ≠ .gt ∧
    (f.ratio (2 ^ 128 - 1) 1 (f.magnitude (f.infBits - 1)) 1 = .lt ∧
      deliversUp 0 false (f.ratio (2 ^ 128 - 1) 1 (f.magnitude (f.infBits - 1) + f.magnitude f.infBits) 2) ((f.infBits - 1) % 2 = 1) = true) ∧
    f.root 2 1 (f.magnitude 0x3FB504F3) 1 = .lt ∧ f.root 2 1 (f.magnitude 0x3FB504F4) 1 = .gt := by decide +kernel
/-- ConversionsRoundExactly: codes below, at and above the infinity's; a value to round to an integer and one past i8's range; 2^j and
−2^j for exp2; a power of two other than 1 for log2. -/
theorem witness_conversionsRound :
    (0x3FC00000 % fmtF32.signBit < fmtF32.infBits ∧ 0x7F800000 % fmtF32.signBit = fmtF32.infBits ∧ fmtF32.infBits < 0xFFC00000 % fmtF32.signBit) ∧
    (fmtF32.unpack 0x40600000 = .fin false 0xE00000 (-22) ∧ 0xE00000 ≠ 0 ∧ (0 : Int) ≤ -22 + (22 : Nat)) ∧
    IntegerRounds 0 false 7 2 4 ∧ (127 : Int) < 300 ∧ (0xC00000 : Nat) * 2 ^ 0 ≠ 0 ∧
    (∀ n ∈ [false, true], ∃ x, fmtF32.unpack x = .fin n (3 * 2 ^ ((22 : Int)).toNat) (-22)) ∧
    (fmtF32.unpack 0x41000000 = .fin false (2 ^ 23) (-20) ∧ (23 : Int) + -20 ≠ 0) ∧ fmtF32.unpack 0x80000000 = .fin true 0 (-149) := by
  refine ⟨by decide, by decide, ⟨by decide, by decide⟩, by decide, by decide, fun n hn => ?_, by decide, by decide⟩
  cases n
  · exact ⟨0x40400000, by decide⟩
  · exact ⟨0xC0400000, by decide⟩
/-- SpecialRegisterMoves: a group of no replay launch and one of a replay launch; a RND code that stays and one that does not. -/
theorem witness_specialReads :
    (∀ l ∈ (grp [] []).launches, l.lid = 7 → l.header.ctl.getLsbD 8 = false) ∧
    ((replayState false).launches.find? fun l => l.lid = (pair [] []).lid && l.header.ctl.getLsbD 8).isSome = true ∧
    ((4 : Word).extractLsb' 0 3).toNat < 5 ∧ ¬((5 : Word).extractLsb' 0 3).toNat < 5 := by decide +kernel
/-- A group whose thread 1 has an unperformed store below place 9, and whose thread 0 comes after it. -/
def orderState : State :=
  (accessState.modThread 200 1 fun t => { t with sb := [⟨2, .scratch 64, 5, 4, false, false⟩] }).modThread 200 0 fun t => { t with order := [(1, 3)] }
/-- ReformExitAndBarrierComplete: a member that is busy, and an entry and an operation that come after it. -/
theorem witness_order : ∃ g ∈ orderState.group 200, ∃ t ∈ g.thread 0, ∃ y ∈ g.thread 1, (1, 3) ∈ t.order ∧ y.busyBelow 3 = true ∧
    (∃ e ∈ t.sb[0]?, 3 ≤ e.seq) ∧ ∃ o ∈ t.ops.head?, 3 ≤ o.id ∧ o.unperformed = true := by decide +kernel
/-- Accesses of a compute group of which lane 0's fails its checks and lane 1's passes. -/
def partState : State := grp [(5, 0x100), (6, 0xFFFF0000)] [(4, 0x1000), (5, 1)]
/-- What AccessTrapsPartly asks, as a test. -/
def partOk (s : State) (p : Instr × Space × Nat × Need) : Bool :=
  let x := setOf s
  let v := viewOf p.1
  let e := fun t => s.access x.group t v p.2.1 p.2.2.1 p.2.2.2
  isReady s p.1 && x.group.control.isNone &&
  (x.active v).all (fun t => decide (t.outstanding .load < 64) && decide (t.sb.length + 2 ≤ 64) && match e t with
    | .error c => c.cause != .levee
    | .ok _ => true) &&
  ((x.active v).any fun t => (e t).toOption.isNone) && (s.core x.group.place.die x.group.place.core).freeEntry == some 0
/-- Every load and every store, of lane addresses in v4:v5 or v6. -/
def loadForms : List (Instr × Space × Nat × Need) :=
  [(.ldGB (ri7 8 4 1), .g, 1, .read), (.ldGH (ri7 8 4 2), .g, 2, .read), (.ldGW (ri7 8 4 4), .g, 4, .read), (.ldGD (ri7 8 4 8), .g, 8, .read),
    (.ldGQ (ri7 8 4 16), .g, 16, .read), (.ldLB (ri7 8 6 1), .l, 1, .read), (.ldLH (ri7 8 6 2), .l, 2, .read), (.ldLW (ri7 8 6 4), .l, 4, .read),
    (.ldLD (ri7 8 6 8), .l, 8, .read), (.ldLQ (ri7 8 6 16), .l, 16, .read), (.ldKB (ri7 8 4 1), .k, 1, .read), (.ldKH (ri7 8 4 2), .k, 2, .read),
    (.ldKW (ri7 8 4 4), .k, 4, .read), (.ldKD (ri7 8 4 8), .k, 8, .read), (.ldKQ (ri7 8 4 16), .k, 16, .read)]
def storeForms : List (Instr × Space × Nat × Need) :=
  [(.stGB (ri7 8 4 1), .g, 1, .write), (.stGH (ri7 8 4 2), .g, 2, .write), (.stGW (ri7 8 4 4), .g, 4, .write), (.stGD (ri7 8 4 8), .g, 8, .write),
    (.stGQ (ri7 8 4 16), .g, 16, .write), (.stLB (ri7 8 6 1), .l, 1, .write), (.stLH (ri7 8 6 2), .l, 2, .write), (.stLW (ri7 8 6 4), .l, 4, .write),
    (.stLD (ri7 8 6 8), .l, 8, .write), (.stLQ (ri7 8 6 16), .l, 16, .write)]
/-- AccessChecks: every access instruction with an unmapped address or an offset past the scratchpad's end on a control core. -/
def otherForms : List (Instr × Space × Nat × Need) :=
  [(.ldAcq (r4 8 4 0 { mx 2 with sc := 2 }), .g, 4, .read), (.stRel (r4 8 4 0 { mx 3 with sc := 2 }), .g, 8, .write),
    (.atom (r4 8 4 0 (mc 9)), .g, 4, .both), (.atom (r4 8 6 4 { mc 10 with x := 1 }), .l, 8, .both), (.red (r4 0 4 0 (mc 12)), .g, 4, .both),
    (.red (r4 0 6 0 { mc 12 with x := 1 }), .l, 4, .both)]
theorem witness_accessTraps : ∀ p ∈ loadForms ++ storeForms ++ otherForms,
    ∃ x v t k e, Ready (ctl [(5, 0x100)]) p.1 x v ∧ x.group.control = some k ∧ x.lanes = [t] ∧ laneActive v.tail.modifier t = true ∧
      t.outstanding .load < 64 ∧ t.sb.length + 2 ≤ 64 ∧ (ctl [(5, 0x100)]).access x.group t v p.2.1 p.2.2.1 p.2.2.2 = .error e ∧
      e.cause ≠ .levee :=
  accessTrapReady (by decide +kernel)
/-- TrappingLanesLeave: every access instruction with a lane that fails its checks. -/
theorem witness_accessParts : loadForms.all (partOk partState) = true ∧ storeForms.all (partOk partState) = true := by decide +kernel
/-- The group at a core whose fragment table is full. -/
def fullState : State :=
  (grp [(9, 1)] []).modCore 0 0 fun c => { c with frags := (List.range 64).map fun k => (k, (300, 1, false)) }
/-- TrappingLanesLeave: `trap` in one lane of two, with a free entry and with none; a word of no instruction; and a privileged one. -/
theorem witness_partialTraps :
    (∃ x v, Ready (grp [(9, 1)] []) (.trap (r4 0 0 5 { Modifier.absent with me := true, m := 9 })) x v ∧ x.group.control = none ∧
      (x.active v).length = 1 ∧ ((grp [(9, 1)] []).core x.group.place.die x.group.place.core).freeEntry = some 0) ∧
    (∃ x v w, Ready fullState (.trap (r4 0 0 5 { Modifier.absent with me := true, m := 9 })) x v ∧ x.group.control = none ∧ x.active v ≠ [] ∧
      (fullState.core x.group.place.die x.group.place.core).freeEntry = none ∧
      (x.lanes.head?.bind fun t => x.group.warpOf t.gidx) = some w ∧ ∀ l ∈ w.lanes, (x.group.thread l.2).isSome = true) ∧
    (∃ x v, (grp [] []).issue = some x ∧ (Instr.unassignedOpcode ⟨0, 0x69, false, .none⟩).view = some v ∧ x.group.control = none) ∧
    ∀ i ∈ [Instr.eret (r3 0 0 0), .rdsys (sys 6 0x001)], ∃ x v, (grp [] []).issue = some x ∧ i.view = some v ∧ x.group.control = none ∧
      (∃ t ∈ x.lanes, t.pl.toNat < i.leastPrivilege) ∧ v.fmt ≠ .raw ∧ i.legal v = true ∧
      (∀ r ∈ (i.sig v).registers v, r < x.group.budget) ∧ ∀ k ∈ (i.sig v).tiles v, k < x.group.tiles := by
  refine ⟨⟨_, _, ready (by decide +kernel), by decide +kernel, by decide +kernel, by decide +kernel⟩,
    ⟨_, _, ⟨1, .normal, [(0, 0), (1, 1)], none⟩, ready (by decide +kernel), by decide +kernel, by decide +kernel, by decide +kernel,
      by decide +kernel, by decide +kernel⟩, ⟨setOf (grp [] []), _, by decide +kernel, rfl, by decide +kernel⟩, fun i hi => ?_⟩
  refine ⟨setOf (grp [] []), viewOf i, ?_⟩
  revert i; decide +kernel
/-- ControlCoreTakesTraps: an add that reads a register in error. -/
theorem witness_registerError :
    let s := (ctl []).modThread 0 0 fun t => { t with regErrors := [4] }
    ∃ x v t, s.issue = some x ∧ (Instr.add (r3 8 4 6)).view = some v ∧ x.group.control = some 0 ∧ x.lanes = [t] ∧ t.trapped = none ∧
      x.staticTrap (.add (r3 8 4 6)) v = none ∧ t.emptyOperands ((Instr.add (r3 8 4 6)).sig v) v = [] ∧
      x.errorRead (.add (r3 8 4 6)) v t = some 4 :=
  ⟨setOf ((ctl []).modThread 0 0 fun t => { t with regErrors := [4] }), viewOf (.add (r3 8 4 6)), { thread 0 0 2 [] with regErrors := [4] }, by
    decide +kernel⟩

/-- The group of 4 × 4 tiles with one operation of an instruction at the head of its core's engine. -/
def tileTurn (i : Instr) (rows : List (List (Loc × Nat))) : State :=
  let s := tileState.modGroup 200 fun g => { g with threads := g.threads.map fun t =>
    (t.1, { t.2 with ops := [⟨20, some .tile, .tile 20, false, [], false, false⟩] }) }
  { s with tileOps := [{ tileOp 20 0 200 i none 0 with rows := rows, args := [(0, 0x00010002, 7, 20), (1, 0x00000400, 9, 20)] }] }
/-- What TilePerforms asks, as a test. -/
def turnOk (i : Instr) (rows : List (List (Loc × Nat))) : Bool :=
  let s := tileTurn i rows
  match s.tileOps.find? fun o => o.die = 0 && o.core = 0 && o.id = 20 with
  | some o => o.instr == i && i.view.isSome && (s.group o.gid).isSome && o.gang.isNone && s.tileReady o && s.piecesReach 0 o.rows.flatten &&
      (o.shapes.all fun sh => sh == 0 || shapeValid sh) && shapeValid o.shapeD && shapeWidth o.shapeD == 4
  | none => false
/-- Four rows of 16 bytes of the data page, and four of one byte. -/
def wordRows : List (List (Loc × Nat)) := (List.range 4).map fun r => [(loc0.at (64 * r), 16)]
def bitRows : List (List (Loc × Nat)) := (List.range 4).map fun r => [(loc0.at (64 * r), 1)]
/-- TileOperationsPerform: every instruction's turn, with the shapes that its clause asks for; the rows of tld and tst in their modes; an
element that twr and trd name, and one beyond the shape. -/
theorem witness_tilePerforms :
    (∀ i ∈ [Instr.tmma (r4 2 0 1 (mx 5)), .tmmas (r4 2 0 1 (mx 5)), .tscal (r3 3 2 4), .tcvt (r3 1 2 0), .ttr (r3 1 2 0), .tzero (r3 7 0 0),
      .twr (r3 3 21 22), .twr (r4 3 21 22 (mx 1)), .trd (r3 20 21 3), .trd (r4 20 21 3 (mx 1))], turnOk i [] = true) ∧
    (∀ p ∈ [(Instr.tld (r3 1 4 0), wordRows), (.tld (r4 1 4 0 (mx 1)), wordRows), (.tld (r4 1 4 0 (mx 2)), bitRows), (.tst (r3 2 4 0), wordRows),
      (.tst (r4 2 4 0 (mx 1)), bitRows)], turnOk p.1 p.2 = true ∧ (∀ q ∈ p.2.flatten, q.1.table = false ∧ q.1.token = false ∧ q.1.key % 512 + q.2 ≤ 512)) ∧
    (productWidths 5).2 = 4 ∧ (numFormat (descCode 0)).map NumFormat.width = some 32 ∧
    tileRowBytes 0x00040402 false = 16 ∧ tileRowBytes 0x00040402 true = 1 ∧ wordRows.length = shapeRows 0x00040402 ∧ tileState.poison = [] ∧
    (∃ g ∈ (tileTurn (.trd (r3 20 21 3)) []).group 200, ∃ t ∈ g.thread 0, t.state ≠ .exited ∧ t.remote = [] ∧
      ∃ o ∈ t.ops.find? fun o => o.id = 20, o.cancelled = []) := by decide +kernel
/-- TileOperationsPerform: a gang's four cores, whose product's turn has come at each. -/
theorem witness_gangPerforms :
    let i := Instr.tmmas (r4 2 0 1 { mx 5 with sc := 1 })
    let member : Nat → Nat × Group := fun r => (200 + r, { pair [] [] with
      gid := 200 + r, place := ⟨0, r, 0⟩, ordinal := r, ctl := 0x40, tshape := List.replicate 8 0x00040402 })
    let s := { tileState with groups := (List.range 4).map member, tileOps := (List.range 4).map fun r => tileOp (20 + r) r (200 + r) i (some 0) r }
    ∃ o ∈ s.tileOps.find? fun o => o.die = 0 && o.core = 0 && o.id = 20, o.gang = some 0 ∧ (s.gangOps o).length = 4 ∧
      (∃ q ∈ (s.gangOps o).head?, (s.group q.gid).isSome = true ∧ q.instr.view.isSome = true) ∧
      (∀ q ∈ s.gangOps o, s.tileReady q = true ∧ shapeValid q.shapeD = true ∧ shapeWidth q.shapeD = 4) ∧ ((s.gangOps o).map TileOp.gid).Nodup := by
  decide +kernel

/-! ## Witnesses of the engines' clauses -/

/-- EnginesProceed: a state whose only transfer moves in one of the six directions, between the data page, the scratchpad and tile 1. -/
def directionState (dir : Nat) : State :=
  let s := movingState.modGroup 200 fun g => { g with tshape := List.replicate 8 0x00040402 }
  { s with transfers := (s.transfers.take 1).map fun x => { x with
      gaddr := 0x100001000, laddr := 0x100, len := 16, stride := 64, sluice := 48, index := 0, fault := none
      flags := BitVec.ofNat 32 (dir + (if dir < 2 then 0 else 16) + 4096 * 3)
      base := 14, gather := false } }
/-- What a packet of a transfer asks, as a test, with what it moves. -/
def packetOk (s : State) (bytes : Nat) : Bool :=
  match s.transfers with
  | x :: _ => x.fault.isNone && !x.dropped && match s.group x.gid with
    | some g => match g.thread x.gidx with
      | some t => s.engineReady g t x.opId && decide (x.moved = 0) && !x.allMoved g && (x.scratchFault g bytes).isNone &&
        match s.packetPieces x g t (x.parts g bytes) with
        | .ok ps => s.piecesReach x.die ps.flatten && !s.piecesAwaitTwin x.die ps.flatten && decide (x.dir < 6) &&
          (ps.flatten.all fun p => !p.1.table && !p.1.token && decide (p.1.key % 512 + p.2 ≤ 512)) &&
          (x.nosl || (x.parts g bytes).all fun p => decide (x.sluice.toNat + 4 ≤ x.scratchAt p.1 p.2.1))
        | .error _ => false
      | none => false
    | none => false
  | [] => false
/-- EnginesProceed: a packet in each direction. -/
theorem witness_directions : (List.range 6).all (fun dir => packetOk (directionState dir) 512 &&
    (directionState dir).transfers.all fun x => decide (x.dir = dir)) = true := by decide +kernel
/-- EnginesProceed: a packet whose page no leaf maps. -/
def faultingState : State :=
  { directionState 0 with transfers := (directionState 0).transfers.map fun x => { x with gaddr := 0x200000000 } }
theorem witness_packetFault : ∃ x ∈ faultingState.transfers.head?, x.fault = none ∧ x.dropped = false ∧ ∃ g ∈ faultingState.group x.gid,
    ∃ t ∈ g.thread x.gidx, faultingState.engineReady g t x.opId = true ∧ x.moved = 0 ∧ x.scratchFault g 512 = none ∧
    (match faultingState.packetPieces x g t (x.parts g 512) with
      | .error e => e.2.1.cause == .page && !e.2.2
      | .ok _ => false) = true := by decide +kernel
/-- Tables in the replicas of dies 0 and 1, of which die 1's give context 0 polder 5, which the routing die's copy does not hold. -/
def farTables : Memory :=
  ((((tables ++ tables.map fun (c : Nat × Byte) => (c.1 + 2 ^ 37, c.2)).writeN (storageKey 1 0) (bytesOfNat (Config.bootRoot + 1 + 5 * 64) 8)).writeN
    (storageKey 1 (0x8000 + 320)) (bytesOfNat 3 8)).writeN (storageKey 1 (0x8000 + 360)) (bytesOfNat 1 8))
/-- The same transfer of a group on die 1, in polder 5. -/
def farState : State :=
  let s := (directionState 0).modGroup 200 fun g => { g with
    place := ⟨1, 0, 0⟩, threads := g.threads.map fun t => (t.1, { t.2 with polder := 5 }) }
  { s with mem := farTables, transfers := s.transfers.map fun x => { x with die := 1 } }
/-- EnginesProceed: a packet that the polder filter drops. -/
theorem witness_packetDropped : ∃ x ∈ farState.transfers.head?, x.fault = none ∧ x.dropped = false ∧ ∃ g ∈ farState.group x.gid,
    ∃ t ∈ g.thread x.gidx, farState.engineReady g t x.opId = true ∧ x.moved = 0 ∧ x.scratchFault g 512 = none ∧
    (match farState.packetPieces x g t (x.parts g 512) with
      | .ok ps => !farState.piecesReach x.die ps.flatten
      | .error _ => false) = true := by decide +kernel
/-- EnginesProceed: a batch of a group that stands under its own number; fault records with room, with none, and on a page of no
other holder. -/
theorem witness_batchAndRing :
    (∃ g ∈ recordState.serviceGroup 0, recordState.group g.gid = some g) ∧
    (∃ l ∈ recordState.ringLoc 0, l.token = true ∧ l.table = false ∧ recordState.tokens.lines = [] ∧
      (recordState.die 0).work = [] ∧ (recordState.die 0).sent = []) ∧
    let s := { recordState with mem := recordState.mem.writeN (storageKey 0 (imageFrame + 0x3000)) (bytesOfNat 63 4) }
    ∃ l ∈ s.ringLoc 0, (s.die 0).lost = false ∧ let s1 := (s.touch (s.die 0).fringCtx l.home).gather l.key
      ¬(natOfBytes (s1.readLoc 0 l 4) + 2 ^ 32 - natOfBytes (s1.readLoc 0 (l.at 4) 4)) % 2 ^ 32 + 1 ≤ 63 := by decide +kernel

/-! ## Witnesses of the accesses', the scheduler's and the launches' clauses -/

/-- AccessStepsPerform: a block that a load needs, one that none needs, and a load of space k. -/
def neededState : State := accessState.modDie 0 fun d => { d with work := [] }
theorem witness_fetch : (isBlockKey blk = true ∧ (neededState.die 0).lost = false ∧ (neededState.die (keyHome blk)).lost = false ∧
      (neededState.die 0).block blk = none) ∧
    (∃ p ∈ neededState.groups, p.2.place.die = 0 ∧ ∃ t ∈ p.2.threads, ∃ o ∈ t.2.ops, o.kind = .load .g loc0 8 10 false none none ∧
      loc0.table = false ∧ loc0.token = false ∧ o.dropped = false ∧ blockOf loc0.key = blk ∧ neededState.passes loc0.polder 0 loc0.home = true) ∧
    (∀ p ∈ neededState.groups, ∀ t ∈ p.2.threads, ∀ o ∈ t.2.ops, (match o.kind with
      | .load _ l _ _ _ _ _ => decide (blockOf l.key ≠ blk + 512)
      | _ => true) = true) ∧
    let s := accessState.modThread 200 0 fun t => { t with
      ops := [⟨7, some .load, .load .k loc0 8 10 false none none, false, [], false, false⟩] }
    ∃ o ∈ s.operation 200 0 7, s.opReady o.1 o.2.1 o.2.2 = true ∧ o.2.2.kind = .load .k loc0 8 10 false none none ∧
      s.reaches o.1.place.die loc0 = true ∧ loc0.key % 512 + 8 ≤ 512 := by decide +kernel
/-- ResultsReturn: the atomic's group and home are of one polder. -/
theorem witness_atomicPasses : ∃ g ∈ resultState.group 200, resultState.passes loc0.polder loc0.home g.place.die = true := by decide +kernel

/-- A second group of the core, OUT and not held, and the core's free register blocks. -/
def sliceState (free : List Nat) : State :=
  let s := { idleState with groups := idleState.groups ++ [(201, { pair [] [] with
    gid := 201, ordinal := 1, place := ⟨0, 0, 1⟩, residency := .out 5 false, warps := [], threads := [(0, { thread 0 0 0 [] with state := .ready })] })] }
  s.modCore 0 0 fun c => { c with freeBlocks := free }
/-- SchedulerSteps: a core with no OUT group, with one that fits, and with one that does not while an older group may give way. -/
theorem witness_slices :
    idleState.waitingUnits 0 0 = [] ∧
    (∀ free ∈ [[3], []], (sliceState free).waitingUnits 0 0 = ((sliceState free).groups.drop 1).map Prod.snd ∧
      ((sliceState free).groups.drop 1).length = 1) ∧
    (∃ w ∈ ((sliceState [3]).groups.map Prod.snd)[1]?, (sliceState [3]).gangOf w = [w] ∧ (sliceState [3]).unitFits [w] = true) ∧
    ∃ w ∈ ((sliceState []).groups.map Prod.snd)[1]?, (sliceState []).unitFits ((sliceState []).gangOf w) = false ∧
      ∃ v ∈ ((sliceState []).groups.map Prod.snd)[0]?, v.isResident = true ∧ v.gid ≠ w.gid ∧ v.prio ≤ w.prio ∧
        v.since + microseconds 100 ≤ (sliceState []).clockOf v ∧
        ((sliceState []).onCore 0 0).filter Group.isResident = [v] ∧
        ((sliceState []).core 0 0).freeBlocks.length < w.blocksNeeded := by decide +kernel
/-- A replay core that has retired a whole slice. -/
def dueReplay : State :=
  { replayState false with launches := (replayState false).launches.map fun (l : Launch) => { l with sliceRetired := 65536 } }
/-- SchedulerSteps: slices of a replay core that are due and that are not. -/
theorem witness_replaySlices :
    (∃ l ∈ (replayState false).replayOn 0 0, (replayState false).slotFree 0 0 0 = true ∧ (replayState false).sliceDue l 0 0 = false) ∧
    (∃ l ∈ dueReplay.replayOn 0 0, dueReplay.sliceDue l 0 0 = true) ∧
    ∃ g ∈ idleState.group 200, ∃ since, since < 1 ∧ g.residency = .resident since := by decide +kernel
/-- SchedulerSteps: a launch whose groups are gone, with a DONE word on the data page. -/
def doneState : State :=
  { idleState with groups := [], launches := idleState.launches.map fun l => { l with header := { l.header with done := 0x100001100 } } }
theorem witness_launchDone : ∃ l ∈ doneState.launches.find? fun l => l.lid = 7, doneState.launchDone l = true ∧ l.node = none ∧
    l.header.done ≠ 0 ∧ l.dies = [] ∧ ∃ x ∈ (doneState.locate ⟨l.store, l.ctx, l.polder, true⟩ .write false l.header.done).toOption,
      x.token = false ∧ x.table = false ∧ x.key % 4 = 0 := by decide +kernel

/-! ## Witnesses of the folios', the saves' and the restores' clauses -/

/-- FolioSaveAndStepSteps: tokens at home, FSTATE in one line, a KICK whose patch table is empty, is not mapped, and holds one patch
with an aligned destination and one with another. -/
theorem witness_folioRun :
    (∃ f ∈ (folioState 0 false).folios[0]?, (folioState 0 false).tokens.lines = [] ∧ (folioState 0 false).tokens.persistent = [] ∧
      (∃ l ∈ ((folioState 0 false).locate f.who .write false (f.base + 8)).toOption, l.token = true ∧ l.table = false ∧ l.key % 8 = 0 ∧
        (folioState 0 false).stretch ⟨f.die, f.ctx, f.polder, false⟩ .write false (f.base + 8) 8 = some [(l, 8)]) ∧
      (let g := { f with run := true, err := false }
        let s1 := (folioState 0 false).writeFstate g
        s1.deviceRead f.who 0x200000000 8 = none ∧ ∃ p ∈ s1.deviceRead f.who 0x100001000 8, p.1 = List.replicate 8 0 ∧
          ∃ q ∈ (p.2.engineRelease f.die).deviceRead f.who (f.base + 16) 2, (q.2.nodeCounts f.who f.base (natOfBytes q.1)).isSome = true) ∧
      (∀ dst ∈ [0x100001100, 0x100001104], let s := { folioState 0 false with
          mem := (folioState 0 false).mem.writeN (blk + 8) (bytesOfNat dst 8) }
        ∃ p ∈ s.deviceRead f.who (0x100001000 + 8) 16, dwordOfBytes (p.1.take 8) = BitVec.ofNat 64 dst ∧
          (dst % 8 = 0 → (p.2.deviceWrite f.who (dwordOfBytes (p.1.take 8)) (p.1.drop 8)).isSome = true))) := by decide +kernel
/-- FolioSaveAndStepSteps: a group to save that is saved already, resident, or OUT with an operation that a save waits for. -/
def residencyState (r : Residency) : State :=
  outState.modGroup 200 fun g => { g with
    residency := r
    threads := g.threads.map fun t => (t.1, { t.2 with ops := [⟨6, some .load, .load .g loc0 8 8 false none none, false, [], false, false⟩] }) }
theorem witness_savesWait :
    (∃ g ∈ (residencyState (.saved 0x100001000 0 0)).findName 0x1000000, g.residency = .saved 0x100001000 0 0) ∧
    (∃ g ∈ (residencyState (.resident 0)).findName 0x1000000, g.residency = .resident 0 ∧
      (residencyState (.resident 0)).replayOf g = none ∧ g.ganged = false ∧ (residencyState (.resident 0)).group g.gid = some g) ∧
    (∃ g ∈ (residencyState (.out 0 true)).findName 0x1000000, (residencyState (.out 0 true)).readyToSave g = false) ∧
    (∃ l ∈ (outState.locate ((save false 0x1000000 0x100001000).who 0) .write false 0x100001000).toOption, l.token = false ∧ l.table = false ∧
      l.key % 4 = 0 ∧ outState.stretch ((save false 0x1000000 0x100001000).who 0) .write false 0x100001000 4 = some [(l, 4)]) ∧
    ((outState.die 0).twinned = [] ∧ (outState.die 0).sent = [] ∧ outState.dies.all (fun d => d.2.queue.isEmpty) = true) := by decide +kernel
/-- FolioSaveAndStepSteps: an area with no room on the core named, with a slot named that is taken, and with one that was freed just now. -/
theorem witness_restores :
    let at0 := fun placement => { save true 0 0x100001000 with placement := placement }
    ∃ p ∈ (areaState 0 false).readArea (at0 1) 0, (p.2.areaGroup (at0 1) p.1).toOption = some none ∧ areaStores p.1 = [] ∧
      killedThreads p.1 = [] ∧ p.1.length = (areaShapeOf p.1).size ∧ (p.2.dies.all fun d => d.2.twinned.isEmpty && d.2.sent.isEmpty && d.2.queue.isEmpty) = true ∧
      (p.2.modCore 0 1 fun c => { c with freeBlocks := [] }).restoreRoom (areaShapeOf p.1) none 0 1 false
        ((BitVec.ofNat 32 (areaField p.1 0x028 4)).getLsbD 6) = false ∧
      (p.2.restoreSlot (at0 0x10000) none 0 0 false).toOption = none ∧
      p.2.restoreRoom (areaShapeOf p.1) none 0 0 false ((BitVec.ofNat 32 (areaField p.1 0x028 4)).getLsbD 6) = true ∧
      p.2.replayOn 0 0 = none ∧
      ((p.2.modCore 0 1 fun c => { c with freed := [(3, p.2.clock)] }).restoreSlot (at0 0x11801) none 0 1 false).toOption = some none := by
  decide +kernel
/-- FolioSaveAndStepSteps: a saved group with no held store, whose area is at the data page. -/
theorem witness_savedArea :
    let s := (areaState 0x1000000 false).modGroup 200 fun g => { g with residency := .saved 0x100001000 0 0 }
    ∃ p ∈ s.readArea (save true 0x1000000 0x100001000) 0, ∃ o ∈ ((p.2.areaGroup (save true 0x1000000 0x100001000) p.1).toOption).bind id,
      o.gid = 200 ∧ areaStores p.1 = [] ∧ (o.threads.all fun t => t.2.remote.isEmpty) = true ∧ p.2.replayOf o = none := by decide +kernel

/-! ## Witnesses of the commands' clauses -/

/-- RepairCommands: a fragment whose records wait; one of a group that is OUT, with and without a command; a parked warp. -/
theorem witness_commands :
    (let s := (fragmentState .ready).modDie 0 fun d => { d with records := [[⟨0x100000000, 2, 3, 1, 0, 1, 3, 1, 0, 0, 0, 0, 0⟩]] }
      ∃ p ∈ s.fragmentAt 0 0 0 3, s.group p.1.gid = some p.1 ∧ s.recordsWait p.1 3 = true) ∧
    (∀ actions ∈ [([] : List (Nat × Nat)), [(1, 1)]], let s := (fragmentState .ready).modGroup 200 fun g => { g with
        residency := .out 0 false, actions := actions }
      ∃ p ∈ s.fragmentAt 0 0 0 3, s.group p.1.gid = some p.1 ∧ p.1.isResident = false ∧ s.recordsWait p.1 3 = false ∧ p.2.id = 1 ∧
        p.1.actions = actions) ∧
    (∃ p ∈ (fragmentState .ready).fragmentAt 0 0 0 3, p.1.isResident = true ∧ (p.2.lanes.map Prod.snd).Nodup) ∧
    let s := (fragmentState .ready).modGroup 200 fun g => { g with warps := [⟨1, .parked false, [(0, 0)], none⟩] }
    ∃ g ∈ s.groupAt 0 0 0, s.group g.gid = some g ∧ g.control = none ∧ (g.warps.map Warp.id).Nodup ∧
      ∃ w ∈ g.warps, w.kind = .parked false := by decide +kernel

/-! ## Witnesses of the tables', the losses' and the tokens' clauses -/

/-- A state of which the routing die's copy holds polder 0 of the compute dies alone, and a connection entry of dies 0 and 1. -/
def routingState (e : Nat) : State :=
  let m := idleState.mem.writeN (storageKey routingCopy 0x8000) (bytesOfNat (2 ^ 32 - 1) 24)
  let m := m.writeN (storageKey routingCopy (0x8000 + 40)) (bytesOfNat 1 8)
  { idleState with mem := m.writeN (storageKey routingCopy (0x9000 + 8 * 1023)) (bytesOfNat e 8) }
/-- TableAndLossSteps: a store to a connection entry for which its dies have room, and one for which they have none; a store that
waits behind an older one in one replica. -/
theorem witness_connectionStore : ceValid (wave 4 0 1) = true ∧ ceWaves (wave 4 0 1) = 4 ∧ ceA (wave 4 0 1) = 0 ∧ ceB (wave 4 0 1) = 1 ∧
    State.reset.liveWaves 0 0 1000 + 4 ≤ 256 := by decide +kernel
/-- The state in which twelve circuits of die 0 have 15 live wavelengths each. -/
def wavesState : State := { State.reset with mem := (List.range 12).map fun k => (storageKey 0 (0x9000 + 8 * k + 3), 0xF4) }
theorem lt_sum_range {n : Nat} (a b : Nat) (f : Nat → Nat) (h : n < ((List.range a).map f).sum) : n < ((List.range (a + b)).map f).sum := by
  rw [List.range_add, List.map_append, List.sum_append]
  omega
theorem witness_connectionFull : 256 - 4 < wavesState.liveWaves 0 0 1000 := lt_sum_range 33 991 _ (by decide +kernel)
theorem witness_storesInOrder :
    let s := { idleState with tableStores := [⟨0x18000, List.replicate 8 0, [0], 0, [(200, 0, 1)], 2⟩, ⟨0x18008, List.replicate 8 0, [0, 1], 0, [(200, 0, 2)], 2⟩] }
    s.nextReplica 1 = some 1 := by decide +kernel
/-- TableAndLossSteps: a wavelength that fails with a spare, with none, and the last one, where the routing die's copy has it. -/
theorem witness_routingWaves : ∀ e ∈ [wave 4 1 1, wave 4 0 1, wave 1 0 2], (routingState e).connection routingCopy 1023 = e ∧
    ((routingState e).regs.assist.getLsbD 3 = false ∨ 0 < ceSpares e) := by decide +kernel
/-- TableAndLossSteps: a failure that loses no die, since the reset circuits stand. -/
def lightState : State :=
  { State.reset with mem := Memory.writeN [] (storageKey routingCopy (0x9000 + 8 * 1023)) (bytesOfNat (wave 4 0 1) 8) }
theorem witness_noLoss : ∀ d, (lightState.putConnection 1023 (ceFail (wave 4 0 1))).lossDue d .circuits = false := by
  have h : ∀ d, d < 34 → (lightState.putConnection 1023 (ceFail (wave 4 0 1))).lossDue d .circuits = false := by decide +kernel
  intro d
  by_cases hd : d < 34
  · exact h d hd
  · simp [State.lossDue, hd]
/-- TableAndLossSteps: a die that is lost and has not left reset; operations that a loss refuses; a context that has touched the die; a
block with a twin for an error. -/
theorem witness_losses :
    (let s := idleState.modDie 5 fun d => { d with lost := true };
      (s.die 5).lost = true ∧ (s.die 5).leftReset = false ∧ s.lossDue 5 .reset = false) ∧
    (∃ g ∈ neededState.group 200, ∃ t ∈ g.thread 0, ∃ o ∈ t.ops, o.refused 0 g.place.die = true) ∧
    neededState.tokens.persistent = [] ∧ idleState.touchedDies 0 = 0 ∧
    (let s := { idleState with mem := idleState.mem.writeN (storageKey 0 (maskOffset 0)) (bytesOfNat 32 8) };
      (s.touchedDies 0).testBit 5 = true ∧ s.lossDue 5 .ticks = true ∧
        ∃ g ∈ s.group 200, g.control = none ∧ ∃ w ∈ g.warps, w.kind = .normal ∧ ∃ l ∈ w.lanes, ∃ t ∈ g.thread l.2, t.state ≠ .exited ∧ t.ctxid = 0) ∧
    (∃ b ∈ (accessState.die 0).block blk, b.twin = some []) ∧
    (∃ g ∈ idleState.group 200, ∃ t ∈ g.thread 0, t.state ≠ .exited ∧ 0 < g.scratchSize ∧ 0 < g.tiles) := by decide +kernel
/-- TokenSteps: a request of an agent of the polder and one of an agent outside it; a line with an active requester; requests to
repeat too early; an access to a line that is outstanding, and one that is over. -/
def agentState (src : Nat) : State :=
  { routingState 0 with tokens := { tokenState.tokens with reqMsgs := [⟨src, line0, true, some 1⟩] } }
theorem witness_agents :
    (3 ∈ (agentState 3).lineAgents line0 ∧ ((agentState 3).lineOrHome line0).poisoned = false ∧ (agentState 3).activeRequester line0 = none) ∧
    33 ∉ (agentState 33).lineAgents line0 ∧
    (let s := { agentState 3 with tokens := { (agentState 3).tokens with persistent := [(3, line0, false)] } };
      s.activeRequester line0 = some 3 ∧ (s.lineOrHome line0).poisoned = false ∧ ((s.lineOrHome line0).holders.map Holder.die).Nodup ∧
        (s.tokens.persistent.find? fun p => p.1 = 3) = some (3, line0, false) ∧ s.needsLine 3 line0 = false) ∧
    (∃ r ∈ (agentState 3).tokens.reqs.find? fun r => r.die = 3 && r.line = line0, r.last + nanoseconds 500 ≤ (agentState 3).clock ∧
      r.first + microseconds 2 ≤ (agentState 3).clock ∧ (agentState 3).tokens.persistent = [] ∧ (agentState 3).tokens.waiting = [] ∧
      { agentState 3 with clock := 1 }.clock < r.last + nanoseconds 500) ∧
    let s := (agentState 3).modGroup 200 fun g => { g with
      place := ⟨3, 0, 0⟩, threads := g.threads.map fun t => (t.1, { t.2 with sb := [⟨3, .global ⟨0, line0, 0, true, false, 0, 0⟩ false, 5, 4, false, false⟩] }) }
    s.needsLine 3 line0 = true := by decide +kernel

/-! ## Witnesses of the pod fabric's, the ports', the sideband's and the election's clauses -/

/-- PodSenderSteps: retransmissions with the same repeat waiting and without; sequences expired before and not; packets kept too
short, credited and not; a gap request of a polder that is not admitted; notices of loss of a channel and of a request. -/
theorem witness_senderClauses :
    (∃ k ∈ senderState.pod.kept.head?, senderState.pod.outWait = [] ∧
      let s := { senderState with pod := { senderState.pod with outWait := [⟨k.packet, none, true, false⟩] } };
      ∃ o ∈ s.pod.outWait, o.again = true ∧ o.packet = k.packet) ∧
    (∃ c ∈ senderState.channel 7, (65533 : Half) ∉ c.expired) ∧
    (let s := senderState.modChannel 7 fun c => { c with expired := [65533] };
      ∃ c ∈ s.channel 7, (65533 : Half) ∈ c.expired) ∧
    (∃ c ∈ senderState.channel 7, (c.nseq - c.anc).toNat < 16384 ∧ 32736 ≤ c.cnt) ∧
    (∃ k ∈ senderState.pod.kept[0]?, senderState.clock < k.firstLeft + microseconds 2000) ∧
    (∃ k ∈ senderState.pod.kept[1]?, k.credited = false ∧ k.firstLeft + microseconds 2000 ≤ senderState.clock) ∧
    (∃ p ∈ (receiverState [{ packet .gap 12 0 0 (bytesOfNat 65532 2) with polder := 1 }]).nextArrival (fun k => k == .gap),
      p.2.admits p.1 = false) ∧
    let s := { receiverState [] with pod := { (receiverState []).pod with lossNotices := [(4096, 5)] } };
    s.pod.lossNotices = [(4096, 5)] ∧ (s.pod.requests.find? fun q => q.tag == 5 && q.waits).isSome = true := by decide +kernel
/-- A receiver that has had sequences to 12 and waits for none, whose landing walk reaches the data page. -/
def readyReceiver : State :=
  { receiverState [] with pod := { (receiverState []).pod with recv := [⟨12, 7, 12, 12, [], [], [], 0, [], [], false, none, false, none⟩]
                                                               replies := [⟨12, 9, some (packet .reply 0 12 9 []), 1999999999⟩] } }
/-- PodReceiverSteps: a write in sequence that lands and one that faults; a flag after a gap of two; requests that land, that fault and
that were answered. -/
theorem witness_receiverClauses :
    (let p := { packet .pst 12 0 13 [1] with aux := 13, addr := 0x100001000 };
      p.seq = (readyReceiver.recvOf p.src p.chan).hseq + 1 ∧ p.aux = p.seq ∧ (readyReceiver.recvOf p.src p.chan).heldWrites = [] ∧
        (readyReceiver.recvOf p.src p.chan).withheld = [] ∧ (readyReceiver.land p .write).toOption.isSome = true) ∧
    (let p := packet .pst 12 0 13 [1];
      p.kind.isChannel = true ∧ p.kind.isWrite = true ∧ (match readyReceiver.land p .write with
        | .error i => i.cause == .page
        | .ok _ => false) = true) ∧
    (let p := { packet .flag 12 0 15 [1, 2, 3, 4] with aux := 2 };
      p.kind.isFlag = true ∧ 0 < seqDist p.seq (readyReceiver.recvOf p.src p.chan).hseq ∧ p.aux.toNat = 1 + 1 ∧
        p.seq = (readyReceiver.recvOf p.src p.chan).hseq + BitVec.ofNat 16 (1 + 2) ∧ (readyReceiver.recvOf p.src p.chan).miss = [] ∧
        (readyReceiver.recvOf p.src p.chan).dead = none) ∧
    (∀ k ∈ [PacketKind.pld, .patom], let p := { packet k 12 0 5 [] with addr := 0x100001000, len := 8 };
      (∀ r ∈ readyReceiver.pod.replies, p.kind = .patom → r.src = p.src → r.tag ≠ p.seq) ∧ (readyReceiver.land p p.need).toOption.isSome = true ∧
        (readyReceiver.land { p with addr := 0 } p.need).toOption = none) ∧
    let p := packet .patom 12 0 9 [];
    ∃ k ∈ readyReceiver.pod.replies.find? fun k => p.kind == .patom && k.src = p.src && k.tag == p.seq &&
      (k.reply.isNone || readyReceiver.clock ≤ k.since + microseconds 2000), k.reply.isSome = true := by decide +kernel
/-- PodReceiverSteps: a gap that was asked for already; a request that no repeat of waits to leave. RepairCommands: a packet in a fault
queue that still faults. -/
theorem witness_gapsAndQueues :
    (let s := (receiverState []).modRecv 12 7 fun r => { r with lastGap := some 0, withheld := [] };
      (s.recvOf 12 7).lastGap = some 0 ∧ (s.recvOf 12 7).miss ≠ [] ∧ 0 + microseconds 20 ≤ s.clock) ∧
    ((receiverState []).recvOf 12 7).lastGap = none ∧ (receiverState []).pod.outWait = [] ∧
    let p := packet .pst 12 0 13 [1];
    let s := readyReceiver.modDie 0 fun d => { d with podQueue := [p] };
    (s.die 0).podQueue = [p] ∧ p.kind.isFlag = false ∧ (s.recvOf p.src p.chan).heldWrites = [] ∧ (s.recvOf p.src p.chan).withheld = [] ∧
      (match s.land p .write with
        | .error i => i.cause == .page
        | .ok _ => false) = true := by decide +kernel
/-- PortAndPlaneSteps: a link of each kind that is down, and a connection entry of which a wavelength is lost. -/
theorem witness_retrains :
    portState.ports.retrain = [] ∧ (∃ x ∈ portState.ports.podDown, x.1 = 2) ∧
    let e := (routingState (ceFail (wave 4 0 1))).connection routingCopy 1023;
    ceValid e = true ∧ ceState e ≠ 3 ∧ ceLive e < ceWaves e := by decide +kernel
/-- PciAndFetchSteps: inbound reads that are delivered and that no page maps, an interrupt, a peer's request, and a write whose polder
the routing die's copy does not hold. -/
def filteredPort : State :=
  let m := portState.mem.writeN (storageKey 0 0) (bytesOfNat (Config.bootRoot + 1 + 5 * 64) 8);
  { portState with mem := (m.writeN (storageKey 0 (0x8000 + 320)) (bytesOfNat 3 8)).writeN (storageKey 0 (0x8000 + 360)) (bytesOfNat 1 8) }
theorem witness_inboundClauses :
    (∃ ps ∈ portState.stretch (portState.portWho 3) .read false 0x1000011F0 32, portState.piecesDelivered (portState.portWho 3) ps = true) ∧
    portState.stretch (portState.portWho 3) .read false 0x200000000 32 = none ∧
    (filteredPort.portWho 3).polder = 5 ∧
    ∃ ps ∈ filteredPort.stretch (filteredPort.portWho 3) .write false 0x1000011F0 32, ps ≠ [] ∧
      filteredPort.piecesDelivered (filteredPort.portWho 3) ps = false := by decide +kernel
/-- SidebandSteps: a module without keys, and one whose window is open; the kinds that boot refuses. -/
theorem witness_sidebandClauses (m : SidebandMsg) :
    (let s := { sidebandState m .running with ports := { (sidebandState m .running).ports with keys := false } };
      s.ports.sideband = [m] ∧ s.ports.keys = false) ∧
    (let s := { sidebandState m .running with ports := { (sidebandState m .running).ports with resetWindow := some 5 } };
      s.ports.sideband = [m] ∧ s.ports.keys = true ∧ s.ports.resetWindow ≠ none) ∧
    (sidebandState m .running).ports.boot ≠ .recovery ∧ (sidebandState m .recovery).ports.boot = .recovery :=
  ⟨⟨rfl, rfl⟩, ⟨rfl, rfl, fun h => by cases h⟩, (fun h => by cases h), rfl⟩
/-- ElectionAndCoolingSteps: a claim at a module without keys; marks for a follower; a follower that says that its
configuration is loaded; one to which the configuration was sent a while ago. -/
theorem witness_electionClauses (c : Claim) (fs : List (Dword × Nat × Bool)) :
    (let s := { electionState .claiming with ports := { (electionState .claiming).ports with claimsIn := [(15, c)], keys := false } };
      s.ports.claimsIn = [(15, c)] ∧ s.ports.keys = false) ∧
    (let f := electionState .follower;
      let s := { f with ports := { f.ports with configsIn := [(3, .marks fs)] } };
      s.ports.configsIn = [(3, .marks fs)] ∧ s.ports.election.state = .follower ∧ s.ports.election.lowest = some 3) ∧
    (let l := electionState .leader;
      let s := { l with ports := { l.ports with configsIn := [(9, .verified 1)], election := { l.ports.election with sentTo := some (9, 0) } } };
      s.ports.configsIn = [(9, .verified 1)] ∧ s.ports.election.state = .leader ∧ (∃ f ∈ s.ports.election.followers, f.1 = 9 ∧ f.2.1 = 1 ∧ f.2.2 = false) ∧
        s.ports.election.sentTo = some (9, 0) ∧ 0 + microseconds 100000 ≤ s.clock) :=
  ⟨⟨rfl, rfl⟩, ⟨rfl, rfl, rfl⟩, rfl, rfl, ⟨(9, 1, false), List.mem_singleton.mpr rfl, rfl, rfl, rfl⟩, rfl, by decide⟩
/-- StepRunsTheDecodedInstruction: a fetch that wants no token, and one from the token page that wants one. -/
theorem witness_fetchTokens :
    (∃ x ∈ programState.issue, programState.fetchWants x = none) ∧
    let s := programState.modThread 0 0 fun t => { t with pc := 0x100003000 };
    s.mayIssue = true ∧ ∃ x ∈ s.issue, (s.fetchWants x).isSome = true := by decide +kernel

/-! ## Witnesses of the clauses on errors, on the polder filter and on losses -/

/-- A group with one load of a space, in a state with a poisoned sector of the data page, a poisoned token line or a scratchpad byte in
error. -/
def errorState (space : Space) (l : Loc) : State :=
  let s := accessState.modThread 200 0 fun t => { t with
    ops := [⟨7, some .load, .load space l 4 10 false none none, false, [], false, false⟩] }
  { s.modGroup 200 fun g => { g with scratchErrors := [9] } with
    poison := [blk], tokens := { s.tokens with lines := [⟨line0, 64, true, [], [], true⟩] } }
/-- AccessStepsPerform: loads that meet each kind of error; a load of space k after `cctl` with X = 2; and each location beside an error. -/
theorem witness_loadErrors :
    (∀ p ∈ [(Space.g, loc0.at 28), (.k, loc0), (.g, ⟨0x100003000, line0, 0, true, false, 0, 0⟩), (.l, ⟨8, 8, 0, false, false, 0, 0⟩)],
      ∃ o ∈ (errorState p.1 p.2).operation 200 0 7, (errorState p.1 p.2).opReady o.1 o.2.1 o.2.2 = true ∧
        o.2.2.kind = .load p.1 p.2 4 10 false none none) ∧
    (blk < blk + 28 + 4 ∧ blk + 28 < blk + 32) ∧ (∀ a ∈ [blk], a + 32 ≤ (loc0.at 32).key ∨ (loc0.at 32).key + 4 ≤ a) ∧
    (∃ g ∈ (errorState .l loc0).group 200, g.scratchError 8 4 ≠ none ∧ g.scratchError 12 4 = none) ∧
    (∃ x ∈ (errorState .g loc0).tokens.lines, x.poisoned = true ∧ x.key ≤ line0 ∧ line0 < x.key + 128) ∧
    ((accessState.modDie 0 fun d => { d with kinvHeld := [blk] }).die 0).kinvHeld.contains (blockOf loc0.key) = true := by decide +kernel
/-- LaunchStatuses: tokens at home; an issuer whose context was halted since, and one whose was not. -/
theorem witness_launchHeld : launchState.tokens.lines = [] ∧ ∀ held ∈ [true, false],
    let t := { thread 0 0 0 [] with ops := [⟨9, none, .launch true loc0 0 none 14, false, [], false, held⟩] }
    (t.ops.find? fun o => o.id = 8 + 1).any Op.held = held := by decide +kernel
/-- The group on die 1 in polder 5, which the routing die's copy does not hold, OUT and named. -/
def farOut : State := { outState.modGroup 200 fun g => { g with place := ⟨1, 0, 0⟩ } with mem := farTables }
/-- A request of polder 5 to save or to restore a group of die 1. -/
def farSave (load : Bool) : SaveRequest := { save load 0x1000000 0x100001000 with polder := 5, placement := 0x40 }
/-- MonitorInstructionsComplete and FolioSaveAndStepSteps: requests that the polder filter passes and drops, and an area that it keeps
away. -/
theorem witness_filteredRequests :
    (outState.nameReached 0 32 0x1000000 = true ∧ outState.findName 0x1000000 ≠ none) ∧
    (outState.nameReached 5 32 0x2000000 = false ∧ outState.nameReached 0 32 0x2000000 = true ∧ outState.findName 0x2000000 = none) ∧
    (outState.delivers 0 1 = true ∧ outState.delivers 5 1 = false) ∧
    (∃ g ∈ farOut.findName 0x1000000, farOut.readyToSave g = true ∧ farOut.deviceLost ((farSave false).who 1) .write 0x100001000 (g.areaImage 0 0).length = true) ∧
    (∃ g ∈ outState.findName 0x1000000, outState.deviceLost ((save false 0x1000000 0x100001000).who 0) .write 0x100001000
      (g.areaImage 0 0).length = false) ∧
    field (farSave true).placement 6 5 = 1 ∧ farOut.areaLost (farSave true) 1 = true ∧
    (areaState 0 false).areaLost (save true 0 0x100001000) 0 = false := by decide +kernel
/-- FolioSaveAndStepSteps: a folio whose engine reaches its home, its patch table and its nodes, and one on die 1 that does not. -/
theorem witness_filteredFolios :
    (∃ f ∈ (folioState 0 true).folios[0]?, f.dropped = false ∧ (folioState 0 true).passes f.polder f.die 0 = true ∧
      (folioState 0 true).nodeLost f.who f.base 0 true = false ∧ (folioState 0 true).patchLost f 0x100001000 = false ∧
      (folioState 0 true).patchLost f 0x200000000 = false ∧ (folioState 0 true).nodesLost f.who f.base false = false) ∧
    let f := { folio false with die := 1, polder := 5 }
    let g := { f with run := true, err := false }
    (farOut.writeFstate g).patchLost g 0x100001000 = true := by decide +kernel
/-- TableAndLossSteps: a table store that is in every replica; a lost die that has left reset. -/
theorem witness_lossesAgain :
    (let s := { idleState with tableStores := [⟨0x18000, List.replicate 8 0, [], 0, [], 2⟩] }
      ∃ x ∈ s.tableStores[0]?, x.left = []) ∧
    let s := idleState.modDie 5 fun d => { d with lost := true, leftReset := true }
    s.lossDue 5 .reset = false ∧ (s.die 5).lost = true ∧ (s.die 5).leftReset = true := by decide +kernel
/-- TokenSteps: an agent that lacks tokens for a write and one that holds what a read needs; SchedulerSteps: a launch whose
DONE word's home is reached. -/
theorem witness_lacks : tokenState.lacksTokens 3 line0 true = true ∧ tokenState.lacksTokens 1 line0 false = false ∧
    ∃ l ∈ doneState.launches.head?, ∃ x ∈ (doneState.locate ⟨l.store, l.ctx, l.polder, true⟩ .write false l.header.done).toOption,
      doneState.reaches l.store x = true := by decide +kernel
/-- PodSenderSteps: a credited packet and an older one of the same number that is not; sequences kept and not kept. -/
theorem witness_kept :
    (∃ k ∈ (senderState.pod.kept.filter fun k => k.packet.chan = 7 && k.packet.seq == 65533).find? fun k => !k.credited,
      k.lastLeft + microseconds 20 ≤ senderState.clock ∧ senderState.clock < k.firstLeft + microseconds 2000) ∧
    (∀ k ∈ senderState.pod.kept, k.packet.chan = 7 → k.packet.seq = 65530 → k.credited = true) ∧
    ((receiverState []).keptOf 7 65532 12).isSome = true ∧ (receiverState []).keptOf 7 65531 12 = none ∧
    let o : Outgoing := ⟨packet .pst 0 12 65533 [1], none, false, false⟩
    o.again = false ∧ o.packet.kind ≠ .reply ∧ (senderState.leave o).pod.copies.length = senderState.pod.copies.length + 1 := by decide +kernel
/-- PciAndFetchSteps: a thread whose context was halted, at a fetch that faults. -/
theorem witness_fetchHalted :
    let s := (ctl []).modThread 0 0 fun t => { t with pc := 0x200000000, trapped := some { cause := .dieLoss } }
    ∃ x ∈ s.issue, x.group.control = some 0 ∧ x.lanes.length = 1 ∧ (x.lanes.head?.bind Thread.trapped).isSome = true ∧
      (s.fetchInstr x).toOption.isNone = true := by decide +kernel
/-- SidebandSteps: any number of failures within the second before, fewer than fifteen or more. -/
theorem witness_failures (m : SidebandMsg) (n : Nat) :
    let s := { sidebandState m .running with
      clock := 2000000000, ports := { (sidebandState m .running).ports with failures := List.replicate n 1999999999 } }
    s.ports.keys = true ∧ s.ports.sideband = [m] ∧
      ((s.ports.failures.filter fun t => s.clock < t + seconds 1) ++ [s.clock]).length = n + 1 := by
  refine ⟨rfl, rfl, ?_⟩
  show ((List.replicate n 1999999999).filter (fun t => decide (2000000000 < t + seconds 1)) ++ [2000000000]).length = n + 1
  rw [List.filter_eq_self.mpr fun a ha => ?_]
  · simp
  · rw [List.eq_of_mem_replicate ha]; decide
/-- ElectionAndCoolingSteps: a leader without a kept index, with one, and with a follower of index 1 that waits. -/
theorem witness_leaders (kept : Bool) :
    let l := electionState .claiming
    let s := { l with ports := { l.ports with election := { l.ports.election with kept := kept } } }
    s.ports.election.kept = kept ∧ s.ports.election.followers = [(9, 1, false)] ∧ s.ports.election.state ≠ .follower :=
  ⟨rfl, rfl, fun h => by cases h⟩

/-! ## Witnesses of the traps and the holds -/

/-- What `TrapsOnControl` asks, as a test. -/
def controlTrap (s : State) (i : Instr) (bad : State → Issue → View → Thread → Option TrapInfo) : Bool :=
  let x := setOf s
  let v := viewOf i
  isReady s i && match x.group.control, x.lanes with
    | some _, [t] => laneActive v.tail.modifier t && (bad s x v t).any fun e => e.cause != .levee
    | _, _ => false
theorem controlTrapReady {s : State} {i : Instr} {bad : State → Issue → View → Thread → Option TrapInfo} (h : controlTrap s i bad = true) :
    ∃ x v t k e, Ready s i x v ∧ x.group.control = some k ∧ x.lanes = [t] ∧ laneActive v.tail.modifier t = true ∧
      bad s x v t = some e ∧ e.cause ≠ .levee := by
  simp only [controlTrap, Bool.and_eq_true] at h
  obtain ⟨h1, h2⟩ := h
  split at h2
  · rename_i k t hk ht
    simp only [Bool.and_eq_true, Option.any_eq_true, bne_iff_ne] at h2
    obtain ⟨h3, e, he, hc⟩ := h2
    exact ⟨_, _, t, k, e, ready h1, hk, ht, h3, he, hc⟩
  · cases h2
/-- What `TrapsOnCompute` asks, as a test. -/
def computeTrap (s : State) (i : Instr) (bad : State → Issue → View → Thread → Option TrapInfo) : Bool :=
  let x := setOf s
  let v := viewOf i
  isReady s i && x.group.control.isNone && ((x.active v).any fun t => (bad s x v t).isSome) &&
  ((x.active v).all fun t => (bad s x v t).all fun e => e.cause != .levee) &&
  (s.core x.group.place.die x.group.place.core).freeEntry == some 0
theorem computeTrapReady {s : State} {i : Instr} {bad : State → Issue → View → Thread → Option TrapInfo} (h : computeTrap s i bad = true) :
    ∃ x v, Ready s i x v ∧ x.group.control = none ∧ (∃ t ∈ x.active v, (bad s x v t).isSome = true) ∧
      (∀ t ∈ x.active v, ∀ c, bad s x v t = some c → c.cause ≠ .levee) ∧
      (s.core x.group.place.die x.group.place.core).freeEntry = some 0 := by
  simp only [computeTrap, Bool.and_eq_true, Option.isNone_iff_eq_none, List.any_eq_true, List.all_eq_true, Option.all_eq_true,
    bne_iff_ne, beq_iff_eq] at h
  obtain ⟨⟨⟨⟨h1, h2⟩, h3⟩, h4⟩, h5⟩ := h
  exact ⟨_, _, ready h1, h2, h3, h4, h5⟩
/-- The trap of a pair that is no instruction's address, and of a failing entry check, as BranchesAndCalls says them. -/
def pairTrap (_ : State) (_ : Issue) (v : View) (t : Thread) : Option TrapInfo :=
  if (t.a64 v).toNat % 4 = 0 ∧ (t.a64 v).toNat < 2 ^ 56 then none else some { cause := .align, tval := t.a64 v }
def entryTrap (target : Issue → View → Thread → Pc) (s : State) (x : Issue) (v : View) (t : Thread) : Option TrapInfo :=
  match s.checkEntry x.group t v.base (target x v t) with
  | .error e => some e
  | .ok _ => none
/-- BranchesAndCalls: pairs that end in 1 or lie past 2^56, and targets behind which no entry word stands, on both kinds of core. -/
theorem witness_branchTraps :
    ([((0x1001 : Word), (1 : Word)), (0x1000, 0x01000000)].all fun p =>
      [Instr.jmp (r3 0 4 0), .ret (r3 0 4 0), .callr (r3 0 4 0)].all fun i =>
        controlTrap (ctl [(4, p.1), (5, p.2)]) i pairTrap &&
        computeTrap (grp [(4, p.1), (5, p.2)] [(4, 0x1000), (5, 1)]) i pairTrap) = true := by decide +kernel
theorem witness_entryTrapsControl :
    ([ctl [(4, 0x1004), (5, 1)], ctl [(4, 4), (5, 0x100)]].all fun s =>
      controlTrap s (.callr (r3 0 4 0)) (entryTrap fun _ v t => BitVec.ofNat 56 (t.a64 v).toNat)) = true := by decide +kernel
theorem witness_entryTrapsCall :
    controlTrap (ctl []) (.call ⟨1, false, .none⟩) (entryTrap fun x v _ => x.pc + BitVec.ofInt 56 (4 * v.hi21.toInt)) = true := by
  decide +kernel
theorem witness_entryTrapsLiteral :
    computeTrap (grp [] []) (.call ⟨0, false, .lit 0x100001004⟩) (entryTrap fun _ v _ => BitVec.ofNat 56 v.tail.literal.toNat) =
      true := by decide +kernel
theorem witness_entryTrapsCompute :
    computeTrap (grp [(4, 4), (5, 1)] [(4, 4), (5, 1)]) (.callr (r3 0 4 0))
      (entryTrap fun _ v t => BitVec.ofNat 56 (t.a64 v).toNat) = true := by decide +kernel
theorem witness_grpTokens : (grp [] []).tokens.lines = [] ∧ (grp [] []).tokens.persistent = [] := by decide
/-- BranchesAndCalls: words behind a target: none that is mapped, one that is poisoned, one of another opcode, and entry words with a
budget above a group's and within it. -/
def wordBehind (w : Word) : State := withWord (grp [] []) 0 w
def entryLoc (s : State) (target : Pc) : Except TrapInfo Loc :=
  s.locate (whoOf (pair [] []) (thread 0 0 0 [])) .fetch false ((target - 4).zeroExtend 64)
/-- The same with the word's sector poisoned. -/
def poisonedBehind (w : Word) : State :=
  let s := wordBehind w
  { s with poison := [blk] }
theorem witness_entryUnmapped : (entryLoc (ctl []) 0x200000000).toOption = none := by decide +kernel
theorem witness_entryChecks : [(0x00006C08 : Word), 0x0000FC08, 0x00000013].all (fun w =>
    (entryLoc (wordBehind w) 0x100001004).toOption.any fun l => !(wordBehind w).poisoned .fetch false l 4 &&
      (poisonedBehind w).poisoned .fetch false l 4 &&
      decide (natOfBytes ((wordBehind w).readLoc 0 l 4) = w.toNat)) = true := by decide +kernel
theorem witness_entryWords : (0x6C08 % 4 = 0 ∧ 0x6C08 / 8 % 256 = 0x81 ∧ 0x6C08 / 2 ^ 18 % 2 ^ 14 = 0) ∧
    (0xFC08 % 4 = 0 ∧ 0xFC08 / 8 % 256 = 0x81 ∧ 0xFC08 / 2 ^ 18 % 2 ^ 14 = 0) ∧ 0x13 / 8 % 256 ≠ 0x81 ∧
    0x6C08 / 2 ^ 11 % 128 + 1 ≤ 14 ∧ 14 < 0xFC08 / 2 ^ 11 % 128 + 1 := by decide
/-- A group of three lanes of one warp, two of them in the set that issues. -/
def threeLanes (rs : List (Nat × Word)) : State :=
  (grp rs rs).modGroup 200 fun g => { g with
    nthr := 3, warps := [⟨1, .normal, [(0, 0), (1, 1), (2, 2)], none⟩]
    threads := g.threads ++ [(2, { thread 2 2 0 rs with state := .ready })] }
/-- ReformExitAndBarrierComplete: a barrier that waits for a third thread, and one that the third is held at; a set whose every lane
issues; groups none of whose barriers is complete, and one that is. -/
theorem witness_bar :
    let held := (threeLanes []).modThread 200 2 fun t => { t with state := .waiting (.bar 3 0x100000008) }
    let all := held.modGroup 200 fun g => { g with threads := g.threads.drop 2 }
    (∃ x v, Ready (threeLanes []) (.bar (r3 0 0 3)) x v ∧ x.group.control = none ∧
      (x.group.heldAt 3).length + x.lanes.length ≠ x.group.live.length) ∧
    (∃ x v, Ready held (.bar (r3 0 0 3)) x v ∧ x.group.control = none ∧ x.group.heldAt v.b.toNat = [(2, 0x100000008)] ∧
      (x.group.heldAt v.b.toNat).length + x.lanes.length = x.group.live.length ∧ x.active v = x.lanes ∧
      (∀ t ∈ x.lanes, t.state = .issuing) ∧ (x.group.threads.map Prod.fst).Nodup ∧ (∀ p ∈ x.group.threads, p.2.gidx = p.1) ∧
      (x.lanes.map Thread.gidx).Nodup) ∧
    (∃ g ∈ held.group 200, ∀ k, k < 16 → g.heldAt k = [] ∨ (g.heldAt k).length ≠ g.live.length) ∧
    ∃ g ∈ all.group 200, g.heldAt 3 ≠ [] ∧ (g.heldAt 3).length = g.live.length ∧ (g.thread 2).isSome = true ∧
      ∀ w, g.warpOf 2 = some w → w.kind = .normal := by
  refine ⟨⟨_, _, ready ?_, ?_⟩, ⟨_, _, ready ?_, ?_⟩, ⟨_, rfl, ?_⟩, _, rfl, ?_⟩
  all_goals decide +kernel
/-- Two lanes of three whose masks name all three, or differ and meet, or leave out their own lane. -/
def maskState (m m' : Word) : State :=
  ((threeLanes [(6, 0x501)]).modThread 200 0 fun t => t.setReg 7 m).modThread 200 1 fun t => t.setReg 7 m'
/-- ExchangesComplete: lanes held for the third, and lanes that trap MASKMIS, with a free entry; and a lane of a control core whose mask
leaves it out. -/
theorem witness_exchangeHoldsAndTraps :
    let out := fun (x : Issue) (v : View) => laneMask ((x.lanes.filter fun t => !laneActive v.tail.modifier t).map Thread.lane)
    (∀ p ∈ [(Instr.sync (r3 0 0 7), false), (.shfl (r4 8 4 6 { mx 3 with c := 7 }), true)],
      (∃ x v w, Ready (maskState 7 7) p.1 x v ∧ (x.lanes.head?.bind fun t => x.group.warpOf t.gidx) = some w ∧
        x.group.parties w p.2 = [] ∧ out x v = 0 ∧
        (∀ t ∈ x.active v, (if p.2 then t.c32 v else t.b32 v) = 7 ∧ (7 : Word).getLsbD t.lane = true) ∧
        (∀ t ∈ x.lanes, t.lane ≠ 2) ∧ ∃ l ∈ w.lanes, l.1 = 2) ∧
      ∀ m ∈ [((3 : Nat), (7 : Nat)), (4, 4)], ∃ x v w, Ready (maskState (.ofNat 32 m.1) (.ofNat 32 m.2)) p.1 x v ∧ x.group.control = none ∧
        (x.lanes.head?.bind fun t => x.group.warpOf t.gidx) = some w ∧ x.group.parties w p.2 = [] ∧ x.active v ≠ [] ∧
        ((maskState (.ofNat 32 m.1) (.ofNat 32 m.2)).core x.group.place.die x.group.place.core).freeEntry = some 0 ∧
        ∀ t ∈ x.active v, let mask := fun (t : Thread) => if p.2 then t.c32 v else t.b32 v
          (mask t).getLsbD t.lane = false ∨ ∃ y ∈ x.active v, y.gidx ≠ t.gidx ∧ mask y &&& mask t ≠ 0 ∧ mask y ≠ mask t) ∧
    ∀ i ∈ [Instr.sync (r3 0 0 7), .shfl (r4 8 4 6 { mx 3 with c := 7 })], ∃ x v t k, Ready (ctl [(7, 2)]) i x v ∧ x.group.control = some k ∧
      (∀ w ∈ x.group.warps, ∀ b, x.group.parties w b = []) ∧ x.lanes = [t] ∧ laneActive v.tail.modifier t = true ∧ (t.reg 7).getLsbD t.lane = false := by
  refine ⟨fun p hp => ⟨⟨setOf (maskState 7 7), viewOf p.1, ⟨1, .normal, [(0, 0), (1, 1), (2, 2)], none⟩, ready (i := p.1) ?_, ?_⟩,
    fun m hm => ⟨setOf (maskState (.ofNat 32 m.1) (.ofNat 32 m.2)), viewOf p.1, ⟨1, .normal, [(0, 0), (1, 1), (2, 2)], none⟩, ready (i := p.1) ?_, ?_⟩⟩,
    fun i hi => ⟨setOf (ctl [(7, 2)]), viewOf i, thread 0 0 2 [(7, 2)], 0, ready (i := i) ?_, ?_⟩⟩
  · revert p; decide +kernel
  · revert p; decide +kernel
  · revert m; revert p; decide +kernel
  · revert m; revert p; decide +kernel
  · revert i; decide +kernel
  · revert i; decide +kernel
/-- A floating-point instruction's trap, as `EachFloatForm` names its elements. -/
def fpBad (ty : View → FpType) (f : View → Thread → Nat → Nat → Nat → Nat → Rounded) (_ : State) (_ : Issue) (v : View) (t : Thread) :
    Option TrapInfo := t.fpTrap (t.fpExceptions v (ty v) (f v t))
/-- Operands that are signalling NaNs of f32, with ENV set, on both kinds of core: in lane 0 of a compute group alone. -/
def nanControl : State :=
  (ctl [(4, 0x7F800001)]).modThread 0 0 fun t => { t with fpctl := 0x100 }
def nanGroup : State :=
  (grp [(4, 0x7F800001)] [(4, 0x3F800000)]).modGroup 200 fun g => { g with threads := g.threads.map fun t => (t.1, { t.2 with fpctl := 0x100 }) }
/-- An enabled exception of an instruction, on both kinds of core. -/
def fpRaises (i : Instr) (ty : View → FpType) (f : View → Thread → Nat → Nat → Nat → Nat → Rounded) : Bool :=
  controlTrap nanControl i (fpBad ty f) && computeTrap nanGroup i (fpBad ty f)
/-- ControlCoreTakesTraps and TrappingLanesLeave: every floating-point instruction but fclass, which raises no exception, and cvt of a
signalling NaN, in one lane of two. -/
theorem witness_fpTraps :
    fpRaises (.fadd .f32 (r3 8 4 6)) (fun _ => .f32) (fun v t _ a b _ =>
      fmtF32.add (t.mode v.tail.modifier) (fmtF32.unpack a) (fmtF32.unpack b)) = true ∧
    fpRaises (.fsub .f32 (r3 8 4 6)) (fun _ => .f32) (fun v t _ a b _ =>
      fmtF32.add (t.mode v.tail.modifier) (fmtF32.unpack a) (fmtF32.unpack b).negate) = true ∧
    fpRaises (.fmul .f32 (r3 8 4 6)) (fun _ => .f32) (fun v t _ a b _ =>
      fmtF32.mul (t.mode v.tail.modifier) (fmtF32.unpack a) (fmtF32.unpack b)) = true ∧
    fpRaises (.fma .f32 (r4 8 4 6 (mc 9))) (fun _ => .f32) (fun v t _ a b c =>
      fmtF32.fma (t.mode v.tail.modifier) (fmtF32.unpack a) (fmtF32.unpack b) (fmtF32.unpack c)) = true ∧
    fpRaises (.fmin .f32 (r3 8 4 6)) (fun _ => .f32) (fun _ _ _ a b _ => fmtF32.minmax false a b) = true ∧
    fpRaises (.fmax .f32 (r3 8 4 6)) (fun _ => .f32) (fun _ _ _ a b _ => fmtF32.minmax true a b) = true ∧
    fpRaises (.fcmp .f32 (r4 8 4 6 (mx 2))) (fun _ => .f32) (fun v _ _ a b _ =>
      (fcmpBits .f32 (fcmpHolds v.tail.modifier.x (fmtF32.unpack a) (fmtF32.unpack b)).1,
        if (fcmpHolds v.tail.modifier.x (fmtF32.unpack a) (fmtF32.unpack b)).2 then flagNV else 0)) = true := by decide +kernel
theorem witness_fpTrapsOfX :
    fpRaises (.frnd (r3 8 4 0)) View.xType (fun v t _ a _ _ => fmtF32.rint (t.mode v.tail.modifier).rm (fmtF32.unpack a)) = true ∧
    fpRaises (.fdiv (r3 8 4 6)) View.xType (fun v t _ a b _ =>
      fmtF32.div (t.mode v.tail.modifier) (fmtF32.unpack a) (fmtF32.unpack b)) = true ∧
    fpRaises (.fsqrt (r3 8 4 0)) View.xType (fun v t _ a _ _ => fmtF32.sqrt (t.mode v.tail.modifier) (fmtF32.unpack a)) = true ∧
    fpRaises (.frcp (r3 8 4 0)) View.xType (fun v t _ a _ _ =>
      fmtF32.div (t.mode v.tail.modifier) (.fin false 1 0) (fmtF32.unpack a)) = true ∧
    fpRaises (.frsq (r3 8 4 0)) View.xType (fun v t _ a _ _ => fmtF32.rsqrt (t.mode v.tail.modifier) (fmtF32.unpack a)) = true ∧
    fpRaises (.fex2 (r3 8 4 0)) View.xType (fun v t _ a _ _ => fmtF32.exp2 (t.mode v.tail.modifier) a) = true ∧
    fpRaises (.flg2 (r3 8 4 0)) View.xType (fun v t _ a _ _ => fmtF32.log2 (t.mode v.tail.modifier) a) = true ∧
    fpRaises (.fsin (r3 8 4 0)) View.xType (fun v t _ a _ _ => fmtF32.sincos (t.mode v.tail.modifier) false a) = true ∧
    fpRaises (.fcos (r3 8 4 0)) View.xType (fun v t _ a _ _ => fmtF32.sincos (t.mode v.tail.modifier) true a) = true ∧
    fpRaises (.ldexp (r3 8 4 6)) View.xType (fun v t _ a _ _ =>
      fmtF32.ldexp (t.mode v.tail.modifier) (fmtF32.unpack a) (t.b32 v).toInt) = true ∧
    fpRaises (.frexp (r3 8 4 0)) View.xType (fun _ _ _ a _ _ =>
      (2 ^ 31, if (fmtF32.unpack a).snan then flagNV else 0)) = true := by decide +kernel
theorem witness_cvtTraps :
    controlTrap nanControl (.cvt (r3 8 4 0x24)) (fun _ _ v t => t.fpTrap (t.converted v .f32 .dm8).2) = true ∧
    computeTrap nanGroup (.cvt (r3 8 4 0x24)) (fun _ _ v t => t.fpTrap (t.converted v .f32 .dm8).2) = true ∧
    numFormat (descCode 0) = some .f32 ∧ numFormat (descCode 0x24) = some .dm8 := by decide +kernel

/-- `Reached` as a test. -/
def isReached (s : State) (i : Instr) : Bool :=
  let x := setOf s
  let v := viewOf i
  s.issue == some x && i.view == some v && (!x.group.control.isSome || (x.lanes.head?.bind Thread.trapped).isNone) &&
  x.staticTrap i v == none
theorem reached {s : State} {i : Instr} (h : isReached s i = true) : Reached s i (setOf s) (viewOf i) := by
  simp only [isReached, Bool.and_eq_true, beq_iff_eq, Bool.or_eq_true, Bool.not_eq_true', Option.isNone_iff_eq_none] at h
  obtain ⟨⟨⟨h1, h2⟩, h3⟩, h4⟩ := h
  exact ⟨h1, h2, fun h => h3.resolve_left (by simp [h]), h4⟩
/-- Registers of a lane that are empty, or in error. -/
def emptyIn (s : State) (gid k : Nat) (rs : List Nat) : State :=
  s.modThread gid k fun t => { t with fe := rs.map fun r => (r, .load) }
/-- A modifier word that sends empty operands of field a to REGEMPTY. -/
def teA : Modifier := { Modifier.absent with tea := true }
/-- ControlCoreTakesTraps: an empty operand that is sent to REGEMPTY, and operands in error of instructions that do not wait. -/
theorem witness_sentEmpty :
    let s := emptyIn (ctl []) 0 0 [4]
    ∃ x v t, Reached s (.add (r4 8 4 6 teA)) x v ∧ x.group.control = some 0 ∧ x.lanes = [t] ∧ t.state = .issuing ∧
      v.tail.modifier.me = false ∧ t.sentEmpty (.add (r4 8 4 6 teA)) v = some 4 :=
  ⟨_, _, { thread 0 0 2 [] with fe := [(4, .load)] }, reached (by decide +kernel), by decide +kernel⟩
def inError : State := (ctl [(4, 0x1000), (5, 1)]).modThread 0 0 fun t => { t with regErrors := [4] }
def lane0 : Thread := { thread 0 0 2 [(4, 0x1000), (5, 1)] with regErrors := [4] }
theorem witness_readInError : ∀ i ∈ [Instr.add (r3 8 4 6), .jmp (r3 0 4 0), .ldGW (ri7 8 4 0), .fadd .f32 (r3 8 4 6)],
    (∃ x v, Reached inError i x v ∧ x.group.control = some 0 ∧ x.lanes = [lane0] ∧ lane0.state = .issuing ∧
      v.tail.modifier.me = false ∧ lane0.emptyOperands (i.sig v) v = [] ∧ x.errorRead i v lane0 = some 4) ∧
    ∀ T h x v, setOf inError = x → viewOf i = v → exec i inError = .next T → ¬Blocked inError x x.lanes h T := by
  refine fun i hi => ⟨⟨setOf inError, viewOf i, reached ?_, ?_⟩, ?_⟩
  · revert i; decide +kernel
  · revert i; decide +kernel
  · intro T h x v hx hv hT hB
    have h1 := hB.lanes lane0 (by rw [← hx]; decide +kernel)
    have h2 : (threadOf (exec i inError) 0 0).all (fun t => match t.state with
      | .waiting _ => false
      | _ => true) = true := by clear hT hv; revert i; decide +kernel
    rw [hT] at h2
    have h3 : (setOf inError).group.gid = 0 := by decide +kernel
    rw [← hx, h3] at h1
    have h4 : lane0.gidx = 0 := rfl
    rw [h4] at h1
    simp only [threadOf, next?, Option.bind_some, h1] at h2
    cases h2
/-- TrappingLanesLeave: a register and a tile beyond the group's, and an encoding that is not legal. -/
theorem witness_staticTraps :
    (∃ x v, (grp [] []).issue = some x ∧ (Instr.tzero (r3 7 0 0)).view = some v ∧ x.group.control = none ∧ v.fmt ≠ .raw ∧
      ∃ k ∈ ((Instr.tzero (r3 7 0 0)).sig v).tiles v, (pair [] []).tiles - 1 ≤ k) ∧
    (∃ v, (Instr.add (r3 8 4 6)).view = some v ∧ 6 ∈ ((Instr.add (r3 8 4 6)).sig v).registers v ∧ v.fmt ≠ .raw) ∧
    ∃ v, (Instr.bar (r3 0 0 16)).view = some v ∧ v.fmt ≠ .raw ∧ (Instr.bar (r3 0 0 16)).legal v = false ∧
      ((Instr.bar (r3 0 0 16)).sig v).registers v = [] ∧ ((Instr.bar (r3 0 0 16)).sig v).tiles v = [] :=
  ⟨⟨setOf (grp [] []), viewOf (.tzero (r3 7 0 0)), by decide +kernel⟩, ⟨viewOf (.add (r3 8 4 6)), by decide +kernel⟩,
    viewOf (.bar (r3 0 0 16)), by decide +kernel⟩
/-- A group with a budget of four registers and no tile. -/
def smallGroup : State := (grp [] []).modGroup 200 fun g => { g with budget := 4, tiles := 0 }
theorem witness_beyond :
    (∃ x, smallGroup.issue = some x ∧ x.group.control = none ∧ x.group.budget ≤ 6 ∧ x.group.tiles ≤ 7) ∧
    (smallGroup.core 0 0).freeEntry = some 0 := ⟨⟨setOf smallGroup, by decide +kernel⟩, by decide +kernel⟩
/-- TrappingLanesLeave: a lane set whose mask register is empty in a lane, whose operand is, and one lane of which TEa sends to
REGEMPTY while the other waits for another operand, or both. -/
theorem witness_blocked :
    (∃ x v, Reached (emptyIn (grp [(9, 1)] [(9, 1)]) 200 1 [9]) (.add (r4 8 4 6 { Modifier.absent with me := true, m := 9 })) x v ∧
      v.tail.modifier.me = true ∧ ∃ t ∈ x.lanes, t.isFull v.tail.modifier.m.toNat = false) ∧
    (∃ x v, Reached (emptyIn (grp [] []) 200 1 [6]) (.add (r3 8 4 6)) x v ∧ v.tail.modifier.me = false ∧
      (∀ t ∈ x.lanes, t.sentEmpty (.add (r3 8 4 6)) v = none) ∧
      ((x.active v).flatMap fun t => (t.emptyOperands ((Instr.add (r3 8 4 6)).sig v) v).map fun r => (t.gidx, r)) ≠ []) ∧
    (∃ x v, Reached (emptyIn (emptyIn (grp [] []) 200 1 [6]) 200 0 [4]) (.add (r4 8 4 6 teA)) x v ∧ x.group.control = none ∧
      (∀ t ∈ x.lanes, t.state = .issuing) ∧ v.tail.modifier.me = false ∧
      (x.lanes.filterMap fun t => (t.sentEmpty (.add (r4 8 4 6 teA)) v).map fun r => (t, emptyTrap r)) ≠ [] ∧
      (((x.active v).filter fun t => (t.sentEmpty (.add (r4 8 4 6 teA)) v).isNone).flatMap fun t =>
        (t.emptyOperands ((Instr.add (r4 8 4 6 teA)).sig v) v).map fun r => (t.gidx, r)) ≠ [] ∧
      ((emptyIn (emptyIn (grp [] []) 200 1 [6]) 200 0 [4]).core 0 0).freeEntry = some 0) ∧
    ∃ x v, Reached (emptyIn (emptyIn (grp [] []) 200 1 [4]) 200 0 [4]) (.add (r4 8 4 6 teA)) x v ∧ x.group.control = none ∧
      ∀ t ∈ x.lanes, (t.sentEmpty (.add (r4 8 4 6 teA)) v).isSome = true :=
  ⟨⟨_, _, reached (by decide +kernel), by decide +kernel⟩, ⟨_, _, reached (by decide +kernel), by decide +kernel⟩,
    ⟨_, _, reached (by decide +kernel), by decide +kernel⟩, _, _, reached (by decide +kernel), by decide +kernel⟩
/-- A thread's walks: of a mapped page, of an address with no leaf, in a polder that is not its context's, and of the window. -/
def walkWho : Who := ⟨0, 0, 0, true⟩
theorem witness_walks :
    let s := ctl []
    let c := s.contextEntry 0 0
    (c % 2 = 1 ∧ c / 2 ^ 6 % 32 = 0) ∧ s.contextEntry 0 1 % 2 ≠ 1 ∧
    (∀ need ∈ [Need.read, .write, .both, .fetch], (s.walk walkWho need 0x100001000).toOption.isSome = true) ∧
    (s.walk walkWho .read 0x200000000).toOption = none ∧
    (∃ q ∈ (s.walk walkWho .read 0x100002000).toOption, q.1 / 2 ^ 8 % 4 = 3 ∧ q.1.testBit 3 = true ∧ q.1.testBit 6 = true ∧
      q.1.testBit 5 = false) ∧
    (∃ q ∈ (s.walk walkWho .read 0x100001000).toOption, q.1 / 2 ^ 8 % 4 ≠ 3 ∧ q.1.testBit 3 = true) ∧
    (s.translateAny walkWho .read 0x100002000).toOption.any (fun a => match a with
      | .window _ _ => true
      | .here _ => false) = true ∧
    (s.translateAny walkWho .read 0x100001000).toOption.any (fun a => match a with
      | .window _ _ => false
      | .here l => !(s.die l.home).lost && !l.table) = true := by decide +kernel
/-- A polder with one frame, and a page of the table region. -/
def narrowState : State :=
  { farOut with mem := farOut.mem.writeN (storageKey 1 (0x8000 + 5 * 64 + 24)) (bytesOfNat 0 8) }
theorem witness_frames :
    (narrowState.polder 1 5).hi = 0 ∧ (narrowState.walk ⟨1, 0, 5, true⟩ .read 0x100001000).toOption.any (fun q =>
      q.1.testBit 3 && decide (q.1 / 2 ^ 8 % 4 ≠ 3) && decide ((narrowState.polder 1 5).hi < q.1 / 2 ^ 12 % 2 ^ 36)) = true := by decide +kernel
def tableEntryOf (frame : Nat) : State :=
  { ctl [] with mem := (ctl []).mem.writeN (storageKey 0 (Config.bootRoot + 0x4008)) (bytesOfNat (frame * 4096 + 0x1DB) 8) }
theorem witness_tableAccess : [((0x8 : Nat), true), (0x200000, false)].all (fun p =>
    ((tableEntryOf p.1).translateAny walkWho .write 0x100001000).toOption.any fun a => match a with
      | .window _ _ => false
      | .here l => decide (l.table = decide (p.1 < 0x200000)) &&
        decide (decide (0x8000 ≤ l.key % 2 ^ 37 ∧ l.key % 2 ^ 37 < 0xB000) = p.2)) = true := by decide +kernel
/-- A die that is lost, one that is not, and cached entries of a die. -/
theorem witness_homes :
    let s := (ctl []).modDie 0 fun d => { d with lost := true, tlb := [⟨24, 9⟩] }
    (s.die 0).lost = true ∧ ((s.die 0).tlb.find? fun t => t.offset = 24).isSome = true ∧ (∀ t ∈ (s.die 0).tlb, t.offset ≠ 32) ∧
    ((ctl []).die 0).lost = false ∧ ((ctl []).die 31).lost = false := by decide +kernel
/-- AccessChecks: offsets of the scratchpad below 0, past its end, misaligned, in error, and good. -/
theorem witness_scratchChecks :
    let g := { pair [] [] with scratchErrors := [9] }
    (((-4 : Int)) < 0 ∧ (g.scratchSize : Int) < 4093 + 4) ∧ (6 + 4 ≤ g.scratchSize ∧ 6 % 4 ≠ 0) ∧ (g.scratchError 8 4).isSome = true ∧
    g.scratchError 12 4 = none := by decide +kernel
/-- FencesComplete: lanes one of which has an older load to come, at `.acq` and at `.acqrel`; lanes at each phase of `.sc`. -/
def loadingState : State := (grp [] []).modThread 200 0 fun t => { t with
  ops := [⟨7, some .load, .load .g loc0 8 10 false none none, false, [], false, false⟩] }
def scState : State := ((grp [] []).modThread 200 0 fun t => { t with fence := .releasing 5 }).modThread 200 1 fun t => { t with
  fence := .ticking 0 }
theorem witness_fencesHold :
    (∀ p ∈ [(Instr.fence (r4 0 0 0 { mx 1 with sc := 2 }), loadingState), (.fence (r4 0 0 0 { mx 2 with sc := 2 }), loadingState),
      (.fence (r4 0 0 0 { mx 3 with sc := 2 }), loadingState), (.fence (r4 0 0 0 { mx 3 with sc := 2 }), scState)],
      ∃ x v, Ready p.2 p.1 x v ∧ ∀ t ∈ x.active v, (t.fence = .idle → t.sb.length + 1 ≤ 64) ∧ ∀ o ∈ t.ops, o.failure = none) ∧
    (∃ g ∈ loadingState.group 200, ∃ t ∈ g.thread 0, t.loadsPerformed = false ∧ t.drained = false) ∧
    ∃ g ∈ loadingState.group 200, ∃ t ∈ g.thread 1, t.loadsPerformed = true ∧ t.drained = true := by
  refine ⟨fun p hp => ⟨_, _, ready (s := p.2) (i := p.1) ?_, ?_⟩, ?_⟩
  · revert p; decide +kernel
  · revert p; decide +kernel
  · decide +kernel
/-- TransferInstructionsComplete: a counter that has not reached its target, and a transfer that is not done. -/
def waitingState : State :=
  ((grp [(19, 48)] [(19, 48)]).modGroup 200 fun g => { g with scratch := g.scratch.writeN 52 (bytesOfNat 9 4) }).modThread 200 0 fun t =>
    { t with ops := [⟨9, some .transfer, .transfer 0 none, false, [], false, false⟩] }
theorem witness_countersHold :
    (∃ x v, Ready waitingState (.slwait (r3 0 19 0)) x v ∧ ∀ t ∈ x.active v, (t.a32 v).toNat % 8 = 0 ∧
      (t.a32 v).toNat + 8 ≤ x.group.scratchSize ∧ t.sb = [] ∧ x.group.heldByOrder t 0 = false ∧
      x.group.scratchError (t.a32 v).toNat 8 = none ∧ natOfBytes (x.group.scratch.readN (t.a32 v).toNat 4) < 2 ^ 31 ∧
      natOfBytes (x.group.scratch.readN (t.a32 v).toNat 4) < natOfBytes (x.group.scratch.readN ((t.a32 v).toNat + 4) 4)) ∧
    ∃ x v, Ready waitingState (.xwait (r4 0 0 0 (mx 1))) x v ∧
      (∀ t ∈ x.active v, ∀ o ∈ t.ops, o.failure = none) ∧ ∃ t ∈ x.active v, ∃ o ∈ t.ops, o.cls = some (classOfX v.tail.modifier.x) ∧
        o.done = false :=
  ⟨⟨_, _, ready (by decide +kernel), by decide +kernel⟩, _, _, ready (by decide +kernel), by decide +kernel⟩
/-- EventAndReturnComplete: a thread without an event and with no release begun, in each phase; an epc that is no instruction's address;
targets that sev may name and that it may not. -/
def eventless (f : FencePhase) : State := (ctl [(6, 0x2000), (7, 0x4000)]).modThread 0 0 fun t => { t with fence := f, epc := 2 }
theorem witness_eventsHold :
    (∀ p ∈ [(Instr.wfe (r3 0 0 0), FencePhase.idle), (.halt (r3 0 0 0), .idle), (.halt (r3 0 0 0), .releasing 3), (.sev (r3 0 0 6), .idle),
      (.sev (r3 0 0 6), .releasing 3)], ∃ x v, Ready (eventless p.2) p.1 x v ∧ x.group.control = some 0 ∧
        ∀ t ∈ x.active v, t.ev = false ∧ t.sb.length + 1 ≤ 64 ∧ (p.1 = .sev (r3 0 0 6) → (eventless p.2).sevOk x.group t (t.b32 v) = true)) ∧
    controlTrap (eventless .idle) (.eret (r3 0 0 0)) (fun _ _ _ t =>
      if t.epc.toNat % 4 = 0 ∧ t.epc.toNat < 2 ^ 56 then none else some { cause := .align, tval := t.epc }) = true ∧
    controlTrap (eventless .idle) (.sev (r3 0 0 7)) (fun s x v t =>
      if s.sevOk x.group t (t.b32 v) then none else some { cause := .prot }) = true := by
  refine ⟨fun p hp => ⟨_, _, ready (s := eventless p.2) (i := p.1) ?_, ?_⟩, by decide +kernel⟩
  · revert p; decide +kernel
  · revert p; decide +kernel
/-- PrivilegedInstructionsTrap: words and instructions that a control core lacks; a register above its thread's level, one that is not,
one that Table 19-1 lacks and Table 26-1's on a compute core. -/
def atLevel (s : State) (gid : Nat) (l : BitVec 2) : State :=
  s.modGroup gid fun g => { g with threads := g.threads.map fun t => (t.1, { t.2 with pl := l }) }
theorem witness_checkSeven :
    (∀ i ∈ [Instr.unassignedOpcode ⟨0, 0x69, false, .none⟩, .xfer (r3 0 14 0), .bar (r3 0 0 16), .rdsys (sys 6 0x010)],
      ∃ x v t, (ctl []).issue = some x ∧ i.view = some v ∧ x.group.control = some 0 ∧ x.lanes = [t] ∧ t.trapped = none ∧
        (v.fmt = .raw ∨ i.excludedOnControl = true ∨ i.legal v = false ∨ i.dieRegisterOnControl v = true)) ∧
    controlTrap (atLevel (ctl []) 0 1) (.wrsys (sys 6 0x009)) (fun _ x v t => sysCheck x.group t v true) = true ∧
    controlTrap (atLevel (ctl []) 0 1) (.rdsys (sys 6 0x01C)) (fun _ x v t => sysCheck x.group t v false) = true ∧
    computeTrap (atLevel (grp [] []) 200 1) (.rdsys (sys 6 0x02A)) (fun _ x v t => sysCheck x.group t v false) = true ∧
    (∀ i ∈ [Instr.eret (r3 0 0 0), .halt (r3 0 0 0), .kerase (r3 0 0 0)],
      computeTrap (atLevel (grp [] []) 200 2) i (fun _ _ v _ => some { cause := .illop, tval := v.base.zeroExtend 64 }) = true) ∧
    (systemReg 0x009).isSome = true ∧ (systemReg 0x01C).isSome = true ∧ systemReg 0x3FF = none := by
  refine ⟨fun i hi => ⟨setOf (ctl []), viewOf i, thread 0 0 2 [], ?_⟩, by decide +kernel⟩
  revert i; decide +kernel
/-- A control-core thread of I/O die 33. -/
def ctl33 : State :=
  { ctl [] with cur := (33, 0, 0), groups := [(0, { Group.controlReset 0 with place := ⟨33, 0, 0⟩, threads := [(0, thread 0 0 2 [])] })]
                strokes := [⟨33, 0, 0, 0, 1, [0], 0, false⟩] }
theorem witness_kerase33 : controlTrap ctl33 (.kerase (r3 0 0 0)) (fun _ x v _ =>
    if x.group.place.die = 32 then none else some { cause := .illop, tval := v.base.zeroExtend 64 }) = true := by decide +kernel
/-- AccessStepsPerform: a store to a block that its die lacks of a home that is lost. -/
def lostHome : State :=
  let s := (accessState.modDie 0 fun d => { d with work := [] }).modGroup 200 fun g => { g with place := ⟨1, 0, 0⟩ }
  s.modDie 0 fun d => { d with lost := true }
theorem witness_storeRefused : ∃ g ∈ lostHome.group 200, ∃ t ∈ g.thread 0, ∃ e ∈ t.sb[1]?, e.kind = .global loc0 false ∧
    lostHome.entryReady g t (t.sb.take 1) e = true ∧ loc0.table = false ∧ loc0.token = false ∧ (lostHome.die loc0.home).lost = true ∧
    (lostHome.die g.place.die).block (blockOf loc0.key) = none ∧ g.kindOf 0 ≠ .halted ∧ t.trapped = none := by decide +kernel
/-- SchedulerSteps: a warp that wins next with the other slot taken or free, whose lanes stand at one program counter or at two; and the
next warp after it. -/
def contest (two : Bool) : State :=
  (idleState.modGroup 200 fun g => { g with
    warps := g.warps ++ [⟨2, .normal, [(0, 2)], some 4⟩], nthr := 3
    threads := g.threads ++ [(2, { thread 2 0 0 [] with state := .ready })] }).modThread 200 1 fun t =>
      { t with pc := if two then 0x100000040 else t.pc }
/-- `WinsNext` as a test over the groups and warps of a core. -/
def winsNextOk (s : State) (die core : Nat) (g : Group) (w : Warp) : Bool :=
  (s.contenders die core).contains (g, w) && (s.contenders die core).all fun q => q == (g, w) ||
    match w.lastWin, q.2.lastWin with
    | none, none => decide (w.id < q.2.id)
    | none, some _ => true
    | some _, none => false
    | some m, some n => decide (m < n)
theorem competes {s : State} {die core : Nat} {g : Group} {w : Warp} :
    s.Competes die core g w ↔ (g, w) ∈ s.contenders die core := by
  simp only [State.Competes, State.contenders, State.issuers, State.voters, State.stepPending, List.mem_filter, List.mem_flatMap,
    List.mem_map, Prod.mk.injEq, Bool.and_eq_true, decide_eq_true_eq, bne_iff_ne, ne_eq, List.filterMap_eq_nil_iff, Classical.not_forall]
  constructor
  · rintro ⟨hg, rfl, rfl, hr, hw, l, hl, t, ht, hs, hp⟩
    refine ⟨⟨g, ⟨hg, ⟨rfl, rfl⟩, hr⟩, w, hw, rfl, rfl⟩, l, hl, ?_⟩
    rw [ht]
    simp only [Option.filter_some, hs, beq_self_eq_true, Bool.true_and, Bool.not_eq_true']
    rw [if_pos ?_]
    · exact Option.some_ne_none t
    · simp only [List.any_eq_false, Bool.and_eq_true, decide_eq_true_eq, not_and]
      exact hp
  · rintro ⟨⟨g', ⟨hg, ⟨h1, h2⟩, hr⟩, w', hw, rfl, rfl⟩, l, hl, hv⟩
    cases ht : g'.thread l.2 with
    | none => rw [ht] at hv; exact absurd rfl hv
    | some t =>
      rw [ht] at hv
      simp only [Option.filter_some, ite_eq_right_iff, Classical.not_forall, Bool.and_eq_true, beq_iff_eq, Bool.not_eq_true', List.any_eq_false,
        decide_eq_true_eq, not_and] at hv
      obtain ⟨⟨hs, hp⟩, _⟩ := hv
      exact ⟨hg, h1, h2, hr, hw, l, hl, t, ht, hs, hp⟩
theorem winsNext {s : State} {die core : Nat} {g : Group} {w : Warp} (h : winsNextOk s die core g w = true) : s.WinsNext die core g w := by
  simp only [winsNextOk, Bool.and_eq_true, List.contains_iff_mem, List.all_eq_true, Bool.or_eq_true, beq_iff_eq] at h
  refine ⟨competes.mpr h.1, fun k x hx hne => ?_⟩
  have := (h.2 (k, x) (competes.mp hx)).resolve_left hne
  unfold Warp.Before
  revert this
  cases w.lastWin <;> cases x.lastWin <;> simp
/-- The group of `contest` and its first warp. -/
def contender (two : Bool) : Group := ((contest two).group 200).getD (pair [] [])
theorem witness_arbiter : ∀ two ∈ [false, true],
    let w : Warp := ⟨1, .normal, [(0, 0), (1, 1)], none⟩
    (contest two).WinsNext 0 0 (contender two) w ∧ (contest two).slotFree 0 0 0 = true ∧ (contest two).slotFree 0 0 1 = true ∧
    ((contest two).giveSlot 0 0 1 300 9 []).slotFree 0 0 1 = false ∧ ((contest two).die 0).lost = false ∧
    (contest two).ports.boot = .running ∧ (contest two).replayOn 0 0 = none ∧
    ((higherLanes ((contest two).voters (contender two) w) ≠ []) ↔ two = true) := by
  intro two h w
  refine ⟨winsNext ?_, ?_⟩
  · revert two; decide +kernel
  · revert two; decide +kernel
/-- The state after the first slot is given, and its group. -/
def contestAfter : State := (contest false).giveSlot 0 0 0 200 1 [0, 1]
theorem witness_arbiterNext : contestAfter.WinsNext 0 0 ((contestAfter.group 200).getD (pair [] [])) ⟨2, .normal, [(0, 2)], some 4⟩ :=
  winsNext (by decide +kernel)
theorem witness_arbiterNone : ∀ g w, ¬{ idleState with groups := [] }.Competes 0 0 g w := by
  intro g w h
  rw [competes] at h
  simp [State.contenders, State.issuers] at h
theorem witness_replayVotes : ∃ l ∈ (replayState false).replayOn 0 0, ∃ p ∈ (replayState false).replayNext l 0 0, p.2.2.1 ≠ [] := by
  decide +kernel
/-- FolioSaveAndStepSteps: a name whose die is lost, and a die that is lost to restore on. -/
theorem witness_lostDies :
    let s := outState.modDie 0 fun d => { d with lost := true }
    s.nameLost 0x1000000 = true ∧ outState.nameLost 0x1000000 = false ∧ outState.nameLost 0x2000000 = false ∧ (s.die 0).lost = true ∧
    ((folioState 0 false).die 0).lost = false ∧ (recordState.die 0).lost = false ∧
    ∃ l ∈ doneState.launches.head?, (doneState.die l.store).lost = false := by decide +kernel
/-- TableAndLossSteps: a polder entry valid with die 0, and one beside it that names a die with it or one that it leaves. -/
def polderState (dies : Nat) : State :=
  let m := ((ctl []).mem.writeN (storageKey 0 0x8000) (bytesOfNat 1 8)).writeN (storageKey 0 0x8028) (bytesOfNat 1 8)
  let s := ctl []
  { s with mem := (m.writeN (storageKey 0 0x8040) (bytesOfNat dies 8)).writeN (storageKey 0 0x8068) (bytesOfNat 0 8) }
/-- The polders that share nothing with, or share a die with, polder 1 once its word 5 is written. -/
def polderAfter (dies : Nat) : State :=
  { polderState dies with mem := (polderState dies).mem.writeN (storageKey 0 0x8068) (bytesOfNat 1 8) }
theorem witness_polderWrites :
    (0x8000 ≤ 0x8068 ∧ 0x8068 < 0x8800 ∧ 0x8068 % 8 = 0 ∧ (0x8068 - 0x8000) / 64 = 1 ∧ (bytesOfNat 1 8).length = 8) ∧
    (∀ dies ∈ [1, 2], (natOfBytes (bytesOfNat 1 8) &&& 1) ||| ((polderState dies).readNat 0 0x8068 8 &&& (2 ^ 64 - 1 - 1)) = 1) ∧
    (((polderAfter 1).polder 0 1).valid = true ∧ ((polderAfter 1).polder 0 0).valid = true ∧
      ((polderAfter 1).polder 0 1).dies &&& ((polderAfter 1).polder 0 0).dies ≠ 0) ∧
    (List.range 32).all (fun k => k == 1 || !((polderAfter 2).polder 0 k).valid ||
      decide (((polderAfter 2).polder 0 1).dies &&& ((polderAfter 2).polder 0 k).dies = 0 ∧
        ((polderAfter 2).polder 0 1).cc0 &&& ((polderAfter 2).polder 0 k).cc0 = 0 ∧
        ((polderAfter 2).polder 0 1).cc1 &&& ((polderAfter 2).polder 0 k).cc1 = 0)) = true := by decide +kernel
/-- TableAndLossSteps: an invalidation of which a die's acknowledgement is due, and one behind an older table store. -/
def tlbiAfterStore : State :=
  { idleState with tlbis := [⟨1, 1, 0, 5, 0, 200, 0, 9, [0, 1]⟩], tableStores := [⟨0x18000, List.replicate 8 0, [0], 0, [(200, 0, 1)], 2⟩] }
theorem witness_tlbiBehind :
    (tlbiState.tlbis.find? fun i => i.id = 1 && i.left.contains 0 && !tlbiState.tlbiBehind i).isSome = true ∧
    (tlbiAfterStore.tlbis.all fun i => tlbiAfterStore.tlbiBehind i) = true := by decide +kernel
/-- TableAndLossSteps: the loss of a die that no operation and no store reaches, of which another die's group is untouched. -/
theorem witness_goesOn :
    idleState.lossDue 5 .ticks = true ∧ idleState.refusedOps 5 = [] ∧ idleState.refusedStores 5 = [] ∧
    let s1 := idleState.modDie 5 (fun d => { d with lost := true, leftReset := false })
    ∃ g ∈ idleState.group 200, g.place.die ≠ 5 ∧ idleState.strokes = [] ∧ (∀ w ∈ g.warps, w.kind = .normal) ∧
      (∀ t ∈ g.threads, (s1.touchedDies t.2.ctxid.toNat).testBit 5 = false) ∧ (g.thread 0).isSome = true ∧
      ∃ l ∈ idleState.launches.head?, (s1.touchedDies l.ctx).testBit 5 = false := by decide +kernel
/-- TokenSteps: a request of 2 µs ago whose agent lacks tokens. -/
theorem witness_escalates : ∃ r ∈ tokenState.tokens.reqs.find? fun r => r.die = 3 && r.line = line0,
    r.first + microseconds 2 ≤ tokenState.clock ∧ tokenState.lacksTokens 3 line0 r.write = true ∧ tokenState.tokens.persistent = [] ∧
      tokenState.tokens.waiting = [] := by decide +kernel
/-- PodSenderSteps: credits that this chip sent to itself and has not, for a copy of its own; a packet that is sent again and a reply. -/
def ownState : State :=
  let p := packet .pst 0 0 65533 [1]
  let s := senderState
  { s with pod := { s.pod with copies := [⟨p, 0, true, true, false, true, false⟩], credits := [(0, 7, 65533)] } }
theorem witness_ownCredits :
    (0, 7, (65533 : Half)) ∈ ownState.pod.credits ∧ (0, 8, (65533 : Half)) ∉ ownState.pod.credits ∧ ownState.pod.chip = 0 ∧
    (∃ c ∈ ownState.pod.copies, c.named 0 7 65533 = true) ∧
    (∀ o ∈ [(⟨packet .pst 0 12 65533 [1], none, true, false⟩ : Outgoing), ⟨packet .reply 0 12 5 [], none, false, false⟩],
      ((o.again = true ∧ o.packet.kind.isChannel = true) ∨ o.packet.kind = .reply) ∧
      (senderState.leave o).pod.copies.length = senderState.pod.copies.length + 1) := by decide +kernel
/-- PodSenderSteps: a gap request on a channel that this chip does not hold, or holds for another chip. -/
theorem witness_gapWithoutChannel : ∀ chan ∈ [8, 9],
    ((receiverState [{ packet .gap 12 0 0 (bytesOfNat 5 2) with chan := chan }]).nextArrival (fun k => k == .gap)).any (fun p =>
      p.2.admits p.1 && decide (gapSeqs p.1.data = [5]) && (p.2.keptOf p.1.chan 5 p.1.src).isNone &&
      (p.2.channel p.1.chan).all fun c => c.dest != p.1.src) = true := by decide +kernel
/-- PodReceiverSteps: a reply without data. -/
theorem witness_poisonReply : ((receiverState [packet .reply 12 0 5 []]).nextArrival (fun k => k == .reply)).any (fun p =>
    p.2.admits p.1 && decide (p.1.data = []) && (p.2.pod.requests.find? fun q => q.tag == p.1.seq && q.waits).isSome) = true := by
  decide +kernel
/-- TileOperationsPerform: tile loads and stores with a byte to move, and with none left. -/
theorem witness_tileSteps : ∀ p ∈ [(Instr.tld (r3 1 4 0), wordRows), (.tst (r3 2 4 0), wordRows)],
    (tileTurn p.1 p.2).tileOps.head?.any (fun o => o.stepEnd.isSome && !o.parts.isEmpty) = true ∧
    (tileTurn p.1 []).tileOps.head?.any (fun o => o.stepEnd.isNone && o.parts.isEmpty &&
      o.lanes.all fun l => !(tileTurn p.1 []).tablePending o.gid l.1 (l.2 + 1)) = true := by decide +kernel
theorem witness_leastFrom : LeastFrom [(64, 16), (32, 16)] 0 32 ∧ LeastFrom [(64, 16), (32, 16)] 48 64 := by
  refine ⟨⟨by decide, ⟨(32, 16), by decide⟩, ?_⟩, by decide, ⟨(64, 16), by decide⟩, ?_⟩ <;>
  · intro q hq c h1 h2 h3
    simp only [List.mem_cons, List.not_mem_nil, or_false] at hq
    rcases hq with rfl | rfl <;> simp only at h2 h3 <;> omega
/-- ArithmeticRoundsExactly and ConversionsRoundExactly: infinities and NaNs of f32, of either sign; magnitudes on either side of dm8's
largest; integers with their sign bit set and clear; a dm8 row's ends. -/
theorem witness_conversionEnds :
    fmtF32.unpack 0x7F800000 = .inf false ∧ fmtF32.unpack 0xFF800000 = .inf true ∧ fmtF32.unpack 0x7FC00000 = .nan false ∧
    fmtF32.unpack 0x7F800001 = .nan true ∧ 10 ^ 8 * 1 < 10 ^ 9 ∧ 10 ^ 8 ≤ 10 ^ 8 * 1 ∧ (0 < 8 ∧ 0x80 < 2 ^ 8 ∧ 2 ^ (8 - 1) ≤ 0x80) ∧
    (FVal.inf true).isNan = false ∧ (FVal.fin false 3 (-1)).scaled 1 ≠ 0 ∧ (0x3F800000 : Nat) < 2 ^ FpType.f32.width := by decide

end Sys2Proof.Tests
end

/-!
SUPPORT. What the choices of the scheduler and the arbiter answer: least elements, by one key and by several, and the lane sets of a vote.
-/
namespace Sys2Proof.Machine
open Sys2Proof

/-! ## Least elements -/

theorem leastBy_eq_none {α : Type} (f : α → Nat) (l : List α) : leastBy f l = none ↔ l = [] := by
  cases l with
  | nil => simp [leastBy]
  | cons x l =>
    simp only [leastBy, reduceCtorEq, iff_false]
    split
    · simp
    · split <;> simp

/-- What `leastBy` answers is in the list, and no element of it measures less. -/
theorem leastBy_some {α : Type} {f : α → Nat} {l : List α} {x : α} (h : leastBy f l = some x) :
    x ∈ l ∧ ∀ y ∈ l, f x ≤ f y := by
  induction l generalizing x with
  | nil => cases h
  | cons a l ih =>
    simp only [leastBy] at h
    split at h
    · next hn =>
      cases h
      rw [leastBy_eq_none] at hn
      simp [hn]
    · next y hy =>
      obtain ⟨hm, hle⟩ := ih hy
      split at h
      · next hlt =>
        cases h
        exact ⟨List.mem_cons_of_mem _ hm, List.forall_mem_cons.mpr ⟨by omega, hle⟩⟩
      · next hge =>
        cases h
        exact ⟨List.mem_cons_self, List.forall_mem_cons.mpr ⟨Nat.le_refl _, fun z hz => by have := hle z hz; omega⟩⟩

theorem leastLex_eq_none {α : Type} (f : α → List Nat) (l : List α) : leastLex f l = none ↔ l = [] := by
  cases l with
  | nil => simp [leastLex]
  | cons x l =>
    simp only [leastLex, reduceCtorEq, iff_false]
    split
    · simp
    · split <;> simp

theorem leastLex_mem {α : Type} {f : α → List Nat} {l : List α} {x : α} (h : leastLex f l = some x) : x ∈ l := by
  induction l generalizing x with
  | nil => cases h
  | cons a l ih =>
    simp only [leastLex] at h
    split at h
    · cases h; simp
    · next y hy =>
      split at h
      · cases h; exact List.mem_cons_of_mem _ (ih hy)
      · cases h; simp

/-- The lexicographic order is asymmetric. -/
theorem lexLess_asymm {as bs : List Nat} (h : lexLess as bs = true) : lexLess bs as = false := by
  induction as generalizing bs with
  | nil => cases bs <;> rfl
  | cons a as ih =>
    cases bs with
    | nil => cases h
    | cons b bs =>
      simp only [lexLess, Bool.or_eq_true, Bool.and_eq_true, decide_eq_true_eq] at h
      simp only [lexLess, Bool.or_eq_false_iff, Bool.and_eq_false_iff, decide_eq_false_iff_not]
      rcases h with h | ⟨rfl, h⟩
      · exact ⟨by omega, .inl (by omega)⟩
      · exact ⟨by omega, .inr (ih h)⟩

/-- An element whose keys are less than those of every other one is the answer. -/
theorem leastLex_of_first {α : Type} {f : α → List Nat} {l : List α} {x : α} (hx : x ∈ l)
    (hlt : ∀ y ∈ l, y ≠ x → lexLess (f x) (f y) = true) : leastLex f l = some x := by
  induction l with
  | nil => cases hx
  | cons a l ih =>
    have hl : ∀ y ∈ l, y ≠ x → lexLess (f x) (f y) = true := fun y hy => hlt y (List.mem_cons_of_mem _ hy)
    by_cases hm : x ∈ l
    · simp only [leastLex, ih hm hl]
      by_cases ha : a = x
      · simp [ha]
      · simp [hlt a List.mem_cons_self ha]
    · obtain rfl : x = a := by simpa [hm] using hx
      simp only [leastLex]
      split
      · rfl
      · next y hy =>
        have hy := leastLex_mem hy
        have hne : y ≠ x := fun e => hm (e ▸ hy)
        simp [lexLess_asymm (hl y hy hne)]

/-- The first of a list in the order of its keys is the one that `leastLex` takes. -/
theorem FirstOf.leastLex {f : Group → List Nat} {w : Group} {gs : List Group} (h : FirstOf f w gs) :
    leastLex f gs = some w := leastLex_of_first h.1 h.2

/-! ## Lane sets -/

@[simp] theorem laneSets_nil (n : Nat) : laneSets [] n = [] := by cases n <;> rfl

/-- The vote's first lane set is that of the lowest program counter; the others are formed of the lanes above it (R22). -/
theorem laneSets_succ {ts : List Thread} (h : ts ≠ []) (n : Nat) :
    laneSets ts (n + 1) = lowestLanes ts :: laneSets (higherLanes ts) n := by
  simp only [laneSets]
  split
  · next hn => exact absurd ((leastBy_eq_none _ _).mp hn) h
  · next t ht =>
    obtain ⟨hm, hle⟩ := leastBy_some ht
    have hpc : ∀ x ∈ ts, (x.pc == t.pc) = ts.all fun y => decide (x.pc.toNat ≤ y.pc.toNat) := by
      intro x hx
      rw [Bool.eq_iff_iff]
      simp only [beq_iff_eq, List.all_eq_true, decide_eq_true_eq]
      constructor
      · intro e y hy; rw [e]; exact hle y hy
      · intro hall; exact BitVec.eq_of_toNat_eq (Nat.le_antisymm (hall t hm) (hle x hx))
    have hne : ∀ x ∈ ts, (x.pc != t.pc) = !ts.all fun y => decide (x.pc.toNat ≤ y.pc.toNat) :=
      fun x hx => congrArg not (hpc x hx)
    unfold lowestLanes higherLanes
    rw [List.filter_congr hpc, List.filter_congr hne]

/-- A lane of the lowest program counter. -/
theorem mem_lowestLanes (ts : List Thread) (i : Nat) :
    i ∈ lowestLanes ts ↔ ∃ t ∈ ts, t.gidx = i ∧ ∀ y ∈ ts, t.pc.toNat ≤ y.pc.toNat := by
  simp only [lowestLanes, List.mem_map, List.mem_filter, List.all_eq_true, decide_eq_true_eq]
  exact ⟨fun ⟨t, ⟨ht, hle⟩, hi⟩ => ⟨t, ht, hi, hle⟩, fun ⟨t, ht, hi, hle⟩ => ⟨t, ⟨ht, hle⟩, hi⟩⟩

end Sys2Proof.Machine

/-!
SUPPORT. What an arbiter's step does: strokes of ordinary and replay cores, slots given, bins of age.
-/
namespace Sys2Proof.Machine
open Sys2Proof

/-! ## The arbiter -/

/-- Whether no step request waits for a thread (R337). -/
theorem State.stepPending_eq_false (s : State) (gid gidx : Nat) :
    s.stepPending gid gidx = false ↔ ∀ r ∈ s.steps, r.gid = gid → r.gidx ≠ gidx := by
  simp [State.stepPending]

/-- The lanes that vote (R22): those of the warp that are READY and wait for no step request. -/
theorem State.mem_voters (s : State) (g : Group) (w : Warp) (t : Thread) :
    t ∈ s.voters g w ↔ ∃ l ∈ w.lanes, g.thread l.2 = some t ∧ t.state = .ready ∧
      ∀ r ∈ s.steps, r.gid = g.gid → r.gidx ≠ t.gidx := by
  simp only [State.voters, List.mem_filterMap, Option.filter_eq_some_iff, Bool.and_eq_true, beq_iff_eq, Bool.not_eq_true',
    State.stepPending_eq_false]

/-- The contenders of a core are the warps that compete. -/
theorem State.mem_contenders (s : State) (die core : Nat) (g : Group) (w : Warp) :
    (g, w) ∈ s.contenders die core ↔ s.Competes die core g w := by
  have hv : s.voters g w ≠ [] ↔ ∃ l ∈ w.lanes, ∃ t, g.thread l.2 = some t ∧ t.state = .ready ∧
      ∀ r ∈ s.steps, r.gid = g.gid → r.gidx ≠ t.gidx := by
    refine ⟨fun hne => ?_, fun ⟨l, hl, t, h⟩ => List.ne_nil_of_mem ((s.mem_voters g w t).mpr ⟨l, hl, h⟩)⟩
    obtain ⟨t, ht⟩ := List.exists_mem_of_ne_nil _ hne
    obtain ⟨l, hl, h⟩ := (s.mem_voters g w t).mp ht
    exact ⟨l, hl, t, h⟩
  simp only [State.contenders, State.issuers, List.mem_filter, List.mem_flatMap, List.mem_map, Prod.mk.injEq,
    Bool.and_eq_true, decide_eq_true_eq, bne_iff_ne, ne_eq, State.Competes, ← hv]
  constructor
  · rintro ⟨⟨_, ⟨hg, ⟨hd, hc⟩, hr⟩, _, hw, rfl, rfl⟩, hv⟩
    exact ⟨hg, hd, hc, hr, hw, hv⟩
  · rintro ⟨hg, hd, hc, hr, hw, hv⟩
    exact ⟨⟨g, ⟨hg, ⟨hd, hc⟩, hr⟩, w, hw, rfl, rfl⟩, hv⟩

/-- A warp that competes has lanes that vote. -/
theorem State.Competes.voters_ne {s : State} {die core : Nat} {g : Group} {w : Warp} (h : s.Competes die core g w) :
    s.voters g w ≠ [] := by
  have := (s.mem_contenders die core g w).mpr h
  simp only [State.contenders, List.mem_filter, bne_iff_ne, ne_eq] at this
  exact this.2

/-- A warp that goes before another has the lesser rank. -/
theorem Warp.Before.rank_less {w x : Warp} (h : w.Before x) : lexLess w.rank x.rank = true := by
  unfold Warp.Before at h
  unfold Warp.rank
  split at h <;> simp_all [lexLess]

/-- The arbiter takes no warp where none competes. -/
theorem State.noWinner {s : State} {die core : Nat} (h : ∀ g w, ¬s.Competes die core g w) :
    leastLex (fun (p : Group × Warp) => p.2.rank) (s.contenders die core) = none := by
  rw [leastLex_eq_none, List.eq_nil_iff_forall_not_mem]
  exact fun p hp => h p.1 p.2 ((s.mem_contenders die core p.1 p.2).mp hp)

/-- The arbiter takes the warp that wins next (R352). -/
theorem State.WinsNext.winner {s : State} {die core : Nat} {g : Group} {w : Warp} (h : s.WinsNext die core g w) :
    leastLex (fun (p : Group × Warp) => p.2.rank) (s.contenders die core) = some (g, w) :=
  leastLex_of_first ((s.mem_contenders die core g w).mpr h.1) fun p hp hne =>
    (h.2 p.1 p.2 ((s.mem_contenders die core p.1 p.2).mp hp) hne).rank_less

/-- A stroke start at a free slot of an ordinary core is the arbiter's. -/
theorem exec_strokeStart_ordinary {s : State} {die core slot : Nat} (hslot : slot < 2) (hfree : s.slotFree die core slot = true)
    (hlive : (s.die die).lost = false) (hboot : s.ports.boot = .running) (hr : s.replayOn die core = none) :
    exec (.strokeStart die core slot) s = .next (s.startStroke die core slot) := by
  show execStrokeStart die core slot s = _
  have hin : decide (2 ≤ slot) = false := decide_eq_false (Nat.not_le.mpr hslot)
  simp [execStrokeStart, hfree, hlive, hboot, hr, hin]

theorem State.startStroke_none {s : State} {die core : Nat} (h : ∀ g w, ¬s.Competes die core g w) (slot : Nat) :
    s.startStroke die core slot = s := by
  simp only [State.startStroke, State.noWinner h]

section
variable {s : State} {die core slot : Nat} {g : Group} {w : Warp} (hw : s.WinsNext die core g w)
include hw

/-- With the other slot taken, the winner's lowest lane set takes the slot and nothing else happens. -/
theorem State.startStroke_otherTaken (ho : s.slotFree die core (1 - slot) = false) :
    s.startStroke die core slot = s.giveSlot die core slot g.gid w.id (lowestLanes (s.voters g w)) := by
  by_cases hh : higherLanes (s.voters g w) = []
  · simp [State.startStroke, hw.winner, ho, laneSets_succ hw.1.voters_ne, hh]
  · simp [State.startStroke, hw.winner, ho, laneSets_succ hw.1.voters_ne, laneSets_succ hh]

/-- With both slots free, the winner's second lane set takes the other one (R22). -/
theorem State.startStroke_secondSet (ho : s.slotFree die core (1 - slot) = true) (hh : higherLanes (s.voters g w) ≠ []) :
    s.startStroke die core slot = (s.giveSlot die core slot g.gid w.id (lowestLanes (s.voters g w))).giveSlot die core (1 - slot)
      g.gid w.id (lowestLanes (higherLanes (s.voters g w))) := by
  simp only [State.startStroke, hw.winner, ho, laneSets_succ hw.1.voters_ne, laneSets_succ hh, if_true]

/-- With both slots free and no second lane set, the next stroke start's winner takes the other slot. -/
theorem State.startStroke_nextWarp (ho : s.slotFree die core (1 - slot) = true) (hh : higherLanes (s.voters g w) = []) :
    let s1 := s.giveSlot die core slot g.gid w.id (lowestLanes (s.voters g w))
    ((∀ h x, ¬s1.Competes die core h x) → s.startStroke die core slot = s1) ∧
    ∀ h x, s1.WinsNext die core h x →
      s.startStroke die core slot = s1.giveSlot die core (1 - slot) h.gid x.id (lowestLanes (s1.voters h x)) := by
  refine ⟨fun hn => ?_, fun h x hx => ?_⟩
  · simp only [State.startStroke, hw.winner, ho, laneSets_succ hw.1.voters_ne, hh, laneSets_nil, State.noWinner hn,
      Bool.not_true, Bool.false_eq_true, if_false]
  · simp only [State.startStroke, hw.winner, ho, laneSets_succ hw.1.voters_ne, hh, laneSets_nil, hx.winner,
      laneSets_succ hx.1.voters_ne, Bool.not_true, Bool.false_eq_true, if_false]

end

/-- A slot given (R22, R24): the stroke stands on it, the warp has won, its lanes are ISSUING, and nothing else changes. -/
theorem State.giveSlot_group {s : State} {gid : Nat} {g : Group} (hg : s.group gid = some g) (die core slot wid : Nat)
    (lanes : List Nat) :
    ∃ y, (s.giveSlot die core slot gid wid lanes).group gid = some y ∧
      y.warps = g.warps.map (fun w => if w.id = wid then { w with lastWin := some s.next.win } else w) ∧
      ∀ i t, g.thread i = some t → y.thread i = some (if i ∈ lanes then { t with state := .issuing } else t) := by
  let g1 : Group := { g with warps := mapIf (fun w => w.id = wid) (fun w => { w with lastWin := some s.next.win }) g.warps }
  let g2 := lanes.foldl (fun g t => g.modThread t fun x => { x with state := .issuing }) g1
  have h2 : g2 = { g1 with threads := g2.threads } :=
    Group.foldl_rest lanes _ (fun g t => Group.modThread_rest g t _) g1
  have hT : (s.giveSlot die core slot gid wid lanes).group gid = some { g2 with gid := gid } :=
    State.group_modGroup_same (s := { s with next := { s.next with win := s.next.win + 1 } }) hg _
  refine ⟨_, hT, ?_, fun i t ht => ?_⟩
  · rw [h2]; simp [g1, mapIf]
  · show g2.thread i = _
    split
    · next hi =>
      exact Group.foldl_modThread_mem lanes (fun _ x => { x with state := .issuing }) (fun _ _ => rfl) (fun _ _ => rfl) g1 i t ht hi
    · next hi => exact (Group.foldl_modThread_other lanes (fun _ x => { x with state := .issuing }) g1 i hi).trans ht

theorem State.giveSlot_group_other (s : State) (die core slot gid wid : Nat) (lanes : List Nat) (h : Nat) (hh : h ≠ gid) :
    (s.giveSlot die core slot gid wid lanes).group h = s.group h :=
  State.group_modGroup_other { s with next := { s.next with win := s.next.win + 1 } } gid h _ hh

theorem State.giveSlot_strokes (s : State) (die core slot gid wid : Nat) (lanes : List Nat) :
    (s.giveSlot die core slot gid wid lanes).strokes = s.strokes ++ [⟨die, core, slot, gid, wid, lanes, 0, false⟩] := by
  simp [State.giveSlot, State.freshWin]

theorem State.giveSlot_next (s : State) (die core slot gid wid : Nat) (lanes : List Nat) :
    (s.giveSlot die core slot gid wid lanes).next = { s.next with win := s.next.win + 1 } := by
  simp [State.giveSlot, State.freshWin]

theorem State.giveSlot_rest (s : State) (die core slot gid wid : Nat) (lanes : List Nat) :
    let T := s.giveSlot die core slot gid wid lanes
    T = { s with groups := T.groups, strokes := T.strokes, next := T.next } := by
  simp only [State.giveSlot, State.freshWin]
  rw [State.modGroup_rest]

/-! ## Strokes of a replay core -/

/-- A stroke start of a replay core where everything before is complete and no slice or stop is due (R360). -/
theorem exec_strokeStart_replay {s : State} {die core : Nat} {l : Launch} {g : Group} {w : Warp} {ts : List Thread} {b : Bool}
    (hfree : s.slotFree die core 0 = true) (hlive : (s.die die).lost = false) (hboot : s.ports.boot = .running)
    (hr : s.replayOn die core = some l) (hstop : l.stopped = false) (hbusy : s.replayBusy l.lid = false)
    (hslice : s.sliceDue l die core = false) (hdue : s.stopDue l die core = false)
    (hn : s.replayNext l die core = some (g, w, ts, b)) (hts : ts ≠ []) :
    let s1 := s.giveSlot die core 0 g.gid w.id (lowestLanes ts)
    exec (.strokeStart die core 0) s = .next { s1 with
      launches := mapIf (fun x => x.lid = l.lid) (fun x => { x with lastKey := replayKey g w }) s1.launches } := by
  show execStrokeStart die core 0 s = _
  simp [execStrokeStart, State.startReplay, hfree, hlive, hboot, hr, hstop, hbusy, hslice, hdue, hn, laneSets_succ hts]

/-- What the test accepts after `mapIf` is what it changed. -/
theorem of_mem_mapIf {α : Type} {p : α → Bool} {f : α → α} {l : List α} {y : α}
    (hy : y ∈ mapIf p f l) (h : p y = true) : ∃ x ∈ l, p x = true ∧ y = f x := by
  obtain ⟨x, hx, rfl⟩ := List.mem_map.mp hy
  cases hpx : p x with
  | true => exact ⟨x, hx, hpx, by simp⟩
  | false => simp [hpx] at h

/-- The first element that the test accepts is found as `mapIf` changed it, where the change keeps the test. -/
theorem find?_mapIf {α : Type} {p : α → Bool} {f : α → α} (hf : ∀ x, p (f x) = p x) (l : List α) :
    (mapIf p f l).find? p = (l.find? p).map f := by
  have hp : (p ∘ fun x => if p x = true then f x else x) = p := by
    funext x
    simp only [Function.comp]
    split
    · exact hf x
    · rfl
  rw [mapIf, List.find?_map, hp]
  refine Option.map_congr fun x hx => ?_
  rw [if_pos (List.find?_some hx)]

/-! ## Bins of age -/

theorem insertBy_length {α : Type} (f : α → Nat) (x : α) (l : List α) : (insertBy f x l).length = l.length + 1 := by
  induction l with
  | nil => rfl
  | cons y l ih =>
    simp only [insertBy]
    split <;> simp [ih]

theorem sortBy_length {α : Type} (f : α → Nat) (l : List α) : (sortBy f l).length = l.length := by
  have go : ∀ acc : List α, (l.foldl (fun acc x => insertBy f x acc) acc).length = acc.length + l.length := by
    induction l with
    | nil => simp
    | cons x l ih => intro acc; rw [List.foldl_cons, ih, insertBy_length, List.length_cons]; omega
  simpa [sortBy] using go []

/-- A bin fires once (R33): its lowest threads, at most 32, form a warp; with no more than 32 the bin is gone. -/
theorem State.fireBin_group {s : State} {gid : Nat} {key : Pc} {g : Group} {b : Bin} (hg : s.group gid = some g)
    (hb : (g.bins.find? fun b => b.key == key) = some b) :
    ∃ y w, (s.fireBin gid key).group gid = some y ∧ y.warps = g.warps ++ [w] ∧ w.kind = .normal ∧
      w.lanes = (((sortBy id (b.entries.map Prod.fst)).take 32).zipIdx.map fun p => (p.2, p.1)) ∧
      (b.entries.length ≤ 32 → ∀ x ∈ y.bins, x.key ≠ key) := by
  have hgid := State.group_gid hg
  simp only [State.fireBin, hg, hb, State.freshWin]
  rw [Group.foldl_rest _ _ fun g l => Group.modThread_rest g l.2 _]
  refine ⟨_, _, (by rw [← hgid]; exact State.group_putGroup_same _ _), rfl, rfl, rfl, fun hle => ?_⟩
  have hall : (b.entries.filter fun e => !((sortBy id (b.entries.map Prod.fst)).take 32).contains e.1) = [] := by
    rw [List.take_of_length_le (by rw [sortBy_length, List.length_map]; exact hle)]
    simp only [List.filter_eq_nil_iff, Bool.not_eq_true', Bool.not_eq_false, List.contains_iff_mem, mem_sortBy]
    exact fun e he => List.mem_map_of_mem he
  simp only [hall, if_true]
  intro x hx
  simpa using (List.mem_filter.mp hx).2

theorem State.fireBin_mem (s : State) (gid : Nat) (key : Pc) : (s.fireBin gid key).mem = s.mem := by
  unfold State.fireBin
  split
  · rfl
  · split <;> rfl

theorem exec_binAgeFire_aged {s : State} {gid : Nat} {key : Pc} {g : Group} {b : Bin} (hg : s.group gid = some g)
    (hb : (g.bins.find? fun b => b.key == key) = some b) (hr : g.isResident = true) (hage : b.earliest + 128 ≤ s.clockOf g) :
    exec (.binAgeFire gid key) s = .next (s.fireBin gid key) := by
  show execBinAgeFire gid key s = _
  simp [execBinAgeFire, hg, hb, hr, hage]

end Sys2Proof.Machine

/-!
SUPPORT. What the moves between resident and OUT do: the quantum timer, slots freed, the pass of R349, joins and leaves, replay stops.
-/
namespace Sys2Proof.Machine
open Sys2Proof

/-! ## The quantum timer -/

theorem State.settleTimer_rest (s : State) (die core : Nat) :
    s.settleTimer die core = { s with cores := (s.settleTimer die core).cores } := rfl

/-- The timer stands where no group of the core is resident and on a replay core, and else runs on or starts (R349, R360). -/
theorem State.settleTimer_core (s : State) (die core : Nat) :
    (s.settleTimer die core).core die core = { s.core die core with
      quantum := if s.anyResident die core = false ∨ (s.replayOn die core).isSome = true then none
        else (s.core die core).quantum.or (some (s.clock, s.quantumLength die core)) } := by
  simp [State.settleTimer, State.anyResident]

theorem State.settleTimers_rest (s : State) (cs : List (Nat × Nat)) :
    cs.foldl (fun s c => s.settleTimer c.1 c.2) s =
      { s with cores := (cs.foldl (fun s c => s.settleTimer c.1 c.2) s).cores } := by
  induction cs generalizing s with
  | nil => rfl
  | cons c cs ih => rw [List.foldl_cons, ih, State.settleTimer_rest]

/-- A core's quantum is that of the group resident longest (R349). -/
theorem State.quantumLength_of_first {s : State} {die core : Nat} {g : Group}
    (h : FirstOf (fun g => [g.since, g.moved, s.launchRank g.lid, g.ordinal]) g ((s.onCore die core).filter Group.isResident)) :
    s.quantumLength die core = microseconds (if g.quantum = 0 then 100 else g.quantum.toNat) := by
  have hl : leastLex s.ageKeys ((s.onCore die core).filter Group.isResident) = some g := h.leastLex
  simp only [State.quantumLength, hl, Group.quantumTime, beq_iff_eq]
  split <;> rfl

/-! ## Spent slots -/

/-- The state once a spent group's slot is free: the slot, the name-table entry and what stands of the group are given up
(R47, R48, R148). -/
def State.freed (s : State) (gid : Nat) (g : Group) : State :=
  let s1 := (s.releaseSlot g).modDie (nameDie g.name) fun d => { d with names := d.names.filter fun e => e.gid != gid }
  { s1 with
    groups := tdel s1.groups gid
    steps := s1.steps.filter fun r => r.gid != gid
    tileOps := s1.tileOps.filter fun o => o.gid != gid }.settleTimer g.place.die g.place.core

theorem exec_slotFree_spent {s : State} {gid : Nat} {g : Group} (hg : s.group gid = some g) (hs : s.spent g = true) :
    exec (.slotFree gid) s = .next (s.freed gid g) := by
  show execSlotFree gid s = _
  simp only [execSlotFree, hg, hs, Bool.not_true, Bool.false_eq_true, if_false]
  rfl

@[simp] theorem State.freed_groups (s : State) (gid : Nat) (g : Group) : (s.freed gid g).groups = tdel s.groups gid := rfl
@[simp] theorem State.freed_mem (s : State) (gid : Nat) (g : Group) : (s.freed gid g).mem = s.mem := rfl

theorem State.freed_group_other (s : State) (gid : Nat) (g : Group) (k : Nat) (hk : k ≠ gid) :
    (s.freed gid g).group k = s.group k := by
  simp only [State.group, State.freed_groups, tfind_tdel_other _ _ _ hk]

/-- The name table of the die that the name tells lists the group no more (R48). -/
theorem State.freed_names {s : State} {gid : Nat} {g : Group} {e : NameEntry}
    (he : e ∈ ((s.freed gid g).die (nameDie g.name)).names) : e.gid ≠ gid := by
  change e ∈ (((s.releaseSlot g).modDie (nameDie g.name) fun d =>
    { d with names := d.names.filter fun e => e.gid != gid }).die (nameDie g.name)).names at he
  rw [State.die_modDie_same] at he
  simpa using (List.mem_filter.mp he).2

/-- The core keeps when the slot was freed (R47). -/
theorem State.freed_freed (s : State) (gid : Nat) (g : Group) :
    tfind ((s.freed gid g).core g.place.die g.place.core).freed g.place.slot = some s.clock := by
  rw [State.freed, State.settleTimer_core]
  change tfind ((s.releaseSlot g).core g.place.die g.place.core).freed g.place.slot = _
  rw [State.releaseSlot, State.core_modCore_same]
  exact tfind_tput_same _ _ _

/-! ## Quanta and slices -/

theorem exec_quantumEnd_due {s : State} {die core : Nat} (h : s.quantumDue die core = true) :
    let q := (((s.core die core).quantum).map Prod.snd).getD (microseconds 100)
    let s1 := (s.rotate die core q 256 1).modCore die core fun c => { c with quantum := none }
    exec (.quantumEnd die core) s = .next ((s1.coresWith die core).foldl (fun s c => s.settleTimer c.1 c.2) s1) := by
  show execQuantumEnd die core s = _
  simp only [execQuantumEnd, h, Bool.not_true, Bool.false_eq_true, if_false]

/-- A slice is over after RQUANT retired instructions, or where one waits and none is resident (R360). -/
theorem State.sliceDue_iff (s : State) (l : Launch) (die core : Nat) :
    s.sliceDue l die core = true ↔ l.stopped = false ∧
      ((if l.header.rquant = 0 then 65536 else l.header.rquant.toNat) ≤ l.sliceRetired ∨
        s.anyResident die core = false ∧ s.waitingUnits die core ≠ []) := by
  simp only [State.sliceDue, State.anyResident, beq_iff_eq, Bool.and_eq_true, Bool.or_eq_true, decide_eq_true_eq, Bool.not_eq_true',
    bne_iff_ne, ne_eq]
  exact and_comm

theorem exec_replaySlice_due {s : State} {die core : Nat} {l : Launch} (hl : s.replayOn die core = some l)
    (h : s.sliceDue l die core = true) :
    exec (.replaySlice die core) s = .next
      ({ s with launches := s.launches.map fun (x : Launch) =>
          if x.lid = l.lid then { x with sliceRetired := 0 } else x }.rotate die core
        (if l.header.rquant = 0 then 65536 else l.header.rquant.toNat) 256 1) := by
  show execReplaySlice die core s = _
  simp only [execReplaySlice, hl, h, if_true, mapIf, decide_eq_true_eq, beq_iff_eq]

theorem exec_replaySlice_notDue {s : State} {die core : Nat} {l : Launch} (hl : s.replayOn die core = some l)
    (h : s.sliceDue l die core = false) : exec (.replaySlice die core) s = .next s := by
  show execReplaySlice die core s = _
  simp [execReplaySlice, hl, h]

/-- The pass ends where no group waits. -/
theorem State.rotate_noneWaiting {s : State} {die core : Nat} (h : s.waitingUnits die core = []) (q fuel k : Nat) :
    s.rotate die core q fuel k = s := by
  cases fuel with
  | zero => rfl
  | succ n => simp [State.rotate, h, leastLex]

/-- The resident groups that may give way to a waiting group (R349): of the cores of its unit that lack blocks, none of the unit
itself, of no higher priority, and resident for a quantum. -/
def State.GivesWay (s : State) (q : Nat) (w v : Group) : Prop :=
  v.isResident = true ∧ (∀ p ∈ s.gangOf w, p.gid ≠ v.gid) ∧ v.prio ≤ w.prio ∧ v.since + q ≤ s.clockOf v ∧
    ∃ p ∈ s.gangOf w, v ∈ s.onCore p.place.die p.place.core ∧
      (s.core p.place.die p.place.core).freeBlocks.length < p.blocksNeeded

/-- The groups that a step of the pass chooses the victim from. -/
def State.victims (s : State) (q : Nat) (w : Group) : List Group :=
  (((s.gangOf w).filter fun p => (s.core p.place.die p.place.core).freeBlocks.length < p.blocksNeeded).flatMap fun p =>
    s.onCore p.place.die p.place.core).filter fun v =>
      v.isResident && !((s.gangOf w).any fun p => p.gid = v.gid) && v.prio ≤ w.prio && v.since + q ≤ s.clockOf v

theorem State.mem_victims (s : State) (q : Nat) (w v : Group) : v ∈ s.victims q w ↔ s.GivesWay q w v := by
  simp only [State.victims, State.GivesWay, List.mem_filter, List.mem_flatMap, decide_eq_true_eq, Bool.and_eq_true,
    Bool.not_eq_true', List.any_eq_false, ne_eq]
  constructor
  · rintro ⟨⟨p, ⟨hp, hs⟩, hv⟩, ⟨⟨hr, hu⟩, hpr⟩, hq⟩
    exact ⟨hr, hu, hpr, hq, p, hp, hv, hs⟩
  · rintro ⟨hr, hu, hpr, hq, p, hp, hv, hs⟩
    exact ⟨⟨p, ⟨hp, hs⟩, hv⟩, ⟨⟨hr, hu⟩, hpr⟩, hq⟩

section
variable {s : State} {die core : Nat} {w : Group} (hw : FirstOf s.waitKeys w (s.waitingUnits die core))
include hw

/-- The first waiting group's unit joins its cores where free blocks hold it. -/
theorem State.rotate_fits (hf : s.unitFits (s.gangOf w) = true) (q fuel k : Nat) :
    s.rotate die core q (fuel + 1) k =
      ((s.gangOf w).foldl (fun s p => s.joinCore p.gid k) s).rotate die core q fuel (k + 1) := by
  have hl : Machine.leastLex (fun g => (3 - g.prio) :: s.ageKeys g) (s.waitingUnits die core) = some w := hw.leastLex
  simp only [State.rotate, hl, hf, if_true]

/-- Where blocks lack, the pass takes the first victim's unit from its cores, and ends where there is none. -/
theorem State.rotate_short (hf : s.unitFits (s.gangOf w) = false) (q fuel k : Nat) :
    s.rotate die core q (fuel + 1) k = match Machine.leastLex s.victimKeys (s.victims q w) with
      | none => s
      | some v => ((s.gangOf v).foldl (fun s p => s.leaveCore p.gid k false) s).rotate die core q fuel (k + 1) := by
  have hl : Machine.leastLex (fun g => (3 - g.prio) :: s.ageKeys g) (s.waitingUnits die core) = some w := hw.leastLex
  simp only [State.rotate, hl, hf, Bool.false_eq_true, if_false]
  rfl

theorem State.rotate_noVictim (hf : s.unitFits (s.gangOf w) = false) {q : Nat} (hn : ∀ v, ¬s.GivesWay q w v) (fuel k : Nat) :
    s.rotate die core q (fuel + 1) k = s := by
  have hv : s.victims q w = [] := List.eq_nil_iff_forall_not_mem.mpr fun v hm => hn v ((s.mem_victims q w v).mp hm)
  rw [State.rotate_short hw hf, hv]
  rfl

theorem State.rotate_victim (hf : s.unitFits (s.gangOf w) = false) {q : Nat} {v : Group} (hv : s.GivesWay q w v)
    (hfirst : ∀ u, s.GivesWay q w u → u ≠ v → lexLess (s.victimKeys v) (s.victimKeys u) = true) (fuel k : Nat) :
    s.rotate die core q (fuel + 1) k =
      ((s.gangOf v).foldl (fun s p => s.leaveCore p.gid k false) s).rotate die core q fuel (k + 1) := by
  have hl : Machine.leastLex s.victimKeys (s.victims q w) = some v :=
    leastLex_of_first ((s.mem_victims q w v).mpr hv) fun u hu hne => hfirst u ((s.mem_victims q w u).mp hu) hne
  rw [State.rotate_short hw hf, hl]

end

/-! ## Joining and leaving a core -/

@[simp] theorem State.core_putGroup (s : State) (g : Group) (die core : Nat) : (s.putGroup g).core die core = s.core die core := rfl

theorem State.touches_rest (s : State) (die : Nat) (cs : List Nat) :
    cs.foldl (fun s c => s.touch c die) s = { s with mem := (cs.foldl (fun s c => s.touch c die) s).mem } := by
  induction cs generalizing s with
  | nil => rfl
  | cons c cs ih => rw [List.foldl_cons, ih, State.touch_rest]

theorem State.touches_memory (s : State) (die : Nat) (cs : List Nat) :
    MemoryKept s (cs.foldl (fun s c => s.touch c die) s) := by
  induction cs generalizing s with
  | nil => exact fun _ _ => rfl
  | cons c cs ih => exact (s.touch_memory c die).trans (ih _)

/-- The group as it is once it has joined its core with `free` free blocks, at the count `now` (R33, R347). -/
def Group.joined (g : Group) (now k : Nat) (free : List Nat) : Group :=
  { g with residency := .resident now, moved := k, blocks := free.take g.blocksNeeded
           bins := g.bins.map fun b => { b with entries := b.entries.map fun e => (e.1, e.2 + (now - max g.since e.2)) } }

/-- A join takes the lowest free blocks for the group and records the die in its contexts' masks; nothing else changes. -/
theorem State.joinCore_eq {s : State} {gid : Nat} {g : Group} (hg : s.group gid = some g) (k : Nat) :
    ∃ m, MemoryKept s { s with mem := m } ∧ s.joinCore gid k =
      ({ s with mem := m }.modCore g.place.die g.place.core fun c =>
        { c with freeBlocks := c.freeBlocks.drop g.blocksNeeded }).putGroup
          (g.joined (s.clockOf g) k (s.core g.place.die g.place.core).freeBlocks) := by
  refine ⟨(g.contexts.foldl (fun s c => State.touch s c g.place.die) s).mem, s.touches_memory g.place.die g.contexts, ?_⟩
  simp only [State.joinCore, hg]
  rw [State.touches_rest]
  rfl

theorem State.joinCore_none {s : State} {gid : Nat} (hg : s.group gid = none) (k : Nat) : s.joinCore gid k = s := by
  simp only [State.joinCore, hg]

/-- The group that joins is resident with its blocks. -/
theorem State.joinCore_group {s : State} {gid : Nat} {g : Group} (hg : s.group gid = some g) (k : Nat) :
    (s.joinCore gid k).group gid = some (g.joined (s.clockOf g) k (s.core g.place.die g.place.core).freeBlocks) := by
  obtain rfl := State.group_gid hg
  obtain ⟨m, _, he⟩ := State.joinCore_eq hg k
  rw [he]
  exact State.group_putGroup_same _ _

theorem State.joinCore_group_other (s : State) (gid k h : Nat) (hh : h ≠ gid) : (s.joinCore gid k).group h = s.group h := by
  cases hg : s.group gid with
  | none => rw [State.joinCore_none hg]
  | some g =>
    obtain rfl := State.group_gid hg
    obtain ⟨m, _, he⟩ := State.joinCore_eq hg k
    rw [he]
    exact State.group_putGroup_other _ _ h hh

theorem State.joinCore_freeBlocks {s : State} {gid : Nat} {g : Group} (hg : s.group gid = some g) (k : Nat) :
    ((s.joinCore gid k).core g.place.die g.place.core).freeBlocks =
      (s.core g.place.die g.place.core).freeBlocks.drop g.blocksNeeded := by
  obtain ⟨m, _, he⟩ := State.joinCore_eq hg k
  simp only [he, State.core_putGroup, State.core_modCore_same]
  rfl

theorem State.joinCore_memory {s : State} {gid : Nat} {g : Group} (hg : s.group gid = some g) (k : Nat) :
    MemoryKept s (s.joinCore gid k) := by
  obtain ⟨m, hm, he⟩ := State.joinCore_eq hg k
  rw [he]
  exact hm

theorem State.leaveCore_resident {s : State} {gid : Nat} {g : Group} {since : Nat} (hg : s.group gid = some g)
    (hr : g.residency = .resident since) (k : Nat) (held : Bool) :
    s.leaveCore gid k held = (s.modCore g.place.die g.place.core fun c =>
      { c with freeBlocks := sortBy id (c.freeBlocks ++ g.blocks) }).putGroup
        { g with residency := .out (s.clockOf g) held, moved := k, blocks := [] } := by
  simp only [State.leaveCore, hg, hr]
  rfl

/-- A group that leaves its core gives its blocks back and is OUT (R344, R349). -/
theorem State.leaveCore_leaves {s : State} {gid : Nat} {g : Group} {since : Nat} (hg : s.group gid = some g)
    (hr : g.residency = .resident since) (k : Nat) (held : Bool) :
    let T := s.leaveCore gid k held
    T.group gid = some { g with residency := .out (s.clockOf g) held, moved := k, blocks := [] } ∧
    (T.core g.place.die g.place.core).freeBlocks = sortBy id ((s.core g.place.die g.place.core).freeBlocks ++ g.blocks) ∧
    (∀ h, h ≠ gid → T.group h = s.group h) ∧ T.mem = s.mem := by
  obtain rfl := State.group_gid hg
  rw [State.leaveCore_resident hg hr]
  refine ⟨State.group_putGroup_same _ _, ?_, fun h hh => State.group_putGroup_other _ _ h hh, rfl⟩
  rw [State.core_putGroup, State.core_modCore_same]

theorem State.leaveCore_rest (s : State) (gid k : Nat) (held : Bool) :
    s.leaveCore gid k held = { s with cores := (s.leaveCore gid k held).cores, groups := (s.leaveCore gid k held).groups } := by
  unfold State.leaveCore
  split
  · rfl
  · split <;> rfl

/-! ## Replay stops -/

/-- A replay launch's record at its stop (R420): where its groups' registers were, and no key behind it. -/
def Launch.stop (s : State) (lid : Nat) (l : Launch) : Launch :=
  let mine := (s.groups.map Prod.snd).filter fun g => g.control.isNone && g.lid = lid
  { l with stopped := true, lastKey := 0, restored := [], target := none
           before := mine.map fun g => (g.ordinal, g.residency, g.moved) }

/-- The groups of a launch that a `ctxsv` has named leave the core (R420). -/
def State.leaveSaved (s : State) (lid : Nat) (rs : List SaveRequest) : State :=
  rs.foldl (fun s r => match s.group r.gid with
    | some g => if !r.load && g.control.isNone && g.lid = lid then s.leaveCore g.gid 0 true else s
    | none => s) s

theorem State.leaveSaved_rest (s : State) (lid : Nat) (rs : List SaveRequest) :
    s.leaveSaved lid rs = { s with cores := (s.leaveSaved lid rs).cores, groups := (s.leaveSaved lid rs).groups } := by
  induction rs generalizing s with
  | nil => rfl
  | cons r rs ih =>
    simp only [State.leaveSaved, List.foldl_cons]
    split
    · split
      · exact (ih _).trans (by rw [State.leaveCore_rest]; rfl)
      · exact ih s
    · exact ih s

theorem exec_replayStop_due {s : State} {lid : Nat} {l : Launch} {die core : Nat}
    (hl : (s.launches.find? fun l => l.lid = lid) = some l) (hc : l.onCore = some (die, core))
    (hd : s.stopDue l die core = true) :
    exec (.replayStop lid) s = .next
      ({ s with launches := mapIf (fun x => x.lid = lid) (Launch.stop s lid) s.launches }.leaveSaved lid s.saves) := by
  show execReplayStop lid s = _
  simp only [execReplayStop, hl, hc, hd, Bool.not_true, Bool.false_eq_true, if_false]
  rfl

end Sys2Proof.Machine

/-!
SUPPORT. What an admission does: a kernel thread as it begins, one group, a run of groups, and which of them are resident at once.
-/
namespace Sys2Proof.Machine
open Sys2Proof

/-! ## A kernel thread as it begins -/

/-- A run of entries set from key k on leaves every other key as it was. -/
theorem tget_foldl_zipIdx_other {β : Type} [DecidableEq β] (d : β) (ws : List β) (k r : Nat) (m : Table β)
    (hr : r < k ∨ k + ws.length ≤ r) : tget d ((ws.zipIdx k).foldl (fun m p => tset d m p.2 p.1) m) r = tget d m r := by
  induction ws generalizing k m with
  | nil => rfl
  | cons w ws ih =>
    rw [List.length_cons] at hr
    rw [List.zipIdx_cons, List.foldl_cons, ih (k + 1) _ (by omega), tget_tset_other _ _ _ _ _ _ (by omega)]

/-- A run of entries set from key k on is read back. -/
theorem tget_foldl_zipIdx_same {β : Type} [DecidableEq β] (d : β) (ws : List β) (k i : Nat) (m : Table β) (w : β)
    (h : ws[i]? = some w) : tget d ((ws.zipIdx k).foldl (fun m p => tset d m p.2 p.1) m) (k + i) = w := by
  induction ws generalizing k i m with
  | nil => simp at h
  | cons v ws ih =>
    rw [List.zipIdx_cons, List.foldl_cons]
    cases i with
    | zero =>
      obtain rfl : v = w := by simpa using h
      exact (tget_foldl_zipIdx_other d ws (k + 1) k _ (.inl (Nat.lt_succ_self k))).trans (tget_tset_same d m k v)
    | succ i => rw [← ih (k + 1) i (tset d m k v) (by simpa using h), Nat.add_right_comm, Nat.add_assoc]

/-- The registers that a kernel thread begins with, by number: PARAM and its work identifier, as far as its allocation goes (R64). -/
def Thread.firstWords (budget : Nat) (param wid : Dword) : List Word :=
  [param.extractLsb' 0 32, param.extractLsb' 32 32, wid.extractLsb' 0 32, wid.extractLsb' 32 32].take budget

theorem Thread.fresh_regs (g : Group) (h : Header) (ctx polder t lane : Nat) :
    let x := Thread.fresh g h ctx polder t lane
    x.regs = (Thread.firstWords g.budget h.param x.wid).zipIdx.foldl (fun m p => tset 0 m p.2 p.1) [] := rfl

section
variable {x : Thread} {budget : Nat} {param : Dword}
  (hx : x.regs = (Thread.firstWords budget param x.wid).zipIdx.foldl (fun m p => tset 0 m p.2 p.1) [])
include hx

theorem Thread.reg_high_of_firstWords {r : Nat} (hr : 4 ≤ r) : x.reg r = 0 := by
  rw [Thread.reg, hx]
  refine (tget_foldl_zipIdx_other 0 _ 0 r [] (.inr ?_)).trans rfl
  rw [Thread.firstWords, List.length_take, List.length_cons, List.length_cons, List.length_cons, List.length_cons, List.length_nil]
  omega

/-- With an allocation of four registers PARAM and the work identifier stand in v0 and v2. -/
theorem Thread.pairs_of_firstWords (hb : 4 ≤ budget) : x.pair 0 = param ∧ x.pair 2 = x.wid := by
  have hw : ∀ v : Dword, v.extractLsb' 32 32 ++ v.extractLsb' 0 32 = v := fun v => append_extractLsb' (n := 32) (m := 32) v
  have hreg : ∀ i w, (Thread.firstWords budget param x.wid)[i]? = some w → x.reg i = w := fun i w hi => by
    rw [Thread.reg, hx, ← Nat.zero_add i]
    exact tget_foldl_zipIdx_same 0 _ 0 i [] w hi
  rw [Thread.firstWords, List.take_of_length_le hb] at hreg
  exact ⟨by rw [Thread.pair, hreg 0 _ rfl, hreg (0 + 1) _ rfl, hw], by rw [Thread.pair, hreg 2 _ rfl, hreg (2 + 1) _ rfl, hw]⟩

end

/-- A table of consecutive keys answers each. -/
theorem tfind_map_range' {β : Type} (f : Nat → β) (n k i : Nat) (hk : k ≤ i) (hi : i < k + n) :
    tfind ((List.range' k n).map fun t => (t, f t)) i = some (f i) := by
  induction n generalizing k with
  | zero => omega
  | succ n ih =>
    simp only [List.range'_succ, List.map_cons, tfind]
    by_cases h : i = k
    · simp [h]
    · rw [if_neg (by omega), if_neg h]
      exact ih (k + 1) (by omega) (by omega)

theorem tfind_map_range {β : Type} (f : Nat → β) (n i : Nat) (hi : i < n) :
    tfind ((List.range n).map fun t => (t, f t)) i = some (f i) := by
  rw [List.range_eq_range']
  exact tfind_map_range' f n 0 i (Nat.zero_le i) (by omega)

/-! ## Admission of one group -/

theorem State.countFiltereds_rest {α : Type} (s : State) (l : List α) :
    l.foldl (fun s _ => s.countFiltered) s = { s with regs := (l.foldl (fun s _ => State.countFiltered s) s).regs } := by
  induction l generalizing s with
  | nil => rfl
  | cons a l ih => rw [List.foldl_cons, ih]; rfl

/-- A die's acquire step changes dies and the count of filtered packets only. -/
theorem State.acquireStep_rest (s : State) (die : Nat) :
    s.acquireStep die = { s with regs := (s.acquireStep die).regs, dies := (s.acquireStep die).dies } := by
  simp only [State.acquireStep]
  rw [State.countFiltereds_rest]
  rfl

/-- A change of a core that keeps its free blocks keeps every core's. -/
theorem State.freeBlocks_modCore (s : State) (d c : Nat) {f : Core → Core} (hf : ∀ x, (f x).freeBlocks = x.freeBlocks)
    (die core : Nat) : ((s.modCore d c f).core die core).freeBlocks = (s.core die core).freeBlocks := by
  by_cases h : coreKey die core = coreKey d c
  · have hk : ∀ T : State, T.core die core = T.core d c := fun T => by simp only [State.core, h]
    rw [hk, hk s, State.core_modCore_same, hf]
  · rw [State.core_modCore_other _ _ _ _ _ _ h]

/-- A launch's record once a group of it has been admitted to a place. -/
def Launch.withGroup (l : Launch) (p : Place) (x : Launch) : Launch :=
  { x with admitted := l.admitted + 1, phase := .started,
           dies := if x.dies.contains p.die then x.dies else x.dies ++ [p.die],
           onCore := if l.header.isReplay then some (p.die, p.core) else none }

/-- What a group is that launch l has admitted to place p in state s (R14, R64, R344): its threads stand at the entry, and it is OUT. -/
structure Group.AdmittedAs (s : State) (l : Launch) (p : Place) (y : Group) : Prop where
  gid : y.gid = s.next.gid
  place : y.place = p
  lid : y.lid = l.lid
  ordinal : y.ordinal = l.admitted
  ctl : y.ctl = l.header.ctl
  nthr : y.nthr = l.header.threads
  budget : y.budget = l.budget
  scratch : y.scratch = []
  scratchSize : y.scratchSize = l.header.scratch
  residency : ∃ n, y.residency = .out n false
  threads : ∃ g : Group, g.base = l.header.base ∧ g.ordinal = l.admitted ∧ g.nthr = l.header.threads ∧ g.budget = l.budget ∧
    y.threads = (List.range l.header.threads).map fun t => (t, Thread.fresh g l.header l.ctx l.polder t (t % 32))

/-- What the admission of a group does to the groups, the launches and the next number. -/
theorem State.admitGroup_spec (s : State) (l : Launch) (p : Place) :
    let T := s.admitGroup l p
    (∃ y, Group.AdmittedAs s l p y ∧ T.groups = tput s.groups s.next.gid y) ∧
    T.launches = mapIf (fun x => x.lid = l.lid) (l.withGroup p) s.launches ∧ T.next.gid = s.next.gid + 1 := by
  simp only [State.admitGroup, State.takeSlot, State.nameGroup, State.advanceGen]
  rw [State.acquireStep_rest, State.touch_rest]
  exact ⟨⟨_, ⟨rfl, rfl, rfl, rfl, rfl, rfl, rfl, rfl, rfl, ⟨_, rfl⟩, ⟨_, rfl, rfl, rfl, rfl, rfl⟩⟩, rfl⟩, rfl, rfl⟩

/-- Of a core, an admission takes granules and tiles and advances a generation; it takes no register blocks (R47, R348). -/
theorem State.admitGroup_cores (s : State) (l : Launch) (p : Place) :
    ∃ n t gen, (s.admitGroup l p).cores = ((s.modCore p.die p.core fun c =>
      { c with freeGranules := c.freeGranules.drop n, freeTiles := c.freeTiles.drop t }).modCore p.die p.core fun c =>
        { c with gens := tset 0 c.gens p.slot gen }).cores := by
  simp only [State.admitGroup, State.takeSlot, State.nameGroup, State.advanceGen]
  rw [State.acquireStep_rest, State.touch_rest]
  exact ⟨_, _, _, rfl⟩

theorem State.admitGroup_freeBlocks (s : State) (l : Launch) (p : Place) (die core : Nat) :
    ((s.admitGroup l p).core die core).freeBlocks = (s.core die core).freeBlocks := by
  obtain ⟨n, t, gen, h⟩ := s.admitGroup_cores l p
  rw [State.core, h, ← State.core, State.freeBlocks_modCore, State.freeBlocks_modCore] <;> exact fun _ => rfl

theorem Group.set_gid {y : Group} {k : Nat} (h : y.gid = k) : { y with gid := k } = y := by subst h; rfl

theorem State.admitGroup_group (s : State) (l : Launch) (p : Place) :
    ∃ y, (s.admitGroup l p).group s.next.gid = some y ∧ Group.AdmittedAs s l p y := by
  obtain ⟨⟨y, hy, hg⟩, _⟩ := s.admitGroup_spec l p
  refine ⟨y, ?_, hy⟩
  rw [State.group, hg, tfind_tput_same]
  exact congrArg some (Group.set_gid hy.gid)

theorem State.admitGroup_group_other (s : State) (l : Launch) (p : Place) (gid : Nat) (h : gid ≠ s.next.gid) :
    (s.admitGroup l p).group gid = s.group gid := by
  obtain ⟨⟨y, _, hg⟩, _⟩ := s.admitGroup_spec l p
  simp only [State.group, hg, tfind_tput_other _ _ _ _ h]

theorem State.admitGroup_launches (s : State) (l : Launch) (p : Place) :
    (s.admitGroup l p).launches = mapIf (fun x => x.lid = l.lid) (l.withGroup p) s.launches := by
  obtain ⟨_, hlaunches, _⟩ := s.admitGroup_spec l p
  exact hlaunches

theorem State.admitGroup_next (s : State) (l : Launch) (p : Place) : (s.admitGroup l p).next.gid = s.next.gid + 1 := by
  obtain ⟨_, _, hnext⟩ := s.admitGroup_spec l p
  exact hnext

/-- A thread of an admitted group stands ready at the instruction after the entry word, with its work identifier (R14, R19, R64, R319). -/
theorem Group.AdmittedAs.thread {s : State} {l : Launch} {p : Place} {y : Group} (h : y.AdmittedAs s l p) {t : Nat}
    (ht : t < l.header.threads) :
    ∃ x, y.thread t = some x ∧ x.state = .ready ∧ x.pc = l.header.entry.extractLsb' 0 56 + 4 ∧
      x.wid = l.header.base + BitVec.ofNat 64 (l.admitted * l.header.threads + t) ∧ x.pl = 0 ∧ x.sb = [] ∧ x.ops = [] ∧
      (∀ r, x.isFull r = true ∧ (4 ≤ r → x.reg r = 0)) ∧ (4 ≤ l.budget → x.pair 0 = l.header.param ∧ x.pair 2 = x.wid) := by
  obtain ⟨g, hbase, hord, hnthr, hbudget, hths⟩ := h.threads
  have hregs := Thread.fresh_regs g l.header l.ctx l.polder t (t % 32)
  rw [hbudget] at hregs
  refine ⟨Thread.fresh g l.header l.ctx l.polder t (t % 32), ?_, rfl, rfl, ?_, rfl, rfl, rfl,
    fun r => ⟨rfl, Thread.reg_high_of_firstWords hregs⟩, Thread.pairs_of_firstWords hregs⟩
  · simp only [Group.thread, hths, tfind_map_range _ _ _ ht, Option.map_some]
    rfl
  · simp only [Thread.fresh, hbase, hord, hnthr]

/-! ## Admission of a run of groups -/

/-- Groups of a launch admitted to places one after another. -/
def State.admitPlaces (s : State) (lid : Nat) (ps : List Place) : State :=
  ps.foldl (fun s p => match s.launches.find? fun x => x.lid = lid with
    | some l => s.admitGroup l p
    | none => s) s

/-- The run numbers its groups from the next number on, in ascending ordinal, and touches no other group (R345). -/
theorem State.admitPlaces_spec (s : State) (lid : Nat) (ps : List Place) (l : Launch)
    (hl : (s.launches.find? fun x => x.lid = lid) = some l) :
    let T := s.admitPlaces lid ps
    (∀ (i : Nat) p, ps[i]? = some p → ∃ y, T.group (s.next.gid + i) = some y ∧ y.place = p ∧ y.lid = lid ∧
      y.ordinal = l.admitted + i) ∧
    (∀ gid, gid < s.next.gid ∨ s.next.gid + ps.length ≤ gid → T.group gid = s.group gid) ∧
    (ps ≠ [] → ∀ x ∈ T.launches, x.lid = lid → x.admitted = l.admitted + ps.length ∧ x.phase = .started) := by
  induction ps generalizing s l with
  | nil => exact ⟨fun i p h => by simp at h, fun _ _ => rfl, fun h => absurd rfl h⟩
  | cons p ps ih =>
    obtain rfl : l.lid = lid := by simpa using List.find?_some hl
    have hstep : s.admitPlaces l.lid (p :: ps) = (s.admitGroup l p).admitPlaces l.lid ps := by
      simp only [State.admitPlaces, List.foldl_cons, hl]
    have hl1 : ((s.admitGroup l p).launches.find? fun x => x.lid = l.lid) = some (l.withGroup p l) := by
      rw [State.admitGroup_launches, find?_mapIf (f := l.withGroup p) (fun _ => rfl), hl, Option.map_some]
    obtain ⟨hgroups, hothers, hlaunches⟩ := ih (s.admitGroup l p) _ hl1
    rw [State.admitGroup_next] at hgroups hothers
    simp only [hstep, List.length_cons]
    refine ⟨fun i q hi => ?_, fun gid hgid => ?_, fun _ x hx hlid => ?_⟩
    · cases i with
      | zero =>
        obtain rfl : p = q := by simpa using hi
        obtain ⟨y, hy, ha⟩ := s.admitGroup_group l p
        exact ⟨y, (hothers _ (.inl (Nat.lt_succ_self _))).trans hy, ha.place, ha.lid, ha.ordinal⟩
      | succ i =>
        obtain ⟨y, hy, hp, hlid, hord⟩ := hgroups i q (by simpa using hi)
        exact ⟨y, by rw [← hy, Nat.add_right_comm, Nat.add_assoc], hp, hlid, hord.trans (by show l.admitted + 1 + i = _; omega)⟩
    · rw [hothers gid (by omega), State.admitGroup_group_other _ _ _ _ (by omega)]
    · by_cases hps : ps = []
      · subst hps
        rw [show (s.admitGroup l p).admitPlaces l.lid [] = s.admitGroup l p from rfl, State.admitGroup_launches] at hx
        obtain ⟨y, _, _, rfl⟩ := of_mem_mapIf hx (decide_eq_true hlid)
        exact ⟨rfl, rfl⟩
      · obtain ⟨ha, hp⟩ := hlaunches hps x hx hlid
        exact ⟨ha.trans (by show l.admitted + 1 + ps.length = _; omega), hp⟩

/-- `T` is `s` but for joins of groups of a list: launches stand, every other group is as before, and those of the list keep
their place in their launch. -/
structure State.JoinsOf (gids : List Nat) (s T : State) : Prop where
  launches : T.launches = s.launches
  others : ∀ gid, gid ∉ gids → T.group gid = s.group gid
  kept : ∀ gid g, s.group gid = some g → ∃ y, T.group gid = some y ∧ y.place = g.place ∧ y.lid = g.lid ∧ y.ordinal = g.ordinal

theorem State.JoinsOf.refl (gids : List Nat) (s : State) : State.JoinsOf gids s s :=
  ⟨rfl, fun _ _ => rfl, fun _ g h => ⟨g, h, rfl, rfl, rfl⟩⟩

theorem State.JoinsOf.trans {gids : List Nat} {a b c : State} (h : State.JoinsOf gids a b) (k : State.JoinsOf gids b c) :
    State.JoinsOf gids a c := by
  refine ⟨k.launches.trans h.launches, fun gid hg => (k.others gid hg).trans (h.others gid hg), fun gid g hg => ?_⟩
  obtain ⟨y, hy, hp, hl, ho⟩ := h.kept gid g hg
  obtain ⟨z, hz, hp', hl', ho'⟩ := k.kept gid y hy
  exact ⟨z, hz, hp'.trans hp, hl'.trans hl, ho'.trans ho⟩

/-- A fold of steps each of which joins groups of the list joins groups of the list. -/
theorem State.JoinsOf.foldl {α : Type} {gids : List Nat} {f : State → α → State} {xs : List α}
    (hf : ∀ x ∈ xs, ∀ s, State.JoinsOf gids s (f s x)) (s : State) : State.JoinsOf gids s (xs.foldl f s) := by
  induction xs generalizing s with
  | nil => exact .refl gids s
  | cons x xs ih =>
    exact (hf x List.mem_cons_self s).trans (ih (fun y hy => hf y (List.mem_cons_of_mem _ hy)) (f s x))

theorem State.joinCore_joinsOf {gids : List Nat} {gid : Nat} (hm : gid ∈ gids) (s : State) (k : Nat) :
    State.JoinsOf gids s (s.joinCore gid k) := by
  cases hg : s.group gid with
  | none => rw [State.joinCore_none hg]; exact .refl gids s
  | some g =>
    refine ⟨?_, fun h hh => s.joinCore_group_other gid k h fun e => hh (e ▸ hm), fun h y hy => ?_⟩
    · obtain ⟨m, _, he⟩ := State.joinCore_eq hg k
      rw [he]; rfl
    · by_cases e : h = gid
      · subst e
        obtain rfl : g = y := Option.some.inj (hg.symm.trans hy)
        exact ⟨_, State.joinCore_group hg k, rfl, rfl, rfl⟩
      · exact ⟨y, (s.joinCore_group_other gid k h e).trans hy, rfl, rfl, rfl⟩

/-- The groups that the admission makes resident are among those just admitted (R345). -/
theorem State.joinNew_joinsOf (s : State) (gids : List Nat) : State.JoinsOf gids s (s.joinNew gids) := by
  refine State.JoinsOf.foldl (fun gid _ s => ?_) s
  split
  · exact .refl gids s
  · next g _ =>
    dsimp only
    split
    · next hc =>
      simp only [Bool.and_eq_true, List.all_eq_true, List.contains_iff_mem] at hc
      obtain ⟨⟨_, hin⟩, _⟩ := hc
      exact State.JoinsOf.foldl (fun p hp s => State.joinCore_joinsOf (hin p hp) s 0) s
    · exact .refl gids s

theorem State.admitAll_eq (s : State) (lid : Nat) (ps : List Place) :
    s.admitAll lid ps = ((ps.map fun p => (p.die, p.core)).eraseDups).foldl (fun s c => s.settleTimer c.1 c.2)
      ((s.admitPlaces lid ps).joinNew ((List.range ps.length).map fun i => s.next.gid + i)) := rfl

/-- Groups admitted to places stand there, in ascending ordinal, and no other group changes. -/
theorem State.admitAll_spec {s : State} {lid : Nat} {l : Launch} (hl : (s.launches.find? fun x => x.lid = lid) = some l)
    (ps : List Place) (hne : ps ≠ []) :
    let T := s.admitAll lid ps
    (∀ (i : Nat) p, ps[i]? = some p → ∃ y, T.group (s.next.gid + i) = some y ∧ y.place = p ∧ y.lid = lid ∧
      y.ordinal = l.admitted + i) ∧
    (∀ gid, gid < s.next.gid ∨ s.next.gid + ps.length ≤ gid → T.group gid = s.group gid) ∧
    ∀ x ∈ T.launches, x.lid = lid → x.admitted = l.admitted + ps.length ∧ x.phase = .started := by
  obtain ⟨hgroups, hothers, hlaunches⟩ := s.admitPlaces_spec lid ps l hl
  have hj := (s.admitPlaces lid ps).joinNew_joinsOf ((List.range ps.length).map fun i => s.next.gid + i)
  intro T
  have hgroup : ∀ gid, T.group gid =
      ((s.admitPlaces lid ps).joinNew ((List.range ps.length).map fun i => s.next.gid + i)).group gid := by
    intro gid
    simp only [T, State.admitAll_eq]
    rw [State.settleTimers_rest]
    rfl
  refine ⟨fun i p hi => ?_, fun gid hgid => ?_, ?_⟩
  · obtain ⟨y, hy, hp, hlid, hord⟩ := hgroups i p hi
    obtain ⟨z, hz, hp', hlid', hord'⟩ := hj.kept _ y hy
    exact ⟨z, (hgroup _).trans hz, hp'.trans hp, hlid'.trans hlid, hord'.trans hord⟩
  · rw [hgroup, hj.others gid, hothers gid hgid]
    simp only [List.mem_map, List.mem_range, not_exists, not_and]
    omega
  · simp only [T, State.admitAll_eq]
    rw [State.settleTimers_rest]
    show ∀ x ∈ State.launches _, _
    rw [hj.launches]
    exact hlaunches hne

/-- A single group outside a gang is resident at once where free blocks hold it, and else begins OUT (R345). -/
theorem State.admitAll_single {s : State} {lid : Nat} {l : Launch} (hl : (s.launches.find? fun x => x.lid = lid) = some l)
    (p : Place) (hgang : l.header.isGang = false) :
    ∃ y n, (s.admitAll lid [p]).group s.next.gid = some y ∧
      let need := (l.header.threads * l.budget + 8191) / 8192
      let free := (s.core p.die p.core).freeBlocks
      if need ≤ free.length then y.residency = .resident n ∧ y.blocks = free.take need else y.residency = .out n false := by
  obtain ⟨y, hy, ha⟩ := s.admitGroup_group l p
  have hgroup : (s.admitAll lid [p]).group s.next.gid = ((s.admitGroup l p).joinNew [s.next.gid]).group s.next.gid := by
    rw [State.admitAll_eq, State.settleTimers_rest]
    simp only [State.admitPlaces, List.foldl_cons, List.foldl_nil, hl]
    rfl
  obtain ⟨n, hout⟩ := ha.residency
  have hunit : (s.admitGroup l p).gangOf y = [y] := by
    have hg : y.ganged = false := by rw [Group.ganged, ha.ctl]; exact hgang
    simp [State.gangOf, hg]
  have hfree : ((s.admitGroup l p).core y.place.die y.place.core).freeBlocks = (s.core p.die p.core).freeBlocks := by
    rw [ha.place, State.admitGroup_freeBlocks]
  have hneed : y.blocksNeeded = (l.header.threads * l.budget + 8191) / 8192 := by
    rw [Group.blocksNeeded, blocksFor, ha.nthr, ha.budget]
  have hfits : (s.admitGroup l p).unitFits [y] =
      decide ((l.header.threads * l.budget + 8191) / 8192 ≤ (s.core p.die p.core).freeBlocks.length) := by
    simp [State.unitFits, hfree, hneed]
  have hjoin : (s.admitGroup l p).joinNew [s.next.gid] =
      if (l.header.threads * l.budget + 8191) / 8192 ≤ (s.core p.die p.core).freeBlocks.length
      then (s.admitGroup l p).joinCore s.next.gid 0 else s.admitGroup l p := by
    simp [State.joinNew, hy, hunit, hfits, Group.isOut, hout, ha.gid]
  rw [hgroup, hjoin]
  split
  · next hle =>
    rw [State.joinCore_group hy]
    exact ⟨_, _, rfl, by simp only [hle, if_true]; exact ⟨rfl, by rw [← hneed, ← hfree]; rfl⟩⟩
  · next hlt => exact ⟨y, n, hy, by simp only [hlt, if_false]; exact hout⟩

theorem exec_launchStart_admits {s : State} {lid : Nat} {l : Launch} {places : List Place}
    (hl : (s.launches.find? fun l => l.lid = lid) = some l) (hm : s.mayAdmit l = true) (hs : l.header.isStream = false)
    (hp : s.placesOk l l.header.groups places = true) : exec (.launchStart lid places) s = .next (s.admitAll lid places) := by
  show execLaunchStart lid places s = _
  simp [execLaunchStart, hl, hm, hs, hp]

theorem exec_streamAdmit_admits {s : State} {lid : Nat} {l : Launch} {places : List Place}
    (hl : (s.launches.find? fun l => l.lid = lid) = some l) (hm : s.mayAdmit l = true) (hs : l.header.isStream = true)
    (hp : s.placesOk l l.batch places = true) : exec (.streamAdmit lid places) s = .next (s.admitAll lid places) := by
  show execStreamAdmit lid places s = _
  simp [execStreamAdmit, hl, hm, hs, hp]

end Sys2Proof.Machine

/-!
SUPPORT. What the completion of a launch does: the release of a quiet die, the store of DONE and its Send.
-/
namespace Sys2Proof.Machine
open Sys2Proof

/-! ## The release of a quiet die -/

theorem State.flushTables_quiet {s : State} {die : Nat} (h : s.quietDie die) : s.flushTables die = s := by
  obtain ⟨_, _, _, ht⟩ := h
  have hf : (s.tableStores.zipIdx.filter fun p => p.1.die = die && p.1.left != []) = [] := by
    simp only [List.filter_eq_nil_iff, Bool.and_eq_true, decide_eq_true_eq, bne_iff_ne, ne_eq, not_and,
      Classical.not_not]
    exact fun p hp => ht p.1 (List.fst_mem_of_mem_zipIdx hp)
  simp only [State.flushTables, hf, List.map_nil, List.getLast?_nil, Option.getD_none, List.take_zero, List.foldl_nil,
    List.drop_zero, List.nil_append]

theorem State.sendAll_quiet {s : State} {die : Nat} (h : s.quietDie die) : s.sendAll die = s := by
  rw [State.sendAll, h.1, List.foldl_nil]

theorem State.drainHomes_quiet {s : State} {die : Nat} (h : s.quietDie die) (n : Nat) : s.drainHomes die n = s := by
  obtain ⟨_, hsent, hqueue, _⟩ := h
  cases n with
  | zero => rfl
  | succ n =>
    have hnone : (s.dies.find? fun d => d.2.queue.any fun e => e.src = die) = none := by
      simp only [List.find?_eq_none, List.any_eq_true, decide_eq_true_eq, not_exists, not_and]
      exact hqueue
    simp only [State.drainHomes, hsent, hnone]

/-- A release of a die that has nothing under way changes nothing. -/
theorem State.engineRelease_quiet {s : State} {die : Nat} (h : s.quietDie die) : s.engineRelease die = s := by
  simp only [State.engineRelease, State.flushTables_quiet h, State.sendAll_quiet h, State.drainHomes_quiet h]

/-- A launch's dies release nothing where each is lost or quiet (R358). -/
theorem State.releases_quiet {s : State} {ds : List Nat} (h : ∀ d ∈ ds, (s.die d).lost = true ∨ s.quietDie d) :
    ds.foldl (fun s d => if (s.die d).lost then s else s.engineRelease d) s = s := by
  induction ds with
  | nil => rfl
  | cons d ds ih =>
    have hd : (if (s.die d).lost then s else s.engineRelease d) = s := by
      split
      · rfl
      · next hl => exact State.engineRelease_quiet ((h d List.mem_cons_self).resolve_left hl)
    rw [List.foldl_cons, hd]
    exact ih fun e he => h e (List.mem_cons_of_mem _ he)

/-! ## A store into a die's working copy -/

/-- `T` is `s` but for what its dies hold and the numbers that are given next. -/
def State.DiesMoved (s T : State) : Prop := T = { s with dies := T.dies, next := T.next }

theorem State.DiesMoved.refl (s : State) : s.DiesMoved s := rfl

theorem State.DiesMoved.trans {a b c : State} (h : a.DiesMoved b) (k : b.DiesMoved c) : a.DiesMoved c := by
  unfold State.DiesMoved at *
  rw [k, h]

theorem State.modDie_moved (s : State) (die : Nat) (f : Die → Die) : s.DiesMoved (s.modDie die f) := rfl
theorem State.noteFill_moved (s : State) (die : Nat) : s.DiesMoved (s.noteFill die) := rfl
theorem State.next_moved (s : State) (n : Counters) : s.DiesMoved { s with next := n } := rfl
theorem State.sendEntry_moved (s : State) (die home polder : Nat) (k : ApplyKind) : s.DiesMoved (s.sendEntry die home polder k) := rfl

theorem State.sendBlock_moved (s : State) (die key : Nat) : s.DiesMoved (s.sendBlock die key) := by
  unfold State.sendBlock
  split
  · exact .refl s
  · split
    · exact .refl s
    · have hm := (s.modDie_moved die fun d => d.modBlock key fun b => { b with twin := none }).trans (State.noteFill_moved _ die)
      dsimp only
      split
      · exact hm
      · exact hm.trans (State.sendEntry_moved _ _ _ _ _)

theorem State.fetchBlock_moved (s : State) (die key : Nat) : s.DiesMoved (s.fetchBlock die key) := by
  unfold State.fetchBlock
  split
  · exact .refl s
  · exact s.modDie_moved die _

theorem State.makeRoom_moved (s : State) (die key : Nat) : s.DiesMoved (s.makeRoom die key) := by
  unfold State.makeRoom
  split
  · split
    · exact s.sendBlock_moved _ _
    · exact .refl s
  · exact .refl s

theorem State.storeWorking_moved (s : State) (die key : Nat) (w : Writer) (bs : List Byte) :
    s.DiesMoved (s.storeWorking die key w bs) :=
  have hroom := (s.makeRoom_moved die (blockOf key)).trans (State.fetchBlock_moved _ die (blockOf key))
  ((hroom.trans (State.modDie_moved _ die _)).trans (State.next_moved _ _)).trans (State.noteFill_moved _ die)

/-- A change of the spillway's state leaves the working store alone. -/
theorem State.noteFill_work (s : State) (die : Nat) : ((s.noteFill die).die die).work = (s.die die).work := by
  simp [State.noteFill]

theorem State.sendEntry_work (s : State) (die home polder : Nat) (k : ApplyKind) :
    ((s.sendEntry die home polder k).die die).work = (s.die die).work := by
  change ((s.modDie die fun d => _).die die).work = _
  rw [State.die_modDie_same]

theorem Die.block_congr {d e : Die} (h : d.work = e.work) (key : Nat) : d.block key = e.block key := by
  rw [Die.block, Die.block, h]

theorem Die.block_modBlock (d : Die) (key : Nat) {f : Block → Block} (hf : ∀ b, (f b).key = b.key) :
    (d.modBlock key f).block key = (d.block key).map f :=
  find?_mapIf (fun b => by rw [hf]) d.work

/-- After a fetch the die holds the block (R197). -/
theorem State.fetchBlock_block (s : State) (die key : Nat) : ∃ b, ((s.fetchBlock die key).die die).block key = some b := by
  unfold State.fetchBlock
  split
  · next b hb => exact ⟨b, hb⟩
  · rw [State.die_modDie_same, ← Option.isSome_iff_exists, Die.block, List.find?_isSome]
    exact ⟨_, (mem_insertBy _ _ _ _).mpr (.inl rfl), decide_eq_true rfl⟩

/-- A store leaves its block in the working store, twinned, with the bytes written (R188). -/
theorem State.storeWorking_block (s : State) (die key : Nat) (w : Writer) (bs : List Byte) :
    ∃ b, ((s.storeWorking die key w bs).die die).block (blockOf key) = some b ∧ b.twin.isSome = true ∧
      ∃ m : Memory, b.bytes = m.writeN (key - blockOf key) bs := by
  obtain ⟨b, hb⟩ := (s.makeRoom die (blockOf key)).fetchBlock_block die (blockOf key)
  have hblock : ∀ f : Block → Block, (∀ b, (f b).key = b.key) →
      ((((s.makeRoom die (blockOf key)).fetchBlock die (blockOf key)).modDie die fun d => d.modBlock (blockOf key) f).die die).block
        (blockOf key) = some (f b) := fun f hf => by
    rw [State.die_modDie_same, Die.block_modBlock _ _ hf, hb, Option.map_some]
  refine ⟨_, (Die.block_congr (State.noteFill_work _ die) _).trans (hblock _ fun b => by split <;> rfl), ?_, ?_⟩
  · split
    · next h => exact h ▸ rfl
    · rfl
  · exact ⟨_, rfl⟩

/-- A block that was sent has the bytes it had and no twin (R189). -/
theorem State.sendBlock_block {s : State} {die key : Nat} {b : Block} (hb : (s.die die).block key = some b) :
    ((s.sendBlock die key).die die).block key = some { b with twin := none } := by
  unfold State.sendBlock
  rw [hb]
  dsimp only
  split
  · next ht => rw [hb, ← ht]
  · have hn : (((s.modDie die fun d => d.modBlock key fun b => { b with twin := none }).noteFill die).die die).block key =
        some { b with twin := none } := by
      rw [Die.block_congr (State.noteFill_work _ die), State.die_modDie_same,
        Die.block_modBlock _ _ (f := fun b => { b with twin := none }) fun _ => rfl, hb, Option.map_some]
    split
    · exact hn
    · exact (Die.block_congr (State.sendEntry_work _ die _ _ _) key).trans hn

/-- The bytes of a number, lowest first. -/
theorem bytesOfNat_getElem (v n k : Nat) (hk : k < (bytesOfNat v n).length) : (bytesOfNat v n)[k] = byteAt v k := by
  induction n generalizing v k with
  | zero => simp [bytesOfNat] at hk
  | succ n ih =>
    cases k with
    | zero => simp [bytesOfNat, byteAt]
    | succ k =>
      simp only [bytesOfNat, List.getElem_cons_succ, ih, byteAt, Nat.div_div_eq_div_mul]
      rw [show 2 ^ (8 * (k + 1)) = 256 * 2 ^ (8 * k) by rw [Nat.mul_succ, Nat.pow_add]; omega]

/-- What an aligned word's store and Send leave: its bytes as the die reads them, and a block without a twin (R358). -/
theorem State.storeSend_word (s : State) (die key v : Nat) (w : Writer) (hk : key % 4 = 0) :
    let T := (s.storeWorking die key w (bytesOfNat v 4)).sendBlock die (blockOf key)
    (∀ k, k < 4 → T.dieByte die (key + k) = byteAt v k) ∧ ∀ b, (T.die die).block (blockOf key) = some b → b.twin = none := by
  obtain ⟨b, hb, _, m, hm⟩ := s.storeWorking_block die key w (bytesOfNat v 4)
  have hT := State.sendBlock_block hb
  intro T
  refine ⟨fun k hk4 => ?_, fun c hc => ?_⟩
  · have hblk : blockOf (key + k) = blockOf key := by unfold blockOf; omega
    have hat : key + k - blockOf key = key - blockOf key + k := by unfold blockOf; omega
    have hlen : k < (bytesOfNat v 4).length := by rw [bytesOfNat_length]; exact hk4
    simp only [State.dieByte, hblk, T, hT, hm, hat, Memory.read_writeN_inside _ _ _ _ hlen, bytesOfNat_getElem]
  · obtain rfl := Option.some.inj (hT.symm.trans hc)
    rfl

/-! ## Launches completed -/

/-- A DONE word of release class that the die reaches is stored and sent (R358). -/
theorem State.writeDone'_stores {s : State} {l : Launch} {x : Loc}
    (hx : s.locate ⟨l.store, l.ctx, l.polder, true⟩ .write false l.header.done = .ok x) (htok : x.token = false)
    (htab : x.table = false) (hr : s.reaches l.store x = true) :
    s.writeDone' l = ((s.touch l.ctx x.home).storeWorking l.store x.key ⟨l.ctx, l.polder, false⟩
      (bytesOfNat l.header.doneVal.toNat 4)).sendBlock l.store (blockOf x.key) := by
  have hp : s.linePoisoned x false = false := by simp [State.linePoisoned, htok]
  have hlost : s.accessLost ⟨l.store, l.ctx, l.polder, true⟩ .write x = false := by
    simp [State.accessLost, htok, hr]
  simp only [State.writeDone', hx, hp, hlost, Bool.false_eq_true, if_false, State.writeLoc, State.writeLocFor, htok, htab,
    Bool.or_self]

section
variable {s : State} {lid : Nat} {l : Launch} (hl : (s.launches.find? fun l => l.lid = lid) = some l)
  (hdone : s.launchDone l = true) (hnode : l.node = none) (hlive : (s.die l.store).lost = false)
  (hquiet : ∀ d ∈ l.dies, (s.die d).lost = true ∨ s.quietDie d)
include hl hdone hnode hlive hquiet

theorem exec_launchComplete_quiet :
    let s1 := if l.header.done = 0 then s else s.writeDone' l
    exec (.launchComplete lid) s = .next { s1 with launches := s1.launches.filter fun x => x.lid != lid } := by
  show execLaunchComplete lid s = _
  simp only [execLaunchComplete, hl, hdone, hlive, Bool.not_true, Bool.or_self, Bool.false_eq_true, if_false,
    State.releases_quiet hquiet, hnode, beq_iff_eq]

/-- With DONE at a word of release class, the completed launch has stored DONEVAL there and sent the block (R358). -/
theorem exec_launchComplete_done {x : Loc} (hd : l.header.done ≠ 0)
    (hx : s.locate ⟨l.store, l.ctx, l.polder, true⟩ .write false l.header.done = .ok x) (htok : x.token = false)
    (htab : x.table = false) (hk : x.key % 4 = 0) (hr : s.reaches l.store x = true) :
    ∃ T, exec (.launchComplete lid) s = .next T ∧ T.launches = s.launches.filter (fun x => x.lid != lid) ∧
      T.groups = s.groups ∧ MemoryKept s T ∧
      (∀ k, k < 4 → T.dieByte l.store (x.key + k) = byteAt l.header.doneVal.toNat k) ∧
      ∀ b, (T.die l.store).block (blockOf x.key) = some b → b.twin = none := by
  have hexec := exec_launchComplete_quiet hl hdone hnode hlive hquiet
  rw [if_neg hd, State.writeDone'_stores hx htok htab hr] at hexec
  have hm := ((s.touch l.ctx x.home).storeWorking_moved l.store x.key ⟨l.ctx, l.polder, false⟩
    (bytesOfNat l.header.doneVal.toNat 4)).trans (State.sendBlock_moved _ l.store (blockOf x.key))
  obtain ⟨hbytes, htwin⟩ := (s.touch l.ctx x.home).storeSend_word l.store x.key l.header.doneVal.toNat ⟨l.ctx, l.polder, false⟩ hk
  generalize ((s.touch l.ctx x.home).storeWorking l.store x.key ⟨l.ctx, l.polder, false⟩
    (bytesOfNat l.header.doneVal.toNat 4)).sendBlock l.store (blockOf x.key) = s1 at hexec hm hbytes htwin
  have hlaunches : s1.launches = s.launches := by rw [hm]; exact s.touch_launches l.ctx x.home
  have hgroups : s1.groups = s.groups := by rw [hm]; exact s.touch_groups l.ctx x.home
  have hmem : s1.mem = (s.touch l.ctx x.home).mem := by rw [hm]
  have hkept : MemoryKept s s1 := fun a ha => (congrArg (Memory.read · a) hmem).trans (s.touch_memory l.ctx x.home a ha)
  exact ⟨_, hexec, congrArg _ hlaunches, hgroups, hkept, hbytes, htwin⟩

end

end Sys2Proof.Machine

/-!
PROOF. The steps of the scheduler, assembled from the laws of their operations.
-/
namespace Sys2Proof.Machine
open Sys2Proof

/-! ## The scheduler's steps -/

/-- Settles O44: each step of the arbiter, the bins, the slots, the quanta and slices and the launches is read off the law of its
operation above. -/
theorem schedulerSteps : Obligations.SchedulerSteps := by
  unfold Obligations.SchedulerSteps
  refine ⟨⟨?strokes, State.mem_voters, ?slots, ?replay, ?bins, ?spent⟩,
    ⟨fun s die core h => exec_quantumEnd_due h, ?slices, fun s die core q fuel k h => State.rotate_noneWaiting h q fuel k, ?pass, ?joins,
      fun s gid k held g since hg hr => State.leaveCore_leaves hg hr k held, ?timer,
      fun s die core g h => State.quantumLength_of_first h, ?stops⟩, ?admission, ?begins, ?completes⟩
  case strokes =>
    intro s die core slot hslot hfree hlive hboot hr
    rw [exec_strokeStart_ordinary hslot hfree hlive hboot hr]
    refine ⟨fun hn => congrArg _ (State.startStroke_none hn slot), fun g w hw => ⟨?_, ?_, ?_⟩⟩
    · exact fun ho => congrArg _ (State.startStroke_otherTaken hw ho)
    · exact fun ho hh => congrArg _ (State.startStroke_secondSet hw ho hh)
    · intro ho hh
      obtain ⟨hnone, hnext⟩ := State.startStroke_nextWarp hw ho hh
      exact ⟨fun hn => congrArg _ (hnone hn), fun h x hx => congrArg _ (hnext h x hx)⟩
  case slots =>
    intro s die core slot gid wid lanes g hg
    obtain ⟨y, hy, hwarps, hthreads⟩ := State.giveSlot_group hg die core slot wid lanes
    exact ⟨y, hy, s.giveSlot_group_other die core slot gid wid lanes, s.giveSlot_strokes die core slot gid wid lanes,
      s.giveSlot_next die core slot gid wid lanes, hwarps, hthreads, s.giveSlot_rest die core slot gid wid lanes⟩
  case replay =>
    intro s die core l g w ts b hfree hlive hboot hr hstop hbusy hslice hdue hn hts
    refine ⟨_, ⟨die, core, 0, g.gid, w.id, lowestLanes ts, 0, false⟩,
      exec_strokeStart_replay hfree hlive hboot hr hstop hbusy hslice hdue hn hts, ?_, rfl, rfl, rfl, rfl, rfl,
      mem_lowestLanes ts, fun x hx hlid => ?_⟩
    · rw [State.giveSlot_strokes]
      exact List.mem_append_right _ List.mem_cons_self
    · obtain ⟨y, _, _, rfl⟩ := of_mem_mapIf hx (decide_eq_true hlid)
      rfl
  case bins =>
    intro s gid key g b hg hb hr hage
    obtain ⟨y, w, hy, hwarps, hkind, hlanes, hbins⟩ := State.fireBin_group hg hb
    exact ⟨_, y, w, exec_binAgeFire_aged hg hb hr hage, hy, hwarps, hkind, hlanes, hbins, s.fireBin_mem gid key⟩
  case spent =>
    intro s gid g hg hs
    exact ⟨_, exec_slotFree_spent hg hs, tfind_tdel_same _ _, s.freed_group_other gid g, fun e he => State.freed_names he,
      s.freed_freed gid g, s.freed_mem gid g⟩
  case slices =>
    intro s die core l hl
    exact ⟨s.sliceDue_iff l die core, exec_replaySlice_due hl, exec_replaySlice_notDue hl⟩
  case pass =>
    intro s die core q fuel k w hw
    refine ⟨fun hf => State.rotate_fits hw hf q fuel k, fun hf => ⟨fun hn => ?_, fun v hv hfirst => ?_⟩⟩
    · exact State.rotate_noVictim hw hf hn fuel k
    · exact State.rotate_victim hw hf hv hfirst fuel k
  case joins =>
    intro s gid k g hg
    refine ⟨_, State.joinCore_group hg k, rfl, rfl, State.joinCore_freeBlocks hg k, rfl, rfl, rfl, rfl, fun b hb => ?_,
      s.joinCore_group_other gid k, State.joinCore_memory hg k⟩
    obtain ⟨a, ha, rfl⟩ := List.mem_map.mp hb
    exact ⟨a, ha, rfl, rfl⟩
  case timer =>
    intro s die core
    exact ⟨congrArg Core.quantum (s.settleTimer_core die core), s.settleTimer_rest die core⟩
  case stops =>
    intro s lid l die core hl hc hd
    have hrest := State.leaveSaved_rest
      { s with launches := mapIf (fun x => x.lid = lid) (Launch.stop s lid) s.launches } lid s.saves
    refine ⟨_, exec_replayStop_due hl hc hd, by rw [hrest], fun x hx hlid => ?_⟩
    rw [hrest] at hx
    obtain ⟨y, _, _, rfl⟩ := of_mem_mapIf hx (decide_eq_true hlid)
    exact ⟨rfl, rfl, rfl, rfl⟩
  case admission =>
    intro s lid l places hl hm hne
    obtain ⟨hgroups, hothers, hlaunches⟩ := State.admitAll_spec hl places hne
    have hsingle : ∀ p, places = [p] → l.header.isGang = false → _ :=
      fun p hp hgang => hp ▸ State.admitAll_single hl p hgang
    exact ⟨fun hs hp => ⟨_, exec_launchStart_admits hl hm hs hp, hgroups, hothers, hlaunches, hsingle⟩,
      fun hs hp => ⟨_, exec_streamAdmit_admits hl hm hs hp, hgroups, hothers, hlaunches, hsingle⟩⟩
  case begins =>
    intro s l p
    obtain ⟨y, hy, ha⟩ := s.admitGroup_group l p
    exact ⟨y, hy, ha.place, ha.lid, ha.ordinal, ha.nthr, ha.budget, ha.scratch, ha.scratchSize, fun t ht => ha.thread ht⟩
  case completes =>
    intro s lid l hl hdone hnode hlive hquiet
    refine ⟨fun hd => ?_, fun x hd hx htok htab hk hr =>
      exec_launchComplete_done hl hdone hnode hlive hquiet hd hx htok htab hk hr⟩
    rw [exec_launchComplete_quiet hl hdone hnode hlive hquiet, if_pos hd]

end Sys2Proof.Machine
